-- ==== Sys2Proof/Word.lean ====
section
/-! DEFINITION. The byte of the station line, and the fixed-number containers of the controller. -/

namespace Sys2Proof

/-- The eight data bits of a frame of the station line (spec/11, R158). -/
abbrev Byte := BitVec 8

/-- The four transports T0 to T3 (spec/00 "Conventions"). -/
inductive TNum where
  | t0 | t1 | t2 | t3
deriving DecidableEq, Repr

/-- One value for each of the four transports. -/
structure Quad (α : Type) where
  t0 : α
  t1 : α
  t2 : α
  t3 : α
deriving DecidableEq, Repr

/-- The value a transport has. -/
def Quad.get {α : Type} (q : Quad α) : TNum → α
  | .t0 => q.t0
  | .t1 => q.t1
  | .t2 => q.t2
  | .t3 => q.t3

/-- The same four values but for the one named. -/
def Quad.set {α : Type} (q : Quad α) (t : TNum) (a : α) : Quad α :=
  match t with
  | .t0 => { q with t0 := a }
  | .t1 => { q with t1 := a }
  | .t2 => { q with t2 := a }
  | .t3 => { q with t3 := a }

/-- The value of every transport changed by one function. -/
def Quad.map {α β : Type} (f : α → β) (q : Quad α) : Quad β :=
  { t0 := f q.t0, t1 := f q.t1, t2 := f q.t2, t3 := f q.t3 }

/-- The four values in the order T0 to T3. -/
def Quad.toList {α : Type} (q : Quad α) : List α := [q.t0, q.t1, q.t2, q.t3]

/-- The transports in order. -/
def TNum.all : List TNum := [.t0, .t1, .t2, .t3]

/-- The number of a transport, 0 to 3. -/
def TNum.toNat : TNum → Nat
  | .t0 => 0
  | .t1 => 1
  | .t2 => 2
  | .t3 => 3

end Sys2Proof
end

