-- ==== Sys2Proof/Config.lean ====
section
/-! DEFINITION. The fixed distances, times and sizes of the controller (spec/00 "Fixed distances and times"),
the ends of the position counter, and the sizes of its tables. Distances are in pu, times in µs. The one free
value is what is sent for a position that three bytes cannot hold (log entry 39). -/

namespace Sys2Proof.Config

/-- The low end of the position counter (R1). -/
def posMin : Int := -32768
/-- The high end of the position counter (R1), and the longest length of a volume (R23). -/
def posMax : Int := 8388607
def approachDistance : Int := 1500
def seekThreshold : Int := 20000
/-- How far ahead the slow-down point of a forward leg must lie for SEEK speed (R90). -/
def seekMinRun : Int := 18500
def blankTapeLimit : Nat := 60000
def haltGapSearch : Nat := 10000
def eotRunout : Int := 30000
def loadPointSearch : Nat := 50000
/-- Where a rewind leaves REWIND speed (R116). -/
def rewindSlowDown : Int := 30000
/-- The stop target of a rewind's FAST phase (R116). -/
def rewindApproach : Int := 1500
/-- The current-limit hold-off, 20 µs (R139). -/
def holdOff : Nat := 20
/-- The largest lead and lag (R63). -/
def maxWindow : Nat := 1023
/-- The records of the mark pool (R40). -/
def poolSize : Nat := 512
/-- The largest mark number (R41). -/
def maxMarkNumber : Nat := 4095
/-- The order slots of a transport (R83). -/
def slotCount : Nat := 8
/-- The full revolutions of the take-up reel that end THREAD (R112). -/
def threadRevolutions : Nat := 3
/-- The records a list response holds at most (R39, R58, R60, R61, R82, R107). -/
def listMax : Nat := 4
/-- limit_long at power-on, used for the starting state (R110, R132). -/
def powerOnLimitLong : Nat := 244
/-- The largest eviction count (R174). -/
def maxEvictions : Nat := 255

/-- What is sent for a position outside what three bytes hold: a free value for each such position, since the manual
states none (log entry 39). -/
opaque widePosition : Int → BitVec 24

end Sys2Proof.Config
end

