-- ==== Sys2Proof/Syntax.lean ====
section
/-! DEFINITION. The commands of the controller: one constructor of `Instr` for each row of spec/opcode_table.json,
and the requests of the station line as values (spec/11 R178), which are also what the request buffer holds. -/

namespace Sys2Proof

/-- Forward moves tape from the supply reel to the take-up reel, and positions grow (spec/00 "Terms"). -/
inductive Dir where
  | forward | reverse
deriving DecidableEq, Repr

/-- The two reels of a transport, each with its column (spec/00 "Conventions"). -/
inductive Reel where
  | supply | takeup
deriving DecidableEq, Repr

/-- The two marker sensors (R3). -/
inductive Marker where
  | loadPoint | eot
deriving DecidableEq, Repr

/-- The level of the gap line, raw or filtered (R6). -/
inductive GapLevel where
  | gap | block
deriving DecidableEq, Repr

/-- The debounced switches of a transport (R148; the reel-present switch by R111 and R128, log entry 19). A level
is a Bool in the sense of READ TRANSPORT (R179): vacuum present, door open, reel present. -/
inductive Switch where
  | vacuum | door | reelPresent
deriving DecidableEq, Repr

/-- The kind of selection of the receiver, and of a request taken from the buffer (R159, R162). -/
inductive SelKind where
  | addressed | broadcast
deriving DecidableEq, Repr

/-- The six bytes of a serial, from left to right (R176). -/
structure Serial where
  c0 : Byte
  c1 : Byte
  c2 : Byte
  c3 : Byte
  c4 : Byte
  c5 : Byte
deriving DecidableEq, Repr

/-- A notice selection: one byte for each transport and one for the controller (R176). -/
structure NoticeSel where
  x : Quad Byte
  controller : Byte
deriving DecidableEq, Repr

/-- What the wiring of one transport shows when power comes up (R110, R21, R144): the raw gap line, the three
switches, and the two depths of the power-on pass (R130). -/
structure XPins where
  rawGap : GapLevel
  vacuumPresent : Bool
  doorOpen : Bool
  reelPresent : Bool
  supplyDepth : Byte
  takeupDepth : Byte
deriving DecidableEq, Repr

/-- What the controller reads at power-on: the station number and line rate switches (R158) and the four
transports' wiring. -/
structure PowerPins where
  station : BitVec 4
  rate : BitVec 2
  x : Quad XPins
deriving DecidableEq, Repr

/-- The requests of the catalogue (R178), each with the values of its body as the bytes carry them. A transport is
a byte here, since a number outside 0 to 3 is refused at execution (R163). -/
inductive Request where
  /-- R165 -/
  | poll
  /-- R166 -/
  | readLineStatus
  /-- R170 -/
  | setNoticeMasks (sel : NoticeSel)
  /-- R172 -/
  | readNotices
  /-- R173 -/
  | ackNotices (sel : NoticeSel)
  /-- R174 -/
  | readEviction
  /-- R168 -/
  | allStop
  /-- R167 -/
  | resetStation
  /-- R19 -/
  | readPosition (t : Byte)
  /-- R20 -/
  | setDefaultClass (t cls : Byte)
  /-- R28 -/
  | bindVolume (t : Byte) (serial : Serial) (generation : BitVec 16) (cls : Byte) (length : BitVec 24)
  /-- R35 -/
  | unbindVolume (t : Byte)
  /-- R37 -/
  | retireVolume (serial : Serial)
  /-- R38 -/
  | readVolume (form index : Byte) (serial : Serial)
  /-- R39 -/
  | listVolumes (start : Byte)
  /-- R47 -/
  | setMark (t : Byte) (number : BitVec 16) (attributes form : Byte) (position : BitVec 24) (tag : BitVec 32)
  /-- R52 -/
  | changeMark (t : Byte) (number : BitVec 16) (selector attributes : Byte) (position : BitVec 24) (tag : BitVec 32)
  /-- R55 -/
  | retireMark (t : Byte) (number : BitVec 16)
  /-- R57 -/
  | findMark (t : Byte) (number : BitVec 16)
  /-- R58 -/
  | findByTag (t : Byte) (tag : BitVec 32) (start : BitVec 16)
  /-- R59 -/
  | findNearest (t : Byte) (position : BitVec 24) (side : Byte)
  /-- R60 -/
  | listMarks (t : Byte) (start : BitVec 16)
  /-- R61 -/
  | readPassed (t : Byte)
  /-- R81 -/
  | setCaptureParameters (t : Byte) (lead lag : BitVec 16) (filter : Byte)
  /-- R82 -/
  | readCapture (t : Byte)
  /-- R86 -/
  | queueOrder (t tag kind : Byte) (argument : BitVec 24)
  /-- R101 -/
  | halt (t : Byte)
  /-- R103 -/
  | cancelPending (t : Byte)
  /-- R107 -/
  | readCompletions (t : Byte)
  /-- R108 -/
  | setSlotThreshold (t threshold : Byte)
  /-- R128 -/
  | readTransport (t : Byte)
  /-- R121 -/
  | releaseTransport (t : Byte)
  /-- R125 -/
  | resetTransport (t : Byte)
  /-- R133 -/
  | setLoopParameters (t limitShort bandLow bandHigh limitLong gain persistence : Byte)
  /-- R141 -/
  | setDriveParameters (t supplyLevel takeupLevel resume stallTime : Byte)
  /-- R143 -/
  | readLoops (t : Byte)
  /-- R152 -/
  | clearHold (t : Byte)
  /-- R157 -/
  | readHoldRecord (t : Byte)
deriving DecidableEq, Repr

/-- What a checked message asks for: a request of the catalogue, or a message that will be refused when it is
executed, for its CODE or for the length of its body (R162, R163, R178). -/
inductive Message where
  | known (r : Request)
  | unknown (code : Byte) (body : List Byte)
  | badLength (code : Byte) (body : List Byte)
deriving DecidableEq, Repr

/-- The commands: one constructor for each row of spec/opcode_table.json. A request row is the checked message of
that request reaching the request buffer (R162, R163, log entry 3); ALL STOP and RESET STATION carry the kind of
selection they came with, every other request comes ADDRESSED. -/
inductive Instr where
  /-- POWER_ON: the supply comes up with these pins (R110, R21, R142, R144). -/
  | powerOn (pins : PowerPins)
  /-- ADDRESS_FRAME: an address frame without errors (R159). -/
  | addressFrame (data : Byte)
  /-- DATA_FRAME: a data frame without errors (R160). -/
  | dataFrame (data : Byte)
  /-- FRAME_ERROR: a frame with a parity error, a framing error, or both (R161). -/
  | frameError (parity framing : Bool)
  /-- FRAME_GAP_TIMEOUT: a frame gap of more than 3 ms (R159). -/
  | frameGapTimeout
  /-- TRANSMIT_END: the last frame the transmitter sends ends (R164). -/
  | transmitEnd
  /-- POLL (R165). -/
  | poll
  /-- READ_LINE_STATUS (R166). -/
  | readLineStatus
  /-- SET_NOTICE_MASKS (R170). -/
  | setNoticeMasks (sel : NoticeSel)
  /-- READ_NOTICES (R172). -/
  | readNotices
  /-- ACK_NOTICES (R173). -/
  | ackNotices (sel : NoticeSel)
  /-- READ_EVICTION (R174). -/
  | readEviction
  /-- ALL_STOP (R168). -/
  | allStop (kind : SelKind)
  /-- RESET_STATION (R167). -/
  | resetStation (kind : SelKind)
  /-- READ_POSITION (R19). -/
  | readPosition (t : Byte)
  /-- SET_DEFAULT_CLASS (R20). -/
  | setDefaultClass (t cls : Byte)
  /-- BIND_VOLUME (R28). -/
  | bindVolume (t : Byte) (serial : Serial) (generation : BitVec 16) (cls : Byte) (length : BitVec 24)
  /-- UNBIND_VOLUME (R35). -/
  | unbindVolume (t : Byte)
  /-- RETIRE_VOLUME (R37). -/
  | retireVolume (serial : Serial)
  /-- READ_VOLUME (R38). -/
  | readVolume (form index : Byte) (serial : Serial)
  /-- LIST_VOLUMES (R39). -/
  | listVolumes (start : Byte)
  /-- SET_MARK (R47). -/
  | setMark (t : Byte) (number : BitVec 16) (attributes form : Byte) (position : BitVec 24) (tag : BitVec 32)
  /-- CHANGE_MARK (R52). -/
  | changeMark (t : Byte) (number : BitVec 16) (selector attributes : Byte) (position : BitVec 24) (tag : BitVec 32)
  /-- RETIRE_MARK (R55). -/
  | retireMark (t : Byte) (number : BitVec 16)
  /-- FIND_MARK (R57). -/
  | findMark (t : Byte) (number : BitVec 16)
  /-- FIND_BY_TAG (R58). -/
  | findByTag (t : Byte) (tag : BitVec 32) (start : BitVec 16)
  /-- FIND_NEAREST (R59). -/
  | findNearest (t : Byte) (position : BitVec 24) (side : Byte)
  /-- LIST_MARKS (R60). -/
  | listMarks (t : Byte) (start : BitVec 16)
  /-- READ_PASSED (R61). -/
  | readPassed (t : Byte)
  /-- SET_CAPTURE_PARAMETERS (R81). -/
  | setCaptureParameters (t : Byte) (lead lag : BitVec 16) (filter : Byte)
  /-- READ_CAPTURE (R82). -/
  | readCapture (t : Byte)
  /-- QUEUE_ORDER (R86). -/
  | queueOrder (t tag kind : Byte) (argument : BitVec 24)
  /-- HALT (R101). -/
  | halt (t : Byte)
  /-- CANCEL_PENDING (R103). -/
  | cancelPending (t : Byte)
  /-- READ_COMPLETIONS (R107). -/
  | readCompletions (t : Byte)
  /-- SET_SLOT_THRESHOLD (R108). -/
  | setSlotThreshold (t threshold : Byte)
  /-- READ_TRANSPORT (R128). -/
  | readTransport (t : Byte)
  /-- RELEASE_TRANSPORT (R121). -/
  | releaseTransport (t : Byte)
  /-- RESET_TRANSPORT (R125). -/
  | resetTransport (t : Byte)
  /-- SET_LOOP_PARAMETERS (R133). -/
  | setLoopParameters (t limitShort bandLow bandHigh limitLong gain persistence : Byte)
  /-- SET_DRIVE_PARAMETERS (R141). -/
  | setDriveParameters (t supplyLevel takeupLevel resume stallTime : Byte)
  /-- READ_LOOPS (R143). -/
  | readLoops (t : Byte)
  /-- CLEAR_HOLD (R152). -/
  | clearHold (t : Byte)
  /-- READ_HOLD_RECORD (R157). -/
  | readHoldRecord (t : Byte)
  /-- CAPSTAN_TACH_COUNT: one tachometer count with its direction (R1). -/
  | capstanTachCount (t : TNum) (dir : Dir)
  /-- CAPSTAN_TACH_LOSS: 10 ms without a count while driven (R15). -/
  | capstanTachLoss (t : TNum)
  /-- COAST_END: 10 ms without a count while COASTING (R16). -/
  | coastEnd (t : TNum)
  /-- MARKER_EDGE: a marker sensor goes from present to absent (R3). -/
  | markerEdge (t : TNum) (marker : Marker)
  /-- RAW_GAP_LINE_CHANGE: the raw gap line takes this level (R6). -/
  | rawGapLineChange (t : TNum) (level : GapLevel)
  /-- GAP_FILTER_EXPIRY: the filter time runs out (R6). -/
  | gapFilterExpiry (t : TNum)
  /-- CAPSTAN_RAMP_END: the ramp in progress reaches its ending speed (R11, R12). -/
  | capstanRampEnd (t : TNum)
  /-- BLANK_TAPE_LIMIT: a SPACE order's blank distance reaches the limit (R92). -/
  | blankTapeLimit (t : TNum)
  /-- HALT_GAP_SEARCH_END: the halt gap search runs out (R101). -/
  | haltGapSearchEnd (t : TNum)
  /-- LOAD_PRESS: the LOAD button (R111). -/
  | loadPress (t : TNum)
  /-- REWIND_PRESS: the REWIND button (R120). -/
  | rewindPress (t : TNum)
  /-- UNLOAD_PRESS: the UNLOAD button (R120). -/
  | unloadPress (t : TNum)
  /-- ONLINE_PRESS: the ONLINE button (R121). -/
  | onlinePress (t : TNum)
  /-- RESET_PRESS: the RESET button (R125). -/
  | resetPress (t : TNum)
  /-- TAKEUP_REEL_REVOLUTION: the take-up reel tachometer has shown one more full revolution (R112). -/
  | takeupReelRevolution (t : TNum)
  /-- THREAD_TIMEOUT: the thread timer of 8 s runs out (R112). -/
  | threadTimeout (t : TNum)
  /-- FILL_TIMEOUT: the fill timer of 3 s runs out (R113). -/
  | fillTimeout (t : TNum)
  /-- LOAD_POINT_SEARCH_END: the load-point search runs out (R113). -/
  | loadPointSearchEnd (t : TNum)
  /-- RELEASE_QUIET_TIMEOUT: the take-up reel shows no pulse for 1 s in RELEASE (R119). -/
  | releaseQuietTimeout (t : TNum)
  /-- LAMP_FLASH_TOGGLE: the flashing lamps are lit or unlit (R122). -/
  | lampFlashToggle (t : TNum)
  /-- CONVERSION_END: the conversion in progress ends with this depth (R129). -/
  | conversionEnd (depth : Byte)
  /-- OVER_CURRENT_EVENT: the reel motor's current rises to this value (R139). -/
  | overCurrentEvent (t : TNum) (reel : Reel) (current : Byte)
  /-- REEL_DRIVE_PERIOD_START: an output period begins, the motor current being this value (R139). -/
  | reelDrivePeriodStart (t : TNum) (reel : Reel) (current : Byte)
  /-- HOLD_OFF_EXPIRY: 20 µs after an over-current event, the motor current being this value (R139). -/
  | holdOffExpiry (t : TNum) (reel : Reel) (current : Byte)
  /-- STALL_TIME_REACHED: the stall timer reaches the stall time (R140). -/
  | stallTimeReached (t : TNum) (reel : Reel)
  /-- REEL_TACH_PULSE: a reel tachometer pulse (R140). -/
  | reelTachPulse (t : TNum) (reel : Reel)
  /-- SWITCH_RAW_CHANGE: a raw switch takes this level (R148). -/
  | switchRawChange (t : TNum) (switch : Switch) (shows : Bool)
  /-- SWITCH_DEBOUNCE_EXPIRY: a changed raw level has held for 20 ms (R148). -/
  | switchDebounceExpiry (t : TNum) (switch : Switch)
  /-- RECOVERY_TIMEOUT: the recovery timer of 3 s runs out (R154). -/
  | recoveryTimeout (t : TNum)
  /-- RECOVERY_STEADY: the steady measurement reaches 200 ms (R153). -/
  | recoverySteady (t : TNum)
deriving DecidableEq, Repr

end Sys2Proof
end

