-- ==== Sys2Proof/WellFormed.lean ====
section
/-! DEFINITION. Which commands are well-formed. The operands' types leave one check: a frame with an error has one
(R158). Every other operand value is one the hardware can be given, and the block itself judges it. -/

namespace Sys2Proof

/-- A command the outside can send. FRAME_ERROR needs a parity error or a framing error (R158, R161). -/
def Instr.wellFormed : Instr → Bool
  | .frameError parity framing => parity || framing
  | _ => true

end Sys2Proof
end

