-- ==== Sys2Proof/Decode.lean ====
section
/-! DEFINITION. No row of spec/opcode_table.json has bits, so no table word spells a command. What IS decoded in this
hardware is a message of the station line: `decodeMessage` reads a CODE and a body by the request catalogue (R178),
and `Request.code` with `Request.body` write them. -/

namespace Sys2Proof

/-- The command a table word spells: none, since no row of spec/opcode_table.json gives bits. -/
def decodeTableWord (_nbits _w : Nat) : Option Instr := none

/-- Two bytes, most significant first (R176). -/
def word16 (a b : Byte) : BitVec 16 := a ++ b

/-- Three bytes, most significant first (R176). -/
def word24 (a b c : Byte) : BitVec 24 := a ++ b ++ c

/-- Four bytes, most significant first (R176). -/
def word32 (a b c d : Byte) : BitVec 32 := a ++ b ++ c ++ d

/-- A sixteen-bit value as its bytes, most significant first (R176). -/
def bytes16 (v : BitVec 16) : List Byte := [v.extractLsb' 8 8, v.extractLsb' 0 8]

/-- A 24-bit value as its bytes, most significant first (R176). -/
def bytes24 (v : BitVec 24) : List Byte := [v.extractLsb' 16 8, v.extractLsb' 8 8, v.extractLsb' 0 8]

/-- A 32-bit value as its bytes, most significant first (R176). -/
def bytes32 (v : BitVec 32) : List Byte :=
  [v.extractLsb' 24 8, v.extractLsb' 16 8, v.extractLsb' 8 8, v.extractLsb' 0 8]

/-- The six bytes of a serial, from left to right (R176). -/
def Serial.bytes (s : Serial) : List Byte := [s.c0, s.c1, s.c2, s.c3, s.c4, s.c5]

/-- The five bytes of a notice selection (R176). -/
def NoticeSel.bytes (n : NoticeSel) : List Byte := [n.x.t0, n.x.t1, n.x.t2, n.x.t3, n.controller]

/-- What a CODE and a body ask for, by the request catalogue (R178): a CODE outside it is unknown, and a body of
another length than the CODE's is of bad length. -/
def decodeMessage (code : Byte) (body : List Byte) : Message :=
  match code.toNat with
  | 0x01 => match body with
    | [] => .known .poll
    | _ => .badLength code body
  | 0x02 => match body with
    | [] => .known .readLineStatus
    | _ => .badLength code body
  | 0x03 => match body with
    | [b0, b1, b2, b3, b4] => .known (.setNoticeMasks ⟨⟨b0, b1, b2, b3⟩, b4⟩)
    | _ => .badLength code body
  | 0x04 => match body with
    | [] => .known .readNotices
    | _ => .badLength code body
  | 0x05 => match body with
    | [b0, b1, b2, b3, b4] => .known (.ackNotices ⟨⟨b0, b1, b2, b3⟩, b4⟩)
    | _ => .badLength code body
  | 0x06 => match body with
    | [] => .known .readEviction
    | _ => .badLength code body
  | 0x0E => match body with
    | [] => .known .allStop
    | _ => .badLength code body
  | 0x0F => match body with
    | [] => .known .resetStation
    | _ => .badLength code body
  | 0x10 => match body with
    | [b0] => .known (.readPosition b0)
    | _ => .badLength code body
  | 0x11 => match body with
    | [b0, b1] => .known (.setDefaultClass b0 b1)
    | _ => .badLength code body
  | 0x20 => match body with
    | [b0, b1, b2, b3, b4, b5, b6, b7, b8, b9, b10, b11, b12] => .known (.bindVolume b0 ⟨b1, b2, b3, b4, b5, b6⟩ (word16 b7 b8) b9 (word24 b10 b11 b12))
    | _ => .badLength code body
  | 0x21 => match body with
    | [b0] => .known (.unbindVolume b0)
    | _ => .badLength code body
  | 0x22 => match body with
    | [b0, b1, b2, b3, b4, b5] => .known (.retireVolume ⟨b0, b1, b2, b3, b4, b5⟩)
    | _ => .badLength code body
  | 0x23 => match body with
    | [b0, b1, b2, b3, b4, b5, b6, b7] => .known (.readVolume b0 b1 ⟨b2, b3, b4, b5, b6, b7⟩)
    | _ => .badLength code body
  | 0x24 => match body with
    | [b0] => .known (.listVolumes b0)
    | _ => .badLength code body
  | 0x30 => match body with
    | [b0, b1, b2, b3, b4, b5, b6, b7, b8, b9, b10, b11] => .known (.setMark b0 (word16 b1 b2) b3 b4 (word24 b5 b6 b7) (word32 b8 b9 b10 b11))
    | _ => .badLength code body
  | 0x31 => match body with
    | [b0, b1, b2, b3, b4, b5, b6, b7, b8, b9, b10, b11] => .known (.changeMark b0 (word16 b1 b2) b3 b4 (word24 b5 b6 b7) (word32 b8 b9 b10 b11))
    | _ => .badLength code body
  | 0x32 => match body with
    | [b0, b1, b2] => .known (.retireMark b0 (word16 b1 b2))
    | _ => .badLength code body
  | 0x33 => match body with
    | [b0, b1, b2] => .known (.findMark b0 (word16 b1 b2))
    | _ => .badLength code body
  | 0x34 => match body with
    | [b0, b1, b2, b3, b4, b5, b6] => .known (.findByTag b0 (word32 b1 b2 b3 b4) (word16 b5 b6))
    | _ => .badLength code body
  | 0x35 => match body with
    | [b0, b1, b2, b3, b4] => .known (.findNearest b0 (word24 b1 b2 b3) b4)
    | _ => .badLength code body
  | 0x36 => match body with
    | [b0, b1, b2] => .known (.listMarks b0 (word16 b1 b2))
    | _ => .badLength code body
  | 0x37 => match body with
    | [b0] => .known (.readPassed b0)
    | _ => .badLength code body
  | 0x38 => match body with
    | [b0, b1, b2, b3, b4, b5] => .known (.setCaptureParameters b0 (word16 b1 b2) (word16 b3 b4) b5)
    | _ => .badLength code body
  | 0x39 => match body with
    | [b0] => .known (.readCapture b0)
    | _ => .badLength code body
  | 0x40 => match body with
    | [b0, b1, b2, b3, b4, b5] => .known (.queueOrder b0 b1 b2 (word24 b3 b4 b5))
    | _ => .badLength code body
  | 0x41 => match body with
    | [b0] => .known (.halt b0)
    | _ => .badLength code body
  | 0x42 => match body with
    | [b0] => .known (.cancelPending b0)
    | _ => .badLength code body
  | 0x43 => match body with
    | [b0] => .known (.readCompletions b0)
    | _ => .badLength code body
  | 0x44 => match body with
    | [b0, b1] => .known (.setSlotThreshold b0 b1)
    | _ => .badLength code body
  | 0x50 => match body with
    | [b0] => .known (.readTransport b0)
    | _ => .badLength code body
  | 0x51 => match body with
    | [b0] => .known (.releaseTransport b0)
    | _ => .badLength code body
  | 0x52 => match body with
    | [b0] => .known (.resetTransport b0)
    | _ => .badLength code body
  | 0x60 => match body with
    | [b0, b1, b2, b3, b4, b5, b6] => .known (.setLoopParameters b0 b1 b2 b3 b4 b5 b6)
    | _ => .badLength code body
  | 0x61 => match body with
    | [b0, b1, b2, b3, b4] => .known (.setDriveParameters b0 b1 b2 b3 b4)
    | _ => .badLength code body
  | 0x62 => match body with
    | [b0] => .known (.readLoops b0)
    | _ => .badLength code body
  | 0x70 => match body with
    | [b0] => .known (.clearHold b0)
    | _ => .badLength code body
  | 0x71 => match body with
    | [b0] => .known (.readHoldRecord b0)
    | _ => .badLength code body
  | _ => .unknown code body

/-- The CODE of a request (R178). -/
def Request.code : Request → Byte
  | .poll => 0x01
  | .readLineStatus => 0x02
  | .setNoticeMasks _ => 0x03
  | .readNotices => 0x04
  | .ackNotices _ => 0x05
  | .readEviction => 0x06
  | .allStop => 0x0E
  | .resetStation => 0x0F
  | .readPosition _ => 0x10
  | .setDefaultClass _ _ => 0x11
  | .bindVolume _ _ _ _ _ => 0x20
  | .unbindVolume _ => 0x21
  | .retireVolume _ => 0x22
  | .readVolume _ _ _ => 0x23
  | .listVolumes _ => 0x24
  | .setMark _ _ _ _ _ _ => 0x30
  | .changeMark _ _ _ _ _ _ => 0x31
  | .retireMark _ _ => 0x32
  | .findMark _ _ => 0x33
  | .findByTag _ _ _ => 0x34
  | .findNearest _ _ _ => 0x35
  | .listMarks _ _ => 0x36
  | .readPassed _ => 0x37
  | .setCaptureParameters _ _ _ _ => 0x38
  | .readCapture _ => 0x39
  | .queueOrder _ _ _ _ => 0x40
  | .halt _ => 0x41
  | .cancelPending _ => 0x42
  | .readCompletions _ => 0x43
  | .setSlotThreshold _ _ => 0x44
  | .readTransport _ => 0x50
  | .releaseTransport _ => 0x51
  | .resetTransport _ => 0x52
  | .setLoopParameters _ _ _ _ _ _ _ => 0x60
  | .setDriveParameters _ _ _ _ _ => 0x61
  | .readLoops _ => 0x62
  | .clearHold _ => 0x70
  | .readHoldRecord _ => 0x71

/-- The body of a request (R178). -/
def Request.body : Request → List Byte
  | .poll => []
  | .readLineStatus => []
  | .setNoticeMasks v0 => v0.bytes
  | .readNotices => []
  | .ackNotices v0 => v0.bytes
  | .readEviction => []
  | .allStop => []
  | .resetStation => []
  | .readPosition v0 => [v0]
  | .setDefaultClass v0 v1 => [v0] ++ [v1]
  | .bindVolume v0 v1 v2 v3 v4 => [v0] ++ v1.bytes ++ bytes16 v2 ++ [v3] ++ bytes24 v4
  | .unbindVolume v0 => [v0]
  | .retireVolume v0 => v0.bytes
  | .readVolume v0 v1 v2 => [v0] ++ [v1] ++ v2.bytes
  | .listVolumes v0 => [v0]
  | .setMark v0 v1 v2 v3 v4 v5 => [v0] ++ bytes16 v1 ++ [v2] ++ [v3] ++ bytes24 v4 ++ bytes32 v5
  | .changeMark v0 v1 v2 v3 v4 v5 => [v0] ++ bytes16 v1 ++ [v2] ++ [v3] ++ bytes24 v4 ++ bytes32 v5
  | .retireMark v0 v1 => [v0] ++ bytes16 v1
  | .findMark v0 v1 => [v0] ++ bytes16 v1
  | .findByTag v0 v1 v2 => [v0] ++ bytes32 v1 ++ bytes16 v2
  | .findNearest v0 v1 v2 => [v0] ++ bytes24 v1 ++ [v2]
  | .listMarks v0 v1 => [v0] ++ bytes16 v1
  | .readPassed v0 => [v0]
  | .setCaptureParameters v0 v1 v2 v3 => [v0] ++ bytes16 v1 ++ bytes16 v2 ++ [v3]
  | .readCapture v0 => [v0]
  | .queueOrder v0 v1 v2 v3 => [v0] ++ [v1] ++ [v2] ++ bytes24 v3
  | .halt v0 => [v0]
  | .cancelPending v0 => [v0]
  | .readCompletions v0 => [v0]
  | .setSlotThreshold v0 v1 => [v0] ++ [v1]
  | .readTransport v0 => [v0]
  | .releaseTransport v0 => [v0]
  | .resetTransport v0 => [v0]
  | .setLoopParameters v0 v1 v2 v3 v4 v5 v6 => [v0] ++ [v1] ++ [v2] ++ [v3] ++ [v4] ++ [v5] ++ [v6]
  | .setDriveParameters v0 v1 v2 v3 v4 => [v0] ++ [v1] ++ [v2] ++ [v3] ++ [v4]
  | .readLoops v0 => [v0]
  | .clearHold v0 => [v0]
  | .readHoldRecord v0 => [v0]

end Sys2Proof
end

