-- ==== Sys2Proof/Machine/State.lean ====
section
/-! DEFINITION. The state of the controller, as plain data, and the machine right after reset.
A value the manual makes equal to another at all times has one home here, and the other is a computed view of
Machine/Flags.lean or Machine/Ops.lean (log entry 26). -/

namespace Sys2Proof.Machine

/-! ### Capstan and Position Unit (spec/01) -/

/-- How far the position counter may be trusted (R2). -/
inductive Confidence where
  | exact | coasted | lost
deriving DecidableEq, Repr

/-- The inertia classes (spec/00 "Conventions", R10). -/
inductive Inertia where
  | light | standard | heavy
deriving DecidableEq, Repr

/-- The four speeds of the capstan (spec/00 "Conventions"). -/
inductive Speed where
  | creep | read | seek | rewind
deriving DecidableEq, Repr

/-- The kinds of load-point approach (R4, R9). -/
inductive Approach where
  | none | establishing | returning
deriving DecidableEq, Repr

/-- The blocks that own a motion segment (R9). -/
inductive Owner where
  | orders | sequencer
deriving DecidableEq, Repr

/-- What a ramp ends in: RUNNING at the segment's speed, a change through rest, or rest. A ramp to rest begun by
the load-point forward edge of an approach makes a rezero at rest (R4, R11, R12). -/
inductive RampGoal where
  | toSpeed
  | throughRest
  | toRest (rezero : Bool)
deriving DecidableEq, Repr

/-- A ramp in progress (R10 to R13). Speeds are in mm/s; `fromFeed` and `toFeed` are the feed-forward magnitudes
of its ends (R135); it is a ramp between the named speeds `low` (absent for rest) and `high`; it began at clock
time `began` and lasts `lasts` µs. A ramp from rest began with the counter at `start`, which a drift correction shifts
with the counter, so that the counter less `start` is the tape the ramp has covered (R13). -/
structure Ramp where
  dir : Dir
  goal : RampGoal
  fromSpeed : Nat
  toSpeed : Nat
  fromFeed : Nat
  toFeed : Nat
  low : Option Speed
  high : Speed
  began : Nat
  lasts : Nat
  start : Option Int
deriving DecidableEq, Repr

/-- The condition of a motion segment (R9). -/
inductive Condition where
  | atRest
  | ramping (r : Ramp)
  | running
  | coasting
  | free
deriving DecidableEq, Repr

/-- The motion segment (R9). -/
structure Segment where
  cond : Condition
  dir : Option Dir
  speed : Option Speed
  stopTarget : Option Int
  approach : Approach
  owner : Option Owner
  cls : Inertia
deriving DecidableEq, Repr

/-- A RUN request: direction, speed, optional stop target, approach kind (R11). -/
structure RunReq where
  dir : Dir
  speed : Speed
  target : Option Int
  approach : Approach
deriving DecidableEq, Repr

/-- A motion request that was refused in COASTING or FREE and will be made again (R11, R12). -/
inductive MotionReq where
  | run (r : RunReq)
  | stop
deriving DecidableEq, Repr

/-- The gap-line filter times (R6). -/
inductive FilterTime where
  | us0 | us20 | us40 | us80
deriving DecidableEq, Repr

/-- The gap-line filter (R6): the raw line, the filtered level, the filter time, and since when a change of the
raw line has been timed. -/
structure GapFilter where
  raw : GapLevel
  level : GapLevel
  time : FilterTime
  since : Option Nat
deriving DecidableEq, Repr

/-- The Capstan and Position Unit of one transport (spec/01). The past-EOT flag is set exactly while the EOT
position is present (R5), so it is a view. -/
structure Capstan where
  counter : Int
  conf : Confidence
  lastGap : Option Int
  eotPos : Option Int
  filter : GapFilter
  seg : Segment
  lastDir : Dir
  defaultClass : Inertia
  refusedOrders : Option MotionReq
  refusedSequencer : Option MotionReq
deriving DecidableEq, Repr

/-! ### Volume Table and Mark Table (spec/02, spec/03) -/

/-- What a volume entry keeps while it is MOUNTED or SHELVED (R23, R24). -/
structure Volume where
  serial : Serial
  generation : BitVec 16
  cls : Inertia
  length : Nat
deriving DecidableEq, Repr

/-- A volume entry (R23). The mark count is the length of the volume's mark list (R25). -/
inductive Entry where
  | free
  | mounted (v : Volume) (t : TNum)
  | shelved (v : Volume)
deriving DecidableEq, Repr

/-- One value for each of the sixteen volume entries. -/
abbrev VolTable (α : Type) := Vector α 16

inductive MarkKind where
  | point | barrier
deriving DecidableEq, Repr

/-- How far a mark's position is confirmed (R42). -/
inductive MarkState where
  | provisional | verified | doubtful
deriving DecidableEq, Repr

/-- Which passages set a mark's passed flag (R43). -/
inductive NoticeMode where
  | none | forward | reverse | both
deriving DecidableEq, Repr

/-- A mark record in use (R41). Its volume is the entry whose list holds it; its candidate is that of its open
window, held by the Capture Unit (R63). -/
structure Mark where
  number : Nat
  kind : MarkKind
  pos : Int
  state : MarkState
  mode : NoticeMode
  passed : Bool
  tag : Option (BitVec 32)
deriving DecidableEq, Repr

/-! ### Capture Unit (spec/04) -/

inductive Role where
  | ordinary | target | barrier
deriving DecidableEq, Repr

/-- An open capture window (R63). -/
structure Window where
  number : Nat
  low : Int
  high : Int
  role : Role
  candidate : Option Int
  fixed : Bool
deriving DecidableEq, Repr

/-- The target a running SEEK_MARK has named, with the position it copied (R72). -/
structure NamedTarget where
  number : Nat
  pos : Int
deriving DecidableEq, Repr

/-- What the Capture Unit remembers of a barrier whose range the head is in (R78, R74): the position it had
when the watch began, whether the head crossed its low bound at reading speed while it applied, and whether a gap
start was taken in the range since (log entry 17). -/
structure BarrierWatch where
  number : Nat
  pos : Int
  searched : Bool
  gapSeen : Bool
deriving DecidableEq, Repr

/-- The Capture Unit of one transport (spec/04). -/
structure Capture where
  lead : Nat
  lag : Nat
  windows : List Window
  target : Option NamedTarget
  watch : List BarrierWatch
deriving DecidableEq, Repr

/-! ### Order Slots (spec/05) -/

/-- An order's kind with its argument (R84). -/
inductive OrderKind where
  | spaceF (n : Nat)
  | spaceR (n : Nat)
  | advance (d : Nat)
  | seekPos (p : Int)
  | seekMark (m : Nat)
  | rewind
  | unload
deriving DecidableEq, Repr

/-- An order as queued (R84). -/
structure Order where
  tag : Byte
  kind : OrderKind
deriving DecidableEq, Repr

/-- The completion statuses (R85). -/
inductive Completion where
  | complete | halted | discarded | fault | barrier | markNotFound | markRetired | loadPoint | endOfTape | runout
  | range | blank | noPosition | noMark
deriving DecidableEq, Repr

/-- The phase of a running order (R84). -/
inductive OrderPhase where
  | fast | readLeg | search | stopping | approach | haltSearch | sequence
deriving DecidableEq, Repr

/-- The leg an order is in (R90): its direction, its end point, its slow-down point, and whether it ends at rest. -/
structure Leg where
  dir : Dir
  endPoint : Int
  slowDown : Int
  rests : Bool
deriving DecidableEq, Repr

/-- The working values of a running order: those of R84, and those the rules imply: the leg (R90), whether the stop
target came from the runout position (R89), the barrier that stops the order (R85), whether it has been halted
(R95, R102), the travel of the halt gap search (R101) and the net forward counts (R85). -/
structure Work where
  start : Int
  count : Nat
  blank : Nat
  copied : Option Int
  targetRetired : Bool
  phase : OrderPhase
  reason : Option Completion
  barrier : Option Nat
  leg : Leg
  runoutTarget : Bool
  halted : Bool
  haltTravel : Nat
  net : Int
deriving DecidableEq, Repr

/-- A completion record (R85). -/
structure Record where
  tag : Byte
  kind : OrderKind
  status : Completion
  count : Nat
  finalPos : Option Int
  markNumber : Option Nat
deriving DecidableEq, Repr

/-- A slot in use (R83). -/
inductive Slot where
  | pending (o : Order)
  | running (o : Order) (w : Work)
  | record (r : Record)
deriving DecidableEq, Repr

/-- The Order Slots of one transport: the order list, front first, and the slot threshold (R83, R108). -/
structure OrderSlots where
  list : List Slot
  threshold : Nat
deriving DecidableEq, Repr

/-! ### Transport Sequencer (spec/06) -/

inductive LoadPhase where
  | thread | fill | findLoadPoint
deriving DecidableEq, Repr

inductive RewindPhase where
  | fast | approach | settle
deriving DecidableEq, Repr

inductive UnloadPhase where
  | ret (p : RewindPhase)
  | release
deriving DecidableEq, Repr

/-- The state of a transport with its phase (R109). -/
inductive XState where
  | unloaded
  | loading (p : LoadPhase)
  | ready
  | moving
  | rewinding (p : RewindPhase)
  | unloading (p : UnloadPhase)
  | held
  | recovering
deriving DecidableEq, Repr

/-- How the last load ended (R109). -/
inductive LoadResult where
  | none | complete | threadTimeout | fillTimeout | noLoadPoint | abandoned | interrupted
deriving DecidableEq, Repr

/-- The Transport Sequencer's record (R109), and what its sequences keep: the load timer's start (R111, R112), the
take-up revolutions (R111), the load-point search count (R113), the start of the quiet measurement (R119), whether
an ending of the rewind was asked for (R118), whether the FAST stop was begun by the load point passed in reverse
(R116), and which half of the flash the lamps show (R122). -/
structure Sequencer where
  state : XState
  online : Bool
  panelMotion : Bool
  leader : Bool
  valveOpen : Bool
  loadResult : LoadResult
  loadTimer : Option Nat
  revolutions : Nat
  searchCount : Nat
  quiet : Option Nat
  ending : Bool
  lpStop : Bool
  flashLit : Bool
deriving DecidableEq, Repr

/-! ### Loop Converter and Reel Drive (spec/07) -/

/-- A channel's result slot (R131). -/
structure ResultSlot where
  depth : Nat
  fresh : Bool
deriving DecidableEq, Repr

/-- The five loop zones (R132). -/
inductive Zone where
  | limitShort | short | center | long | limitLong
deriving DecidableEq, Repr

inductive ReelMode where
  | thread | zone | release
deriving DecidableEq, Repr

/-- A Reel Drive's record (R134), with the motor current last reported (R139), whether the present period has had an
over-current event (R140), and the time of the last one (R139). -/
structure ReelDrive where
  mode : ReelMode
  entered : Bool
  zone : Zone
  persist : Nat
  commanded : Int
  output : Int
  limiting : Bool
  stall : Option Nat
  brake : Bool
  current : Nat
  overThisPeriod : Bool
  forcedAt : Nat
deriving DecidableEq, Repr

/-- The six loop parameters (R132). -/
structure LoopParams where
  limitShort : Nat
  bandLow : Nat
  bandHigh : Nat
  limitLong : Nat
  gain : Nat
  persistence : Nat
deriving DecidableEq, Repr

inductive ResumeMode where
  | atPeriod | afterHoldOff
deriving DecidableEq, Repr

/-- The drive parameters (R141); the stall time is in ms. -/
structure DriveParams where
  supplyLevel : Nat
  takeupLevel : Nat
  resume : ResumeMode
  stallMs : Nat
deriving DecidableEq, Repr

/-- The conversion in progress: its channel, and whether its result will be handed on (R130). -/
structure Conversion where
  t : TNum
  reel : Reel
  handed : Bool
deriving DecidableEq, Repr

/-- The Loop Converter: the conversion in progress and the channels of the pass still to come (R130). -/
structure Converter where
  busy : Option Conversion
  rest : List (TNum × Reel)
deriving DecidableEq, Repr

/-! ### Protection Unit (spec/08) -/

/-- A debounced switch (R148): its raw and debounced levels, and since when a changed raw level has been timed. -/
structure SwitchInput where
  raw : Bool
  debounced : Bool
  since : Option Nat
deriving DecidableEq, Repr

/-- The eleven trip causes (R146). -/
inductive Cause where
  | supplyLoopShort | supplyLoopLong | takeupLoopShort | takeupLoopLong | vacuumLoss | supplyStall | takeupStall
  | capstanTachLoss | doorOpen | powerOn | recoveryTimeout
deriving DecidableEq, Repr

/-- The hold record (R144). The further causes are a set: they stand in the order of R176, each at most once. -/
structure HoldRecord where
  active : Bool
  primary : Option Cause
  position : Option Int
  state : Option XState
  further : List Cause
  failed : Bool
deriving DecidableEq, Repr

/-- Which stalls and which tachometer loss were armed when the transport became HELD, and when that was: such a cause may
still be handed at that same moment (R147, R149, R151, log entry 46). -/
structure HoldMoment where
  clock : Nat
  supplyStall : Bool
  takeupStall : Bool
  tach : Bool
deriving DecidableEq, Repr

/-- The Protection Unit of one transport (R144), with the moment of the last entry to HELD (log entry 46). -/
structure Protection where
  driveEnable : Bool
  vacuum : SwitchInput
  door : SwitchInput
  reelPresent : SwitchInput
  recovery : Option Nat
  steady : Option Nat
  hold : HoldRecord
  moment : Option HoldMoment
deriving DecidableEq, Repr

/-! ### Notice Unit (spec/10) -/

/-- The event flags of a transport (R169). DONE and PASSED are level flags, and follow their conditions. -/
structure XFlags where
  slots : Bool
  hold : Bool
  state : Bool
deriving DecidableEq, Repr

/-- The masks of a transport's five flags, true for ENABLED (R170). -/
structure XMasks where
  done : Bool
  slots : Bool
  passed : Bool
  hold : Bool
  state : Bool
deriving DecidableEq, Repr

/-- The controller's two event flags, or their masks (R169, R170). -/
structure CtlFlags where
  evict : Bool
  line : Bool
deriving DecidableEq, Repr

/-- The eviction record (R174). -/
structure Eviction where
  serial : Option Serial
  count : Nat
deriving DecidableEq, Repr

/-! ### Station Line Interface (spec/09) -/

/-- The receiver (R159). In RECEIVING, `toCome` frames are still to come and `got` holds those received, the LENGTH
first (R160). -/
inductive Receiver where
  | unselected
  | idle (k : SelKind)
  | receiving (k : SelKind) (toCome : Nat) (got : List Byte)
  | discarding (k : SelKind)
deriving DecidableEq, Repr

/-- A request in the buffer, with the kind of selection it came with (R162). -/
structure Buffered where
  message : Message
  kind : SelKind
deriving DecidableEq, Repr

/-- A frame on the return pair: its kind bit and its data bits (R158). -/
structure Frame where
  address : Bool
  data : Byte
deriving DecidableEq, Repr

/-- A frame as a pair of the station line carries it: its data bits, its kind bit, its parity bit, and its stop bit,
which is set at the resting level (R158); in the order of the line, with the start bit, `WireFrame.bits`. -/
structure WireFrame where
  data : Byte
  kind : Bool
  parity : Bool
  stop : Bool
deriving DecidableEq, Repr

/-- The response transmitter (R164): the frames of the response being sent, and whether it has been cut. -/
inductive Transmitter where
  | idle
  | sending (frames : List Frame) (cut : Bool)
deriving DecidableEq, Repr

/-- The five line error flags (R161). -/
structure LineFlags where
  parity : Bool
  framing : Bool
  check : Bool
  timeout : Bool
  overrun : Bool
deriving DecidableEq, Repr

/-- The Station Line Interface (spec/09). -/
structure Line where
  receiver : Receiver
  buffer : Option Buffered
  transmitter : Transmitter
  flags : LineFlags
  station : BitVec 4
  rate : BitVec 2
deriving DecidableEq, Repr

/-! ### The whole -/

/-- Everything that is provided once for each transport. -/
structure Transport where
  cap : Capstan
  capture : Capture
  orders : OrderSlots
  sequencer : Sequencer
  supply : ReelDrive
  takeup : ReelDrive
  supplySlot : ResultSlot
  takeupSlot : ResultSlot
  loop : LoopParams
  drive : DriveParams
  prot : Protection
  flags : XFlags
  masks : XMasks
deriving DecidableEq, Repr

/-- The state of the controller. `pending` is the queue of commands that wait; `clock` is the model's own count of
µs (log entry 2). -/
structure State where
  pending : List Instr
  clock : Nat
  x : Quad Transport
  volumes : VolTable Entry
  shelf : List (Fin 16)
  marks : VolTable (List Mark)
  converter : Converter
  line : Line
  ctl : CtlFlags
  ctlMasks : CtlFlags
  eviction : Eviction
deriving DecidableEq, Repr

/-- The reasons a step stops with a fault: none. The manual gives every event an outcome in every state: a trip
makes a transport HELD (R149), a request is refused with a status (R163), a bad frame sets a flag (R161). -/
inductive Fault where
deriving DecidableEq, Repr

/-- The reasons a command is refused. -/
inductive Refusal where
  /-- Raised by `exec` alone, for a command that has no meaning yet; none is left. Safe. -/
  | notModelled (mnemonic : String)
deriving DecidableEq, Repr

/-! ### The machine right after reset -/

/-- A segment AT REST with its brake applied (R21). -/
def Segment.reset : Segment :=
  { cond := .atRest, dir := none, speed := none, stopTarget := none, approach := .none, owner := none
    cls := .standard }

/-- A Capstan and Position Unit after power-on (R21), its raw gap line at BLOCK (log entry 5). -/
def Capstan.reset : Capstan :=
  { counter := 0, conf := .lost, lastGap := none, eotPos := none
    filter := { raw := .block, level := .block, time := .us40, since := none }
    seg := Segment.reset, lastDir := .forward, defaultClass := .standard
    refusedOrders := none, refusedSequencer := none }

/-- A Capture Unit after power-on (R63). -/
def Capture.reset : Capture :=
  { lead := 80, lag := 80, windows := [], target := none, watch := [] }

/-- A Sequencer after power-on with no tape in its columns (R110). -/
def Sequencer.reset : Sequencer :=
  { state := .unloaded, online := false, panelMotion := false, leader := false, valveOpen := false
    loadResult := .none, loadTimer := none, revolutions := 0, searchCount := 0, quiet := none
    ending := false, lpStop := false, flashLit := false }

/-- A Reel Drive after power-on over an empty column (R142). -/
def ReelDrive.reset : ReelDrive :=
  { mode := .zone, entered := true, zone := .limitLong, persist := 0, commanded := 0, output := 0
    limiting := false, stall := none, brake := true, current := 0, overThisPeriod := false, forcedAt := 0 }

/-- The loop parameters after power-on (R132). -/
def LoopParams.reset : LoopParams :=
  { limitShort := 12, bandLow := 100, bandHigh := 156, limitLong := 244, gain := 2, persistence := 2 }

/-- The drive parameters after power-on (R141). -/
def DriveParams.reset : DriveParams :=
  { supplyLevel := 200, takeupLevel := 200, resume := .atPeriod, stallMs := 25 }

/-- An empty hold record (R144). -/
def HoldRecord.reset : HoldRecord :=
  { active := false, primary := none, position := none, state := none, further := [], failed := false }

/-- A Protection Unit after power-on: drive enable off, no vacuum, door closed, no reel (R144, log entry 5). -/
def Protection.reset : Protection :=
  { driveEnable := false
    vacuum := { raw := false, debounced := false, since := none }
    door := { raw := false, debounced := false, since := none }
    reelPresent := { raw := false, debounced := false, since := none }
    recovery := none, steady := none, hold := HoldRecord.reset, moment := none }

/-- A transport after power-on with no reel. -/
def Transport.reset : Transport :=
  { cap := Capstan.reset, capture := Capture.reset, orders := { list := [], threshold := 0 }
    sequencer := Sequencer.reset, supply := ReelDrive.reset, takeup := ReelDrive.reset
    supplySlot := { depth := 255, fresh := true }, takeupSlot := { depth := 255, fresh := true }
    loop := LoopParams.reset, drive := DriveParams.reset, prot := Protection.reset
    flags := { slots := false, hold := false, state := false }
    masks := { done := true, slots := true, passed := true, hold := true, state := true } }

/-- The Station Line Interface after power-on (R158 to R164). -/
def Line.reset : Line :=
  { receiver := .unselected, buffer := none, transmitter := .idle
    flags := { parity := false, framing := false, check := false, timeout := false, overrun := false }
    station := 0, rate := 0 }

/-- The machine right after power-on with no reel on any transport: every block at its power-on value (R21, R23,
R40, R63, R83, R110, R130, R132, R141, R142, R144, R158 to R162, R169, R170, R174). The pins are those of log
entry 5. -/
def State.reset : State :=
  { pending := [], clock := 0
    x := { t0 := Transport.reset, t1 := Transport.reset, t2 := Transport.reset, t3 := Transport.reset }
    volumes := Vector.replicate 16 .free, shelf := [], marks := Vector.replicate 16 []
    converter := { busy := none, rest := [] }
    line := Line.reset
    ctl := { evict := false, line := false }, ctlMasks := { evict := true, line := true }
    eviction := { serial := none, count := 0 } }

end Sys2Proof.Machine
end

