-- ==== Sys2Proof/Machine/Ops.lean ====
section
/-! DEFINITION. The named accesses to the parts of the state: one transport, the volume bound to it and its marks,
the running order, a reel, the windows. A block has no exception entry; the hold entry, its nearest relative, is one
shared operation in Machine/Hold.lean. -/

namespace Sys2Proof.Machine

open Sys2Proof

/-! ### Transports -/

/-- Transport `t` as it stands. -/
def State.tr (s : State) (t : TNum) : Transport := s.x.get t

/-- The state with transport `t` changed by `f` and nothing else. -/
def State.upd (t : TNum) (f : Transport → Transport) (s : State) : State :=
  { s with x := s.x.set t (f (s.x.get t)) }

/-- One operation on every transport in turn, T0 first. -/
def State.forEach (f : TNum → State → State) (s : State) : State :=
  f .t3 (f .t2 (f .t1 (f .t0 s)))

/-! ### Volumes and marks -/

/-- What a non-FREE entry keeps (R23). -/
def Entry.volume? : Entry → Option Volume
  | .free => none
  | .mounted v _ => some v
  | .shelved v => some v

/-- Whether a MOUNTED entry names transport `t` (R27). -/
def Entry.isOn (t : TNum) : Entry → Bool
  | .mounted _ u => u == t
  | _ => false

def Entry.isFree : Entry → Bool
  | .free => true
  | _ => false

def Entry.isMounted : Entry → Bool
  | .mounted _ _ => true
  | _ => false

def Entry.isShelved : Entry → Bool
  | .shelved _ => true
  | _ => false

/-- The index of the entry bound to transport `t`, absent while it is unbound (R27). -/
def State.boundIdx (t : TNum) (s : State) : Option (Fin 16) :=
  (List.finRange 16).find? fun i => s.volumes[i].isOn t

/-- The volume bound to transport `t` (R27). -/
def State.boundVol (t : TNum) (s : State) : Option Volume :=
  (s.boundIdx t).bind fun i => s.volumes[i].volume?

/-- The marks of the volume bound to transport `t`, in list order; none while it is unbound (R27, R44). -/
def State.boundMarks (t : TNum) (s : State) : List Mark :=
  match s.boundIdx t with
  | some i => s.marks[i]
  | none => []

/-- Entry `i` replaced. -/
def State.setEntry (i : Fin 16) (e : Entry) (s : State) : State :=
  { s with volumes := s.volumes.set i e }

/-- The mark list of volume `i` replaced. -/
def State.setMarks (i : Fin 16) (l : List Mark) (s : State) : State :=
  { s with marks := s.marks.set i l }

/-- The marks of the volume bound to `t` changed by `f`; nothing while it is unbound. -/
def State.modBoundMarks (t : TNum) (f : List Mark → List Mark) (s : State) : State :=
  match s.boundIdx t with
  | some i => s.setMarks i (f s.marks[i])
  | none => s

/-- The mark count of entry `i` (R25). -/
def State.markCount (i : Fin 16) (s : State) : Nat := s.marks[i].length

/-- The number of records of the pool in use (R40). -/
def State.poolInUse (s : State) : Nat := (s.marks.toList.map List.length).sum

/-- The class the capstan takes at a start from rest: that of the bound volume, or else the default class (R10). -/
def State.chosenClass (t : TNum) (s : State) : Inertia :=
  match s.boundVol t with
  | some v => v.cls
  | none => (s.tr t).cap.defaultClass

/-! ### Mark lists (R44, R45) -/

/-- The order of a volume's list: ascending position, equal positions in ascending number (R44). -/
def Mark.before (a b : Mark) : Bool := a.pos < b.pos || (a.pos == b.pos && a.number < b.number)

/-- A mark put in its place in a list (R44). -/
def insertMark (m : Mark) : List Mark → List Mark
  | [] => [m]
  | k :: rest => if m.before k then m :: k :: rest else k :: insertMark m rest

/-- The mark of a number (R44: at most one). -/
def findNumber (n : Nat) (l : List Mark) : Option Mark := l.find? fun m => m.number == n

/-- A list without the mark of a number (R55). -/
def removeNumber (n : Nat) (l : List Mark) : List Mark := l.filter fun m => m.number != n

/-- The ordinal of a number in a list, 1 for the first (R44); 0 where it is not in the list. -/
def ordinalOf (n : Nat) (l : List Mark) : Nat :=
  match l.findIdx? fun m => m.number == n with
  | some i => i + 1
  | none => 0

/-- A mark replaced in place, its position being unchanged (R54, R62). -/
def updateNumber (n : Nat) (f : Mark → Mark) (l : List Mark) : List Mark :=
  l.map fun m => if m.number == n then f m else m

/-- A mark changed and moved to the place its position and number now give it (R45). -/
def moveNumber (n : Nat) (f : Mark → Mark) (l : List Mark) : List Mark :=
  match findNumber n l with
  | some m => insertMark (f m) (removeNumber n l)
  | none => l

/-! ### The order list -/

def Slot.isPending : Slot → Bool
  | .pending _ => true
  | _ => false

def Slot.isRunning : Slot → Bool
  | .running _ _ => true
  | _ => false

def Slot.isRecord : Slot → Bool
  | .record _ => true
  | _ => false

/-- The running order of an order list, with its working values (R83: at most one). -/
def runningIn : List Slot → Option (Order × Work)
  | [] => none
  | .running o w :: _ => some (o, w)
  | _ :: rest => runningIn rest

/-- The running order of a transport. -/
def Transport.running (x : Transport) : Option (Order × Work) := runningIn x.orders.list

/-- The running slot replaced, in its place in the list (R83). -/
def replaceRunning (f : Order → Work → Slot) : List Slot → List Slot
  | [] => []
  | .running o w :: rest => f o w :: rest
  | sl :: rest => sl :: replaceRunning f rest

/-- The oldest pending order (R87). -/
def oldestPending : List Slot → Option Order
  | [] => none
  | .pending o :: _ => some o
  | _ :: rest => oldestPending rest

/-- The oldest pending slot replaced, in its place in the list (R83). -/
def replaceOldest (f : Order → Slot) : List Slot → List Slot
  | [] => []
  | .pending o :: rest => f o :: rest
  | sl :: rest => sl :: replaceOldest f rest

/-- The order list changed. -/
def Transport.modList (f : List Slot → List Slot) (x : Transport) : Transport :=
  { x with orders := { x.orders with list := f x.orders.list } }

/-- The working values of the running order changed. -/
def Transport.modWork (f : Order → Work → Work) (x : Transport) : Transport :=
  x.modList (replaceRunning fun o w => .running o (f o w))

/-- The free count: slots not in use (R83). -/
def Transport.freeCount (x : Transport) : Nat := Config.slotCount - x.orders.list.length

/-! ### Reels -/

/-- The Reel Drive of a reel. -/
def Transport.reel (r : Reel) (x : Transport) : ReelDrive :=
  match r with
  | .supply => x.supply
  | .takeup => x.takeup

/-- A Reel Drive changed. -/
def Transport.modReel (r : Reel) (f : ReelDrive → ReelDrive) (x : Transport) : Transport :=
  match r with
  | .supply => { x with supply := f x.supply }
  | .takeup => { x with takeup := f x.takeup }

/-- Both Reel Drives changed. -/
def Transport.modReels (f : ReelDrive → ReelDrive) (x : Transport) : Transport :=
  { x with supply := f x.supply, takeup := f x.takeup }

/-- The result slot of a reel's channel (R131). -/
def Transport.slotOf (r : Reel) (x : Transport) : ResultSlot :=
  match r with
  | .supply => x.supplySlot
  | .takeup => x.takeupSlot

/-- The result slot of a reel's channel replaced. -/
def Transport.setSlot (r : Reel) (v : ResultSlot) (x : Transport) : Transport :=
  match r with
  | .supply => { x with supplySlot := v }
  | .takeup => { x with takeupSlot := v }

/-- The comparator level of a reel (R139). -/
def DriveParams.level (r : Reel) (p : DriveParams) : Nat :=
  match r with
  | .supply => p.supplyLevel
  | .takeup => p.takeupLevel

/-! ### Capture windows -/

/-- The open window of a mark (R63: at most one). -/
def Capture.windowOf (n : Nat) (c : Capture) : Option Window := c.windows.find? fun w => w.number == n

/-- A window changed. -/
def Capture.modWindow (n : Nat) (f : Window → Window) (c : Capture) : Capture :=
  { c with windows := c.windows.map fun w => if w.number == n then f w else w }

/-- A window taken out of the set (R66, R71). -/
def Capture.dropWindow (n : Nat) (c : Capture) : Capture :=
  { c with windows := c.windows.filter fun w => w.number != n }

/-- Every window abandoned, fixed candidates included, and every barrier watch ended (R71). -/
def Capture.abandonAll (c : Capture) : Capture := { c with windows := [], watch := [] }

/-- The candidate of a mark: that of its open window (R41, R63). -/
def Transport.candidateOf (n : Nat) (x : Transport) : Option Int :=
  (x.capture.windowOf n).bind fun w => w.candidate

/-! ### States of a transport -/

/-- A non-UNLOADED transport is in the scan set (R130). -/
def Transport.inScan (x : Transport) : Bool := x.sequencer.state != .unloaded

/-- A transport whose Sequencer runs a rewind, as REWINDING or UNLOADING RETURN: its rewind phase (R109). -/
def XState.rewindPhase? : XState → Option RewindPhase
  | .rewinding p => some p
  | .unloading (.ret p) => some p
  | _ => none

/-- The same state with another rewind phase. -/
def XState.withRewindPhase (p : RewindPhase) : XState → XState
  | .rewinding _ => .rewinding p
  | .unloading (.ret _) => .unloading (.ret p)
  | st => st

/-- The Sequencer's record changed. -/
def Transport.modSeq (f : Sequencer → Sequencer) (x : Transport) : Transport :=
  { x with sequencer := f x.sequencer }

/-- The transport state changed (R109). -/
def Transport.setState (st : XState) (x : Transport) : Transport :=
  x.modSeq fun q => { q with state := st }

end Sys2Proof.Machine
end

