-- ==== Sys2Proof/Machine/Capstan.lean ====
section
/-! DEFINITION. The Capstan and Position Unit of one transport: ramps, motion segments, RUN, STOP, FREE and HOLD REST
requests, stop targets, hold entry at the capstan, and drift correction (spec/01, R9 to R18). -/

namespace Sys2Proof.Machine

open Sys2Proof

/-! ### Speeds and ramps (R10) -/

/-- A speed in mm/s (spec/00 "Conventions"). -/
def Speed.mm : Speed → Nat
  | .creep => 500
  | .read => 4000
  | .seek => 8000
  | .rewind => 12000

/-- The feed-forward magnitude of a speed (R135). -/
def Speed.feed : Speed → Nat
  | .creep => 12
  | .read => 60
  | .seek => 100
  | .rewind => 120

/-- The speed of an end of a ramp, rest counting as 0. -/
def endMm : Option Speed → Nat
  | none => 0
  | some v => v.mm

/-- The time of the ramp between rest and a speed, in µs (R10). -/
def restTime : Inertia → Speed → Nat
  | .light, .creep => 250
  | .standard, .creep => 310
  | .heavy, .creep => 400
  | .light, .read => 2000
  | .standard, .read => 2500
  | .heavy, .read => 3200
  | .light, _ => 8000
  | .standard, _ => 10000
  | .heavy, _ => 12800

/-- The stop distance from a speed, in pu (R10). -/
def stopDistance : Inertia → Speed → Int
  | _, .creep => 1
  | .light, .read => 40
  | .standard, .read => 50
  | .heavy, .read => 64
  | .light, .seek => 320
  | .standard, .seek => 400
  | .heavy, .seek => 512
  | .light, .rewind => 480
  | .standard, .rewind => 600
  | .heavy, .rewind => 768

/-- The six direct ramps, each by the two named speeds it joins, an absent speed being rest (R10). The narrow pairs
come first, so that the first one that encloses a speed is the tightest. -/
def directRamps : List (Option Speed × Speed) :=
  [(some .read, .seek), (some .seek, .rewind), (none, .creep), (none, .read), (none, .seek), (none, .rewind)]

/-- The time of a direct ramp, in µs (R10). -/
def directTime (c : Inertia) (p : Option Speed × Speed) : Nat :=
  match p.1 with
  | none => restTime c p.2
  | some _ => 2 * restTime c .read

/-- Whether two named speeds are joined by a direct ramp (R10). -/
def isDirect (a b : Speed) : Bool := directRamps.contains (some a, b) || directRamps.contains (some b, a)

/-- The tightest direct ramp that ends at speed `target` and encloses the speed reached `v` (R11, log entry 11). -/
def enclosing (v : Nat) (target : Speed) : Option (Option Speed × Speed) :=
  directRamps.find? fun p =>
    (p.1 == some target || p.2 == target) && (decide (endMm p.1 ≤ v) && decide (v ≤ p.2.mm))

/-- The lowest named speed at or above `v`. -/
def speedAbove (v : Nat) : Speed :=
  if v ≤ 500 then .creep else if v ≤ 4000 then .read else if v ≤ 8000 then .seek else .rewind

/-- A value on the way from `a` to `b` after `e` of `l`, toward 0 (R135). -/
def partWay (a b e l : Nat) : Nat := if l = 0 then b else (a * (l - e) + b * e) / l

/-- How much of a ramp's time has passed at clock time `now`. -/
def Ramp.elapsed (now : Nat) (r : Ramp) : Nat := min (now - r.began) r.lasts

/-- The speed reached by the capstan, in mm/s: every ramp runs at a constant rate (R10, log entry 10). -/
def Segment.speedReached (now : Nat) (g : Segment) : Nat :=
  match g.cond with
  | .ramping r => partWay r.fromSpeed r.toSpeed (r.elapsed now) r.lasts
  | .running => endMm g.speed
  | _ => 0

/-- The magnitude of the feed-forward F (R135). -/
def Segment.feed (now : Nat) (g : Segment) : Nat :=
  match g.cond with
  | .ramping r => partWay r.fromFeed r.toFeed (r.elapsed now) r.lasts
  | .running =>
    match g.speed with
    | some v => v.feed
    | none => 0
  | _ => 0

/-! ### What a segment shows -/

/-- The direction in which the capstan moves the tape: that of the ramp in progress during a ramp (R135). -/
def Segment.tapeDir (g : Segment) : Option Dir :=
  match g.cond with
  | .ramping r => some r.dir
  | .atRest => none
  | _ => g.dir

/-- The capstan is driven while the segment is RAMPING or RUNNING (R9). -/
def Segment.driven (g : Segment) : Bool :=
  match g.cond with
  | .ramping _ => true
  | .running => true
  | _ => false

/-- The capstan is moving in every condition but AT REST (R9). -/
def Segment.moving (g : Segment) : Bool :=
  match g.cond with
  | .atRest => false
  | _ => true

/-- The segment is COASTING or FREE: the unit takes no request (R11, R12). -/
def Segment.undriven (g : Segment) : Bool := g.moving && !g.driven

/-- The brake is applied at rest and while COASTING (R9, R16). -/
def Segment.brakeApplied (g : Segment) : Bool :=
  match g.cond with
  | .atRest => true
  | .coasting => true
  | _ => false

/-- The at-speed line is asserted while the segment is RUNNING at READ speed (R18). -/
def Segment.atSpeed (g : Segment) : Bool :=
  match g.cond with
  | .running => g.speed == some .read
  | _ => false

/-- The segment ramps down to rest. -/
def Segment.stopping (g : Segment) : Bool :=
  match g.cond with
  | .ramping r =>
    match r.goal with
    | .toRest _ => true
    | _ => false
  | _ => false

/-- The segment is a ramp between rest and READ speed (R7, log entry 11). -/
def Segment.readRamp (g : Segment) : Bool :=
  match g.cond with
  | .ramping r => r.low == none && r.high == .read
  | _ => false

/-- Gap starts are taken: steady at CREEP or READ speed, or ramping between rest and READ speed (R7). -/
def Segment.gapReady (g : Segment) : Bool :=
  g.readRamp ||
    match g.cond with
    | .running => g.speed == some .creep || g.speed == some .read
    | _ => false

/-- Forward at READ speed or ramping forward between rest and READ speed (R64, R78). -/
def Segment.readingForward (g : Segment) : Bool :=
  g.tapeDir == some .forward && (g.atSpeed || g.readRamp)

/-- Forward at SEEK speed or on a ramp to or from SEEK speed (R78). -/
def Segment.seekingForward (g : Segment) : Bool :=
  g.tapeDir == some .forward &&
    match g.cond with
    | .running => g.speed == some .seek
    | .ramping r => r.high == .seek || r.low == some .seek
    | _ => false

/-- The past-EOT flag: set exactly while the EOT position is present (R5). -/
def Capstan.pastEot (c : Capstan) : Bool := c.eotPos.isSome

/-- The runout position while past EOT (R5, R89). -/
def Capstan.runout (c : Capstan) : Option Int := c.eotPos.map fun e => e + Config.eotRunout

/-! ### Changes of a segment -/

/-- AT REST: direction, speed, stop target, approach and owner are gone; the class in force stays (R9, R12). -/
def Segment.rested (g : Segment) : Segment :=
  { cond := .atRest, dir := none, speed := none, stopTarget := none, approach := .none, owner := none, cls := g.cls }

/-- A ramp down from the speed reached, at the rate of the ramp between rest and the segment's named speed; the
speed field keeps its value until rest (R12). From a speed between the named ones its time is rounded down to whole µs (log
entry 51). -/
def Segment.rampDown (now : Nat) (goal : RampGoal) (g : Segment) : Segment :=
  let v := g.speedReached now
  let named := g.speed.getD .creep
  let ramp : Ramp :=
    { dir := g.tapeDir.getD .forward, goal := goal, fromSpeed := v, toSpeed := 0, fromFeed := g.feed now
      toFeed := 0, low := none, high := if v ≤ named.mm then named else speedAbove v, began := now
      lasts := restTime g.cls named * v / named.mm, start := none }
  { g with cond := .ramping ramp }

/-- Where a segment from rest turns, if its stop target is closer than the ramp up and the stop distance together: the
counter value at which half the distance from `start` to the target is covered (R13, log entry 12). -/
def turnPoint (c : Inertia) (d : Dir) (v : Speed) (start target : Int) : Option Int :=
  let whole := match d with
    | .forward => max 0 (target - start)
    | .reverse => max 0 (start - target)
  if whole < 2 * stopDistance c v then
    some (match d with
      | .forward => start + (whole + 1) / 2
      | .reverse => start - (whole + 1) / 2)
  else none

/-- A ramp from rest to the segment's speed, the class having been chosen (R10, R11). -/
def Segment.startFromRest (now : Nat) (c : Inertia) (counter : Int) (r : RunReq) (g : Segment) : Segment :=
  let ramp : Ramp :=
    { dir := r.dir, goal := .toSpeed, fromSpeed := 0, toSpeed := r.speed.mm, fromFeed := 0
      toFeed := r.speed.feed, low := none, high := r.speed, began := now, lasts := restTime c r.speed
      start := some counter }
  { g with cls := c, cond := .ramping ramp }

/-- A ramp from the speed reached to the requested speed, at the rate of direct ramp `p` (R11), its time rounded down to
whole µs (log entry 51). -/
def Segment.rampTo (now : Nat) (p : Option Speed × Speed) (r : RunReq) (g : Segment) : Segment :=
  let v := g.speedReached now
  let span := p.2.mm - endMm p.1
  let change := max v r.speed.mm - min v r.speed.mm
  let ramp : Ramp :=
    { dir := r.dir, goal := .toSpeed, fromSpeed := v, toSpeed := r.speed.mm, fromFeed := g.feed now
      toFeed := r.speed.feed, low := p.1, high := p.2, began := now
      lasts := directTime g.cls p * change / span, start := none }
  { g with cond := .ramping ramp }

/-- What a RUN request puts into the segment's fields (R11). -/
def Segment.request (o : Owner) (r : RunReq) (g : Segment) : Segment :=
  { g with dir := some r.dir, speed := some r.speed, stopTarget := r.target, approach := r.approach, owner := some o }

/-- A RUN request taken, by the condition of the segment (R11). `c` is the class a start from rest would choose. A ramp
down through rest runs at the rate of the speed that the segment named before the request (log entry 62). -/
def Segment.takeRun (now : Nat) (c : Inertia) (counter : Int) (o : Owner) (r : RunReq) (g : Segment) : Segment :=
  let through := (g.rampDown now .throughRest).request o r
  match g.cond with
  | .atRest => (g.startFromRest now c counter r).request o r
  | .running =>
    if g.dir == some r.dir then
      match g.speed with
      | some v =>
        if v == r.speed then g.request o r
        else if isDirect v r.speed then
          match enclosing v.mm r.speed with
          | some p => (g.rampTo now p r).request o r
          | none => through
        else through
      | none => through
    else through
  | .ramping k =>
    if k.dir == r.dir then
      match enclosing (g.speedReached now) r.speed with
      | some p => (g.rampTo now p r).request o r
      | none => through
    else through
  | .coasting => g
  | .free => g

/-- The counter value at which a segment with a stop target begins its ramp down (R13). -/
def Segment.slowPoint (g : Segment) : Option Int :=
  match g.stopTarget, g.dir, g.speed with
  | some target, some d, some v =>
    let point := match d with
      | .forward => target - stopDistance g.cls v
      | .reverse => target + stopDistance g.cls v
    match g.cond with
    | .running => some point
    | .ramping r =>
      match r.goal with
      | .toSpeed => some ((r.start.bind fun a => turnPoint g.cls d v a target).getD point)
      | _ => none
    | _ => none
  | _, _, _ => none

/-- The counter has reached, or is past, the point where the ramp down to the stop target begins (R13). -/
def Segment.mustSlow (counter : Int) (g : Segment) : Bool :=
  match g.slowPoint with
  | some p =>
    match g.dir with
    | some .forward => decide (p ≤ counter)
    | some .reverse => decide (counter ≤ p)
    | none => false
  | none => false

/-! ### Requests to the unit, on one transport -/

/-- A request refused in COASTING or FREE is kept until the segment is AT REST (R11, R12); of two refused to one maker the
latest is kept (log entry 50). -/
def Capstan.refuse (o : Owner) (r : MotionReq) (c : Capstan) : Capstan :=
  match o with
  | .orders => { c with refusedOrders := some r }
  | .sequencer => { c with refusedSequencer := some r }

/-- A request taken: nothing of its maker waits any more. -/
def Capstan.accept (o : Owner) (c : Capstan) : Capstan :=
  match o with
  | .orders => { c with refusedOrders := none }
  | .sequencer => { c with refusedSequencer := none }

/-- The stop of a running order at its segment's stop target: RUNOUT if the target came from the runout position
(R89), else COMPLETE for an order that ends there; the phase is STOPPING until rest (R84). -/
def Work.stopAtTarget (o : Order) (w : Work) : Work :=
  if w.phase = .approach ∨ w.phase = .sequence then w
  else
    { w with
      phase := .stopping
      reason :=
        if w.runoutTarget then some .runout
        else
          match o.kind with
          | .advance _ => some .complete
          | .seekPos _ => some .complete
          | _ => w.reason }

/-- The watch of the stop target: where the counter has reached the point, the ramp down to rest begins at once
(R13), and a running order that owns the segment is stopping. -/
def Transport.decelWatch (now : Nat) (x : Transport) : Transport :=
  if x.cap.seg.mustSlow x.cap.counter then
    let y := { x with cap := { x.cap with seg := x.cap.seg.rampDown now (.toRest false) } }
    if x.cap.seg.owner = some .orders then y.modWork Work.stopAtTarget else y
  else x

/-- The confidence becomes LOST, and every open window is abandoned (R2, R71). -/
def Transport.loseConfidence (x : Transport) : Transport :=
  { x with cap := { x.cap with conf := .lost }, capture := x.capture.abandonAll }

/-- A RUN request of block `o` (R11). A ramp that begins from READ speed toward SEEK speed abandons every open window
(R71). A stop target already passed begins its ramp down at once (R13). -/
def Transport.run (now : Nat) (c : Inertia) (o : Owner) (r : RunReq) (x : Transport) : Transport :=
  match x.cap.seg.cond with
  | .coasting => { x with cap := x.cap.refuse o (.run r) }
  | .free => { x with cap := x.cap.refuse o (.run r) }
  | _ =>
    Transport.decelWatch now
      { x with
        cap := { x.cap.accept o with seg := x.cap.seg.takeRun now c x.cap.counter o r }
        capture :=
          if x.cap.seg.atSpeed && (x.cap.seg.dir == some r.dir && r.speed == .seek) then x.capture.abandonAll
          else x.capture }

/-- A STOP request of block `o` to a driven capstan: it removes the stop target, ends an approach, and begins a ramp
down to rest (R12). -/
def Transport.stopDriven (now : Nat) (o : Owner) (x : Transport) : Transport :=
  { x with
    cap :=
      { x.cap.accept o with
        seg := { x.cap.seg.rampDown now (.toRest false) with
          stopTarget := none, approach := .none, owner := some o } } }

/-- A FREE request of the Sequencer (R14). The segment keeps its direction, and one that has none, being AT REST, takes
`pull`, the direction in which the reels then pull the tape (R9, log entry 13). -/
def Transport.free (pull : Dir) (x : Transport) : Transport :=
  Transport.loseConfidence
    { x with
      cap :=
        { x.cap with
          seg :=
            { cond := .free, dir := some (x.cap.seg.dir.getD pull), speed := none, stopTarget := none, approach := .none
              owner := some .sequencer, cls := x.cap.seg.cls } } }

/-- A HOLD REST request of the Sequencer (R14). -/
def Transport.holdRest (now : Nat) (x : Transport) : Transport :=
  match x.cap.seg.cond with
  | .free => { x with cap := { x.cap with seg := x.cap.seg.rested } }
  | .ramping _ => x.stopDriven now .sequencer
  | .running => x.stopDriven now .sequencer
  | .atRest => x
  | .coasting => x

/-- The load-point forward edge during an approach stops the capstan at once, and a rezero follows at rest (R4). -/
def Transport.stopForRezero (now : Nat) (x : Transport) : Transport :=
  { x with cap := { x.cap with seg := x.cap.seg.rampDown now (.toRest true) } }

/-- A load-point approach is in force: its segment moves toward the marker and no stop has begun (R4). -/
def Segment.approaching (g : Segment) : Bool :=
  g.approach != .none &&
    match g.cond with
    | .running => true
    | .ramping r =>
      match r.goal with
      | .toSpeed => true
      | _ => false
    | _ => false

/-- The load-point rezero (R4): the counter is 0 and the last-gap position absent; an establishing approach also
clears past-EOT and makes the confidence EXACT. -/
def Capstan.rezero (a : Approach) (c : Capstan) : Capstan :=
  match a with
  | .establishing => { c with counter := 0, lastGap := none, eotPos := none, conf := .exact }
  | _ => { c with counter := 0, lastGap := none }

/-- Hold entry at the capstan (R16, R2, R8): a moving capstan coasts without an owner, the last-gap position is
absent, and EXACT becomes COASTED if the capstan was moving. No request waits to be made again. -/
def Capstan.holdEntry (c : Capstan) : Capstan :=
  { c with
    lastGap := none
    refusedOrders := none
    refusedSequencer := none
    conf := if c.seg.moving && c.conf == .exact then .coasted else c.conf
    seg :=
      if c.seg.moving then
        { cond := .coasting, dir := c.seg.dir, speed := none, stopTarget := none, approach := .none
          owner := none, cls := c.seg.cls }
      else c.seg }

/-- A count (R1): the counter follows the tape, and a count past an end of its range leaves it there and makes the
confidence LOST (R2). A count in reverse makes the last-gap position absent (R8). A count lost at an end is still the
count last taken, whose direction marker events and gap starts carry (R3, log entry 32). -/
def Transport.count (d : Dir) (x : Transport) : Transport :=
  match d with
  | .forward =>
    if x.cap.counter < Config.posMax then
      { x with cap := { x.cap with lastDir := .forward, counter := x.cap.counter + 1 } }
    else Transport.loseConfidence { x with cap := { x.cap with lastDir := .forward } }
  | .reverse =>
    if Config.posMin < x.cap.counter then
      { x with cap := { x.cap with lastDir := .reverse, counter := x.cap.counter - 1, lastGap := none } }
    else Transport.loseConfidence { x with cap := { x.cap with lastDir := .reverse, lastGap := none } }

/-- A drift correction moves the counter value at which a ramp from rest began with the counter, so that a short motion
still rests where the corrected counter reads the target (R13). -/
def Segment.shiftStart (amount : Int) (g : Segment) : Segment :=
  match g.cond with
  | .ramping r => { g with cond := .ramping { r with start := r.start.map (· + amount) } }
  | _ => g

/-- A drift correction (R17): discarded in LOST confidence; otherwise the amount is added to the counter, the
last-gap position and the EOT position, and COASTED becomes EXACT, unless the counter would leave its range: then it
takes the nearer end and the confidence becomes LOST. -/
def Transport.correct (amount : Int) (x : Transport) : Transport :=
  if x.cap.conf = .lost then x
  else
    let sum := x.cap.counter + amount
    let c := { x.cap with
      lastGap := x.cap.lastGap.map (· + amount)
      eotPos := x.cap.eotPos.map (· + amount)
      seg := x.cap.seg.shiftStart amount }
    if sum < Config.posMin then Transport.loseConfidence { x with cap := { c with counter := Config.posMin } }
    else if Config.posMax < sum then Transport.loseConfidence { x with cap := { c with counter := Config.posMax } }
    else { x with cap := { c with counter := sum, conf := .exact } }

/-! ### The gap-line filter (R6) -/

/-- A filter time in µs. -/
def FilterTime.us : FilterTime → Nat
  | .us0 => 0
  | .us20 => 20
  | .us40 => 40
  | .us80 => 80

/-- The raw line takes a level: a change from the filtered level is timed, or taken at once with a filter time of 0;
a return to it abandons the timing. -/
def GapFilter.rawChange (now : Nat) (l : GapLevel) (f : GapFilter) : GapFilter :=
  if l = f.raw then f
  else if l = f.level then { f with raw := l, since := none }
  else if f.time = .us0 then { f with raw := l, level := l, since := none }
  else { f with raw := l, since := some now }

/-- The filter time runs out with the raw line still at its new level. -/
def GapFilter.expire (f : GapFilter) : GapFilter :=
  match f.since with
  | some _ => { f with level := f.raw, since := none }
  | none => f

/-- A new filter time: a change already timed for at least the new time is taken now. -/
def GapFilter.setTime (now : Nat) (time : FilterTime) (f : GapFilter) : GapFilter :=
  match f.since with
  | some b => if time.us ≤ now - b then { f with time := time, level := f.raw, since := none } else { f with time := time }
  | none => { f with time := time }

end Sys2Proof.Machine
end

