-- ==== Sys2Proof/Machine/Flags.lean ====
section
/-! DEFINITION. The conditions and flags the controller computes from its state: loop zones, the armed set, the
present causes, the lamps, the notice flags, the attention line and the attention summary. -/

namespace Sys2Proof.Machine

open Sys2Proof

/-! ### Loop zones (R132) -/

/-- The zone of a depth under the loop parameters (R132). -/
def LoopParams.zoneOf (p : LoopParams) (d : Nat) : Zone :=
  if d < p.limitShort then .limitShort
  else if d < p.bandLow then .short
  else if d ≤ p.bandHigh then .center
  else if d ≤ p.limitLong then .long
  else .limitLong

def Zone.isLimit : Zone → Bool
  | .limitShort => true
  | .limitLong => true
  | _ => false

/-- The zone of a channel's latest result under the parameters in force (R131, R133). -/
def Transport.latestZone (r : Reel) (x : Transport) : Zone := x.loop.zoneOf (x.slotOf r).depth

/-- Both loops lie in CENTER (R113, R153). -/
def Transport.inBand (x : Transport) : Bool := x.latestZone .supply == .center && x.latestZone .takeup == .center

/-! ### Arming and present causes (R147, R152) -/

/-- The states in which the four loop causes and VACUUM LOSS are armed (R147). -/
def XState.loopsArmed : XState → Bool
  | .ready => true
  | .moving => true
  | .rewinding _ => true
  | .unloading (.ret _) => true
  | .loading .findLoadPoint => true
  | .recovering => true
  | _ => false

/-- Whether a cause is armed (R147). -/
def Transport.isArmed (x : Transport) : Cause → Bool
  | .supplyLoopShort => x.sequencer.state.loopsArmed
  | .supplyLoopLong => x.sequencer.state.loopsArmed
  | .takeupLoopShort => x.sequencer.state.loopsArmed
  | .takeupLoopLong => x.sequencer.state.loopsArmed
  | .vacuumLoss => x.sequencer.state.loopsArmed
  | .supplyStall => x.prot.driveEnable
  | .takeupStall => x.prot.driveEnable
  | .capstanTachLoss => x.cap.seg.driven
  | .doorOpen => x.sequencer.state != .unloaded
  | .powerOn => false
  | .recoveryTimeout => false

/-- The trip causes in the order of their codes (R176). -/
def Cause.all : List Cause :=
  [.supplyLoopShort, .supplyLoopLong, .takeupLoopShort, .takeupLoopLong, .vacuumLoss, .supplyStall, .takeupStall,
    .capstanTachLoss, .doorOpen, .powerOn, .recoveryTimeout]

/-- The armed set (R147). -/
def Transport.armed (x : Transport) : List Cause := Cause.all.filter x.isArmed

/-- A cause put into a set of causes (R151). -/
def addCause (c : Cause) (l : List Cause) : List Cause := Cause.all.filter fun k => k == c || l.contains k

/-- A cause is present: vacuum loss shown, the door open, or a loop in a limit zone (R152). -/
def Transport.causePresent (x : Transport) : Bool :=
  !x.prot.vacuum.debounced || x.prot.door.debounced || (x.latestZone .supply).isLimit
    || (x.latestZone .takeup).isLimit

/-! ### Lamps (R122) -/

inductive Lamp where
  | off | steady | flashing
deriving DecidableEq, Repr

def Transport.readyLamp (x : Transport) : Lamp :=
  match x.sequencer.state with
  | .ready => .steady
  | .moving => .steady
  | .loading _ => .flashing
  | .rewinding _ => .flashing
  | .unloading _ => .flashing
  | .recovering => .flashing
  | .unloaded => .off
  | .held => .off

def Transport.onlineLamp (x : Transport) : Lamp := if x.sequencer.online then .steady else .off

def Transport.holdLamp (x : Transport) : Lamp :=
  match x.sequencer.state with
  | .held => .steady
  | .recovering => .flashing
  | _ => .off

/-- The front-edge lamp of the transport's module is lit while the drive enable is on (R122, R145). -/
def Transport.frontLamp (x : Transport) : Lamp := if x.prot.driveEnable then .steady else .off

/-- A lamp is lit now: steadily, or in the lit half of the flash all lamps of the transport share (R122). -/
def Lamp.lit (flash : Bool) : Lamp → Bool
  | .off => false
  | .steady => true
  | .flashing => flash

/-! ### Notices (R169 to R171) -/

/-- DONE holds while the front of the order list is a completion record (R108). -/
def Transport.doneFlag (x : Transport) : Bool :=
  match x.orders.list with
  | .record _ :: _ => true
  | _ => false

/-- PASSED holds while a mark of the bound volume has its passed flag set (R43). -/
def State.passedFlag (t : TNum) (s : State) : Bool := (s.boundMarks t).any fun m => m.passed

/-- Some flag of the transport is set with its mask enabled (R171). -/
def State.attends (t : TNum) (s : State) : Bool :=
  let x := s.tr t
  (x.doneFlag && x.masks.done) || (x.flags.slots && x.masks.slots) || (s.passedFlag t && x.masks.passed)
    || (x.flags.hold && x.masks.hold) || (x.flags.state && x.masks.state)

/-- EVICT or LINE is set with its mask enabled (R171). -/
def State.controllerAttends (s : State) : Bool :=
  (s.ctl.evict && s.ctlMasks.evict) || (s.ctl.line && s.ctlMasks.line)

/-- The attention line is asserted exactly when some flag is set whose mask is enabled (R171). -/
def State.attention (s : State) : Bool :=
  s.attends .t0 || s.attends .t1 || s.attends .t2 || s.attends .t3 || s.controllerAttends

/-- A byte from its bits, bit 0 first (R176). -/
def byteOfBits (l : List Bool) : Byte := BitVec.ofNat 8 (l.foldr (fun b n => 2 * n + (if b then 1 else 0)) 0)

/-- The attention summary: bits 0 to 3 for T0 to T3, bit 4 for the controller (R171, R176). -/
def State.summary (s : State) : Byte :=
  byteOfBits [s.attends .t0, s.attends .t1, s.attends .t2, s.attends .t3, s.controllerAttends]

/-- The STATE flag is set (R127). -/
def Transport.noteState (x : Transport) : Transport := { x with flags := { x.flags with state := true } }

/-- The HOLD flag is set (R149, R154). -/
def Transport.noteHold (x : Transport) : Transport := { x with flags := { x.flags with hold := true } }

/-- The SLOTS flag is set (R108). -/
def Transport.noteSlots (x : Transport) : Transport := { x with flags := { x.flags with slots := true } }

/-- A transport reset clears SLOTS, HOLD and STATE (R175). -/
def Transport.clearEvents (x : Transport) : Transport :=
  { x with flags := { slots := false, hold := false, state := false } }

end Sys2Proof.Machine
end

