-- ==== Sys2Proof/Machine/Reels.lean ====
section
/-! DEFINITION. The Reel Drives of a transport: the drive enable, the wind and servo instructions, the drive from a
loop result, current limiting and the stall timer (spec/07). -/

namespace Sys2Proof.Machine

open Sys2Proof

/-! ### The drive enable (R138, R145) -/

/-- A Reel Drive while the drive enable is off (R138). -/
def ReelDrive.off (d : ReelDrive) : ReelDrive :=
  { d with output := 0, commanded := 0, limiting := false, stall := none, brake := true, overThisPeriod := false }

/-- The drive enable turns off: outputs fall to 0 and brakes are applied in the same event (R138, R145). -/
def Transport.driveOff (x : Transport) : Transport :=
  { x.modReels ReelDrive.off with prot := { x.prot with driveEnable := false } }

/-- The drive enable turns on: the brakes are released, the commanded drives stay as they are (R138, R145). -/
def Transport.driveOn (x : Transport) : Transport :=
  { x.modReels (fun d => { d with brake := false }) with prot := { x.prot with driveEnable := true } }

/-! ### The instructions of the Sequencer (R134, R136) -/

/-- A new commanded drive, which the output takes unless it is forced to 0 (R135, R138, R139). -/
def ReelDrive.command (enabled : Bool) (v : Int) (d : ReelDrive) : ReelDrive :=
  if enabled then { d with commanded := v, output := if d.limiting then 0 else v }
  else { d with commanded := 0, output := 0 }

/-- An instruction to both reels, with the fixed drive of each (R134, R136). -/
def Transport.instruct (mode : ReelMode) (entered : ReelDrive → Bool) (supply takeup : Int) (x : Transport) : Transport :=
  { x with
    supply := ReelDrive.command x.prot.driveEnable supply { x.supply with mode := mode, entered := entered x.supply }
    takeup := ReelDrive.command x.prot.driveEnable takeup { x.takeup with mode := mode, entered := entered x.takeup } }

/-- WIND THREAD (R134, R136). -/
def Transport.windThread (x : Transport) : Transport := x.instruct .thread (fun d => d.entered) 40 (-40)

/-- WIND RELEASE (R134, R136). -/
def Transport.windRelease (x : Transport) : Transport := x.instruct .release (fun d => d.entered) (-60) 0

/-- SERVO BY ZONE, filling: until its loop is seen, a reel pays tape in at +40 (R134, R136). -/
def Transport.servoFilling (x : Transport) : Transport := x.instruct .zone (fun _ => false) 40 40

/-- SERVO BY ZONE, loops present: the next result sets the drive (R134, R138). -/
def Transport.servoLoops (x : Transport) : Transport :=
  x.modReels fun d => { d with mode := .zone, entered := true }

/-! ### The drive from a loop result (R135 to R138) -/

/-- The feed-forward of a reel, with its sign (R135). -/
def feedForward (now : Nat) (r : Reel) (g : Segment) : Int :=
  let magnitude : Int := g.feed now
  match g.tapeDir, r with
  | some .forward, .supply => magnitude
  | some .forward, .takeup => -magnitude
  | some .reverse, .supply => -magnitude
  | some .reverse, .takeup => magnitude
  | none, _ => 0

/-- The zone correction of a depth (R135). -/
def LoopParams.correction (p : LoopParams) (d : Nat) : Int :=
  match p.zoneOf d with
  | .limitShort => (p.gain : Int) * ((p.bandLow : Int) - d)
  | .short => (p.gain : Int) * ((p.bandLow : Int) - d)
  | .center => 0
  | .long => -((p.gain : Int) * ((d : Int) - p.bandHigh))
  | .limitLong => -((p.gain : Int) * ((d : Int) - p.bandHigh))

/-- The clamp of a drive level (R135). -/
def clampDrive (v : Int) : Int := max (-127) (min 127 v)

/-- The zone and persistence count after a result in zone `z` (R137). -/
def ReelDrive.judge (z : Zone) (d : ReelDrive) : ReelDrive :=
  { d with
    zone := z
    persist := if z.isLimit then (if d.zone = z then min 4 (d.persist + 1) else 1) else 0 }

/-- The drive a result of depth `depth` commands in mode ZONE (R135, R136). -/
def ReelDrive.servo (now : Nat) (r : Reel) (p : LoopParams) (g : Segment) (depth : Nat) (d : ReelDrive) : ReelDrive :=
  let entered := d.entered || decide (depth < p.limitLong)
  let v := if entered then clampDrive (feedForward now r g + p.correction depth) else 40
  ReelDrive.command true v { d with entered := entered }

/-- A loop result taken by the Reel Drive of its reel (R135 to R138). With the drive enable off it keeps the zone and the
count only, and column entered stays as it was (R138, log entry 56). -/
def Transport.takeResult (now : Nat) (r : Reel) (depth : Nat) (x : Transport) : Transport :=
  x.modReel r fun d =>
    let judged := d.judge (x.loop.zoneOf depth)
    if x.prot.driveEnable && d.mode == .zone then judged.servo now r x.loop x.cap.seg depth else judged

/-- The cause of a loop trip (R137). -/
def loopCause : Reel → Zone → Option Cause
  | .supply, .limitShort => some .supplyLoopShort
  | .supply, .limitLong => some .supplyLoopLong
  | .takeup, .limitShort => some .takeupLoopShort
  | .takeup, .limitLong => some .takeupLoopLong
  | _, _ => none

/-- The loop trip the result just taken makes (R137). -/
def Transport.loopTrip (r : Reel) (x : Transport) : Option Cause :=
  let d := x.reel r
  if x.loop.persistence ≤ d.persist then loopCause r d.zone else none

/-- The cause of a stall (R140). -/
def stallCause : Reel → Cause
  | .supply => .supplyStall
  | .takeup => .takeupStall

/-! ### Current limiting (R139, R140) -/

/-- The comparator shows the current at or above the level; no current at all is never over (R139). -/
def overLevel (level current : Nat) : Bool := decide (level ≤ current) && decide (0 < current)

/-- An over-current event (R139, R140). -/
def ReelDrive.force (now : Nat) (d : ReelDrive) : ReelDrive :=
  { d with
    output := 0, limiting := true, overThisPeriod := true, forcedAt := now
    stall := some (d.stall.getD now) }

/-- The output resumes with the commanded drive as it then stands; a current still at the level forces it again at
once (R139). -/
def ReelDrive.resume (now level : Nat) (d : ReelDrive) : ReelDrive :=
  let free := { d with limiting := false, output := d.commanded }
  if overLevel level d.current then free.force now else free

/-- The motor current rises to `current` (R139). -/
def ReelDrive.overCurrent (now level current : Nat) (d : ReelDrive) : ReelDrive :=
  let seen := { d with current := current }
  if !d.limiting && overLevel level current then seen.force now else seen

/-- A period begins: a period that had no over-current event stops the stall timer, and a forced output resumes in
AT PERIOD (R139, R140). On an output that does not resume here a current at or above the level is noted and is no
over-current event (log entry 18). -/
def ReelDrive.periodStart (now level current : Nat) (mode : ResumeMode) (d : ReelDrive) : ReelDrive :=
  let fresh := { d with
    current := current, overThisPeriod := false, stall := if d.overThisPeriod then d.stall else none }
  if d.limiting && mode == .atPeriod then fresh.resume now level else fresh

/-- 20 µs have passed since the event: a forced output resumes in AFTER HOLD-OFF (R139), and elsewhere only the current
is noted (log entries 16, 18). -/
def ReelDrive.holdOff (now level current : Nat) (mode : ResumeMode) (d : ReelDrive) : ReelDrive :=
  let seen := { d with current := current }
  if d.limiting && mode == .afterHoldOff then seen.resume now level else seen

/-- A reel that takes note of over-current only while the drive enable is on (R138). -/
def Transport.whileEnabled (r : Reel) (current : Nat) (f : ReelDrive → ReelDrive) (x : Transport) : Transport :=
  if x.prot.driveEnable then x.modReel r f else x.modReel r fun d => { d with current := current }

/-- What SET DRIVE PARAMETERS does to a Reel Drive whose output is forced or whose current is now over the level
(R139, R141): a forced output whose 20 µs have passed resumes at once in AFTER HOLD-OFF. -/
def ReelDrive.newParams (now level : Nat) (mode : ResumeMode) (d : ReelDrive) : ReelDrive :=
  if d.limiting then
    if mode = .afterHoldOff ∧ Config.holdOff ≤ now - d.forcedAt then d.resume now level else d
  else if overLevel level d.current then d.force now
  else d

/-- The stall timer of a reel has already reached a stall time in ms (R140, R141). -/
def ReelDrive.stallReached (now ms : Nat) (d : ReelDrive) : Bool :=
  match d.stall with
  | some b => decide (1000 * ms ≤ now - b)
  | none => false

/-- A stall timer that has reached its time starts again from 0 (R140). -/
def ReelDrive.restartStall (now : Nat) (d : ReelDrive) : ReelDrive := { d with stall := some now }

end Sys2Proof.Machine
end

