-- ==== Sys2Proof/Machine/Capture.lean ====
section
/-! DEFINITION. The Capture Unit: windows, candidates, evaluation, passages and the barrier tests (spec/04). -/

namespace Sys2Proof.Machine

open Sys2Proof

/-- The Capture Unit of a transport changed. -/
def Transport.modCapture (f : Capture → Capture) (x : Transport) : Transport := { x with capture := f x.capture }

/-! ### Evaluation (R66 to R70, R73) -/

/-- The candidates of the open windows after a drift correction: shifted by its amount, and discarded where they
fall outside their window (R69). -/
def Capture.shift (amount : Int) (c : Capture) : Capture :=
  { c with
    windows := c.windows.map fun w =>
      match w.candidate with
      | some k =>
        if w.low ≤ k + amount ∧ k + amount ≤ w.high then { w with candidate := some (k + amount) }
        else { w with candidate := none, fixed := false }
      | none => w }

/-- The doubt update (R62, R70). -/
def State.doubt (t : TNum) (n : Nat) (s : State) : State :=
  s.modBoundMarks t (updateNumber n fun m => { m with state := .doubtful })

/-- The verify update: the mark is VERIFIED at the gap and takes its place in the list (R62, R67). -/
def State.verify (t : TNum) (n : Nat) (gap : Int) (s : State) : State :=
  s.modBoundMarks t (moveNumber n fun m => { m with state := .verified, pos := gap })

/-- The evaluation of a mark by the window `w`, which has already left the set (R67, R68, R70, R73). One that closes without
a candidate doubts its mark, also where that was made a barrier inside the window (log entry 52). -/
def State.evaluate (t : TNum) (w : Window) (s : State) : State :=
  match findNumber w.number (s.boundMarks t), w.candidate with
  | none, _ => s
  | some _, none => s.doubt t w.number
  | some m, some gap =>
    if m.state = .verified then
      s.upd t fun x => (x.correct (m.pos - gap)).modCapture (Capture.shift (m.pos - gap))
    else if (s.tr t).cap.conf = .exact then s.verify t w.number gap
    else s

/-- The window of mark `n` leaves the set and its mark is evaluated. -/
def State.closeWindow (t : TNum) (s : State) (n : Nat) : State :=
  match (s.tr t).capture.windowOf n with
  | some w => (s.upd t fun x => x.modCapture (Capture.dropWindow n)).evaluate t w
  | none => s

/-- The numbers of the marks whose open windows satisfy `p`, in list order (R66, R82). -/
def State.windowMarks (t : TNum) (p : Window → Bool) (s : State) : List Nat :=
  (s.boundMarks t).filterMap fun m =>
    match (s.tr t).capture.windowOf m.number with
    | some w => if p w then some m.number else none
    | none => none

/-- The windows whose high bound the counter has gone above close, in list order (R66). -/
def State.closings (t : TNum) (s : State) : State :=
  (s.windowMarks t fun w => decide (w.high < (s.tr t).cap.counter)).foldl (State.closeWindow t) s

/-- At rest the window of mark `n` is evaluated if its candidate is fixed still: a correction may have discarded it
(R69, R73). -/
def State.closeFixed (t : TNum) (s : State) (n : Nat) : State :=
  match (s.tr t).capture.windowOf n with
  | some w => if w.fixed then s.closeWindow t n else s
  | none => s

/-- The segment comes to rest: windows with a fixed candidate are evaluated, in list order (log entry 42), all others
abandoned (R71, R73). -/
def State.windowsAtRest (t : TNum) (s : State) : State :=
  ((s.windowMarks t fun w => w.fixed).foldl (State.closeFixed t) s).upd t fun x => x.modCapture Capture.abandonAll

/-! ### Opening (R64) -/

/-- The confidence lets a window open for the mark (R64). -/
def Mark.trusted (c : Confidence) (m : Mark) : Bool :=
  c == .exact || (c == .coasted && m.state == .verified)

/-- The role of a window that opens for the mark (R72). -/
def Capture.roleOf (m : Mark) (c : Capture) : Role :=
  if c.target = some { number := m.number, pos := m.pos } then .target else .ordinary

/-- A window opened for the mark, with the parameters in force (R64). -/
def Capture.openWindow (c : Capture) (m : Mark) : Capture :=
  { c with
    windows := c.windows ++
      [{ number := m.number, low := m.pos - c.lead, high := m.pos + c.lag, role := c.roleOf m
         candidate := none, fixed := false }] }

/-- The windows that open at a forward count that brought the counter where it stands (R64). -/
def State.openings (t : TNum) (s : State) : State :=
  let x := s.tr t
  if x.sequencer.state = .moving ∧ x.cap.seg.readingForward then
    let fit := (s.boundMarks t).filter fun m =>
      m.pos - x.capture.lead == x.cap.counter && (m.trusted x.cap.conf && (x.capture.windowOf m.number).isNone)
    s.upd t fun y => { y with capture := fit.foldl Capture.openWindow y.capture }
  else s

/-! ### Candidates (R65, R72) -/

/-- A forward gap start at `p` offered to a window of the mark at `pos` (R65, R72). -/
def Window.offer (p pos : Int) (w : Window) : Window :=
  if w.low ≤ p ∧ p ≤ w.high then
    if w.fixed then w
    else
      let better := match w.candidate with
        | some k => decide ((p - pos).natAbs < (k - pos).natAbs)
        | none => true
      if w.role = .target then { w with candidate := some p, fixed := true }
      else if better then { w with candidate := some p }
      else w
  else w

/-- A forward gap start at `p` offered to every open window (R65). -/
def State.offerGap (t : TNum) (p : Int) (s : State) : State :=
  let marks := s.boundMarks t
  s.upd t fun x => x.modCapture fun c =>
    { c with
      windows := c.windows.map fun w =>
        match findNumber w.number marks with
        | some m => w.offer p m.pos
        | none => w }

/-! ### Passages (R75) -/

/-- The notice mode admits a direction (R43). -/
def NoticeMode.admits : NoticeMode → Dir → Bool
  | .none, _ => false
  | .forward, d => d == .forward
  | .reverse, d => d == .reverse
  | .both, _ => true

/-- The marks at position `p` have been passed in direction `d` (R43, R62, R75). -/
def State.passAt (t : TNum) (d : Dir) (p : Int) (s : State) : State :=
  s.modBoundMarks t fun l => l.map fun m => if m.pos = p ∧ m.mode.admits d then { m with passed := true } else m

/-- The passages of a count that took the counter from `old` to where it stands (R75). -/
def State.passages (t : TNum) (d : Dir) (old : Int) (s : State) : State :=
  let c := (s.tr t).cap
  if c.conf = .lost ∨ c.counter = old then s
  else
    match d with
    | .forward => s.passAt t .forward c.counter
    | .reverse => s.passAt t .reverse old

/-! ### Barriers (R76 to R79) -/

/-- The range of a mark: its open window's bounds, or else by the lead and the lag in force (R76). -/
def Transport.rangeOf (x : Transport) (m : Mark) : Int × Int :=
  match x.capture.windowOf m.number with
  | some w => (w.low, w.high)
  | none => (m.pos - x.capture.lead, m.pos + x.capture.lag)

/-- The kinds of order that barriers stop (R76). -/
def OrderKind.barred : OrderKind → Bool
  | .spaceF _ => true
  | .advance _ => true
  | .seekPos _ => true
  | .seekMark _ => true
  | _ => false

/-- A barrier would apply to an order of `kind` begun at `start`, if the capstan moved forward (R76). -/
def Transport.barredFrom (x : Transport) (kind : OrderKind) (start : Int) (m : Mark) : Bool :=
  m.kind == .barrier && (kind.barred && (x.cap.conf != .lost && decide (start < m.pos - x.capture.lead)))

/-- A mark is a barrier that applies to the running order, if the capstan moves forward (R76). -/
def Transport.wouldApply (x : Transport) (m : Mark) : Bool :=
  match x.running with
  | some (o, w) => w.phase != .approach && x.barredFrom o.kind w.start m
  | none => false

/-- A mark is a barrier that applies to the running order (R76). -/
def Transport.applies (x : Transport) (m : Mark) : Bool :=
  x.wouldApply m && (x.cap.seg.moving && x.cap.seg.tapeDir == some .forward)

/-- The counter lies in the range of the mark. -/
def Transport.inRange (x : Transport) (m : Mark) : Bool :=
  decide ((x.rangeOf m).1 ≤ x.cap.counter) && decide (x.cap.counter ≤ (x.rangeOf m).2)

/-- The first barrier of the bound volume whose range holds the head, for the check at an order's start (R79). -/
def State.barrierHere (t : TNum) (s : State) : Option Nat :=
  let x := s.tr t
  if x.cap.conf = .lost then none
  else ((s.boundMarks t).find? fun m => m.kind == .barrier && x.inRange m).map fun m => m.number

/-- The head reached the low bound of an applying barrier too fast to see a gap: that barrier, the first in list order where
several low bounds are met at one count (R78, log entry 58). -/
def State.barrierTooFast (t : TNum) (s : State) : Option Nat :=
  let x := s.tr t
  if x.cap.seg.seekingForward then
    ((s.boundMarks t).find? fun m => x.applies m && (x.rangeOf m).1 == x.cap.counter).map fun m => m.number
  else none

/-- The barrier watch that a crossing of a low bound at reading speed begins (R78, R74, log entry 17). -/
def State.watchLow (t : TNum) (s : State) : State :=
  let x := s.tr t
  if x.cap.seg.readingForward then
    let met := (s.boundMarks t).filter fun m => x.applies m && (x.rangeOf m).1 == x.cap.counter
    s.upd t fun y => y.modCapture fun c =>
      { c with
        watch := (c.watch.filter fun b => !(met.any fun m => m.number == b.number)) ++
          met.map fun m => { number := m.number, pos := m.pos, searched := true, gapSeen := false } }
  else s

/-- A barrier whose range has been passed: its number, whether it stops the order, and whether it is doubted with no
window of its own (R78, R74). -/
structure PassedBarrier where
  number : Nat
  stops : Bool
  doubts : Bool
deriving DecidableEq, Repr

/-- The barriers whose range a forward count has just passed, before the windows close (R78). One with a window of its own
is doubted by its closing alone (R70, log entry 52). A range changed by SET CAPTURE PARAMETERS under a watch is passed and
searched as it now stands (log entry 53). A correction over the range of a barrier with neither watch nor window passes
nothing (log entry 54). -/
def State.barriersPassed (t : TNum) (s : State) : List PassedBarrier :=
  let x := s.tr t
  (s.boundMarks t).filterMap fun m =>
    let entry := x.capture.watch.find? fun b => b.number == m.number && b.pos == m.pos
    let window := x.capture.windowOf m.number
    let high := (x.rangeOf m).2
    if x.applies m && (high + 1 == x.cap.counter
        || (decide (high < x.cap.counter) && (entry.isSome || window.isSome))) then
      let seen := (entry.map fun b => b.gapSeen).getD false
      some { number := m.number, stops := !seen
             doubts := !seen && (window.isNone && (entry.map fun b => b.searched).getD false) }
    else none

/-- The watches of barriers passed are ended, and those searched without a gap and without a window are doubted
(R74, R78). -/
def State.endWatches (t : TNum) (l : List PassedBarrier) (s : State) : State :=
  let dropped := s.upd t fun x => x.modCapture fun c =>
    { c with watch := c.watch.filter fun b => !(l.any fun p => p.number == b.number) }
  l.foldl (fun acc p => if p.doubts then acc.doubt t p.number else acc) dropped

/-- A forward gap start at `p` inside the ranges of applying barriers: the first of them (R77). -/
def State.barrierAtGap (t : TNum) (p : Int) (s : State) : Option Nat :=
  let x := s.tr t
  ((s.boundMarks t).find? fun m =>
      x.applies m && (decide ((x.rangeOf m).1 ≤ p) && decide (p ≤ (x.rangeOf m).2))).map fun m => m.number

/-- A gap start at `p` was taken in the ranges of applying barriers under watch. -/
def State.noteGapSeen (t : TNum) (p : Int) (s : State) : State :=
  let x := s.tr t
  let inside := (s.boundMarks t).filter fun m =>
    x.applies m && (decide ((x.rangeOf m).1 ≤ p) && decide (p ≤ (x.rangeOf m).2))
  s.upd t fun y => y.modCapture fun c =>
    { c with watch := c.watch.map fun b => if inside.any fun m => m.number == b.number then { b with gapSeen := true } else b }

/-- A window made the window in which a barrier stops an order at the gap start at `p`; a candidate fixed at an earlier
gap start is kept (R65, R72, R77). -/
def Window.fixAt (p : Int) (w : Window) : Window :=
  if w.fixed && w.candidate != some p then w else { w with role := .barrier, candidate := some p, fixed := true }

/-- The window of the barrier that stops an order takes the gap start as its fixed candidate (R72, R77). -/
def State.fixBarrier (t : TNum) (n : Nat) (p : Int) (s : State) : State :=
  s.upd t fun x => x.modCapture (Capture.modWindow n (Window.fixAt p))

/-- A barrier that has ceased to apply to the running order is watched no longer: where it comes to apply again with the
head inside its range it is not doubted (R78, R80, R81). -/
def State.pruneWatches (t : TNum) (s : State) : State :=
  match (s.tr t).running with
  | none => s
  | some _ =>
    let held := (s.boundMarks t).filter (s.tr t).applies
    s.upd t fun x => x.modCapture fun c =>
      { c with watch := c.watch.filter fun b => held.any fun m => m.number == b.number }

end Sys2Proof.Machine
end

