-- ==== Sys2Proof/Machine/Sequence.lean ====
section
/-! DEFINITION. The motions the Sequencer begins: RUN requests with the class chosen, the start of a rewind, of
RELEASE and of an unload, and the failure of a load (spec/06, R114, R116, R119). -/

namespace Sys2Proof.Machine

open Sys2Proof

/-- A RUN request of block `o`; a start from rest chooses the class (R10, R11). -/
def State.run (t : TNum) (o : Owner) (r : RunReq) (s : State) : State :=
  s.upd t (Transport.run s.clock (s.chosenClass t) o r)

/-- An establishing approach: forward at CREEP speed (R4). -/
def establish : RunReq := { dir := .forward, speed := .creep, target := none, approach := .establishing }

/-- A reverse run of a rewind. -/
def reverseRun (v : Speed) (target : Option Int) : RunReq :=
  { dir := .reverse, speed := v, target := target, approach := .none }

/-- The first phase of a rewind and its motion, by the leader flag, the confidence and the counter (R116). -/
def Transport.rewindPlan (x : Transport) : RewindPhase × RunReq :=
  if x.sequencer.leader then (.settle, establish)
  else if x.cap.conf = .lost then (.fast, reverseRun .seek none)
  else if Config.rewindSlowDown < x.cap.counter then (.fast, reverseRun .rewind none)
  else if Config.rewindApproach < x.cap.counter then (.fast, reverseRun .seek (some Config.rewindApproach))
  else (.approach, reverseRun .creep none)

/-- A rewind begins, as REWINDING or as UNLOADING RETURN (R116). -/
def State.beginRewind (t : TNum) (as : RewindPhase → XState) (s : State) : State :=
  let plan := (s.tr t).rewindPlan
  (s.upd t fun x => (x.setState (as plan.1)).modSeq fun q => { q with ending := false, lpStop := false }).run t
    .sequencer plan.2

/-- The start of RELEASE: the supply reel winds the tape back, in reverse (R119). -/
def State.beginRelease (t : TNum) (s : State) : State :=
  s.upd t fun x =>
    let y := (x.setState (.unloading .release)).modSeq fun q =>
      { q with valveOpen := false, quiet := some s.clock, ending := false, lpStop := false }
    (y.free .reverse).windRelease

/-- An unload begins: with RELEASE if the capstan is at rest at the load point in EXACT confidence, else with RETURN
(R119). -/
def State.beginUnload (t : TNum) (panel : Bool) (s : State) : State :=
  let x := s.tr t
  let marked := s.upd t fun y => y.modSeq fun q => { q with panelMotion := panel }
  if x.cap.seg.cond = .atRest ∧ x.cap.counter = 0 ∧ x.cap.conf = .exact then marked.beginRelease t
  else marked.beginRewind t fun p => .unloading (.ret p)

/-- A load that fails (R114). -/
def State.loadFail (t : TNum) (result : LoadResult) (s : State) : State :=
  (s.upd t fun x => (x.modSeq fun q =>
    { q with loadTimer := none, loadResult := result, panelMotion := true }).noteState).beginRelease t

/-- The FILL phase ends when both loops lie in CENTER and vacuum is shown (R113). -/
def State.fillCheck (t : TNum) (s : State) : State :=
  let x := s.tr t
  if x.sequencer.state = .loading .fill ∧ x.inBand = true ∧ x.prot.vacuum.debounced = true then
    (s.upd t fun y => (y.setState (.loading .findLoadPoint)).modSeq fun q =>
      { q with loadTimer := none, searchCount := 0 }).run t .sequencer establish
  else s

end Sys2Proof.Machine
end

