-- ==== Sys2Proof/Machine/Orders.lean ====
section
/-! DEFINITION. The Order Slots: runout, legs, start checks, the start and the end of an order, and the replanning at
a barrier change (spec/05, R83 to R100). -/

namespace Sys2Proof.Machine

open Sys2Proof

/-! ### Records (R85, R103) -/

/-- The count done of a running order (R85). -/
def countDone (o : Order) (w : Work) : Nat :=
  match o.kind with
  | .spaceF _ => w.count
  | .spaceR _ => w.count
  | .advance _ => (min 65535 (max 0 w.net)).toNat
  | _ => 0

/-- The mark number of a record (R85). -/
def recordMark (kind : OrderKind) (status : Completion) (barrier : Option Nat) : Option Nat :=
  match status, kind with
  | .barrier, _ => barrier
  | _, .seekMark m => some m
  | _, _ => none

/-- The record of an order that its start checks end (R87). -/
def Order.endedAtStart (o : Order) (status : Completion) (barrier : Option Nat) (counter : Int) : Record :=
  { tag := o.tag, kind := o.kind, status := status, count := 0, finalPos := some counter
    markNumber := recordMark o.kind status barrier }

/-- The record of an order that ran (R85, R88). -/
def Order.ended (o : Order) (w : Work) (status : Completion) (counter : Int) : Record :=
  { tag := o.tag, kind := o.kind, status := status, count := countDone o w, finalPos := some counter
    markNumber := recordMark o.kind status w.barrier }

/-- The record of a discarded order (R103). -/
def Order.discarded (o : Order) : Record :=
  { tag := o.tag, kind := o.kind, status := .discarded, count := 0, finalPos := none
    markNumber := recordMark o.kind .discarded none }

/-- A discard: every pending order becomes a DISCARDED record in its own slot (R103). -/
def Transport.discard (x : Transport) : Transport :=
  x.modList fun l => l.map fun sl =>
    match sl with
    | .pending o => .record o.discarded
    | other => other

/-- The number of pending orders (R103). -/
def Transport.pendingCount (x : Transport) : Nat := (x.orders.list.filter Slot.isPending).length

/-! ### RUN requests of an order (R89) -/

/-- The stop target of a RUN request of an order, and whether it came from the runout position (R89). -/
def Transport.runoutLimit (d : Dir) (target : Option Int) (x : Transport) : Option Int × Bool :=
  match d, x.cap.runout, target with
  | .forward, some r, none => (some r, true)
  | .forward, some r, some p => if r < p then (some r, true) else (some p, false)
  | _, _, _ => (target, false)

/-- A RUN request of the Order Slots: going forward past EOT it carries a stop target no higher than the runout
position (R89). One refused in COASTING or FREE is kept as the Order Slots worked it out, without the runout position:
that is the one in force when it is made again (R11, `State.retryOrders`). -/
def State.orderRun (t : TNum) (r : RunReq) (s : State) : State :=
  if (s.tr t).cap.seg.undriven then s.upd t fun x => { x with cap := x.cap.refuse .orders (.run r) }
  else
    let limit := (s.tr t).runoutLimit r.dir r.target
    (s.upd t fun x => x.modWork fun _ w => { w with runoutTarget := limit.2 }).run t .orders { r with target := limit.1 }

/-- A RUN request of the Order Slots that is no approach. -/
def plainRun (d : Dir) (v : Speed) (target : Option Int) : RunReq :=
  { dir := d, speed := v, target := target, approach := .none }

/-! ### Legs (R90) -/

/-- The slow-down point of a leg for an order of `kind` begun at `start` (R90). A barrier ahead of the head is one whose
position lies above the counter (log entry 17). -/
def State.slowDownPoint (t : TNum) (kind : OrderKind) (start : Int) (d : Dir) (endPoint : Int) (s : State) : Int :=
  match d with
  | .reverse => endPoint + Config.approachDistance
  | .forward =>
    let x := s.tr t
    let first := (s.boundMarks t).find? fun m => x.barredFrom kind start m && decide (x.cap.counter < m.pos)
    let plain := endPoint - Config.approachDistance
    match first with
    | some m => min plain ((x.rangeOf m).1 - Config.approachDistance)
    | none => plain

/-- A leg from the head (R90). -/
def State.planLeg (t : TNum) (kind : OrderKind) (start : Int) (d : Dir) (endPoint : Int) (rests : Bool) (s : State) : Leg :=
  { dir := d, endPoint := endPoint, slowDown := s.slowDownPoint t kind start d endPoint, rests := rests }

/-- A leg begun at `counter` is run at SEEK speed (R90). -/
def Leg.atSeek (counter : Int) (l : Leg) : Bool :=
  match l.dir with
  | .forward =>
    decide (Config.seekThreshold < l.endPoint - counter) && decide (Config.seekMinRun < l.slowDown - counter)
  | .reverse => decide (Config.seekThreshold < counter - l.endPoint)

/-- The RUN request at READ speed of a leg (R90). -/
def Leg.readRun (l : Leg) : RunReq := plainRun l.dir .read (if l.rests then some l.endPoint else none)

/-- The RUN request at READ speed of the leg the running order is in; the phase becomes READ LEG (R84, R90). -/
def State.readLeg (t : TNum) (s : State) : State :=
  match (s.tr t).running with
  | some (_, w) => (s.upd t fun x => x.modWork fun _ k => { k with phase := .readLeg }).orderRun t w.leg.readRun
  | none => s

/-- The first motion request of a leg (R90). -/
def State.beginLeg (t : TNum) (l : Leg) (s : State) : State :=
  let set := s.upd t fun x => x.modWork fun _ w => { w with leg := l }
  if l.atSeek (s.tr t).cap.counter then
    (set.upd t fun x => x.modWork fun _ w => { w with phase := .fast }).orderRun t (plainRun l.dir .seek none)
  else set.readLeg t

/-- The search of a SEEK_MARK begins: forward at READ speed (R98, R99). -/
def State.beginSearch (t : TNum) (s : State) : State :=
  (s.upd t fun x => x.modWork fun _ w => { w with phase := .search, reason := none }).orderRun t
    (plainRun .forward .read none)

/-- The slow-down point of a leg run at SEEK speed has been reached (R90). -/
def Work.mustSlow (counter : Int) (w : Work) : Bool :=
  w.phase == .fast &&
    match w.leg.dir with
    | .forward => decide (w.leg.slowDown ≤ counter)
    | .reverse => decide (counter ≤ w.leg.slowDown)

/-- The watch of the slow-down point (R90). -/
def State.slowWatch (t : TNum) (s : State) : State :=
  match (s.tr t).running with
  | some (_, w) => if w.mustSlow (s.tr t).cap.counter then s.readLeg t else s
  | none => s

/-- A change to a barrier, or to the lead, is reported: a forward leg still at SEEK speed is planned anew (R80, R90). -/
def State.replan (t : TNum) (s : State) : State :=
  match (s.tr t).running with
  | some (o, w) =>
    if w.phase = .fast ∧ w.leg.dir = .forward then
      (s.upd t fun x => x.modWork fun _ k =>
        { k with leg := { k.leg with slowDown := s.slowDownPoint t o.kind w.start .forward w.leg.endPoint } }).slowWatch t
    else s
  | none => s

/-! ### Start (R87, R93 to R98) -/

/-- The length of the bound volume, or that of an unbound transport (R97). -/
def State.tapeLength (t : TNum) (s : State) : Int :=
  match s.boundVol t with
  | some v => v.length
  | none => Config.posMax

/-- A target position lies outside what the tape allows (R97, R98), a mark beyond the length too, although R29 says that
it can still be sought (log entry 60). -/
def State.outOfRange (t : TNum) (p : Int) (s : State) : Bool :=
  decide (p < 0) || decide (s.tapeLength t < p) ||
    match (s.tr t).cap.runout with
    | some r => decide (r < p)
    | none => false

/-- The counter is at or above the runout position (R89). -/
def Transport.atRunout (x : Transport) : Bool :=
  match x.cap.runout with
  | some r => decide (r ≤ x.cap.counter)
  | none => false

/-- A head inside a barrier's range ends an order whose first motion is forward (R79, R91). -/
def State.barrierCheck (t : TNum) (s : State) : Option (Completion × Option Nat) :=
  match s.barrierHere t with
  | some n => some (.barrier, some n)
  | none => none

/-- The approach point of a SEEK_MARK (R98). -/
def Transport.approachPoint (p : Int) (x : Transport) : Int := p - x.capture.lead - Config.approachDistance

/-- The start checks of an order: the status that ends it at once, with the barrier's number (R89, R93, R96 to R98). A
SEEK_MARK to a mark beyond the length completes RANGE (R98 beside R29, log entry 60). -/
def State.startCheck (t : TNum) (kind : OrderKind) (s : State) : Option (Completion × Option Nat) :=
  let x := s.tr t
  match kind with
  | .spaceF _ => if x.atRunout then some (.runout, none) else s.barrierCheck t
  | .advance _ => if x.atRunout then some (.runout, none) else s.barrierCheck t
  | .seekPos p =>
    if x.cap.conf = .lost then some (.noPosition, none)
    else if s.outOfRange t p then some (.range, none)
    else if x.cap.counter = p then some (.complete, none)
    else if x.cap.counter < p then s.barrierCheck t
    else none
  | .seekMark m =>
    if x.cap.conf = .lost then some (.noPosition, none)
    else
      match findNumber m (s.boundMarks t) with
      | none => some (.noMark, none)
      | some k =>
        if s.outOfRange t k.pos then some (.range, none)
        else if x.cap.counter < x.approachPoint k.pos then s.barrierCheck t
        else none
  | _ => none

/-- The working values of an order that starts with the counter at `counter` (R87). -/
def Work.fresh (counter : Int) (phase : OrderPhase) : Work :=
  { start := counter, count := 0, blank := 0, copied := none, targetRetired := false, phase := phase, reason := none
    barrier := none, leg := { dir := .forward, endPoint := counter, slowDown := counter, rests := false }
    runoutTarget := false, halted := false, haltTravel := 0, net := 0 }

/-- The plan of an order that has passed its start checks, its slot being the running one (R87, R93 to R100). -/
def State.beginPlan (t : TNum) (kind : OrderKind) (s : State) : State :=
  let x := s.tr t
  let moving := s.upd t (Transport.setState .moving)
  let here := x.cap.counter
  match kind with
  | .spaceF _ => moving.orderRun t (plainRun .forward .read none)
  | .spaceR _ => moving.orderRun t (plainRun .reverse .read none)
  | .advance d => moving.orderRun t (plainRun .forward .read (some (min (here + d) Config.posMax)))
  | .seekPos p =>
    moving.beginLeg t (s.planLeg t kind here (if here < p then .forward else .reverse) p true)
  | .seekMark m =>
    match findNumber m (s.boundMarks t) with
    | none => moving
    | some k =>
      let a := x.approachPoint k.pos
      let named := moving.upd t fun y =>
        (y.modWork fun _ w => { w with copied := some k.pos }).modCapture fun c =>
          { c with target := some { number := m, pos := k.pos } }
      if here < a then named.beginLeg t (s.planLeg t kind here .forward a false)
      else if a < here then named.beginLeg t (s.planLeg t kind here .reverse a true)
      else named.beginSearch t
  | .rewind =>
    (s.upd t fun y => y.modSeq fun q => { q with panelMotion := false }).beginRewind t .rewinding
  | .unload => s.beginUnload t false

/-- The phase an order begins in (R84). -/
def OrderKind.firstPhase : OrderKind → OrderPhase
  | .rewind => .sequence
  | .unload => .sequence
  | _ => .readLeg

/-- The oldest pending order starts: its slot becomes the running one, and its plan begins (R87). -/
def State.launch (t : TNum) (kind : OrderKind) (s : State) : State :=
  (s.upd t fun x => x.modList (replaceOldest fun o => .running o (Work.fresh x.cap.counter kind.firstPhase))).beginPlan t kind

/-- The oldest pending order of a READY online transport without a running order starts; one that its start checks
end is followed by the next in turn (R87, R88). `fuel` bounds the orders there can be. -/
def State.startPending (t : TNum) : Nat → State → State
  | 0, s => s
  | fuel + 1, s =>
    let x := s.tr t
    if x.sequencer.state = .ready ∧ x.sequencer.online = true ∧ x.running = none then
      match oldestPending x.orders.list with
      | none => s
      | some o =>
        match s.startCheck t o.kind with
        | some (status, barrier) =>
          State.startPending t fuel
            (s.upd t (Transport.modList (replaceOldest fun k => .record (k.endedAtStart status barrier x.cap.counter))))
        | none => s.launch t o.kind
    else s

/-- The oldest pending order starts, if one may (R87). -/
def State.startNext (t : TNum) (s : State) : State := s.startPending t (s.tr t).orders.list.length

/-! ### End (R88) -/

/-- The running slot becomes a completion record, and the Capture Unit forgets the order (R85, R88, R105). -/
def Transport.makeRecord (status : Completion) (x : Transport) : Transport :=
  (x.modList (replaceRunning fun o w => .record (o.ended w status x.cap.counter))).modCapture fun c =>
    { c with target := none, watch := [] }

/-- The running order ends at rest with `status`; the transport takes state `next`, and the oldest pending order
starts if it may (R88). -/
def State.orderEnd (t : TNum) (status : Completion) (next : XState) (s : State) : State :=
  (s.upd t fun x => (x.makeRecord status).setState next).startNext t

end Sys2Proof.Machine
end

