-- ==== Sys2Proof/Machine/AtRest.lean ====
section
/-! DEFINITION. What the owners of a segment do at the at-rest event, the STOP request, and the end of a coast
(spec/01 R11, R12, R16; spec/05 R88, R95, R98; spec/06 R113, R116 to R118). -/

namespace Sys2Proof.Machine

open Sys2Proof

/-! ### The at-rest event at the Order Slots -/

/-- The returning approach of a reverse order that met the load point (R95). -/
def returning : RunReq := { dir := .forward, speed := .creep, target := none, approach := .returning }

/-- The at-rest event in the APPROACH phase: the returning approach begins, and at its rezero the order ends LOAD
POINT, or a SEEK_MARK goes on to its search, or completes HALTED (R95). A forward approach that stopped at the runout
position ends RUNOUT (R89, log entry 25). -/
def State.approachAtRest (t : TNum) (o : Order) (w : Work) (rezero : Bool) (s : State) : State :=
  if rezero then
    match o.kind with
    | .seekMark _ => if w.halted then s.orderEnd t .halted .ready else s.beginSearch t
    | _ => s.orderEnd t .loadPoint .ready
  else if w.runoutTarget then s.orderEnd t .runout .ready
  else s.orderRun t returning

/-- The at-rest event at the Order Slots: the order ends with its stop reason (R88), or a SEEK_MARK at the end of its
reverse leg begins its search (R98; halted, it completes HALTED: log entry 14). -/
def State.ordersAtRest (t : TNum) (rezero : Bool) (s : State) : State :=
  match (s.tr t).running with
  | none => s
  | some (o, w) =>
    match w.phase with
    | .sequence => s
    | .approach => s.approachAtRest t o w rezero
    | _ =>
      match w.reason, o.kind with
      | some status, _ => s.orderEnd t status .ready
      | none, .seekMark _ => if w.halted then s.orderEnd t .halted .ready else s.beginSearch t
      | none, _ => s.orderEnd t .complete .ready

/-! ### The at-rest event at the Sequencer -/

/-- A sequence ends READY: for an order it is reported, and the order ends with `status`; for the panel, panel motion
is cleared and the STATE notice set (R117, R118). -/
def State.sequenceReady (t : TNum) (status : Completion) (s : State) : State :=
  let done := s.upd t fun x => x.modSeq fun q => { q with ending := false, lpStop := false }
  if (s.tr t).running.isSome then done.orderEnd t status .ready
  else done.upd t fun x => ((x.setState .ready).modSeq fun q => { q with panelMotion := false }).noteState

/-- The next phase of a rewind begins with its motion (R116, R117). -/
def State.nextRewindPhase (t : TNum) (p : RewindPhase) (r : RunReq) (s : State) : State :=
  (s.upd t fun x => x.setState (x.sequencer.state.withRewindPhase p)).run t .sequencer r

/-- The at-rest event of a rewind: in FAST it was stopped by the load point, by an ending, or at its stop target
(R116, R118); in SETTLE it is the rezero (R117). An UNLOAD ended in RETURN completes HALTED in either case (R118). -/
def State.rewindAtRest (t : TNum) (p : RewindPhase) (rezero : Bool) (s : State) : State :=
  let q := (s.tr t).sequencer
  let unload := match q.state with
    | .unloading _ => true
    | _ => false
  match p with
  | .fast =>
    if q.lpStop then s.nextRewindPhase t .settle establish
    else if q.ending then s.sequenceReady t .halted
    else s.nextRewindPhase t .approach (reverseRun .creep none)
  | .approach => s.nextRewindPhase t .settle establish
  | .settle =>
    if rezero then
      if unload then (if q.ending then s.sequenceReady t .halted else s.beginRelease t)
      else s.sequenceReady t .complete
    else s.run t .sequencer establish

/-- The at-rest event at the Sequencer (R113, R116, R117). -/
def State.sequencerAtRest (t : TNum) (rezero : Bool) (s : State) : State :=
  match (s.tr t).sequencer.state with
  | .loading .findLoadPoint =>
    if rezero then
      s.upd t fun x => ((x.setState .ready).modSeq fun q => { q with loadResult := .complete }).noteState
    else s.loadFail t .noLoadPoint
  | .rewinding p => s.rewindAtRest t p rezero
  | .unloading (.ret p) => s.rewindAtRest t p rezero
  | _ => s

/-- The at-rest event handed to a block (R9, R12). -/
def State.atRestEvent (t : TNum) (o : Owner) (rezero : Bool) (s : State) : State :=
  match o with
  | .orders => s.ordersAtRest t rezero
  | .sequencer => s.sequencerAtRest t rezero

/-! ### STOP requests (R12) -/

/-- A STOP request of block `o`: at rest the at-rest event is handed at once; in COASTING and FREE it is refused and
kept to be made again (R12). -/
def State.stop (t : TNum) (o : Owner) (s : State) : State :=
  match (s.tr t).cap.seg.cond with
  | .atRest => (s.upd t fun x => { x with cap := x.cap.accept o }).atRestEvent t o false
  | .coasting => s.upd t fun x => { x with cap := x.cap.refuse o .stop }
  | .free => s.upd t fun x => { x with cap := x.cap.refuse o .stop }
  | _ => s.upd t (Transport.stopDriven s.clock o)

/-- The Order Slots ask for a STOP of the running order, with its stop reason (R84, R91). -/
def State.stopOrder (t : TNum) (reason : Completion) (barrier : Option Nat) (s : State) : State :=
  (s.upd t fun x => x.modWork fun _ w =>
    { w with phase := .stopping, reason := some reason, barrier := barrier }).stop t .orders

/-- No stop is under way and no load-point approach is in progress: the order can still be stopped (R91, R101). -/
def OrderPhase.underWay : OrderPhase → Bool
  | .fast => true
  | .readLeg => true
  | .search => true
  | .haltSearch => true
  | _ => false

/-- A barrier stop taken by the Order Slots: a stop already under way stays as it was (R91). -/
def State.barrierStop (t : TNum) (n : Nat) (s : State) : State :=
  match (s.tr t).running with
  | some (_, w) => if w.phase.underWay then s.stopOrder t .barrier (some n) else s
  | none => s

/-! ### The end of a ramp and of a coast (R11, R12, R16) -/

/-- The capstan comes to rest at the end of a ramp down: windows end, an approach rezeroes, the segment is AT REST,
and its owner gets the at-rest event (R4, R12, R71). -/
def State.comeToRest (t : TNum) (rezero : Bool) (s : State) : State :=
  let owner := (s.tr t).cap.seg.owner
  let still := (s.windowsAtRest t).upd t fun x =>
    let c := if rezero then x.cap.rezero x.cap.seg.approach else x.cap
    { x with cap := { c with seg := c.seg.rested } }
  match owner with
  | some o => still.atRestEvent t o rezero
  | none => still

/-- The rest point of a change through rest: windows end, a new class is chosen, and the ramp to the requested speed
begins (R11, R71). -/
def State.throughRest (t : TNum) (s : State) : State :=
  let still := s.windowsAtRest t
  let c := still.chosenClass t
  still.upd t fun x =>
    let g := x.cap.seg
    let r : RunReq :=
      { dir := g.dir.getD .forward, speed := g.speed.getD .creep, target := g.stopTarget, approach := g.approach }
    Transport.decelWatch still.clock { x with cap := { x.cap with seg := g.startFromRest still.clock c x.cap.counter r } }

/-- The ramp in progress reaches its ending speed (R11, R12). -/
def State.rampEnd (t : TNum) (s : State) : State :=
  match (s.tr t).cap.seg.cond with
  | .ramping r =>
    match r.goal with
    | .toSpeed => s.upd t fun x => { x with cap := { x.cap with seg := { x.cap.seg with cond := .running } } }
    | .throughRest => s.throughRest t
    | .toRest rezero => s.comeToRest t rezero
  | _ => s

/-- A request refused in COASTING made again by the Order Slots, if its order is still in progress; a RUN takes its stop
target by the runout position then in force (R11, R89). -/
def State.retryOrders (t : TNum) (s : State) : State :=
  let clear := s.upd t fun x => { x with cap := x.cap.accept .orders }
  match (s.tr t).cap.refusedOrders, (s.tr t).running with
  | some (.run r), some _ => clear.orderRun t r
  | some .stop, some _ => clear.stop t .orders
  | _, _ => clear

/-- The Sequencer is in a sequence that moves the tape with the capstan (R109). -/
def XState.driven : XState → Bool
  | .loading .findLoadPoint => true
  | .rewinding _ => true
  | .unloading (.ret _) => true
  | _ => false

/-- The same for the Sequencer, if its sequence is still in progress (R11). -/
def State.retrySequencer (t : TNum) (s : State) : State :=
  let clear := s.upd t fun x => { x with cap := x.cap.accept .sequencer }
  if (s.tr t).sequencer.state.driven then
    match (s.tr t).cap.refusedSequencer with
    | some (.run r) => clear.run t .sequencer r
    | some .stop => clear.stop t .sequencer
    | none => clear
  else clear

/-- A COASTING segment becomes AT REST without an at-rest event, and refused requests are made again (R11, R16). -/
def State.coastEnd (t : TNum) (s : State) : State :=
  match (s.tr t).cap.seg.cond with
  | .coasting =>
    ((s.upd t fun x => { x with cap := { x.cap with seg := x.cap.seg.rested } }).retryOrders t).retrySequencer t
  | _ => s

end Sys2Proof.Machine
end

