-- ==== Sys2Proof/Machine/Halt.lean ====
section
/-! DEFINITION. Halts: of the running order, of a rewind, of everything on a transport, and by the resets (spec/05
R101 to R106, spec/06 R118, R121, R126). -/

namespace Sys2Proof.Machine

open Sys2Proof

/-- A rewind or an UNLOADING RETURN is ended: FAST stops at once, unless the load point has begun its stop; any other
phase goes on to its rezero. A second ending leaves the motion as it is (R118). -/
def State.endRewind (t : TNum) (s : State) : State :=
  let q := (s.tr t).sequencer
  let marked := s.upd t fun x => x.modSeq fun k => { k with ending := true }
  match q.state.rewindPhase? with
  | some .fast => if q.lpStop || q.ending then marked else marked.stop t .sequencer
  | some _ => marked
  | none => s

/-- A halt reached the running order (R102). -/
def State.markHalted (t : TNum) (s : State) : State :=
  s.upd t fun x => x.modWork fun _ w => { w with halted := true }

/-- The kinds of order whose halt looks for the next gap (R101). -/
def OrderKind.isSpace : OrderKind → Bool
  | .spaceF _ => true
  | .spaceR _ => true
  | _ => false

/-- An UNLOAD runs in its RELEASE phase: a halt does not reach it (R101, R104). -/
def Transport.releasing (x : Transport) : Bool := x.running.isSome && x.sequencer.state == .unloading .release

/-- The running order is halted, by what it is doing (R101). -/
def State.haltRunning (t : TNum) (s : State) : State :=
  match (s.tr t).running with
  | none => s
  | some (o, w) =>
    if (s.tr t).releasing then s
    else
      match w.phase with
      | .sequence => (s.markHalted t).endRewind t
      | .approach => s.markHalted t
      | .stopping => s.markHalted t
      | .haltSearch => s.markHalted t
      | _ =>
        if o.kind.isSpace then
          s.upd t fun x => x.modWork fun _ k => { k with phase := .haltSearch, halted := true, haltTravel := 0 }
        else (s.markHalted t).stopOrder t .halted none

/-- HALT's effect on a transport: pending orders are discarded and the running order is halted; nothing without a
running order (R101). -/
def State.haltOrders (t : TNum) (s : State) : State :=
  if (s.tr t).running.isSome then (s.upd t Transport.discard).haltRunning t else s

/-- Going offline: the online flag is cleared, and the orders are halted (R104, R121). -/
def State.goOffline (t : TNum) (s : State) : State :=
  (s.upd t fun x => x.modSeq fun q => { q with online := false }).haltOrders t

/-- ALL STOP on one transport: its orders are halted, and a panel rewind or a panel unload in RETURN is ended
(R104, R126). -/
def State.allStopOne (t : TNum) (s : State) : State :=
  if (s.tr t).running.isSome then s.haltOrders t
  else if (s.tr t).sequencer.panelMotion then s.endRewind t
  else s

/-- Records and pending orders are dropped (R106). -/
def Transport.dropOrders (x : Transport) : Transport := x.modList fun l => l.filter Slot.isRunning

/-- A reset halts the running order: SPACE orders stop at once too (R106, log entry 38). -/
def State.resetRunning (t : TNum) (s : State) : State :=
  match (s.tr t).running with
  | none => s
  | some (_, w) =>
    if (s.tr t).releasing then s
    else
      match w.phase with
      | .sequence => (s.markHalted t).endRewind t
      | .approach => s.markHalted t
      | .stopping => s.markHalted t
      | _ => (s.markHalted t).stopOrder t .halted none

/-- What a reset does at the Order Slots of a transport (R106). -/
def State.resetOrders (t : TNum) (s : State) : State := (s.upd t Transport.dropOrders).resetRunning t

end Sys2Proof.Machine
end

