-- ==== Sys2Proof/Machine/Hold.lean ====
section
/-! DEFINITION. Trips, the hold entry, recovery and its failure, the forced unload, and the transport reset (spec/08;
spec/06 R123 to R125). -/

namespace Sys2Proof.Machine

open Sys2Proof

/-! ### The hold entry (R149) -/

/-- The hold record as a hold entry rewrites it (R149). -/
def HoldRecord.entered (cause : Cause) (counter : Int) (st : XState) : HoldRecord :=
  { active := true, primary := some cause, position := some counter, state := some st, further := [], failed := false }

/-- The load result after a hold entry (R114, R123). -/
def Sequencer.resultAfterHold (q : Sequencer) : LoadResult :=
  match q.state with
  | .loading _ => .interrupted
  | _ => q.loadResult

/-- The Sequencer's answer to a hold entry (R123). -/
def Sequencer.holdEntry (q : Sequencer) : Sequencer :=
  { q with
    state := .held, panelMotion := false, loadTimer := none, quiet := none, ending := false, lpStop := false
    loadResult := q.resultAfterHold }

/-- What is armed as the transport becomes HELD (R147, R151, log entry 46). -/
def Transport.momentOf (now : Nat) (x : Transport) : HoldMoment :=
  { clock := now, supplyStall := x.supply.stall.isSome, takeupStall := x.takeup.stall.isSome
    tach := x.cap.seg.driven }

/-- The transport is HELD, and this is the very moment at which it became so: what was armed then (R147, R151). -/
def Transport.lateHold (now : Nat) (x : Transport) : Option HoldMoment :=
  if x.sequencer.state = .held then x.prot.moment.filter fun m => m.clock == now else none

/-- A reel's stall may still be handed at the moment of the hold entry (R149, R151), a pulse taken since then or not (log
entry 46). -/
def Transport.lateStall (now : Nat) (r : Reel) (x : Transport) : Bool :=
  match x.lateHold now, r with
  | some m, .supply => m.supplyStall
  | some m, .takeup => m.takeupStall
  | none, _ => false

/-- The capstan tachometer loss may still be handed at the moment of the hold entry (R2, R151). -/
def Transport.lateTach (now : Nat) (x : Transport) : Bool := ((x.lateHold now).map fun m => m.tach).getD false

/-- A hold entry, with every block's answer: the running order completes FAULT and the pending ones are discarded
(R105), windows are abandoned (R71), the drive is cut (R138, R145), the record is rewritten, the capstan coasts (R16),
the Sequencer is HELD (R123), and HOLD is set (R149). -/
def Transport.holdEntry (now : Nat) (cause : Cause) (x : Transport) : Transport :=
  let record := HoldRecord.entered cause x.cap.counter x.sequencer.state
  let ended := ((x.makeRecord .fault).discard.modCapture Capture.abandonAll).driveOff
  Transport.noteHold
    { ended with
      prot := { ended.prot with hold := record, moment := some (x.momentOf now) }
      cap := ended.cap.holdEntry
      sequencer := ended.sequencer.holdEntry }

/-! ### Causes (R146, R151, R154) -/

/-- A recovery fails with a cause (R154). -/
def Transport.recoveryFail (now : Nat) (cause : Cause) (x : Transport) : Transport :=
  let cut := (x.driveOff.setState .held).noteHold
  { cut with
    prot := { cut.prot with
      recovery := none, steady := none, moment := some (x.momentOf now)
      hold := { cut.prot.hold with further := addCause cause cut.prot.hold.further, failed := true } } }

/-- A cause taken by the Protection Unit, by the state of the transport (R146). -/
def Transport.takeCause (now : Nat) (cause : Cause) (x : Transport) : Transport :=
  match x.sequencer.state with
  | .unloaded => x
  | .held =>
    { x with prot := { x.prot with
        hold := { x.prot.hold with further := addCause cause x.prot.hold.further } } }
  | .recovering => x.recoveryFail now cause
  | _ => x.holdEntry now cause

/-- A cause handed if there is one. -/
def Transport.takeCause? (now : Nat) (cause : Option Cause) (x : Transport) : Transport :=
  match cause with
  | some c => x.takeCause now c
  | none => x

/-- The loop trip of the result just taken, handed if it is armed at that result: a result taken after a change of
arming is judged under the new arming (R137, R147, log entry 46). -/
def Transport.handTrip (now : Nat) (r : Reel) (x : Transport) : Transport :=
  x.takeCause? now ((x.loopTrip r).filter x.isArmed)

/-! ### Recovery (R124, R153) -/

/-- The steady measurement at a loop result: it runs while both loops lie in CENTER (R153). -/
def Transport.measureSteady (now : Nat) (x : Transport) : Transport :=
  { x with prot := { x.prot with steady := if x.inBand then some (x.prot.steady.getD now) else none } }

/-- A recovery begins (R124, R153). -/
def Transport.recoveryBegin (now : Nat) (x : Transport) : Transport :=
  let on := (((x.driveOn.setState .recovering).holdRest now).modSeq fun q => { q with valveOpen := true }).servoLoops
  Transport.measureSteady now { on with prot := { on.prot with recovery := some now, steady := none } }

/-- The recovery is steady (R153). -/
def Transport.recoverySteady (x : Transport) : Transport :=
  let done := x.setState .ready
  { done with
    prot := { done.prot with recovery := none, steady := none, hold := { done.prot.hold with active := false } } }

/-! ### The forced unload and the transport reset (R125, R156) -/

/-- A hold ends for a forced unload; a door still open trips the transport again (R148, R156). -/
def State.forcedUnload (t : TNum) (s : State) : State :=
  let freed := s.upd t fun x =>
    let on := x.driveOn.modSeq fun q => { q with panelMotion := true }
    { on with prot := { on.prot with hold := { on.prot.hold with active := false } } }
  (freed.beginRelease t).upd t fun x => x.takeCause? s.clock (if x.prot.door.debounced then some .doorOpen else none)

/-- A load abandoned by a transport reset (R114, R125). -/
def State.abandonLoad (t : TNum) (s : State) : State :=
  (s.upd t fun x => x.modSeq fun q =>
    { q with loadTimer := none, loadResult := .abandoned, panelMotion := true }).beginRelease t

/-- The transport reset at the Sequencer and the Protection Unit, by the state, the orders having been reset
(R125, R156). -/
def State.resetByState (t : TNum) (s : State) : State :=
  match (s.tr t).sequencer.state with
  | .rewinding _ => s.endRewind t
  | .unloading (.ret _) => s.endRewind t
  | .loading _ => s.abandonLoad t
  | .held => if (s.tr t).causePresent then s.forcedUnload t else s.upd t (Transport.recoveryBegin s.clock)
  | _ => s

/-- A transport reset: records and pending orders are dropped and the running order is halted (R106), SLOTS, HOLD and
STATE are cleared (R175), and the state decides the rest (R125). A running order is reached through its halt alone. -/
def State.resetTransport (t : TNum) (s : State) : State :=
  let cleared := s.upd t fun x => x.clearEvents.dropOrders
  if (s.tr t).running.isSome then cleared.resetRunning t else cleared.resetByState t

end Sys2Proof.Machine
end

