-- ==== Sys2Proof/Machine/Gap.lean ====
section
/-! DEFINITION. Gap starts: what the Order Slots, the Capture Unit and the barriers make of one, and the filter events
that give one (spec/01 R6 to R8; spec/04 R65, R72, R77; spec/05 R92 to R94, R99, R101). -/

namespace Sys2Proof.Machine

open Sys2Proof

/-- What a gap start makes the running order do. -/
inductive GapVerdict where
  | nothing
  | stop (status : Completion)
  | searchStop (status : Completion)
deriving DecidableEq, Repr

/-- The direction in which a SPACE order counts, and the count at which it stops (R92 to R94). -/
def OrderKind.space? : OrderKind → Option (Dir × Nat)
  | .spaceF n => some (.forward, n)
  | .spaceR n => some (.reverse, n)
  | _ => none

/-- The search range of a SEEK_MARK: the bounds of its open TARGET window, or else its copied target with the lead and
the lag in force (R99). -/
def Transport.searchRange (m : Nat) (copied : Int) (x : Transport) : Int × Int :=
  match x.capture.windowOf m with
  | some w => if w.role = .target then (w.low, w.high) else (copied - x.capture.lead, copied + x.capture.lag)
  | none => (copied - x.capture.lead, copied + x.capture.lag)

/-- The status a SEEK_MARK's stop in its target's gap gives (R99). -/
def Work.arrival (w : Work) : Completion := if w.targetRetired then .markRetired else .complete

/-- A gap start in the direction of a SPACE order that has begun no stop is counted (R92). -/
def Work.counts (d : Dir) (kind : OrderKind) (w : Work) : Bool :=
  match kind.space? with
  | some (dir, _) => d == dir && (w.phase == .readLeg || w.phase == .haltSearch)
  | none => false

/-- The counted gap start of a SPACE order (R92). -/
def Work.countGap (w : Work) : Work := { w with count := w.count + 1, blank := 0 }

/-- What a gap start at `p` makes the running order do, `w` having counted it: a SPACE order stops past EOT, at its
count, or in a halt search (R93, R94, R101, R102); a search stops in its range (R99). -/
def Transport.gapVerdict (d : Dir) (p : Int) (kind : OrderKind) (w : Work) (x : Transport) : GapVerdict :=
  match kind with
  | .spaceF n =>
    if w.counts d kind then
      if x.cap.pastEot then .stop .endOfTape
      else if w.count = n then .stop .complete
      else if w.phase = .haltSearch then .stop .halted
      else .nothing
    else .nothing
  | .spaceR n =>
    if w.counts d kind then
      if w.count = n then .stop .complete
      else if w.phase = .haltSearch then .stop .halted
      else .nothing
    else .nothing
  | .seekMark m =>
    match w.copied with
    | some c =>
      let range := x.searchRange m c
      if w.phase = .search ∧ d = .forward ∧ range.1 ≤ p ∧ p ≤ range.2 then .searchStop w.arrival
      else .nothing
    | none => .nothing
  | _ => .nothing

/-- A gap start at the Order Slots: it is counted, and it may stop the order; a barrier's stop at the same gap start
gives the status, except to a SEEK_MARK whose search stops there (R91 to R94, R99). -/
def State.gapOrders (t : TNum) (d : Dir) (p : Int) (barrier : Option Nat) (s : State) : State :=
  match (s.tr t).running with
  | none => s
  | some (o, w) =>
    let counted := if w.counts d o.kind then w.countGap else w
    let kept := s.upd t fun x => x.modWork fun _ _ => counted
    match (s.tr t).gapVerdict d p o.kind counted, barrier with
    | .searchStop status, _ => kept.stopOrder t status none
    | _, some n => kept.barrierStop t n
    | .stop status, none => kept.stopOrder t status none
    | .nothing, none => kept

/-- A gap-start event (R7): in forward motion the last-gap position is set (R8) and the candidates are taken (R65);
the Order Slots judge it, with the first applying barrier (R77), whose window takes it as its fixed candidate (R72).
Log entry 9 gives the order inside. -/
def State.gapEvent (t : TNum) (d : Dir) (p : Int) (s : State) : State :=
  match d with
  | .reverse => s.gapOrders t .reverse p none
  | .forward =>
    let barrier := s.barrierAtGap t p
    let seen := ((s.upd t fun x => { x with cap := { x.cap with lastGap := some p } }).offerGap t p).noteGapSeen t p
    let judged := seen.gapOrders t .forward p barrier
    match barrier with
    | some n => judged.fixBarrier t n p
    | none => judged

/-- A change of the filtered level from BLOCK to GAP is taken as a gap-start event if the transport is MOVING and the
capstan at CREEP or READ speed, or ramping between rest and READ (R7). -/
def State.gapStart (t : TNum) (s : State) : State :=
  let x := s.tr t
  if x.sequencer.state = .moving ∧ x.cap.seg.gapReady then s.gapEvent t x.cap.lastDir x.cap.counter else s

/-- A change of the gap-line filter, with the gap start it may give (R6, R7). -/
def State.filter (t : TNum) (f : GapFilter → GapFilter) (s : State) : State :=
  let old := (s.tr t).cap.filter.level
  let set := s.upd t fun x => { x with cap := { x.cap with filter := f x.cap.filter } }
  if old = .block ∧ (set.tr t).cap.filter.level = .gap then set.gapStart t else set

end Sys2Proof.Machine
end

