-- ==== Sys2Proof/Machine/Tach.lean ====
section
/-! DEFINITION. One tachometer count with all its watches (spec/01 R1; spec/04 R64, R66, R75, R78; spec/05 R90, R92,
R99, R101; spec/06 R113, R116), and the marker events (spec/01 R3 to R5). Log entry 8 gives the order inside a count. -/

namespace Sys2Proof.Machine

open Sys2Proof

/-! ### The distance limits -/

/-- The running order is a SPACE that has begun no stop: the blank-tape limit stops it (R92). -/
def State.blankStop (t : TNum) (s : State) : State :=
  match (s.tr t).running with
  | some (o, w) => if o.kind.isSpace && w.phase.underWay then s.stopOrder t .blank none else s
  | none => s

/-- The halt gap search runs out (R101). -/
def State.haltSearchEnd (t : TNum) (s : State) : State :=
  match (s.tr t).running with
  | some (_, w) => if w.phase = .haltSearch then s.stopOrder t .halted none else s
  | none => s

/-- The load-point search runs out: a STOP ends the approach without a rezero (R113). -/
def State.searchEnd (t : TNum) (s : State) : State :=
  if (s.tr t).sequencer.state = .loading .findLoadPoint ∧ (s.tr t).cap.seg.approaching then s.stop t .sequencer else s

/-- The direction in which an order's distances are counted (R92, R101). -/
def OrderKind.inDir (d : Dir) (k : OrderKind) : Bool :=
  match k.space? with
  | some (dir, _) => d == dir
  | none => false

/-- The working values of a running order after a count (R85, R92, R101). -/
def Work.travel (d : Dir) (o : Order) (w : Work) : Work :=
  { w with
    net := w.net + (match d with
      | .forward => 1
      | .reverse => -1)
    blank := if o.kind.inDir d then w.blank + 1 else w.blank
    haltTravel := if o.kind.inDir d ∧ w.phase = .haltSearch then w.haltTravel + 1 else w.haltTravel }

/-- The distance limits of a SPACE order, the blank-tape limit first (R92, R101, R102). -/
def State.distanceWatch (t : TNum) (d : Dir) (s : State) : State :=
  let counted := s.upd t fun x => x.modWork (Work.travel d)
  match (counted.tr t).running with
  | some (o, w) =>
    if o.kind.inDir d ∧ Config.blankTapeLimit ≤ w.blank ∧ w.phase.underWay then counted.blankStop t
    else if w.phase = .haltSearch ∧ Config.haltGapSearch ≤ w.haltTravel then counted.haltSearchEnd t
    else counted
  | none => counted

/-! ### The watches of a SEEK_MARK (R98, R99) -/

/-- The search of a forward leg begins at the count that brings the counter to the approach point (R84, R98). -/
def State.searchWatch (t : TNum) (s : State) : State :=
  match (s.tr t).running with
  | some (o, w) =>
    match o.kind with
    | .seekMark _ =>
      if w.phase = .readLeg ∧ w.leg.dir = .forward ∧ w.leg.rests = false ∧ w.leg.endPoint ≤ (s.tr t).cap.counter then
        s.upd t fun x => x.modWork fun _ k => { k with phase := .search }
      else s
    | _ => s
  | none => s

/-- The high end of the search range of a search in progress, with the mark's number and whether the mark has an open
window (R99, R74). -/
structure SearchEnd where
  number : Nat
  copied : Int
  high : Int
  window : Bool
deriving DecidableEq, Repr

def Transport.searchHigh (x : Transport) : Option SearchEnd :=
  match x.running with
  | some (o, w) =>
    match o.kind, w.copied with
    | .seekMark m, some c =>
      if w.phase = .search then
        some { number := m, copied := c, high := (x.searchRange m c).2, window := (x.capture.windowOf m).isSome }
      else none
    | _, _ => none
  | none => none

/-- The range of a search was passed with no gap start: the order stops MARK RETIRED or MARK NOT FOUND, and a mark
not found that had no window, and is still where it was sought, is doubted (R74, R99; at this count: log entry 43). A
barrier that stopped the order at the same count gives its status (R78, R91, log entry 44). -/
def State.searchPassed (t : TNum) (e : SearchEnd) (s : State) : State :=
  match (s.tr t).running with
  | some (_, w) =>
    if w.phase ≠ .search then s
    else if w.targetRetired then s.stopOrder t .markRetired none
    else
      let told := match findNumber e.number (s.boundMarks t) with
        | some m => if m.pos = e.copied ∧ e.window = false then s.doubt t e.number else s
        | none => s
      told.stopOrder t .markNotFound none
  | none => s

/-- The search range is passed by a forward count (R99). One whose high end a drift correction or a lowered lag has put below
the counter is passed at the next forward count (log entry 63). -/
def State.searchPassWatch (t : TNum) (e : Option SearchEnd) (counter : Int) (s : State) : State :=
  match e with
  | some k => if k.high < counter then s.searchPassed t k else s
  | none => s

/-! ### The watches of the Sequencer -/

/-- The forward counts of the load-point search while its approach is in force (R113). -/
def State.findWatch (t : TNum) (d : Dir) (s : State) : State :=
  let x := s.tr t
  if x.sequencer.state = .loading .findLoadPoint ∧ x.cap.seg.approaching ∧ d = .forward then
    let counted := s.upd t fun y => y.modSeq fun q => { q with searchCount := q.searchCount + 1 }
    if Config.loadPointSearch ≤ x.sequencer.searchCount + 1 then counted.searchEnd t else counted
  else s

/-- A rewind at REWIND speed whose counter has come down to 30,000 goes on at SEEK speed (R116). -/
def State.rewindWatch (t : TNum) (s : State) : State :=
  let x := s.tr t
  if x.sequencer.state.rewindPhase? = some .fast ∧ x.cap.seg.speed = some .rewind ∧ x.cap.seg.owner = some .sequencer
      ∧ x.sequencer.ending = false ∧ x.sequencer.lpStop = false ∧ x.cap.counter ≤ Config.rewindSlowDown then
    s.run t .sequencer (reverseRun .seek (some Config.rewindApproach))
  else s

/-! ### One count (R1) -/

/-- The barriers a forward count meets at their low bounds: one met too fast stops the order, one met at reading speed
is watched from there (R78). -/
def State.lowBounds (t : TNum) (s : State) : State :=
  match s.barrierTooFast t with
  | some n => s.barrierStop t n
  | none => s.watchLow t

/-- The barriers whose range a forward count has passed: watches end, and the first in list order that took no gap stops
the order (R78, log entry 58). -/
def State.highBounds (t : TNum) (l : List PassedBarrier) (s : State) : State :=
  let told := s.endWatches t l
  match l.find? fun b => b.stops with
  | some b => told.barrierStop t b.number
  | none => told

/-- The watches of the Capture Unit and of a search at a forward count that moved the counter (R64, R66, R78, R99). -/
def State.forwardWatches (t : TNum) (s : State) : State :=
  let opened := (s.lowBounds t).openings t
  let passed := opened.barriersPassed t
  let search := (opened.tr t).searchHigh
  let counter := (opened.tr t).cap.counter
  ((opened.closings t).highBounds t passed).searchPassWatch t search counter

/-- The counter itself at a count (R1, R2, R8). -/
def State.countAt (t : TNum) (d : Dir) (s : State) : State := s.upd t (Transport.count d)

/-- One tachometer count in direction `d`, with everything it makes happen (R1). A count lost at an end of the range
crosses nothing (log entry 32). -/
def State.tachCount (t : TNum) (d : Dir) (s : State) : State :=
  let old := (s.tr t).cap.counter
  let counted := s.countAt t d
  let passed := counted.passages t d old
  let moved := decide ((counted.tr t).cap.counter ≠ old)
  let watched := if d = .forward ∧ moved then passed.forwardWatches t else passed
  let orders := ((watched.distanceWatch t d).slowWatch t).searchWatch t
  ((orders.upd t (Transport.decelWatch s.clock)).findWatch t d).rewindWatch t

/-! ### Marker events (R3) -/

/-- The load-point forward edge: the leader flag is cleared, and an approach in force stops for its rezero (R4,
R115). -/
def State.loadPointForward (t : TNum) (s : State) : State :=
  s.upd t fun x =>
    let y := x.modSeq fun q => { q with leader := false }
    if y.cap.seg.approaching then y.stopForRezero s.clock else y

/-- The orders whose reverse motion can meet the load point (R95). -/
def OrderKind.meetsLoadPoint : OrderKind → Bool
  | .spaceR _ => true
  | .seekPos _ => true
  | .seekMark _ => true
  | _ => false

/-- The load point passed in reverse at the Order Slots: an order in reverse motion stops, unless a stop is under way,
and its phase becomes APPROACH with stop reason LOAD POINT (R95). An order whose RUN waits for the end of a coast is taken
by the direction of the COASTING segment, on a forward leg too (log entry 59). -/
def State.loadPointOrders (t : TNum) (s : State) : State :=
  match (s.tr t).running with
  | some (o, w) =>
    if o.kind.meetsLoadPoint ∧ w.phase ≠ .approach ∧ (s.tr t).cap.seg.tapeDir = some .reverse then
      let marked := s.upd t fun x => x.modWork fun _ k =>
        { k with phase := .approach, reason := some .loadPoint, barrier := none }
      if w.phase.underWay then marked.stop t .orders else marked
    else s
  | none => s

/-- The load point passed in reverse at the Sequencer: in FAST it begins the stop before SETTLE, unless the rewind is
being ended; in APPROACH it ends the phase (R116, R117, log entry 29). -/
def State.loadPointSequencer (t : TNum) (s : State) : State :=
  let q := (s.tr t).sequencer
  match q.state.rewindPhase? with
  | some .fast =>
    if q.ending then s
    else (s.upd t fun x => x.modSeq fun k => { k with lpStop := true }).stop t .sequencer
  | some .approach => s.stop t .sequencer
  | _ => s

/-- The load point passed in reverse: the leader flag is set, and both blocks take the event (R3, R115). -/
def State.loadPointReverse (t : TNum) (s : State) : State :=
  ((s.upd t fun x => x.modSeq fun q => { q with leader := true }).loadPointOrders t).loadPointSequencer t

/-- The EOT forward passage at the Order Slots: a forward motion of an order whose stop target is absent, or lies
above the new runout position, gets that as its stop target (`State.orderRun`), unless it is stopping (R89). -/
def State.eotOrders (t : TNum) (s : State) : State :=
  let x := s.tr t
  let g := x.cap.seg
  match x.running, x.cap.runout, g.speed with
  | some (_, w), some r, some v =>
    let above := match g.stopTarget with
      | some p => decide (r < p)
      | none => true
    if w.phase ≠ .stopping ∧ g.stopping = false ∧ g.tapeDir = some .forward ∧ g.owner = some .orders ∧ above = true then
      s.orderRun t { dir := .forward, speed := v, target := g.stopTarget, approach := g.approach }
    else s
  | _, _, _ => s

/-- The EOT forward passage (R5, R89). -/
def State.eotForward (t : TNum) (s : State) : State :=
  (s.upd t fun x => { x with cap := { x.cap with eotPos := some x.cap.counter } }).eotOrders t

/-- The EOT reverse passage (R5). -/
def State.eotReverse (t : TNum) (s : State) : State :=
  s.upd t fun x => { x with cap := { x.cap with eotPos := none } }

/-- A marker event: its direction is that of the count last taken (R3). -/
def State.markerEvent (t : TNum) (m : Marker) (s : State) : State :=
  match m, (s.tr t).cap.lastDir with
  | .loadPoint, .forward => s.loadPointForward t
  | .loadPoint, .reverse => s.loadPointReverse t
  | .eot, .forward => s.eotForward t
  | .eot, .reverse => s.eotReverse t

end Sys2Proof.Machine
end

