-- ==== Sys2Proof/Machine/Layouts.lean ====
section
/-! DEFINITION. The codes and the record forms of the responses (spec/11, R176, R177, R179). -/

namespace Sys2Proof.Machine

open Sys2Proof

/-! ### Codes (R176) -/

/-- A byte by its value. -/
def byte (n : Nat) : Byte := BitVec.ofNat 8 n

/-- The value of a bit of a byte, by its number. -/
def bitAt (k : Nat) (b : Bool) : Nat := if b then 2 ^ k else 0

/-- The response statuses (spec/09 "Status codes"). -/
inductive Status where
  | done | unknownRequest | badLength | badParameter | wrongState | offline | held | busy | slotsFull | notBound
  | noSuchMark | markExists | poolFull | noSuchVolume | boundElsewhere | causePresent | notExact | noLastGap
deriving DecidableEq, Repr

def Status.code : Status → Nat
  | .done => 0
  | .unknownRequest => 1
  | .badLength => 2
  | .badParameter => 3
  | .wrongState => 4
  | .offline => 5
  | .held => 6
  | .busy => 7
  | .slotsFull => 8
  | .notBound => 9
  | .noSuchMark => 10
  | .markExists => 11
  | .poolFull => 12
  | .noSuchVolume => 13
  | .boundElsewhere => 14
  | .causePresent => 15
  | .notExact => 16
  | .noLastGap => 17

def Confidence.code : Confidence → Nat
  | .exact => 0
  | .coasted => 1
  | .lost => 2

def Inertia.code : Inertia → Nat
  | .light => 0
  | .standard => 1
  | .heavy => 2

def MarkKind.code : MarkKind → Nat
  | .point => 0
  | .barrier => 1

def MarkState.code : MarkState → Nat
  | .provisional => 0
  | .verified => 1
  | .doubtful => 2

def NoticeMode.code : NoticeMode → Nat
  | .none => 0
  | .forward => 1
  | .reverse => 2
  | .both => 3

def OrderKind.code : OrderKind → Nat
  | .spaceF _ => 0
  | .spaceR _ => 1
  | .advance _ => 2
  | .seekPos _ => 3
  | .seekMark _ => 4
  | .rewind => 5
  | .unload => 6

def Completion.code : Completion → Nat
  | .complete => 0
  | .halted => 1
  | .discarded => 2
  | .fault => 3
  | .barrier => 4
  | .markNotFound => 5
  | .markRetired => 6
  | .loadPoint => 7
  | .endOfTape => 8
  | .runout => 9
  | .range => 10
  | .blank => 11
  | .noPosition => 12
  | .noMark => 13

def FilterTime.code : FilterTime → Nat
  | .us0 => 0
  | .us20 => 1
  | .us40 => 2
  | .us80 => 3

def ResumeMode.code : ResumeMode → Nat
  | .atPeriod => 0
  | .afterHoldOff => 1

def Entry.code : Entry → Nat
  | .free => 0
  | .mounted _ _ => 1
  | .shelved _ => 2

def XState.code : XState → Nat
  | .unloaded => 0
  | .loading _ => 1
  | .ready => 2
  | .moving => 3
  | .rewinding _ => 4
  | .unloading _ => 5
  | .held => 6
  | .recovering => 7

def RewindPhase.code : RewindPhase → Nat
  | .fast => 4
  | .approach => 5
  | .settle => 6

/-- The phase code of a state, 0 for none (R109, R176). -/
def XState.phaseCode : XState → Nat
  | .loading .thread => 1
  | .loading .fill => 2
  | .loading .findLoadPoint => 3
  | .rewinding p => p.code
  | .unloading (.ret _) => 7
  | .unloading .release => 8
  | _ => 0

/-- The rewind phase within RETURN, 0 elsewhere (R179, log entry 21). -/
def XState.returnCode : XState → Nat
  | .unloading (.ret p) => p.code
  | _ => 0

/-- The code of a cause, which is its bit number in a cause set (R176). -/
def Cause.code : Cause → Nat
  | .supplyLoopShort => 0
  | .supplyLoopLong => 1
  | .takeupLoopShort => 2
  | .takeupLoopLong => 3
  | .vacuumLoss => 4
  | .supplyStall => 5
  | .takeupStall => 6
  | .capstanTachLoss => 7
  | .doorOpen => 8
  | .powerOn => 9
  | .recoveryTimeout => 10

def LoadResult.code : LoadResult → Nat
  | .none => 0
  | .complete => 1
  | .threadTimeout => 2
  | .fillTimeout => 3
  | .noLoadPoint => 4
  | .abandoned => 5
  | .interrupted => 6

def Lamp.code : Lamp → Nat
  | .off => 0
  | .steady => 1
  | .flashing => 2

def Zone.code : Zone → Nat
  | .limitShort => 0
  | .short => 1
  | .center => 2
  | .long => 3
  | .limitLong => 4

def ReelMode.code : ReelMode → Nat
  | .thread => 0
  | .zone => 1
  | .release => 2

def Role.code : Role → Nat
  | .ordinary => 0
  | .target => 1
  | .barrier => 2

def Condition.code : Condition → Nat
  | .atRest => 0
  | .ramping _ => 1
  | .running => 2
  | .coasting => 3
  | .free => 4

def Speed.code : Speed → Nat
  | .creep => 0
  | .read => 1
  | .seek => 2
  | .rewind => 3

def Approach.code : Approach → Nat
  | .none => 0
  | .establishing => 1
  | .returning => 2

/-! ### Values (R176, R177) -/

/-- A two-byte value. -/
def two (n : Nat) : List Byte := bytes16 (BitVec.ofNat 16 n)

/-- A position: three bytes in two's complement (R176); one that three bytes cannot hold is a free value (log
entry 39). -/
def positionBytes (p : Int) : List Byte :=
  if -8388608 ≤ p ∧ p ≤ 8388607 then bytes24 (BitVec.ofInt 24 p) else bytes24 (Config.widePosition p)

/-- A position, or the form of its absence (R177). -/
def positionBytes? (p : Option Int) : List Byte :=
  match p with
  | some v => positionBytes v
  | none => bytes24 0x800000

/-- A serial, or the form of its absence (R177). -/
def serialBytes? (s : Option Serial) : List Byte :=
  match s with
  | some v => v.bytes
  | none => [0, 0, 0, 0, 0, 0]

/-- A cause set: the bit of each cause in two bytes (R176). -/
def causeSet (l : List Cause) : List Byte :=
  two ((Cause.all.map fun c => bitAt c.code (l.contains c)).sum)

/-- A code, or the form of its absence for a cause, a state or a phase (R177). -/
def codeByte? (c : Option Nat) : Byte :=
  match c with
  | some v => byte v
  | none => 0xFF

/-- The five flags of a transport, or its five masks, in one byte (R176). -/
def noticeByte (done slots passed hold state : Bool) : Byte := byteOfBits [done, slots, passed, hold, state]

/-! ### Records (R179) -/

/-- The mark summary, 14 bytes (R57, R179), with the ordinal and the candidate the mark has. -/
def Mark.summary (ordinal : Nat) (candidate : Option Int) (m : Mark) : List Byte :=
  bytes24 (BitVec.ofNat 24 (m.number * 512 + (ordinal - 1))) ++
  [byte (m.kind.code + 2 * m.state.code + 8 * m.mode.code + bitAt 5 m.passed + bitAt 6 m.tag.isSome)] ++
  positionBytes m.pos ++ bytes32 (m.tag.getD 0) ++ positionBytes? candidate

/-- The summary of a mark of the volume bound to `t`, as the list stands (R57). -/
def State.markSummary (t : TNum) (m : Mark) (s : State) : List Byte :=
  m.summary (ordinalOf m.number (s.boundMarks t)) ((s.tr t).candidateOf m.number)

/-- The completion record, 10 bytes (R179). -/
def Record.bytes (r : Record) : List Byte :=
  [r.tag, byte r.kind.code, byte r.status.code] ++ two r.count ++ positionBytes? r.finalPos ++ two (r.markNumber.getD 0)

/-- The shelf ordinal of an entry less 1 (R26). -/
def State.shelfPlace (i : Fin 16) (s : State) : Nat := (s.shelf.findIdx? fun k => k == i).getD 0

/-- The volume record, 14 bytes (R38, R179). A FREE entry has no class: its class bits are sent as 0 (log entry 22). -/
def State.volumeRecord (i : Fin 16) (s : State) : List Byte :=
  let count := s.markCount i
  let form (v : Volume) (place : Nat) : List Byte :=
    [byte (16 * i.val + 4 * s.volumes[i].code + v.cls.code), byte (16 * place + count / 256), byte (count % 256)] ++
    v.serial.bytes ++ bytes16 v.generation ++ bytes24 (BitVec.ofNat 24 v.length)
  match s.volumes[i] with
  | .free => byte (16 * i.val) :: List.replicate 13 0
  | .mounted v t => form v t.toNat
  | .shelved v => form v (s.shelfPlace i)

/-- The window record, 12 bytes (R179). -/
def Window.bytes (w : Window) : List Byte :=
  two w.number ++ positionBytes w.low ++ positionBytes w.high ++ [byte (w.role.code + bitAt 2 w.fixed)] ++
  positionBytes? w.candidate

/-- The position report, 13 bytes (R19, R179). -/
def Capstan.report (c : Capstan) : List Byte :=
  let g := c.seg
  positionBytes c.counter ++ [byte c.conf.code] ++ positionBytes? c.lastGap ++ positionBytes? c.eotPos ++
  [byte (g.cond.code + bitAt 3 (g.dir == some .reverse) + 16 * (g.speed.map Speed.code).getD 0),
    byte (g.cls.code + 4 * c.defaultClass.code + 16 * g.approach.code),
    byte (bitAt 0 c.pastEot + bitAt 1 g.stopTarget.isSome + bitAt 2 (c.filter.level == .gap) + bitAt 3 g.atSpeed)]

/-- The transport status, 6 bytes (R128, R179). While no volume is bound the entry index bits are sent as 0 (log
entry 22). -/
def State.transportStatus (t : TNum) (s : State) : List Byte :=
  let x := s.tr t
  let q := x.sequencer
  [byte q.state.code, byte (q.state.phaseCode + 16 * q.state.returnCode), byte q.loadResult.code,
    byteOfBits [q.online, q.panelMotion, q.leader, q.valveOpen, x.prot.vacuum.debounced, x.prot.door.debounced,
      x.prot.reelPresent.debounced, x.prot.driveEnable],
    (match s.boundIdx t with
      | some i => byte (128 + i.val)
      | none => 0),
    byte (x.readyLamp.code + 4 * x.onlineLamp.code + 16 * x.holdLamp.code)]

/-- The five bytes of a reel in the loop report (R143, R179). -/
def Transport.reelReport (r : Reel) (x : Transport) : List Byte :=
  let d := x.reel r
  [byte (x.slotOf r).depth,
    byte ((x.latestZone r).code + 8 * d.mode.code + bitAt 5 d.entered + bitAt 6 d.limiting + bitAt 7 (x.slotOf r).fresh),
    byte (d.persist + bitAt 7 d.stall.isSome), BitVec.ofInt 8 d.commanded, BitVec.ofInt 8 d.output]

/-- The loop report, 20 bytes (R143, R179). -/
def Transport.loopReport (x : Transport) : List Byte :=
  x.reelReport .supply ++ x.reelReport .takeup ++
  [byte (bitAt 0 x.inScan + bitAt 1 (x.drive.resume == .afterHoldOff)), byte x.loop.limitShort, byte x.loop.bandLow,
    byte x.loop.bandHigh, byte x.loop.limitLong, byte x.loop.gain, byte x.loop.persistence, byte x.drive.supplyLevel,
    byte x.drive.takeupLevel, byte x.drive.stallMs]

/-- How long a timer has run, in whole ms rounded down (R157); a stopped timer, for which no form is given, is sent as 0
(log entry 47). -/
def timerMs (now : Nat) (since : Option Nat) : Nat :=
  match since with
  | some b => (now - b) / 1000
  | none => 0

/-- The phase a state has, as a code, absent where the state has none (R109, R177, log entry 21). -/
def XState.phaseCode? (st : XState) : Option Nat := if st.phaseCode = 0 then none else some st.phaseCode

/-- The hold record, 15 bytes (R157, R179). -/
def Transport.holdReport (now : Nat) (x : Transport) : List Byte :=
  let h := x.prot.hold
  [byteOfBits [h.active, h.failed, x.prot.driveEnable, x.prot.steady.isSome, !x.prot.vacuum.debounced,
      x.prot.door.debounced, (x.latestZone .supply).isLimit, (x.latestZone .takeup).isLimit],
    codeByte? (h.primary.map Cause.code)] ++
  positionBytes? h.position ++
  [codeByte? (h.state.map XState.code), codeByte? (h.state.bind XState.phaseCode?)] ++
  causeSet h.further ++ causeSet x.armed ++ two (timerMs now x.prot.recovery) ++ two (timerMs now x.prot.steady)

end Sys2Proof.Machine
end

