-- ==== Sys2Proof/Machine/Operands.lean ====
section
/-! DEFINITION. How the values of a request are read (spec/11, R176, R177), each an Option: absent where the encoding
is not allowed, which the owning rule refuses with BAD PARAMETER. -/

namespace Sys2Proof.Machine

open Sys2Proof

/-- A transport byte, 0 to 3 (R176, R163). -/
def transportOf (b : Byte) : Option TNum :=
  match b.toNat with
  | 0 => some .t0
  | 1 => some .t1
  | 2 => some .t2
  | 3 => some .t3
  | _ => none

/-- A class code (R176). -/
def inertiaOf (b : Byte) : Option Inertia :=
  match b.toNat with
  | 0 => some .light
  | 1 => some .standard
  | 2 => some .heavy
  | _ => none

/-- A three-byte position; 0x800000 to 0xFF7FFF lie below −32,768 and are refused (R177). -/
def positionOf (v : BitVec 24) : Option Int := if Config.posMin ≤ v.toInt then some v.toInt else none

/-- One of the 37 characters of a serial (R176, R177). -/
def serialChar (b : Byte) : Bool :=
  b == 0x20 || (decide (0x30 ≤ b.toNat) && decide (b.toNat ≤ 0x39))
    || (decide (0x41 ≤ b.toNat) && decide (b.toNat ≤ 0x5A))

/-- A serial a request may give: six of the 37 characters, not all spaces (R24, R177). -/
def serialOk (s : Serial) : Bool := s.bytes.all serialChar && !(s.bytes.all (· == 0x20))

/-- A mark number, 1 to 4095 (R46). -/
def markNumberOf (v : BitVec 16) : Option Nat :=
  if 1 ≤ v.toNat ∧ v.toNat ≤ Config.maxMarkNumber then some v.toNat else none

/-- A start ordinal, 1 to 512 (R58, R60). -/
def ordinalArgOf (v : BitVec 16) : Option Nat :=
  if 1 ≤ v.toNat ∧ v.toNat ≤ Config.poolSize then some v.toNat else none

/-- A filter time code (R176). -/
def filterOf (b : Byte) : Option FilterTime :=
  match b.toNat with
  | 0 => some .us0
  | 1 => some .us20
  | 2 => some .us40
  | 3 => some .us80
  | _ => none

/-- A resume mode code (R176). -/
def resumeOf (b : Byte) : Option ResumeMode :=
  match b.toNat with
  | 0 => some .atPeriod
  | 1 => some .afterHoldOff
  | _ => none

/-- The kind bit of the attributes of SET MARK and CHANGE MARK (R178). -/
def kindOf (attributes : Byte) : MarkKind := if attributes.getLsbD 0 then .barrier else .point

/-- The mode bits of the attributes of SET MARK and CHANGE MARK (R176, R178). -/
def modeOf (attributes : Byte) : NoticeMode :=
  match attributes.getLsbD 2, attributes.getLsbD 1 with
  | false, false => .none
  | false, true => .forward
  | true, false => .reverse
  | true, true => .both

/-- An order kind code with its three argument bytes (R84, R176): a count or distance of 1 to 65535, a position, a
mark number of 1 to 4095; REWIND and UNLOAD do not look at them (R177). -/
def orderKindOf (kind : Byte) (argument : BitVec 24) : Option OrderKind :=
  let n := argument.toNat
  let inCount := decide (1 ≤ n) && decide (n ≤ 65535)
  match kind.toNat with
  | 0 => if inCount then some (.spaceF n) else none
  | 1 => if inCount then some (.spaceR n) else none
  | 2 => if inCount then some (.advance n) else none
  | 3 => (positionOf argument).map .seekPos
  | 4 => if decide (1 ≤ n) && decide (n ≤ Config.maxMarkNumber) then some (.seekMark n) else none
  | 5 => some .rewind
  | 6 => some .unload
  | _ => none

/-- The loop parameters of SET LOOP PARAMETERS, if they are allowed (R132, R133). A byte is always 0 to 255. -/
def loopParamsOf (limitShort bandLow bandHigh limitLong gain persistence : Byte) : Option LoopParams :=
  let p : LoopParams :=
    { limitShort := limitShort.toNat, bandLow := bandLow.toNat, bandHigh := bandHigh.toNat
      limitLong := limitLong.toNat, gain := gain.toNat, persistence := persistence.toNat }
  if p.limitShort < p.bandLow ∧ p.bandLow ≤ p.bandHigh ∧ p.bandHigh < p.limitLong
      ∧ 1 ≤ p.gain ∧ p.gain ≤ 4 ∧ 1 ≤ p.persistence ∧ p.persistence ≤ 4 then some p
  else none

/-- The drive parameters of SET DRIVE PARAMETERS, if they are allowed (R141). -/
def driveParamsOf (supplyLevel takeupLevel resume stallTime : Byte) : Option DriveParams :=
  (resumeOf resume).bind fun m =>
    if 5 ≤ stallTime.toNat ∧ stallTime.toNat ≤ 100 then
      some { supplyLevel := supplyLevel.toNat, takeupLevel := takeupLevel.toNat, resume := m, stallMs := stallTime.toNat }
    else none

end Sys2Proof.Machine
end

