-- ==== Sys2Proof/Machine/Volumes.lean ====
section
/-! DEFINITION. The Volume Table: shelving, eviction, binding and the requests that read it (spec/02). -/

namespace Sys2Proof.Machine

open Sys2Proof

/-! ### What a request answers (R163, R164) -/

/-- The status and the body a request answers with. -/
structure Reply where
  status : Status
  body : List Byte
deriving DecidableEq, Repr

/-- A request that is taken. -/
def answer (body : List Byte) (s : State) : State × Reply := (s, { status := .done, body := body })

/-- A refusal: nothing is changed, and the body is empty (R163, R164). -/
def refuse (status : Status) (s : State) : State × Reply := (s, { status := status, body := [] })

/-- A request that names a transport, refused if the number lies outside 0 to 3 (R163). -/
def onTransport (b : Byte) (f : TNum → State → State × Reply) (s : State) : State × Reply :=
  match transportOf b with
  | some t => f t s
  | none => refuse .badParameter s

/-! ### The table (R23 to R27, R33 to R36) -/

/-- The entry of a serial among the non-FREE entries (R28). -/
def State.findSerial (serial : Serial) (s : State) : Option (Fin 16) :=
  (List.finRange 16).find? fun i => (s.volumes[i].volume?.map fun v => v.serial) == some serial

/-- An entry leaves the shelf list; the others keep their order (R26). -/
def State.unshelve (i : Fin 16) (s : State) : State := { s with shelf := s.shelf.filter fun k => k != i }

/-- The entry bound to a transport is shelved at the young end (R35, R36). -/
def State.shelveBound (t : TNum) (s : State) : State :=
  match s.boundIdx t with
  | some i =>
    match s.volumes[i] with
    | .mounted v _ => { s.setEntry i (.shelved v) with shelf := s.shelf ++ [i] }
    | _ => s
  | none => s

/-- An entry becomes FREE with all its marks retired, and leaves the shelf list (R33, R37, R56). -/
def State.freeEntry (i : Fin 16) (s : State) : State := ((s.setMarks i []).setEntry i .free).unshelve i

/-- The eviction record takes a serial and counts, and EVICT is set (R33, R174). -/
def State.noteEviction (serial : Option Serial) (s : State) : State :=
  { s with
    eviction := { serial := serial, count := min Config.maxEvictions (s.eviction.count + 1) }
    ctl := { s.ctl with evict := true } }

/-- The serial of an entry (R23). -/
def State.serialOf (i : Fin 16) (s : State) : Option Serial := s.volumes[i].volume?.map fun v => v.serial

/-- An eviction (R33). -/
def State.evict (i : Fin 16) (s : State) : State := (s.freeEntry i).noteEviction (s.serialOf i)

/-- The shelved entry that SET MARK evicts when the pool is full: the oldest that holds a mark (R34). -/
def State.evictable (s : State) : Option (Fin 16) := s.shelf.find? fun i => decide (0 < s.markCount i)

/-- The entry a new volume takes, with the serial evicted for it: the FREE entry of lowest index, or else the oldest
shelved one, evicted (R31). -/
def State.freshEntry (s : State) : Option (Fin 16 × State × Option Serial) :=
  match (List.finRange 16).find? fun i => s.volumes[i].isFree with
  | some i => some (i, s, none)
  | none =>
    match s.shelf with
    | i :: _ => some (i, s.evict i, s.serialOf i)
    | [] => none

/-! ### BIND VOLUME (R28 to R32) -/

/-- How a bind turned out (R32). -/
inductive BindOutcome where
  | new | rebound | renewed
deriving DecidableEq, Repr

def BindOutcome.code : BindOutcome → Nat
  | .new => 0
  | .rebound => 1
  | .renewed => 2

/-- The body of BIND VOLUME's answer (R32, R178). -/
def bindBody (i : Fin 16) (o : BindOutcome) (retired beyond : Nat) (evicted : Option Serial) : List Byte :=
  [byte i.val, byte o.code] ++ two retired ++ two beyond ++ serialBytes? evicted

/-- The entry of index `i` becomes MOUNTED on the transport (R29 to R31). -/
def State.mount (i : Fin 16) (v : Volume) (t : TNum) (s : State) : State := (s.setEntry i (.mounted v t)).unshelve i

/-- A bind whose checks have passed (R29 to R31). With no entry to be had, which R31 rules out, it is refused (log
entry 25). -/
def State.bind (t : TNum) (v : Volume) (s : State) : State × Reply :=
  match s.findSerial v.serial with
  | some i =>
    match s.volumes[i] with
    | .shelved old =>
      if old.generation = v.generation then
        answer (bindBody i .rebound 0 (s.marks[i].countP fun m => decide ((v.length : Int) < m.pos)) none) (s.mount i v t)
      else answer (bindBody i .renewed (s.markCount i) 0 none) ((s.setMarks i []).mount i v t)
    | _ => refuse .boundElsewhere s
  | none =>
    match s.freshEntry with
    | some (i, room, evicted) => answer (bindBody i .new 0 0 evicted) ((room.setMarks i []).mount i v t)
    | none => refuse .wrongState s

/-- What BIND VOLUME gives a volume, if the values are allowed (R28). -/
def volumeOf (serial : Serial) (generation : BitVec 16) (cls : Byte) (length : BitVec 24) : Option Volume :=
  match inertiaOf cls with
  | some c =>
    if serialOk serial = true ∧ 1 ≤ length.toNat ∧ (length.toNat : Int) ≤ Config.posMax then
      some { serial := serial, generation := generation, cls := c, length := length.toNat }
    else none
  | none => none

/-- BIND VOLUME (R28); on a HELD transport it is refused WRONG STATE as R28 says, against R150 (log entry 45). -/
def bindVolume (t : TNum) (serial : Serial) (generation : BitVec 16) (cls : Byte) (length : BitVec 24) (s : State) :
    State × Reply :=
  match volumeOf serial generation cls length with
  | none => refuse .badParameter s
  | some v =>
    if (s.tr t).sequencer.state ≠ .ready ∨ (s.boundIdx t).isSome = true then refuse .wrongState s else s.bind t v

/-! ### The other volume requests (R35, R37 to R39) -/

/-- The transport moves or is being moved by an order or a sequence (R35). -/
def Transport.busy (x : Transport) : Bool :=
  x.running.isSome ||
    match x.sequencer.state with
    | .rewinding _ => true
    | .unloading _ => true
    | _ => false

/-- UNBIND VOLUME (R35); NOT BOUND is tested first (log entry 40). -/
def unbindVolume (t : TNum) (s : State) : State × Reply :=
  if (s.boundIdx t).isNone then refuse .notBound s
  else if (s.tr t).busy then refuse .busy s
  else answer [] (s.shelveBound t)

/-- RETIRE VOLUME (R37). -/
def retireVolume (serial : Serial) (s : State) : State × Reply :=
  if serialOk serial = false then refuse .badParameter s
  else
    match s.findSerial serial with
    | some i => if s.volumes[i].isShelved then answer (two (s.markCount i)) (s.freeEntry i) else refuse .wrongState s
    | none => refuse .noSuchVolume s

/-- An entry index (R38, R39). -/
def indexOf (b : Byte) : Option (Fin 16) := if h : b.toNat < 16 then some ⟨b.toNat, h⟩ else none

/-- READ VOLUME (R38). -/
def readVolume (form index : Byte) (serial : Serial) (s : State) : State × Reply :=
  match form.toNat with
  | 0 =>
    match indexOf index with
    | some i => answer (s.volumeRecord i) s
    | none => refuse .badParameter s
  | 1 =>
    if serialOk serial = false then refuse .badParameter s
    else
      match s.findSerial serial with
      | some i => answer (s.volumeRecord i) s
      | none => refuse .noSuchVolume s
  | _ => refuse .badParameter s

/-- The entries of the table that satisfy `p`. -/
def State.countEntries (p : Entry → Bool) (s : State) : Nat := s.volumes.toList.countP p

/-- LIST VOLUMES (R39). -/
def listVolumes (start : Byte) (s : State) : State × Reply :=
  match indexOf start with
  | none => refuse .badParameter s
  | some i =>
    let all := (List.finRange 16).filter fun k => decide (i ≤ k) && !s.volumes[k].isFree
    let more := decide (Config.listMax < all.length)
    answer
      ((all.take Config.listMax).flatMap s.volumeRecord ++
        [byte (bitAt 7 more + s.countEntries Entry.isFree),
          byte (32 * s.countEntries Entry.isMounted + s.countEntries Entry.isShelved)] ++ two s.poolInUse) s

end Sys2Proof.Machine
end

