-- ==== Sys2Proof/Machine/Marks.lean ====
section
/-! DEFINITION. The mark requests, and the requests of the Capture Unit (spec/03; spec/04 R80 to R82). -/

namespace Sys2Proof.Machine

open Sys2Proof

/-- A mark request: refused NOT BOUND, before any other check, on an unbound transport (R46). -/
def onVolume (t : TNum) (f : Fin 16 → State → State × Reply) (s : State) : State × Reply :=
  match s.boundIdx t with
  | some i => f i s
  | none => refuse .notBound s

/-- A mark request that names a mark: a bad number, then a number not in use, are refused (R46, R55, R57). -/
def onMark (t : TNum) (number : BitVec 16) (f : Fin 16 → Mark → State → State × Reply) (s : State) : State × Reply :=
  onVolume t (fun i k =>
    match markNumberOf number with
    | none => refuse .badParameter k
    | some n =>
      match findNumber n k.marks[i] with
      | none => refuse .noSuchMark k
      | some m => f i m k) s

/-- A position a mark may be given: within the counter's range and the volume's length (R50, R52). -/
def State.markPosition (t : TNum) (v : BitVec 24) (s : State) : Option Int :=
  (positionOf v).filter fun p => decide (p ≤ s.tapeLength t)

/-! ### SET MARK (R47 to R51) -/

/-- Where SET MARK sets a mark: at the last gap, here, or at a position (R47). -/
inductive PositionForm where
  | lastGap
  | here
  | explicit (p : Int)
deriving DecidableEq, Repr

/-- A position form code, with its position bytes for the EXPLICIT form (R47, R50, R177). -/
def State.positionForm (t : TNum) (form : Byte) (position : BitVec 24) (s : State) : Option PositionForm :=
  match form.toNat with
  | 0 => some .lastGap
  | 1 => some .here
  | 2 => (s.markPosition t position).map .explicit
  | _ => none

/-- The position and the state a form gives, or the status it is refused with (R48 to R50). -/
def PositionForm.place (c : Capstan) : PositionForm → Except Status (Int × MarkState)
  | .lastGap =>
    match c.lastGap with
    | none => .error .noLastGap
    | some p => if c.conf = .exact then .ok (p, .verified) else .error .notExact
  | .here => if c.seg.cond = .atRest ∧ c.conf = .exact then .ok (c.counter, .provisional) else .error .notExact
  | .explicit p => .ok (p, .provisional)

/-- Room in the mark pool, with the serial evicted to make it (R51). -/
def State.makeRoom (s : State) : Option (State × Option Serial) :=
  if s.poolInUse < Config.poolSize then some (s, none)
  else
    match s.evictable with
    | some i => some (s.evict i, s.serialOf i)
    | none => none

/-- The mark SET MARK makes (R47). -/
def newMark (n : Nat) (attributes : Byte) (tag : BitVec 32) (p : Int) (st : MarkState) : Mark :=
  { number := n, kind := kindOf attributes, pos := p, state := st, mode := modeOf attributes, passed := false
    tag := if attributes.getLsbD 3 then some tag else none }

/-- A change that concerns a barrier is reported to the Order Slots (R80). -/
def State.reportBarrier (t : TNum) (concerns : Bool) (s : State) : State := if concerns then s.replan t else s

/-- SET MARK (R47). -/
def setMark (t : TNum) (number : BitVec 16) (attributes form : Byte) (position : BitVec 24) (tag : BitVec 32)
    (s : State) : State × Reply :=
  onVolume t (fun i k =>
    match markNumberOf number, k.positionForm t form position with
    | some n, some f =>
      if (findNumber n k.marks[i]).isSome then refuse .markExists k
      else
        match f.place (k.tr t).cap with
        | .error status => refuse status k
        | .ok (p, st) =>
          match k.makeRoom with
          | none => refuse .poolFull k
          | some (room, evicted) =>
            let m := newMark n attributes tag p st
            let made := (room.setMarks i (insertMark m room.marks[i])).reportBarrier t (m.kind == .barrier)
            answer (made.markSummary t m ++ serialBytes? evicted) made
    | _, _ => refuse .badParameter k) s

/-! ### CHANGE MARK (R52 to R54) -/

/-- What a CHANGE MARK changes: an absent field is not named by the selector; a tag is set or removed (R52). -/
structure MarkChange where
  position : Option Int
  kind : Option MarkKind
  mode : Option NoticeMode
  tag : Option (Option (BitVec 32))
deriving DecidableEq, Repr

/-- The selector with its values; absent where it names no field, names both tag forms, or names a position that is
refused, and where the position bytes spell no position, whether it is named or not (R52, R177, log entry 48). -/
def State.markChange (t : TNum) (selector attributes : Byte) (position : BitVec 24) (tag : BitVec 32) (s : State) :
    Option MarkChange :=
  let placed := s.markPosition t position
  let named := selector.getLsbD 0 || (selector.getLsbD 1 || (selector.getLsbD 2
    || (selector.getLsbD 3 || selector.getLsbD 4)))
  if named = false ∨ (selector.getLsbD 3 && selector.getLsbD 4) = true
      ∨ (positionOf position).isNone = true ∨ (selector.getLsbD 0 && placed.isNone) = true then none
  else
    some
      { position := if selector.getLsbD 0 then placed else none
        kind := if selector.getLsbD 1 then some (kindOf attributes) else none
        mode := if selector.getLsbD 2 then some (modeOf attributes) else none
        tag := if selector.getLsbD 3 then some (some tag) else if selector.getLsbD 4 then some none else none }

/-- A mark after a CHANGE MARK (R53, R54). -/
def Mark.change (c : MarkChange) (m : Mark) : Mark :=
  { m with
    pos := c.position.getD m.pos
    state := if c.position.isSome then .provisional else m.state
    kind := c.kind.getD m.kind
    mode := c.mode.getD m.mode
    passed := if c.position.isSome ∨ c.mode = some .none then false else m.passed
    tag := c.tag.getD m.tag }

/-- The Capture Unit gives up a mark: its window is gone, and a naming of it ends (R71, R72). Its barrier watch is gone
too, but for one begun at the position `p` that the mark now stands at: a position given again leaves the barrier where
its low bound was crossed (R74, R78, log entry 17). -/
def Transport.giveUpMark (n : Nat) (p : Option Int) (x : Transport) : Transport :=
  x.modCapture fun c =>
    { c.dropWindow n with
      watch := c.watch.filter fun b => b.number != n || some b.pos == p
      target := c.target.filter fun k => k.number != n }

/-- CHANGE MARK (R52). The summary has the changed fields and the new ordinal, with the passed flag as it stood before
the request cleared it and the candidate as the request found it (R57, log entry 41). -/
def changeMark (t : TNum) (number : BitVec 16) (selector attributes : Byte) (position : BitVec 24) (tag : BitVec 32)
    (s : State) : State × Reply :=
  onVolume t (fun i k =>
    match markNumberOf number, k.markChange t selector attributes position tag with
    | some n, some c =>
      match findNumber n k.marks[i] with
      | none => refuse .noSuchMark k
      | some m =>
        let placed := k.setMarks i (moveNumber n (Mark.change c) k.marks[i])
        let told := if c.position.isSome then placed.upd t (Transport.giveUpMark n c.position) else placed
        let made := (told.pruneWatches t).reportBarrier t (m.kind == .barrier || (m.change c).kind == .barrier)
        answer (Mark.summary (ordinalOf n (made.boundMarks t)) ((k.tr t).candidateOf n)
          { m.change c with passed := m.passed }) made
    | _, _ => refuse .badParameter k) s

/-! ### RETIRE MARK (R55) -/

/-- A running SEEK_MARK toward the mark learns that its target is retired (R98). -/
def Transport.targetGone (n : Nat) (x : Transport) : Transport :=
  x.modWork fun o w =>
    match o.kind with
    | .seekMark m => if m = n then { w with targetRetired := true } else w
    | _ => w

/-- RETIRE MARK (R55). -/
def retireMark (t : TNum) (number : BitVec 16) (s : State) : State × Reply :=
  onMark t number (fun i m k =>
    let gone := (k.setMarks i (removeNumber m.number k.marks[i])).upd t fun x =>
      (x.giveUpMark m.number none).targetGone m.number
    answer (k.markSummary t m) (gone.reportBarrier t (m.kind == .barrier))) s

/-! ### Finding marks (R57 to R61) -/

/-- FIND MARK (R57). -/
def findMark (t : TNum) (number : BitVec 16) (s : State) : State × Reply :=
  onMark t number (fun _ m k => answer (k.markSummary t m) k) s

/-- The summaries of the first four marks of a list (R58, R60, R61). -/
def State.summaries (t : TNum) (l : List Mark) (s : State) : List Byte :=
  (l.take Config.listMax).flatMap fun m => s.markSummary t m

/-- More marks remain than a response lists. -/
def moreMarks (l : List Mark) : Bool := decide (Config.listMax < l.length)

/-- FIND BY TAG (R58). The more indicator is one byte, 1 when set (R178, log entry 61). -/
def findByTag (t : TNum) (tag : BitVec 32) (start : BitVec 16) (s : State) : State × Reply :=
  onVolume t (fun i k =>
    match ordinalArgOf start with
    | none => refuse .badParameter k
    | some o =>
      let found := (k.marks[i].drop (o - 1)).filter fun m => m.tag == some tag
      answer (byte (bitAt 0 (moreMarks found)) :: k.summaries t found) k) s

/-- FIND NEAREST (R59). -/
def findNearest (t : TNum) (position : BitVec 24) (side : Byte) (s : State) : State × Reply :=
  onVolume t (fun i k =>
    match positionOf position, side.toNat with
    | some p, 0 =>
      match k.marks[i].reverse.find? fun m => decide (m.pos ≤ p) with
      | some m => answer (k.markSummary t m) k
      | none => refuse .noSuchMark k
    | some p, 1 =>
      match k.marks[i].find? fun m => decide (p ≤ m.pos) with
      | some m => answer (k.markSummary t m) k
      | none => refuse .noSuchMark k
    | _, _ => refuse .badParameter k) s

/-- LIST MARKS (R60). -/
def listMarks (t : TNum) (start : BitVec 16) (s : State) : State × Reply :=
  onVolume t (fun i k =>
    match ordinalArgOf start with
    | none => refuse .badParameter k
    | some o => answer (two (k.markCount i) ++ k.summaries t (k.marks[i].drop (o - 1))) k) s

/-- READ PASSED: the first four marks passed are returned, and their flags cleared (R61; the more indicator: log
entry 61). -/
def readPassed (t : TNum) (s : State) : State × Reply :=
  onVolume t (fun i k =>
    let passed := k.marks[i].filter fun m => m.passed
    let shown := passed.take Config.listMax
    answer (byte (bitAt 0 (moreMarks passed)) :: k.summaries t passed)
      (k.setMarks i (k.marks[i].map fun m =>
        if shown.any fun q => q.number == m.number then { m with passed := false } else m))) s

/-! ### The Capture Unit's requests (R81, R82) -/

/-- SET CAPTURE PARAMETERS: the lead and the lag change the ranges of barriers, one that ceases to apply being watched
no longer, and the filter judges a change being timed by its new time (R6, R78, R81). -/
def setCaptureParameters (t : TNum) (lead lag : BitVec 16) (filter : Byte) (s : State) : State × Reply :=
  match filterOf filter with
  | none => refuse .badParameter s
  | some time =>
    if Config.maxWindow < lead.toNat ∨ Config.maxWindow < lag.toNat then refuse .badParameter s
    else
      let set := s.upd t fun x => x.modCapture fun c => { c with lead := lead.toNat, lag := lag.toNat }
      answer [] (((set.pruneWatches t).replan t).filter t (GapFilter.setTime s.clock time))

/-- READ CAPTURE (R82; the more indicator: log entry 61). -/
def readCapture (t : TNum) (s : State) : State × Reply :=
  let x := s.tr t
  let listed := (s.windowMarks t fun _ => true).filterMap fun n => x.capture.windowOf n
  answer
    (two x.capture.lead ++ two x.capture.lag ++ [byte x.cap.filter.time.code] ++ two x.capture.windows.length ++
      [byte (bitAt 0 (decide (Config.listMax < x.capture.windows.length)))] ++
      (listed.take Config.listMax).flatMap Window.bytes) s

end Sys2Proof.Machine
end

