-- ==== Sys2Proof/Machine/OrderRequests.lean ====
section
/-! DEFINITION. The requests of the Order Slots and of the Sequencer (spec/05 R86, R101, R103, R107, R108; spec/06 R121,
R125, R126, R128; spec/08 R152, R157), with READ POSITION and SET DEFAULT CLASS (spec/01 R19, R20). -/

namespace Sys2Proof.Machine

open Sys2Proof

/-! ### Capstan (R19, R20) -/

/-- READ POSITION (R19). -/
def readPosition (t : TNum) (s : State) : State × Reply := answer (s.tr t).cap.report s

/-- SET DEFAULT CLASS (R20). -/
def setDefaultClass (t : TNum) (cls : Byte) (s : State) : State × Reply :=
  match inertiaOf cls with
  | some c => answer [] (s.upd t fun x => { x with cap := { x.cap with defaultClass := c } })
  | none => refuse .badParameter s

/-! ### QUEUE ORDER (R86) -/

/-- An UNLOAD order is in the slot, pending or running (R86). -/
def Slot.isUnload : Slot → Bool
  | .pending o => o.kind == .unload
  | .running o _ => o.kind == .unload
  | .record _ => false

/-- The state of a transport that refuses orders, with the status it gives (R86). -/
def XState.refusesOrders : XState → Option Status
  | .held => some .held
  | .recovering => some .held
  | .unloaded => some .wrongState
  | .loading _ => some .wrongState
  | .unloading _ => some .wrongState
  | _ => none

/-- The standing of the youngest order: 0 PENDING, 1 RUNNING, 2 ENDED (R86, R178). -/
def Transport.standing (x : Transport) : Nat :=
  match x.orders.list.getLast? with
  | some (.pending _) => 0
  | some (.running _ _) => 1
  | _ => 2

/-- An order queued at the young end of the list, starting if it may (R86, R87). -/
def State.enqueue (t : TNum) (o : Order) (s : State) : State :=
  (s.upd t (Transport.modList fun l => l ++ [.pending o])).startNext t

/-- QUEUE ORDER (R86). -/
def queueOrder (t : TNum) (tag kind : Byte) (argument : BitVec 24) (s : State) : State × Reply :=
  let x := s.tr t
  if x.sequencer.online = false then refuse .offline s
  else
    match x.sequencer.state.refusesOrders with
    | some status => refuse status s
    | none =>
      if x.orders.list.any Slot.isUnload then refuse .wrongState s
      else if x.freeCount = 0 then refuse .slotsFull s
      else
        match orderKindOf kind argument with
        | none => refuse .badParameter s
        | some k =>
          let queued := s.enqueue t { tag := tag, kind := k }
          answer [byte (queued.tr t).freeCount, byte (queued.tr t).standing] queued

/-! ### HALT, CANCEL PENDING (R101, R103) -/

/-- HALT (R101). -/
def halt (t : TNum) (s : State) : State × Reply :=
  if (s.tr t).releasing then refuse .wrongState s else answer [] (s.haltOrders t)

/-- CANCEL PENDING (R103). -/
def cancelPending (t : TNum) (s : State) : State × Reply :=
  answer [byte (s.tr t).pendingCount] (s.upd t Transport.discard)

/-! ### READ COMPLETIONS, SET SLOT THRESHOLD (R107, R108) -/

/-- The records at the front of a list, up to `n` (R107). -/
def frontRecords : Nat → List Slot → List Record
  | n + 1, .record r :: rest => r :: frontRecords n rest
  | _, _ => []

/-- A record waits behind a running order (R107). -/
def recordsBehind : List Slot → Bool
  | [] => false
  | .running _ _ :: rest => rest.any Slot.isRecord
  | _ :: rest => recordsBehind rest

/-- SLOTS is set when the free count rises to the threshold from below it; never with a threshold of 0 (R108). -/
def Transport.slotsReached (before : Nat) (x : Transport) : Transport :=
  if before < x.orders.threshold ∧ x.orders.threshold ≤ x.freeCount then x.noteSlots else x

/-- READ COMPLETIONS (R107). -/
def readCompletions (t : TNum) (s : State) : State × Reply :=
  let x := s.tr t
  let records := frontRecords Config.listMax x.orders.list
  let read := s.upd t fun y =>
    Transport.slotsReached x.freeCount (y.modList fun l => l.drop records.length)
  let z := read.tr t
  answer
    ([byte z.freeCount, byte (bitAt 0 z.doneFlag + bitAt 1 (recordsBehind z.orders.list))] ++
      records.flatMap Record.bytes) read

/-- SET SLOT THRESHOLD (R108). -/
def setSlotThreshold (t : TNum) (threshold : Byte) (s : State) : State × Reply :=
  if Config.slotCount < threshold.toNat then refuse .badParameter s
  else answer [] (s.upd t fun x => { x with orders := { x.orders with threshold := threshold.toNat } })

/-! ### The Sequencer's and the Protection Unit's requests (R121, R125, R128, R152, R157) -/

/-- READ TRANSPORT (R128). -/
def readTransport (t : TNum) (s : State) : State × Reply := answer (s.transportStatus t) s

/-- RELEASE TRANSPORT: going offline without a STATE notice; nothing on a transport already offline (R121). -/
def releaseTransport (t : TNum) (s : State) : State × Reply :=
  answer [] (if (s.tr t).sequencer.online then s.goOffline t else s)

/-- RESET TRANSPORT (R125). -/
def resetTransport (t : TNum) (s : State) : State × Reply := answer [] (s.resetTransport t)

/-- CLEAR HOLD (R152). -/
def clearHold (t : TNum) (s : State) : State × Reply :=
  if (s.tr t).sequencer.state ≠ .held then refuse .wrongState s
  else if (s.tr t).causePresent then refuse .causePresent s
  else answer [] (s.upd t (Transport.recoveryBegin s.clock))

/-- READ HOLD RECORD (R157). -/
def readHoldRecord (t : TNum) (s : State) : State × Reply := answer ((s.tr t).holdReport s.clock) s

/-! ### ALL STOP (R168) -/

/-- A panel rewind, or a panel unload in RETURN, is in progress (R126). -/
def Transport.panelRewinding (x : Transport) : Bool :=
  x.sequencer.panelMotion && (x.sequencer.state.rewindPhase?.isSome && x.running.isNone)

/-- What an ALL STOP answers for a transport (R168, R178, log entry 23). -/
def Transport.stopReport (x : Transport) : Byte :=
  byte (bitAt 7 (x.running.isSome && !x.releasing) + bitAt 6 x.panelRewinding +
    (if x.running.isSome then x.pendingCount else 0))

/-- ALL STOP on every transport (R104, R126, R168). -/
def State.stopAll (s : State) : State := s.forEach State.allStopOne

/-- ALL STOP (R168). -/
def allStop (s : State) : State × Reply := answer (TNum.all.map fun t => (s.tr t).stopReport) s.stopAll

end Sys2Proof.Machine
end

