-- ==== Sys2Proof/Machine/Loops.lean ====
section
/-! DEFINITION. The Loop Converter, the requests of the Reel Drives, the reel events and the debounced switches (spec/07
R129 to R131, R133, R139 to R141, R143; spec/08 R148). -/

namespace Sys2Proof.Machine

open Sys2Proof

/-! ### The converter (R129, R130) -/

/-- The channels of a pass: those of the transports in the scan set, in channel order (R129, R130). -/
def State.passChannels (s : State) : List (TNum × Reel) :=
  (TNum.all.filter fun t => (s.tr t).inScan).flatMap fun t => [(t, .supply), (t, .takeup)]

/-- The converter takes the first of some channels; with none it stands idle (R130). -/
def Converter.start : List (TNum × Reel) → Converter
  | [] => { busy := none, rest := [] }
  | (t, r) :: rest => { busy := some { t := t, reel := r, handed := true }, rest := rest }

/-- A pass begins (R130). -/
def State.startPass (s : State) : State := { s with converter := Converter.start s.passChannels }

/-- The next conversion begins: the next channel of the pass, or a new pass (R130). -/
def State.nextConversion (s : State) : State :=
  match s.converter.rest with
  | [] => s.startPass
  | rest => { s with converter := Converter.start rest }

/-- A transport joins the scan set: an idle converter begins a pass at once (R130). -/
def State.joinScan (s : State) : State := if s.converter.busy.isNone then s.startPass else s

/-- A transport leaves the scan set: its channels still to come are skipped, and a conversion of one of its channels
in progress will be handed to nobody (R130). -/
def State.leaveScan (t : TNum) (s : State) : State :=
  { s with
    converter :=
      { busy := s.converter.busy.map fun c => if c.t = t then { c with handed := false } else c
        rest := s.converter.rest.filter fun c => c.1 != t } }

/-- A result taken by the Reel Drive, the Sequencer and the Protection Unit (R113, R129, R137, R153). -/
def State.handResult (t : TNum) (r : Reel) (depth : Nat) (s : State) : State :=
  let judged := s.upd t fun x => (x.takeResult s.clock r depth).handTrip s.clock r
  let checked := judged.fillCheck t
  if (checked.tr t).sequencer.state = .recovering then checked.upd t (Transport.measureSteady s.clock) else checked

/-- A conversion ends (R129 to R131). -/
def State.conversionEnd (depth : Nat) (s : State) : State :=
  match s.converter.busy with
  | none => s
  | some c =>
    let written := s.upd c.t (Transport.setSlot c.reel { depth := depth, fresh := true })
    (if c.handed then written.handResult c.t c.reel depth else written).nextConversion

/-! ### The requests (R133, R141, R143) -/

/-- SET LOOP PARAMETERS (R133). -/
def setLoopParameters (t : TNum) (limitShort bandLow bandHigh limitLong gain persistence : Byte) (s : State) :
    State × Reply :=
  match loopParamsOf limitShort bandLow bandHigh limitLong gain persistence with
  | some p => answer [] (s.upd t fun x => { x with loop := p })
  | none => refuse .badParameter s

/-- The stall causes that the stall time in force has already reached (R141), the supply reel's first (log entry 49). -/
def Transport.stallsReached (now : Nat) (x : Transport) : List Cause :=
  [Reel.supply, Reel.takeup].filterMap fun r =>
    if (x.reel r).stallReached now x.drive.stallMs then some (stallCause r) else none

/-- New drive parameters taken by the reels of a transport whose drive enable is on (R141). -/
def Transport.newDriveParams (now : Nat) (p : DriveParams) (x : Transport) : Transport :=
  let set := { x with drive := p }
  if x.prot.driveEnable then
    { set with
      supply := set.supply.newParams now p.supplyLevel p.resume
      takeup := set.takeup.newParams now p.takeupLevel p.resume }
  else set

/-- Every stall timer that has reached the stall time starts again from 0 (R140). -/
def Transport.restartStalls (now : Nat) (x : Transport) : Transport :=
  x.modReels fun d => if d.stallReached now x.drive.stallMs then d.restartStall now else d

/-- SET DRIVE PARAMETERS (R141). -/
def setDriveParameters (t : TNum) (supplyLevel takeupLevel resume stallTime : Byte) (s : State) : State × Reply :=
  match driveParamsOf supplyLevel takeupLevel resume stallTime with
  | none => refuse .badParameter s
  | some p =>
    answer [] (s.upd t fun x =>
      let set := x.newDriveParams s.clock p
      (set.stallsReached s.clock).foldl (fun y c => y.takeCause s.clock c) (set.restartStalls s.clock))

/-- READ LOOPS: the fresh flags are cleared (R143). -/
def readLoops (t : TNum) (s : State) : State × Reply :=
  answer (s.tr t).loopReport (s.upd t fun x =>
    { x with
      supplySlot := { x.supplySlot with fresh := false }
      takeupSlot := { x.takeupSlot with fresh := false } })

/-! ### The reel events (R119, R140) -/

/-- The stall timer reaches the stall time: the cause is handed, and the timer starts again from 0 (R140). One that was
reached at the very moment of an entry to HELD joins the further causes (R149, R151, log entry 46). -/
def State.stallTime (t : TNum) (r : Reel) (s : State) : State :=
  if (s.tr t).prot.driveEnable && ((s.tr t).reel r).stall.isSome then
    s.upd t fun x => (x.modReel r (ReelDrive.restartStall s.clock)).takeCause s.clock (stallCause r)
  else if (s.tr t).lateStall s.clock r then s.upd t fun x => x.takeCause s.clock (stallCause r)
  else s

/-- A reel tachometer pulse: it clears the stall timer (R140), and one of the take-up reel begins the quiet
measurement afresh (R119). A stall that may still be handed at the moment of a hold entry stays so (log entry 46). -/
def Transport.reelPulse (now : Nat) (r : Reel) (x : Transport) : Transport :=
  let y := x.modReel r fun d => { d with stall := none }
  match r with
  | .takeup => y.modSeq fun q => { q with quiet := q.quiet.map fun _ => now }
  | .supply => y

/-! ### The switches (R148) -/

/-- The raw level changes: a level other than the debounced one is timed from now, a return abandons the timing. -/
def SwitchInput.rawChange (now : Nat) (shows : Bool) (i : SwitchInput) : SwitchInput :=
  if shows = i.raw then i
  else { i with raw := shows, since := if shows = i.debounced then none else some now }

/-- The raw level has held for 20 ms. -/
def SwitchInput.expire (i : SwitchInput) : SwitchInput :=
  match i.since with
  | some _ => { i with debounced := i.raw, since := none }
  | none => i

/-- A switch input of a transport. -/
def Protection.input (w : Switch) (p : Protection) : SwitchInput :=
  match w with
  | .vacuum => p.vacuum
  | .door => p.door
  | .reelPresent => p.reelPresent

/-- A switch input of a transport changed. -/
def Transport.modInput (w : Switch) (f : SwitchInput → SwitchInput) (x : Transport) : Transport :=
  match w with
  | .vacuum => { x with prot := { x.prot with vacuum := f x.prot.vacuum } }
  | .door => { x with prot := { x.prot with door := f x.prot.door } }
  | .reelPresent => { x with prot := { x.prot with reelPresent := f x.prot.reelPresent } }

/-- The cause a change of a debounced level hands, if it is armed (R148). -/
def Transport.switchCause (w : Switch) (x : Transport) : Option Cause :=
  match w with
  | .vacuum => if x.prot.vacuum.debounced then none else (some Cause.vacuumLoss).filter x.isArmed
  | .door => if x.prot.door.debounced then (some Cause.doorOpen).filter x.isArmed else none
  | .reelPresent => none

/-- The debounce of a switch runs out: its debounced level changes, a cause may be taken, and a vacuum that comes may
end FILL (R113, R148). -/
def State.debounce (t : TNum) (w : Switch) (s : State) : State :=
  if ((s.tr t).prot.input w).since.isSome then
    let set := s.upd t fun x =>
      let y := x.modInput w SwitchInput.expire
      y.takeCause? s.clock (y.switchCause w)
    match w with
    | .vacuum => set.fillCheck t
    | _ => set
  else s

end Sys2Proof.Machine
end

