-- ==== Sys2Proof/Machine/Panel.lean ====
section
/-! DEFINITION. The panel, the events of the load and the release, and the entry to UNLOADED (spec/06 R111 to R114,
R119 to R122). -/

namespace Sys2Proof.Machine

open Sys2Proof

/-- A LOAD press is taken: UNLOADED, offline, a reel present and the door closed (R111). -/
def Transport.loadTaken (x : Transport) : Bool :=
  x.sequencer.state == .unloaded && (!x.sequencer.online && (x.prot.reelPresent.debounced && !x.prot.door.debounced))

/-- The load begins: the reels pull the leader through forward (R111, R21). -/
def Transport.beginLoad (now : Nat) (x : Transport) : Transport :=
  let on := (x.driveOn.setState (.loading .thread)).modSeq fun q =>
    { q with leader := true, loadTimer := some now, revolutions := 0 }
  (Transport.free .forward { on with cap := { on.cap with lastGap := none, eotPos := none } }).windThread

/-- LOAD (R111); the transport joins the converter's scan (R130). -/
def State.load (t : TNum) (s : State) : State :=
  if (s.tr t).loadTaken then (s.upd t (Transport.beginLoad s.clock)).joinScan else s

/-- REWIND (R120). -/
def State.rewindPress (t : TNum) (s : State) : State :=
  let q := (s.tr t).sequencer
  if q.state = .ready ∧ q.online = false then
    (s.upd t fun x => x.modSeq fun k => { k with panelMotion := true }).beginRewind t .rewinding
  else s

/-- UNLOAD: from READY an unload begins; a panel rewind becomes the RETURN of an unload (R119, R120), and keeps an ending
already asked for (log entry 55). -/
def State.unloadPress (t : TNum) (s : State) : State :=
  let q := (s.tr t).sequencer
  if q.online then s
  else
    match q.state with
    | .ready => s.beginUnload t true
    | .rewinding p => if q.panelMotion then s.upd t (Transport.setState (.unloading (.ret p))) else s
    | _ => s

/-- Going online is taken in READY and UNLOADED only (R121). -/
def XState.mayGoOnline : XState → Bool
  | .ready => true
  | .unloaded => true
  | _ => false

/-- ONLINE: a change of the flag sets STATE (R121). -/
def State.onlinePress (t : TNum) (s : State) : State :=
  let q := (s.tr t).sequencer
  if q.online then (s.goOffline t).upd t Transport.noteState
  else if q.state.mayGoOnline then s.upd t fun x => (x.modSeq fun k => { k with online := true }).noteState
  else s

/-- THREAD ends: FILL begins (R112). -/
def Transport.beginFill (now : Nat) (x : Transport) : Transport :=
  (((x.setState (.loading .fill)).holdRest now).modSeq fun q =>
    { q with valveOpen := true, loadTimer := some now }).servoFilling

/-- One more full revolution of the take-up reel in THREAD; the third ends it (R112, log entry 20). -/
def State.revolution (t : TNum) (s : State) : State :=
  let q := (s.tr t).sequencer
  if q.state = .loading .thread then
    let counted := s.upd t fun x => x.modSeq fun k => { k with revolutions := k.revolutions + 1 }
    if Config.threadRevolutions ≤ q.revolutions + 1 then counted.upd t (Transport.beginFill s.clock) else counted
  else s

/-- The timer of a load phase runs out (R112, R113). -/
def State.loadTimeout (t : TNum) (p : LoadPhase) (result : LoadResult) (s : State) : State :=
  if (s.tr t).sequencer.state = .loading p ∧ (s.tr t).sequencer.loadTimer.isSome = true then s.loadFail t result else s

/-- The values of a transport that enters UNLOADED (R119, R21, R137, R142). -/
def Transport.enterUnloaded (now : Nat) (x : Transport) : Transport :=
  let off := ((x.driveOff.holdRest now).setState .unloaded).modSeq fun q =>
    { q with panelMotion := false, leader := false, quiet := none }
  let empty := Transport.loseConfidence
    { off with cap := { off.cap with counter := 0, lastGap := none, eotPos := none } }
  (empty.modReels fun d => { d with persist := 0 }).noteState

/-- The entry to UNLOADED: the bound volume is shelved (R36), the converter's scan is left (R130), and an UNLOAD order
completes COMPLETE at position 0 (R100, R119). -/
def State.enterUnloaded (t : TNum) (s : State) : State :=
  ((s.upd t fun x => (x.enterUnloaded s.clock).makeRecord .complete).shelveBound t).leaveScan t

/-- The take-up reel has been quiet for 1 s in RELEASE (R119). -/
def State.releaseQuiet (t : TNum) (s : State) : State :=
  if (s.tr t).sequencer.state = .unloading .release ∧ (s.tr t).sequencer.quiet.isSome = true then s.enterUnloaded t
  else s

end Sys2Proof.Machine
end

