-- ==== Sys2Proof/Machine/Line.lean ====
section
/-! DEFINITION. The Station Line Interface and the requests of the line and of the Notice Unit: execution, responses,
the request buffer, and the receiver (spec/09, spec/10). -/

namespace Sys2Proof.Machine

open Sys2Proof

/-! ### Requests of the line and of the Notice Unit -/

/-- POLL (R165). -/
def poll (s : State) : State × Reply := answer [s.line.station.setWidth 8, s.line.rate.setWidth 8] s

/-- The five line error flags, all clear. -/
def LineFlags.clear : LineFlags :=
  { parity := false, framing := false, check := false, timeout := false, overrun := false }

/-- READ LINE STATUS (R166). -/
def readLineStatus (s : State) : State × Reply :=
  let f := s.line.flags
  answer [byteOfBits [f.parity, f.framing, f.check, f.timeout, f.overrun]]
    { s with line := { s.line with flags := LineFlags.clear } }

/-- The masks a byte of a notice selection gives (R170, R176). -/
def masksOf (b : Byte) : XMasks :=
  { done := b.getLsbD 0, slots := b.getLsbD 1, passed := b.getLsbD 2, hold := b.getLsbD 3, state := b.getLsbD 4 }

/-- SET NOTICE MASKS (R170). -/
def setNoticeMasks (sel : NoticeSel) (s : State) : State × Reply :=
  answer []
    { s.forEach fun t k => k.upd t fun x => { x with masks := masksOf (sel.x.get t) } with
      ctlMasks := { evict := sel.controller.getLsbD 0, line := sel.controller.getLsbD 1 } }

/-- The five flags of a transport, in one byte (R172, R176). -/
def State.flagByte (t : TNum) (s : State) : Byte :=
  let x := s.tr t
  noticeByte x.doneFlag x.flags.slots (s.passedFlag t) x.flags.hold x.flags.state

/-- The five masks of a transport, in one byte (R172, R176). -/
def State.maskByte (t : TNum) (s : State) : Byte :=
  let m := (s.tr t).masks
  noticeByte m.done m.slots m.passed m.hold m.state

/-- READ NOTICES (R172). -/
def readNotices (s : State) : State × Reply :=
  answer
    (TNum.all.map s.flagByte ++ [byteOfBits [s.ctl.evict, s.ctl.line]] ++ TNum.all.map s.maskByte ++
      [byteOfBits [s.ctlMasks.evict, s.ctlMasks.line], byte s.eviction.count]) s

/-- The event flags a byte of a notice selection names are cleared (R173). -/
def XFlags.ack (b : Byte) (f : XFlags) : XFlags :=
  { slots := f.slots && !b.getLsbD 1, hold := f.hold && !b.getLsbD 3, state := f.state && !b.getLsbD 4 }

/-- ACK NOTICES (R173). -/
def ackNotices (sel : NoticeSel) (s : State) : State × Reply :=
  answer []
    { s.forEach fun t k => k.upd t fun x => { x with flags := x.flags.ack (sel.x.get t) } with
      ctl := { evict := s.ctl.evict && !sel.controller.getLsbD 0, line := s.ctl.line && !sel.controller.getLsbD 1 } }

/-- READ EVICTION (R174). -/
def readEviction (s : State) : State × Reply :=
  answer (serialBytes? s.eviction.serial ++ [byte s.eviction.count])
    { s with eviction := { s.eviction with count := 0 }, ctl := { s.ctl with evict := false } }

/-- All masks enabled (R170). -/
def XMasks.all : XMasks := { done := true, slots := true, passed := true, hold := true, state := true }

/-- RESET STATION (R167): an ALL STOP; records and pending orders dropped and orders halted; notices, masks and the
eviction record as at power-on (R175); the line flags clear, the receiver UNSELECTED, the buffer empty. -/
def State.resetStation (s : State) : State :=
  let stopped := s.stopAll.forEach State.resetOrders
  let quiet := stopped.forEach fun t k => k.upd t fun x => { x.clearEvents with masks := XMasks.all }
  { quiet with
    ctl := { evict := false, line := false }
    ctlMasks := { evict := true, line := true }
    eviction := { serial := none, count := 0 }
    line := { quiet.line with receiver := .unselected, buffer := none, flags := LineFlags.clear } }

/-! ### Execution (R163) -/

/-- A request of the catalogue handed to the block that owns it; RESET STATION composes no response (R163, R167). -/
def State.handleRequest (r : Request) (s : State) : State × Reply :=
  match r with
  | .poll => Machine.poll s
  | .readLineStatus => Machine.readLineStatus s
  | .setNoticeMasks sel => Machine.setNoticeMasks sel s
  | .readNotices => Machine.readNotices s
  | .ackNotices sel => Machine.ackNotices sel s
  | .readEviction => Machine.readEviction s
  | .allStop => Machine.allStop s
  | .resetStation => answer [] s.resetStation
  | .readPosition t => onTransport t Machine.readPosition s
  | .setDefaultClass t cls => onTransport t (fun n => Machine.setDefaultClass n cls) s
  | .bindVolume t serial generation cls length =>
    onTransport t (fun n => Machine.bindVolume n serial generation cls length) s
  | .unbindVolume t => onTransport t Machine.unbindVolume s
  | .retireVolume serial => Machine.retireVolume serial s
  | .readVolume form index serial => Machine.readVolume form index serial s
  | .listVolumes start => Machine.listVolumes start s
  | .setMark t number attributes form position tag =>
    onTransport t (fun n => Machine.setMark n number attributes form position tag) s
  | .changeMark t number selector attributes position tag =>
    onTransport t (fun n => Machine.changeMark n number selector attributes position tag) s
  | .retireMark t number => onTransport t (fun n => Machine.retireMark n number) s
  | .findMark t number => onTransport t (fun n => Machine.findMark n number) s
  | .findByTag t tag start => onTransport t (fun n => Machine.findByTag n tag start) s
  | .findNearest t position side => onTransport t (fun n => Machine.findNearest n position side) s
  | .listMarks t start => onTransport t (fun n => Machine.listMarks n start) s
  | .readPassed t => onTransport t Machine.readPassed s
  | .setCaptureParameters t lead lag filter =>
    onTransport t (fun n => Machine.setCaptureParameters n lead lag filter) s
  | .readCapture t => onTransport t Machine.readCapture s
  | .queueOrder t tag kind argument => onTransport t (fun n => Machine.queueOrder n tag kind argument) s
  | .halt t => onTransport t Machine.halt s
  | .cancelPending t => onTransport t Machine.cancelPending s
  | .readCompletions t => onTransport t Machine.readCompletions s
  | .setSlotThreshold t threshold => onTransport t (fun n => Machine.setSlotThreshold n threshold) s
  | .readTransport t => onTransport t Machine.readTransport s
  | .releaseTransport t => onTransport t Machine.releaseTransport s
  | .resetTransport t => onTransport t Machine.resetTransport s
  | .setLoopParameters t limitShort bandLow bandHigh limitLong gain persistence =>
    onTransport t (fun n => Machine.setLoopParameters n limitShort bandLow bandHigh limitLong gain persistence) s
  | .setDriveParameters t supplyLevel takeupLevel resume stallTime =>
    onTransport t (fun n => Machine.setDriveParameters n supplyLevel takeupLevel resume stallTime) s
  | .readLoops t => onTransport t Machine.readLoops s
  | .clearHold t => onTransport t Machine.clearHold s
  | .readHoldRecord t => onTransport t Machine.readHoldRecord s

/-- The execution of a message: an unknown CODE and a body of the wrong length are refused first (R163). -/
def State.handleMessage (m : Message) (s : State) : State × Reply :=
  match m with
  | .known r => s.handleRequest r
  | .unknown _ _ => refuse .unknownRequest s
  | .badLength _ _ => refuse .badLength s

/-! ### Frames (R158) -/

/-- The ones among the data bits of a frame. -/
def onesOf (b : Byte) : Nat := (List.range 8).countP fun i => b.getLsbD i

/-- The ones among the data bits, the kind bit and the parity bit of a frame (R158). -/
def WireFrame.ones (f : WireFrame) : Nat := onesOf f.data + f.kind.toNat + f.parity.toNat

/-- The parity test: the ones do not come to an odd count (R158). -/
def WireFrame.parityError (f : WireFrame) : Bool := f.ones % 2 == 0

/-- The framing test: the stop bit is not at the resting level (R158). -/
def WireFrame.framingError (f : WireFrame) : Bool := !f.stop

/-- The command a frame received on the forward pair is: an error first, whatever the kind bit shows, and else an address
frame or a data frame by the kind bit (R158). -/
def WireFrame.command (f : WireFrame) : Instr :=
  if f.parityError || f.framingError then .frameError f.parityError f.framingError
  else if f.kind then .addressFrame f.data
  else .dataFrame f.data

/-- A frame as it is sent: the parity bit makes the ones odd, and the stop bit stands at the resting level (R158). -/
def Frame.wire (f : Frame) : WireFrame :=
  { data := f.data, kind := f.address, parity := (onesOf f.data + f.address.toNat) % 2 == 0, stop := true }

/-- The twelve bits of a frame in the order of the line: the start bit, the data bits from the least significant one, the
kind bit, the parity bit and the stop bit (R158, R176). The start and stop bits are told by whether the line is at its
resting level, which a start bit leaves (log entry 57). -/
def WireFrame.bits (f : WireFrame) : List Bool :=
  false :: (List.range 8).map f.data.getLsbD ++ [f.kind, f.parity, f.stop]

/-- The frame that twelve bits on the line are (R158, R176). -/
def WireFrame.ofBits : List Bool → Option WireFrame
  | [false, d0, d1, d2, d3, d4, d5, d6, d7, kind, parity, stop] =>
    some { data := byteOfBits [d0, d1, d2, d3, d4, d5, d6, d7], kind := kind, parity := parity, stop := stop }
  | _ => none

/-- The bits per second of a line rate code (R158, R176). -/
def lineBits (rate : BitVec 2) : Nat := 19200 * 2 ^ rate.toNat

/-- How long a frame lasts, in ns: twelve bit times (R158). -/
def frameTime (rate : BitVec 2) : Nat := 12 * 1000000000 / lineBits rate

/-! ### Responses (R164) -/

/-- The receiver is in a selected state with the kind ADDRESSED (R164). -/
def Receiver.isAddressed : Receiver → Bool
  | .unselected => false
  | .idle k => k == .addressed
  | .receiving k _ _ => k == .addressed
  | .discarding k => k == .addressed

/-- The sum of some bytes modulo 256. -/
def byteSum (l : List Byte) : Byte := l.foldl (· + ·) 0

/-- The data bytes of a response, LENGTH first and CHECK last (R164). -/
def responseData (summary : Byte) (r : Reply) : List Byte :=
  let front := [byte (r.body.length + 3), byte r.status.code, summary] ++ r.body
  front ++ [-(byteSum front)]

/-- The frames of a response: the station frame, then its data frames (R164). -/
def responseFrames (station : BitVec 4) (summary : Byte) (r : Reply) : List Frame :=
  { address := true, data := station.setWidth 8 } ::
    (responseData summary r).map fun b => { address := false, data := b }

/-- The response of an addressed request, composed after its effects, and started only if the receiver then holds
ADDRESSED selection; a broadcast request has none (R164). -/
def State.respond (kind : SelKind) (r : Reply) (s : State) : State :=
  if kind = .addressed ∧ s.line.receiver.isAddressed = true then
    { s with line := { s.line with transmitter := .sending (responseFrames s.line.station s.summary r) false } }
  else s

/-- A request executed (R163, R164). -/
def State.execute (b : Buffered) (s : State) : State :=
  let done := s.handleMessage b.message
  done.1.respond b.kind done.2

/-! ### The request buffer (R162, R163) -/

/-- A line error flag is set; a change from clear to set sets LINE (R161). -/
def State.raiseFlag (set : LineFlags → LineFlags) (s : State) : State :=
  { s with
    line := { s.line with flags := set s.line.flags }
    ctl := if set s.line.flags = s.line.flags then s.ctl else { s.ctl with line := true } }

/-- The transmitter is sending no response (R164). -/
def Transmitter.isIdle : Transmitter → Bool
  | .idle => true
  | .sending _ _ => false

/-- A waiting request is taken and executed as soon as the transmitter is idle (R163). -/
def State.takeRequest (s : State) : State :=
  match s.line.buffer with
  | some b =>
    if s.line.transmitter.isIdle then State.execute b { s with line := { s.line with buffer := none } } else s
  | none => s

/-- A message that broadcast listening takes (R162). -/
def broadcastTakes : Message → Bool
  | .known .allStop => true
  | .known .resetStation => true
  | .badLength code _ => code == 0x0E || code == 0x0F
  | _ => false

/-- A checked message offered to the request buffer (R162). -/
def State.submit (b : Buffered) (s : State) : State :=
  if b.kind = .broadcast ∧ broadcastTakes b.message = false then s
  else if s.line.buffer.isSome then s.raiseFlag fun f => { f with overrun := true }
  else State.takeRequest { s with line := { s.line with buffer := some b } }

/-! ### The receiver (R159, R160) -/

/-- The receiver changed. -/
def State.setReceiver (r : Receiver) (s : State) : State := { s with line := { s.line with receiver := r } }

/-- What an address frame makes of the receiver (R159). -/
def Line.selectedBy (data : Byte) (l : Line) : Receiver :=
  if data = l.station.setWidth 8 then .idle .addressed
  else if data = 0xFF then .idle .broadcast
  else .unselected

/-- A response is cut: no further frame of it is sent (R164). -/
def Transmitter.cut : Transmitter → Transmitter
  | .idle => .idle
  | .sending frames _ => .sending frames true

/-- An address frame (R159, R164). -/
def State.addressFrame (data : Byte) (s : State) : State :=
  let r := s.line.selectedBy data
  { s with
    line := { s.line with
      receiver := r
      transmitter := if r.isAddressed then s.line.transmitter else s.line.transmitter.cut } }

/-- A message whose last frame has come: checked and offered to the buffer, or discarded with CHECK (R160). `got` is
the whole message, LENGTH first and CHECK last. -/
def State.messageEnd (k : SelKind) (got : List Byte) (s : State) : State :=
  let ready := s.setReceiver (.idle k)
  if byteSum got = 0 then
    ready.submit { message := decodeMessage (got.getD 1 0) (got.drop 2).dropLast, kind := k }
  else ready.raiseFlag fun f => { f with check := true }

/-- A data frame (R159, R160). -/
def State.dataFrame (data : Byte) (s : State) : State :=
  match s.line.receiver with
  | .unselected => s
  | .discarding _ => s
  | .idle k =>
    if 2 ≤ data.toNat ∧ data.toNat ≤ 63 then s.setReceiver (.receiving k data.toNat [data])
    else s.setReceiver (.discarding k)
  | .receiving k toCome got =>
    if toCome ≤ 1 then s.messageEnd k (got ++ [data]) else s.setReceiver (.receiving k (toCome - 1) (got ++ [data]))

/-- The flags a frame with an error sets (R161). -/
def LineFlags.frameError (parity framing : Bool) (f : LineFlags) : LineFlags :=
  { f with parity := f.parity || parity, framing := f.framing || framing }

/-- A frame with an error (R159, R161). -/
def State.frameError (parity framing : Bool) (s : State) : State :=
  match s.line.receiver with
  | .unselected => s
  | .discarding _ => s.raiseFlag (LineFlags.frameError parity framing)
  | .idle k => (s.raiseFlag (LineFlags.frameError parity framing)).setReceiver (.discarding k)
  | .receiving k _ _ => (s.raiseFlag (LineFlags.frameError parity framing)).setReceiver (.discarding k)

/-- A frame gap of more than 3 ms (R159, R161). -/
def State.frameGap (s : State) : State :=
  match s.line.receiver with
  | .receiving k _ _ => (s.raiseFlag fun f => { f with timeout := true }).setReceiver (.idle k)
  | .discarding k => s.setReceiver (.idle k)
  | _ => s

/-- The transmitter becomes idle, and a waiting request is taken (R163, R164). -/
def State.transmitEnd (s : State) : State :=
  match s.line.transmitter with
  | .idle => s
  | .sending _ _ => State.takeRequest { s with line := { s.line with transmitter := .idle } }

end Sys2Proof.Machine
end

