-- ==== Sys2Proof/Machine/Power.lean ====
section
/-! DEFINITION. Power-on: the whole state from what the wiring shows (spec/06 R110; spec/01 R21; spec/07 R130, R142;
spec/08 R144, R155). -/

namespace Sys2Proof.Machine

open Sys2Proof

/-- Tape stands in a column: the reel-present switch is closed and a result lies below limit_long (R110). -/
def XPins.tapeStands (p : XPins) : Bool :=
  p.reelPresent && (decide (p.supplyDepth.toNat < Config.powerOnLimitLong) ||
    decide (p.takeupDepth.toNat < Config.powerOnLimitLong))

/-- A switch as power comes up: its debounced level is its raw level (R144). -/
def switchAt (shows : Bool) : SwitchInput := { raw := shows, debounced := shows, since := none }

/-- A Reel Drive after the power-on pass: a transport that starts UNLOADED has its count made 0 (R142). -/
def reelAt (held : Bool) (depth : Byte) : ReelDrive :=
  let judged := ReelDrive.reset.judge (LoopParams.reset.zoneOf depth.toNat)
  if held then judged else { judged with persist := 0 }

/-- The hold record at power-on (R144, R155). -/
def holdAt (held : Bool) : HoldRecord :=
  if held then { HoldRecord.reset with active := true, primary := some .powerOn, position := some 0 }
  else HoldRecord.reset

/-- A transport as power comes up (R21, R110, R142, R144, R155). -/
def transportAt (p : XPins) : Transport :=
  let held := XPins.tapeStands p
  { Transport.reset with
    cap := { Capstan.reset with filter := { raw := p.rawGap, level := p.rawGap, time := .us40, since := none } }
    sequencer := { Sequencer.reset with state := if held then .held else .unloaded, valveOpen := held }
    supply := reelAt held p.supplyDepth
    takeup := reelAt held p.takeupDepth
    supplySlot := { depth := p.supplyDepth.toNat, fresh := true }
    takeupSlot := { depth := p.takeupDepth.toNat, fresh := true }
    prot := { Protection.reset with
      vacuum := switchAt p.vacuumPresent
      door := switchAt p.doorOpen
      reelPresent := switchAt p.reelPresent
      hold := holdAt held } }

/-- The controller as power comes up; the scan goes on with the transports that start HELD (R130). -/
def stateAt (pins : PowerPins) : State :=
  State.startPass
    { State.reset with
      x := pins.x.map transportAt
      line := { Line.reset with station := pins.station, rate := pins.rate } }

/-- Power comes up: everything but the queue of commands is new (spec/00 "Resets"). -/
def State.powerOn (pins : PowerPins) (s : State) : State := { stateAt pins with pending := s.pending }

end Sys2Proof.Machine
end

