-- ==== Sys2Proof/Machine/RequestCommands.lean ====
section
/-! DEFINITION. The meaning of each request row: the checked message of that request reaches the request buffer, and is
executed at once if the transmitter is idle (R162, R163, log entry 3). What the request does is its handler of
Machine/Line.lean, Marks.lean, Volumes.lean, OrderRequests.lean or Loops.lean. -/

namespace Sys2Proof.Machine

open Sys2Proof

/-- What a command answers. -/
abbrev Result := Host.Outcome State Fault Refusal

/-- POLL: its message reaches the request buffer (R165, R162, R163). -/
def execPoll (s : State) : Result :=
  .next (s.submit { message := .known .poll, kind := .addressed })

/-- READ_LINE_STATUS: its message reaches the request buffer (R166, R162, R163). -/
def execReadLineStatus (s : State) : Result :=
  .next (s.submit { message := .known .readLineStatus, kind := .addressed })

/-- SET_NOTICE_MASKS: its message reaches the request buffer (R170, R162, R163). -/
def execSetNoticeMasks (sel : NoticeSel) (s : State) : Result :=
  .next (s.submit { message := .known (.setNoticeMasks sel), kind := .addressed })

/-- READ_NOTICES: its message reaches the request buffer (R172, R162, R163). -/
def execReadNotices (s : State) : Result :=
  .next (s.submit { message := .known .readNotices, kind := .addressed })

/-- ACK_NOTICES: its message reaches the request buffer (R173, R162, R163). -/
def execAckNotices (sel : NoticeSel) (s : State) : Result :=
  .next (s.submit { message := .known (.ackNotices sel), kind := .addressed })

/-- READ_EVICTION: its message reaches the request buffer (R174, R162, R163). -/
def execReadEviction (s : State) : Result :=
  .next (s.submit { message := .known .readEviction, kind := .addressed })

/-- ALL_STOP: its message reaches the request buffer (R168, R162, R163). -/
def execAllStop (kind : SelKind) (s : State) : Result :=
  .next (s.submit { message := .known .allStop, kind := kind })

/-- RESET_STATION: its message reaches the request buffer (R167, R162, R163). -/
def execResetStation (kind : SelKind) (s : State) : Result :=
  .next (s.submit { message := .known .resetStation, kind := kind })

/-- READ_POSITION: its message reaches the request buffer (R19, R162, R163). -/
def execReadPosition (t : Byte) (s : State) : Result :=
  .next (s.submit { message := .known (.readPosition t), kind := .addressed })

/-- SET_DEFAULT_CLASS: its message reaches the request buffer (R20, R162, R163). -/
def execSetDefaultClass (t cls : Byte) (s : State) : Result :=
  .next (s.submit { message := .known (.setDefaultClass t cls), kind := .addressed })

/-- BIND_VOLUME: its message reaches the request buffer (R28, R162, R163). -/
def execBindVolume (t : Byte) (serial : Serial) (generation : BitVec 16) (cls : Byte) (length : BitVec 24)
    (s : State) : Result :=
  .next (s.submit { message := .known (.bindVolume t serial generation cls length), kind := .addressed })

/-- UNBIND_VOLUME: its message reaches the request buffer (R35, R162, R163). -/
def execUnbindVolume (t : Byte) (s : State) : Result :=
  .next (s.submit { message := .known (.unbindVolume t), kind := .addressed })

/-- RETIRE_VOLUME: its message reaches the request buffer (R37, R162, R163). -/
def execRetireVolume (serial : Serial) (s : State) : Result :=
  .next (s.submit { message := .known (.retireVolume serial), kind := .addressed })

/-- READ_VOLUME: its message reaches the request buffer (R38, R162, R163). -/
def execReadVolume (form index : Byte) (serial : Serial) (s : State) : Result :=
  .next (s.submit { message := .known (.readVolume form index serial), kind := .addressed })

/-- LIST_VOLUMES: its message reaches the request buffer (R39, R162, R163). -/
def execListVolumes (start : Byte) (s : State) : Result :=
  .next (s.submit { message := .known (.listVolumes start), kind := .addressed })

/-- SET_MARK: its message reaches the request buffer (R47, R162, R163). -/
def execSetMark (t : Byte) (number : BitVec 16) (attributes form : Byte) (position : BitVec 24)
    (tag : BitVec 32) (s : State) : Result :=
  .next (s.submit { message := .known (.setMark t number attributes form position tag), kind := .addressed })

/-- CHANGE_MARK: its message reaches the request buffer (R52, R162, R163). -/
def execChangeMark (t : Byte) (number : BitVec 16) (selector attributes : Byte) (position : BitVec 24)
    (tag : BitVec 32) (s : State) : Result :=
  .next (s.submit { message := .known (.changeMark t number selector attributes position tag), kind := .addressed })

/-- RETIRE_MARK: its message reaches the request buffer (R55, R162, R163). -/
def execRetireMark (t : Byte) (number : BitVec 16) (s : State) : Result :=
  .next (s.submit { message := .known (.retireMark t number), kind := .addressed })

/-- FIND_MARK: its message reaches the request buffer (R57, R162, R163). -/
def execFindMark (t : Byte) (number : BitVec 16) (s : State) : Result :=
  .next (s.submit { message := .known (.findMark t number), kind := .addressed })

/-- FIND_BY_TAG: its message reaches the request buffer (R58, R162, R163). -/
def execFindByTag (t : Byte) (tag : BitVec 32) (start : BitVec 16) (s : State) : Result :=
  .next (s.submit { message := .known (.findByTag t tag start), kind := .addressed })

/-- FIND_NEAREST: its message reaches the request buffer (R59, R162, R163). -/
def execFindNearest (t : Byte) (position : BitVec 24) (side : Byte) (s : State) : Result :=
  .next (s.submit { message := .known (.findNearest t position side), kind := .addressed })

/-- LIST_MARKS: its message reaches the request buffer (R60, R162, R163). -/
def execListMarks (t : Byte) (start : BitVec 16) (s : State) : Result :=
  .next (s.submit { message := .known (.listMarks t start), kind := .addressed })

/-- READ_PASSED: its message reaches the request buffer (R61, R162, R163). -/
def execReadPassed (t : Byte) (s : State) : Result :=
  .next (s.submit { message := .known (.readPassed t), kind := .addressed })

/-- SET_CAPTURE_PARAMETERS: its message reaches the request buffer (R81, R162, R163). -/
def execSetCaptureParameters (t : Byte) (lead lag : BitVec 16) (filter : Byte) (s : State) : Result :=
  .next (s.submit { message := .known (.setCaptureParameters t lead lag filter), kind := .addressed })

/-- READ_CAPTURE: its message reaches the request buffer (R82, R162, R163). -/
def execReadCapture (t : Byte) (s : State) : Result :=
  .next (s.submit { message := .known (.readCapture t), kind := .addressed })

/-- QUEUE_ORDER: its message reaches the request buffer (R86, R162, R163). -/
def execQueueOrder (t tag kind : Byte) (argument : BitVec 24) (s : State) : Result :=
  .next (s.submit { message := .known (.queueOrder t tag kind argument), kind := .addressed })

/-- HALT: its message reaches the request buffer (R101, R162, R163). -/
def execHalt (t : Byte) (s : State) : Result :=
  .next (s.submit { message := .known (.halt t), kind := .addressed })

/-- CANCEL_PENDING: its message reaches the request buffer (R103, R162, R163). -/
def execCancelPending (t : Byte) (s : State) : Result :=
  .next (s.submit { message := .known (.cancelPending t), kind := .addressed })

/-- READ_COMPLETIONS: its message reaches the request buffer (R107, R162, R163). -/
def execReadCompletions (t : Byte) (s : State) : Result :=
  .next (s.submit { message := .known (.readCompletions t), kind := .addressed })

/-- SET_SLOT_THRESHOLD: its message reaches the request buffer (R108, R162, R163). -/
def execSetSlotThreshold (t threshold : Byte) (s : State) : Result :=
  .next (s.submit { message := .known (.setSlotThreshold t threshold), kind := .addressed })

/-- READ_TRANSPORT: its message reaches the request buffer (R128, R162, R163). -/
def execReadTransport (t : Byte) (s : State) : Result :=
  .next (s.submit { message := .known (.readTransport t), kind := .addressed })

/-- RELEASE_TRANSPORT: its message reaches the request buffer (R121, R162, R163). -/
def execReleaseTransport (t : Byte) (s : State) : Result :=
  .next (s.submit { message := .known (.releaseTransport t), kind := .addressed })

/-- RESET_TRANSPORT: its message reaches the request buffer (R125, R162, R163). -/
def execResetTransport (t : Byte) (s : State) : Result :=
  .next (s.submit { message := .known (.resetTransport t), kind := .addressed })

/-- SET_LOOP_PARAMETERS: its message reaches the request buffer (R133, R162, R163). -/
def execSetLoopParameters (t limitShort bandLow bandHigh limitLong gain persistence : Byte) (s : State) : Result :=
  .next (s.submit
    { message := .known (.setLoopParameters t limitShort bandLow bandHigh limitLong gain persistence),
      kind := .addressed })

/-- SET_DRIVE_PARAMETERS: its message reaches the request buffer (R141, R162, R163). -/
def execSetDriveParameters (t supplyLevel takeupLevel resume stallTime : Byte) (s : State) : Result :=
  .next (s.submit
    { message := .known (.setDriveParameters t supplyLevel takeupLevel resume stallTime),
      kind := .addressed })

/-- READ_LOOPS: its message reaches the request buffer (R143, R162, R163). -/
def execReadLoops (t : Byte) (s : State) : Result :=
  .next (s.submit { message := .known (.readLoops t), kind := .addressed })

/-- CLEAR_HOLD: its message reaches the request buffer (R152, R162, R163). -/
def execClearHold (t : Byte) (s : State) : Result :=
  .next (s.submit { message := .known (.clearHold t), kind := .addressed })

/-- READ_HOLD_RECORD: its message reaches the request buffer (R157, R162, R163). -/
def execReadHoldRecord (t : Byte) (s : State) : Result :=
  .next (s.submit { message := .known (.readHoldRecord t), kind := .addressed })

end Sys2Proof.Machine
end

