-- ==== Sys2Proof/Machine/EventCommands.lean ====
section
/-! DEFINITION. The meaning of each row that is not a request: the line's frames, power-on, and the events of the
capstan, the panel, the loops, the reels, the switches and the recovery. An event whose timer does not run, or whose
cause cannot be, changes nothing (log entry 16). -/

namespace Sys2Proof.Machine

open Sys2Proof

/-! ### Power and the line -/

/-- POWER_ON (R110). -/
def execPowerOn (pins : PowerPins) (s : State) : Result := .next (s.powerOn pins)

/-- ADDRESS_FRAME (R159). -/
def execAddressFrame (data : Byte) (s : State) : Result := .next (s.addressFrame data)

/-- DATA_FRAME (R160). -/
def execDataFrame (data : Byte) (s : State) : Result := .next (s.dataFrame data)

/-- FRAME_ERROR (R161); a frame with neither error is no such event (log entry 34). -/
def execFrameError (parity framing : Bool) (s : State) : Result :=
  .next (if parity || framing then s.frameError parity framing else s)

/-- FRAME_GAP_TIMEOUT (R159). -/
def execFrameGapTimeout (s : State) : Result := .next s.frameGap

/-- TRANSMIT_END (R164). -/
def execTransmitEnd (s : State) : Result := .next s.transmitEnd

/-! ### The capstan, the markers and the gap line -/

/-- CAPSTAN_TACH_COUNT (R1). -/
def execCapstanTachCount (t : TNum) (dir : Dir) (s : State) : Result := .next (s.tachCount t dir)

/-- CAPSTAN_TACH_LOSS: the confidence becomes LOST, and the cause is handed (R15), also where the hold entry of another
cause was taken first at the same moment (R2, R151, log entry 46). -/
def execCapstanTachLoss (t : TNum) (s : State) : Result :=
  .next
    (if (s.tr t).cap.seg.driven || (s.tr t).lateTach s.clock then
      s.upd t fun x => x.loseConfidence.takeCause s.clock .capstanTachLoss
    else s)

/-- COAST_END (R16). -/
def execCoastEnd (t : TNum) (s : State) : Result := .next (s.coastEnd t)

/-- MARKER_EDGE (R3). -/
def execMarkerEdge (t : TNum) (marker : Marker) (s : State) : Result := .next (s.markerEvent t marker)

/-- RAW_GAP_LINE_CHANGE (R6). -/
def execRawGapLineChange (t : TNum) (level : GapLevel) (s : State) : Result :=
  .next (s.filter t (GapFilter.rawChange s.clock level))

/-- GAP_FILTER_EXPIRY (R6). -/
def execGapFilterExpiry (t : TNum) (s : State) : Result := .next (s.filter t GapFilter.expire)

/-- CAPSTAN_RAMP_END (R11, R12). -/
def execCapstanRampEnd (t : TNum) (s : State) : Result := .next (s.rampEnd t)

/-- BLANK_TAPE_LIMIT (R92, log entry 15). -/
def execBlankTapeLimit (t : TNum) (s : State) : Result := .next (s.blankStop t)

/-- HALT_GAP_SEARCH_END (R101, log entry 15). -/
def execHaltGapSearchEnd (t : TNum) (s : State) : Result := .next (s.haltSearchEnd t)

/-! ### The panel and the sequences -/

/-- LOAD_PRESS (R111). -/
def execLoadPress (t : TNum) (s : State) : Result := .next (s.load t)

/-- REWIND_PRESS (R120). -/
def execRewindPress (t : TNum) (s : State) : Result := .next (s.rewindPress t)

/-- UNLOAD_PRESS (R120). -/
def execUnloadPress (t : TNum) (s : State) : Result := .next (s.unloadPress t)

/-- ONLINE_PRESS (R121). -/
def execOnlinePress (t : TNum) (s : State) : Result := .next (s.onlinePress t)

/-- RESET_PRESS (R125). -/
def execResetPress (t : TNum) (s : State) : Result := .next (s.resetTransport t)

/-- TAKEUP_REEL_REVOLUTION (R112, log entry 20). -/
def execTakeupReelRevolution (t : TNum) (s : State) : Result := .next (s.revolution t)

/-- THREAD_TIMEOUT (R112). -/
def execThreadTimeout (t : TNum) (s : State) : Result := .next (s.loadTimeout t .thread .threadTimeout)

/-- FILL_TIMEOUT (R113). -/
def execFillTimeout (t : TNum) (s : State) : Result := .next (s.loadTimeout t .fill .fillTimeout)

/-- LOAD_POINT_SEARCH_END (R113, log entry 15). -/
def execLoadPointSearchEnd (t : TNum) (s : State) : Result := .next (s.searchEnd t)

/-- RELEASE_QUIET_TIMEOUT (R119). -/
def execReleaseQuietTimeout (t : TNum) (s : State) : Result := .next (s.releaseQuiet t)

/-- LAMP_FLASH_TOGGLE: all flashing lamps of the transport are lit or unlit together (R122). -/
def execLampFlashToggle (t : TNum) (s : State) : Result :=
  .next (s.upd t fun x => x.modSeq fun q => { q with flashLit := !q.flashLit })

/-! ### Loops, reels, switches and recovery -/

/-- CONVERSION_END (R129). -/
def execConversionEnd (depth : Byte) (s : State) : Result := .next (s.conversionEnd depth.toNat)

/-- OVER_CURRENT_EVENT (R139). -/
def execOverCurrentEvent (t : TNum) (reel : Reel) (current : Byte) (s : State) : Result :=
  .next (s.upd t fun x =>
    x.whileEnabled reel current.toNat (ReelDrive.overCurrent s.clock (x.drive.level reel) current.toNat))

/-- REEL_DRIVE_PERIOD_START (R139). -/
def execReelDrivePeriodStart (t : TNum) (reel : Reel) (current : Byte) (s : State) : Result :=
  .next (s.upd t fun x =>
    x.whileEnabled reel current.toNat
      (ReelDrive.periodStart s.clock (x.drive.level reel) current.toNat x.drive.resume))

/-- HOLD_OFF_EXPIRY (R139). -/
def execHoldOffExpiry (t : TNum) (reel : Reel) (current : Byte) (s : State) : Result :=
  .next (s.upd t fun x =>
    x.whileEnabled reel current.toNat (ReelDrive.holdOff s.clock (x.drive.level reel) current.toNat x.drive.resume))

/-- STALL_TIME_REACHED (R140). -/
def execStallTimeReached (t : TNum) (reel : Reel) (s : State) : Result := .next (s.stallTime t reel)

/-- REEL_TACH_PULSE (R140, R119). -/
def execReelTachPulse (t : TNum) (reel : Reel) (s : State) : Result :=
  .next (s.upd t (Transport.reelPulse s.clock reel))

/-- SWITCH_RAW_CHANGE (R148). -/
def execSwitchRawChange (t : TNum) (switch : Switch) (shows : Bool) (s : State) : Result :=
  .next (s.upd t (Transport.modInput switch (SwitchInput.rawChange s.clock shows)))

/-- SWITCH_DEBOUNCE_EXPIRY (R148). -/
def execSwitchDebounceExpiry (t : TNum) (switch : Switch) (s : State) : Result := .next (s.debounce t switch)

/-- RECOVERY_TIMEOUT (R154). -/
def execRecoveryTimeout (t : TNum) (s : State) : Result :=
  .next
    (if (s.tr t).sequencer.state = .recovering ∧ (s.tr t).prot.recovery.isSome = true then
      s.upd t fun x => x.takeCause s.clock .recoveryTimeout
    else s)

/-- RECOVERY_STEADY (R153). -/
def execRecoverySteady (t : TNum) (s : State) : Result :=
  .next
    (if (s.tr t).sequencer.state = .recovering ∧ (s.tr t).prot.steady.isSome = true then
      s.upd t Transport.recoverySteady
    else s)

end Sys2Proof.Machine
end

