-- ==== Sys2Proof/Machine/Dispatch.lean ====
section
/-! DEFINITION. The meaning of every command, one arm for each constructor of Instr. -/

namespace Sys2Proof.Machine

open Sys2Proof

def exec (i : Instr) (s : State) : Host.Outcome State Fault Refusal :=
  match i with
  | .powerOn pins => Sys2Proof.Machine.execPowerOn pins s
  | .addressFrame data => Sys2Proof.Machine.execAddressFrame data s
  | .dataFrame data => Sys2Proof.Machine.execDataFrame data s
  | .frameError parity framing => Sys2Proof.Machine.execFrameError parity framing s
  | .frameGapTimeout => Sys2Proof.Machine.execFrameGapTimeout s
  | .transmitEnd => Sys2Proof.Machine.execTransmitEnd s
  | .poll => Sys2Proof.Machine.execPoll s
  | .readLineStatus => Sys2Proof.Machine.execReadLineStatus s
  | .setNoticeMasks sel => Sys2Proof.Machine.execSetNoticeMasks sel s
  | .readNotices => Sys2Proof.Machine.execReadNotices s
  | .ackNotices sel => Sys2Proof.Machine.execAckNotices sel s
  | .readEviction => Sys2Proof.Machine.execReadEviction s
  | .allStop kind => Sys2Proof.Machine.execAllStop kind s
  | .resetStation kind => Sys2Proof.Machine.execResetStation kind s
  | .readPosition t => Sys2Proof.Machine.execReadPosition t s
  | .setDefaultClass t cls => Sys2Proof.Machine.execSetDefaultClass t cls s
  | .bindVolume t serial generation cls length => Sys2Proof.Machine.execBindVolume t serial generation cls length s
  | .unbindVolume t => Sys2Proof.Machine.execUnbindVolume t s
  | .retireVolume serial => Sys2Proof.Machine.execRetireVolume serial s
  | .readVolume form index serial => Sys2Proof.Machine.execReadVolume form index serial s
  | .listVolumes start => Sys2Proof.Machine.execListVolumes start s
  | .setMark t number attributes form position tag => Sys2Proof.Machine.execSetMark t number attributes form position tag s
  | .changeMark t number selector attributes position tag => Sys2Proof.Machine.execChangeMark t number selector attributes position tag s
  | .retireMark t number => Sys2Proof.Machine.execRetireMark t number s
  | .findMark t number => Sys2Proof.Machine.execFindMark t number s
  | .findByTag t tag start => Sys2Proof.Machine.execFindByTag t tag start s
  | .findNearest t position side => Sys2Proof.Machine.execFindNearest t position side s
  | .listMarks t start => Sys2Proof.Machine.execListMarks t start s
  | .readPassed t => Sys2Proof.Machine.execReadPassed t s
  | .setCaptureParameters t lead lag filter => Sys2Proof.Machine.execSetCaptureParameters t lead lag filter s
  | .readCapture t => Sys2Proof.Machine.execReadCapture t s
  | .queueOrder t tag kind argument => Sys2Proof.Machine.execQueueOrder t tag kind argument s
  | .halt t => Sys2Proof.Machine.execHalt t s
  | .cancelPending t => Sys2Proof.Machine.execCancelPending t s
  | .readCompletions t => Sys2Proof.Machine.execReadCompletions t s
  | .setSlotThreshold t threshold => Sys2Proof.Machine.execSetSlotThreshold t threshold s
  | .readTransport t => Sys2Proof.Machine.execReadTransport t s
  | .releaseTransport t => Sys2Proof.Machine.execReleaseTransport t s
  | .resetTransport t => Sys2Proof.Machine.execResetTransport t s
  | .setLoopParameters t limitShort bandLow bandHigh limitLong gain persistence => Sys2Proof.Machine.execSetLoopParameters t limitShort bandLow bandHigh limitLong gain persistence s
  | .setDriveParameters t supplyLevel takeupLevel resume stallTime => Sys2Proof.Machine.execSetDriveParameters t supplyLevel takeupLevel resume stallTime s
  | .readLoops t => Sys2Proof.Machine.execReadLoops t s
  | .clearHold t => Sys2Proof.Machine.execClearHold t s
  | .readHoldRecord t => Sys2Proof.Machine.execReadHoldRecord t s
  | .capstanTachCount t dir => Sys2Proof.Machine.execCapstanTachCount t dir s
  | .capstanTachLoss t => Sys2Proof.Machine.execCapstanTachLoss t s
  | .coastEnd t => Sys2Proof.Machine.execCoastEnd t s
  | .markerEdge t marker => Sys2Proof.Machine.execMarkerEdge t marker s
  | .rawGapLineChange t level => Sys2Proof.Machine.execRawGapLineChange t level s
  | .gapFilterExpiry t => Sys2Proof.Machine.execGapFilterExpiry t s
  | .capstanRampEnd t => Sys2Proof.Machine.execCapstanRampEnd t s
  | .blankTapeLimit t => Sys2Proof.Machine.execBlankTapeLimit t s
  | .haltGapSearchEnd t => Sys2Proof.Machine.execHaltGapSearchEnd t s
  | .loadPress t => Sys2Proof.Machine.execLoadPress t s
  | .rewindPress t => Sys2Proof.Machine.execRewindPress t s
  | .unloadPress t => Sys2Proof.Machine.execUnloadPress t s
  | .onlinePress t => Sys2Proof.Machine.execOnlinePress t s
  | .resetPress t => Sys2Proof.Machine.execResetPress t s
  | .takeupReelRevolution t => Sys2Proof.Machine.execTakeupReelRevolution t s
  | .threadTimeout t => Sys2Proof.Machine.execThreadTimeout t s
  | .fillTimeout t => Sys2Proof.Machine.execFillTimeout t s
  | .loadPointSearchEnd t => Sys2Proof.Machine.execLoadPointSearchEnd t s
  | .releaseQuietTimeout t => Sys2Proof.Machine.execReleaseQuietTimeout t s
  | .lampFlashToggle t => Sys2Proof.Machine.execLampFlashToggle t s
  | .conversionEnd depth => Sys2Proof.Machine.execConversionEnd depth s
  | .overCurrentEvent t reel current => Sys2Proof.Machine.execOverCurrentEvent t reel current s
  | .reelDrivePeriodStart t reel current => Sys2Proof.Machine.execReelDrivePeriodStart t reel current s
  | .holdOffExpiry t reel current => Sys2Proof.Machine.execHoldOffExpiry t reel current s
  | .stallTimeReached t reel => Sys2Proof.Machine.execStallTimeReached t reel s
  | .reelTachPulse t reel => Sys2Proof.Machine.execReelTachPulse t reel s
  | .switchRawChange t switch shows => Sys2Proof.Machine.execSwitchRawChange t switch shows s
  | .switchDebounceExpiry t switch => Sys2Proof.Machine.execSwitchDebounceExpiry t switch s
  | .recoveryTimeout t => Sys2Proof.Machine.execRecoveryTimeout t s
  | .recoverySteady t => Sys2Proof.Machine.execRecoverySteady t s

end Sys2Proof.Machine
end

