-- ==== Sys2Proof/Machine/Step.lean ====
section
/-! DEFINITION. One step: the command at the front of the queue is taken and executed. -/

namespace Sys2Proof.Machine

open Sys2Proof

/-- The state with another queue of commands. -/
def State.withPending (q : List Instr) (s : State) : State := { s with pending := q }

/-- A step with no command waiting: 1 µs passes, and nothing else happens (log entry 2). -/
def State.tick (s : State) : State := { s with clock := s.clock + 1 }

/-- One step: the front command, executed on the state with the queue's rest; on an empty queue, the clock alone. -/
def step (s : State) : Host.Outcome State Fault Refusal :=
  match s.pending with
  | c :: rest => exec c (s.withPending rest)
  | [] => .next s.tick

/-- The state with the command a table word spells at the front of its queue; unchanged where it spells none. -/
def State.withFetchWord (s : State) (nbits w : Nat) : State :=
  match decodeTableWord nbits w with
  | some c => s.withPending (c :: s.pending)
  | none => s

end Sys2Proof.Machine
end

