-- ==== Sys2Proof/Safety.lean ====
section
/-! DEFINITION. The words the statements speak in: the conditions that hold of a state in every run, a request as its
command and as its frames, the line that can answer, and what an event of one transport leaves alone. -/

namespace Sys2Proof

/-- The command of a request that came with a kind of selection; only ALL STOP and RESET STATION are taken broadcast
(R162). -/
def Request.command (k : SelKind) : Request → Instr
  | .poll => .poll
  | .readLineStatus => .readLineStatus
  | .setNoticeMasks sel => .setNoticeMasks sel
  | .readNotices => .readNotices
  | .ackNotices sel => .ackNotices sel
  | .readEviction => .readEviction
  | .allStop => .allStop k
  | .resetStation => .resetStation k
  | .readPosition t => .readPosition t
  | .setDefaultClass t cls => .setDefaultClass t cls
  | .bindVolume t serial generation cls length => .bindVolume t serial generation cls length
  | .unbindVolume t => .unbindVolume t
  | .retireVolume serial => .retireVolume serial
  | .readVolume form index serial => .readVolume form index serial
  | .listVolumes start => .listVolumes start
  | .setMark t number attributes form position tag => .setMark t number attributes form position tag
  | .changeMark t number selector attributes position tag => .changeMark t number selector attributes position tag
  | .retireMark t number => .retireMark t number
  | .findMark t number => .findMark t number
  | .findByTag t tag start => .findByTag t tag start
  | .findNearest t position side => .findNearest t position side
  | .listMarks t start => .listMarks t start
  | .readPassed t => .readPassed t
  | .setCaptureParameters t lead lag filter => .setCaptureParameters t lead lag filter
  | .readCapture t => .readCapture t
  | .queueOrder t tag kind argument => .queueOrder t tag kind argument
  | .halt t => .halt t
  | .cancelPending t => .cancelPending t
  | .readCompletions t => .readCompletions t
  | .setSlotThreshold t threshold => .setSlotThreshold t threshold
  | .readTransport t => .readTransport t
  | .releaseTransport t => .releaseTransport t
  | .resetTransport t => .resetTransport t
  | .setLoopParameters t limitShort bandLow bandHigh limitLong gain persistence =>
    .setLoopParameters t limitShort bandLow bandHigh limitLong gain persistence
  | .setDriveParameters t supplyLevel takeupLevel resume stallTime =>
    .setDriveParameters t supplyLevel takeupLevel resume stallTime
  | .readLoops t => .readLoops t
  | .clearHold t => .clearHold t
  | .readHoldRecord t => .readHoldRecord t

/-- The transport byte of a request, for the requests that name a transport (R178). -/
def Request.transportByte? : Request → Option Byte
  | .poll => none
  | .readLineStatus => none
  | .setNoticeMasks _ => none
  | .readNotices => none
  | .ackNotices _ => none
  | .readEviction => none
  | .allStop => none
  | .resetStation => none
  | .retireVolume _ => none
  | .readVolume _ _ _ => none
  | .listVolumes _ => none
  | r => r.body.head?

/-- The transport an event belongs to, for the events of one transport. -/
def Instr.transport? : Instr → Option TNum
  | .capstanTachCount t _ => some t
  | .capstanTachLoss t => some t
  | .coastEnd t => some t
  | .markerEdge t _ => some t
  | .rawGapLineChange t _ => some t
  | .gapFilterExpiry t => some t
  | .capstanRampEnd t => some t
  | .blankTapeLimit t => some t
  | .haltGapSearchEnd t => some t
  | .loadPress t => some t
  | .rewindPress t => some t
  | .unloadPress t => some t
  | .onlinePress t => some t
  | .resetPress t => some t
  | .takeupReelRevolution t => some t
  | .threadTimeout t => some t
  | .fillTimeout t => some t
  | .loadPointSearchEnd t => some t
  | .releaseQuietTimeout t => some t
  | .lampFlashToggle t => some t
  | .overCurrentEvent t _ _ => some t
  | .reelDrivePeriodStart t _ _ => some t
  | .holdOffExpiry t _ _ => some t
  | .stallTimeReached t _ => some t
  | .reelTachPulse t _ => some t
  | .switchRawChange t _ _ => some t
  | .switchDebounceExpiry t _ => some t
  | .recoveryTimeout t => some t
  | .recoverySteady t => some t
  | _ => none

end Sys2Proof

namespace Sys2Proof.Machine

open Sys2Proof

/-- The position counter lies in its range (R1). -/
def Capstan.inRange (c : Capstan) : Prop := Config.posMin ≤ c.counter ∧ c.counter ≤ Config.posMax

/-- The drive enable is off in HELD and in UNLOADED (R145). -/
def Transport.driveSafe (x : Transport) : Prop :=
  (x.sequencer.state = .held → x.prot.driveEnable = false) ∧
    (x.sequencer.state = .unloaded → x.prot.driveEnable = false)

/-- With the drive enable off, both outputs are 0 with the brakes applied, nothing is limited, and no stall is timed
(R138). -/
def ReelDrive.cut (d : ReelDrive) : Prop :=
  d.output = 0 ∧ d.brake = true ∧ d.commanded = 0 ∧ d.limiting = false ∧ d.stall = none

/-- The reels follow the drive enable (R138). -/
def Transport.reelsSafe (x : Transport) : Prop :=
  x.prot.driveEnable = false → x.supply.cut ∧ x.takeup.cut

/-- The loop parameters are allowed ones (R132). -/
def LoopParams.allowed (p : LoopParams) : Prop :=
  p.limitShort < p.bandLow ∧ p.bandLow ≤ p.bandHigh ∧ p.bandHigh < p.limitLong ∧ p.limitLong ≤ 255 ∧
    1 ≤ p.gain ∧ p.gain ≤ 4 ∧ 1 ≤ p.persistence ∧ p.persistence ≤ 4

/-- A property of every transport. -/
def State.every (p : Transport → Prop) (s : State) : Prop := ∀ t : TNum, p (s.tr t)

/-! ### Tables -/

/-- A volume's list is in its order, with no number twice (R44). -/
def MarksOk (l : List Mark) : Prop :=
  l.Pairwise (fun a b => a.before b = true) ∧ (l.map fun m => m.number).Nodup

/-- Every volume's list is in order, and the pool holds no more than its records (R40, R44). -/
def State.marksSound (s : State) : Prop := (∀ i : Fin 16, MarksOk s.marks[i]) ∧ s.poolInUse ≤ Config.poolSize

/-- The shelf list holds each SHELVED entry exactly once and no other entry (R26), no serial stands in two entries and no
transport has two volumes (R23, R27), and a FREE entry has no marks (R25). -/
def State.volumesSound (s : State) : Prop :=
  s.shelf.Nodup ∧ (∀ i : Fin 16, i ∈ s.shelf ↔ s.volumes[i].isShelved = true) ∧
    (∀ i j : Fin 16, (s.serialOf i).isSome = true → s.serialOf i = s.serialOf j → i = j) ∧
    (∀ (t : TNum) (i j : Fin 16), s.volumes[i].isOn t = true → s.volumes[j].isOn t = true → i = j) ∧
    ∀ i : Fin 16, s.volumes[i].isFree = true → s.marks[i] = []

/-! ### The line -/

/-- A request can be answered at once: the receiver holds ADDRESSED selection, no request waits, and no response is being
sent (R162 to R164). -/
def State.lineReady (s : State) : Prop :=
  s.line.receiver.isAddressed = true ∧ s.line.buffer = none ∧ s.line.transmitter = .idle

/-- A waiting request waits for the transmitter alone (R163). -/
def Line.sound (l : Line) : Prop := l.transmitter.isIdle = true → l.buffer = none

/-- The state with the response of a status and a body begun (R164). -/
def State.sending (status : Status) (body : List Byte) (s : State) : State :=
  { s with
    line := { s.line with
      transmitter := .sending (responseFrames s.line.station s.summary { status := status, body := body }) false } }

/-- The byte that names a transport (R176). -/
def transportByte (t : TNum) : Byte := byte t.toNat

/-- The frames of a request's message, LENGTH first and CHECK last (R160). -/
def messageBytes (r : Request) : List Byte :=
  let front := [byte (r.body.length + 2), r.code] ++ r.body
  front ++ [-(byteSum front)]

/-! ### One transport -/

/-- Everything outside transport `t` is as it was. -/
def State.sameOutside (t : TNum) (s r : State) : Prop :=
  r.pending = s.pending ∧ r.clock = s.clock ∧ r.volumes = s.volumes ∧ r.shelf = s.shelf ∧ r.marks = s.marks ∧
    r.converter = s.converter ∧ r.line = s.line ∧ r.ctl = s.ctl ∧ r.ctlMasks = s.ctlMasks ∧
    r.eviction = s.eviction ∧ ∀ u, u ≠ t → r.tr u = s.tr u

/-- Segment `h` is segment `g` begun to stop for block `o`: a ramp down to rest with no stop target and no approach, the
direction, the speed and the class being kept (R12). -/
def Segment.stopsFor (o : Owner) (g h : Segment) : Prop :=
  (∃ k, h.cond = .ramping k ∧ k.goal = .toRest false ∧ k.toSpeed = 0) ∧ h.stopTarget = none ∧ h.approach = .none ∧
    h.owner = some o ∧ h.dir = g.dir ∧ h.speed = g.speed ∧ h.cls = g.cls

/-- The rewind of transport `x`, or the RETURN of its unload, has been ended in `y`: FAST begins its stop, unless the load
point or an earlier ending has begun one; every other phase goes on to its rezero (R118). Nothing else of the Sequencer and
nothing of the counter, the windows, the reels and the hold changes. -/
def Transport.rewindEnded (x y : Transport) : Prop :=
  y.sequencer = { x.sequencer with ending := true } ∧ y.cap.counter = x.cap.counter ∧ y.cap.conf = x.cap.conf ∧
    y.capture = x.capture ∧ y.supply = x.supply ∧ y.takeup = x.takeup ∧ y.prot = x.prot ∧
    if x.sequencer.state.rewindPhase? = some .fast ∧ x.sequencer.lpStop = false ∧ x.sequencer.ending = false then
      x.cap.seg.stopsFor .sequencer y.cap.seg
    else y.cap = x.cap

/-- A state in which a cause makes a hold entry (R149). -/
def XState.tripping : XState → Bool
  | .unloaded => false
  | .held => false
  | .recovering => false
  | _ => true

/-- An order list after its running order has ended FAULT, with its count so far and the counter as final position, and
its pending orders have been discarded (R105, R103; the count of an ADVANCE: log entry 24). -/
def faultedList (counter : Int) (l : List Slot) : List Slot :=
  (replaceRunning (fun o w => .record
    { tag := o.tag, kind := o.kind, status := .fault
      count := match o.kind with
        | .spaceF _ => w.count
        | .spaceR _ => w.count
        | .advance _ => (min 65535 (max 0 w.net)).toNat
        | _ => 0
      finalPos := some counter
      markNumber := match o.kind with
        | .seekMark m => some m
        | _ => none }) l).map fun sl =>
    match sl with
    | .pending o => .record
      { tag := o.tag, kind := o.kind, status := .discarded, count := 0, finalPos := none
        markNumber := match o.kind with
          | .seekMark m => some m
          | _ => none }
    | other => other

/-- The record of an order `o` that ran, with working values `w`, and ended with a status at a final position (R85; the count
of an ADVANCE: log entry 24). -/
def completionRecord (o : Order) (w : Work) (status : Completion) (counter : Int) : Slot := .record
  { tag := o.tag, kind := o.kind, status := status
    count := match o.kind with
      | .spaceF _ => w.count
      | .spaceR _ => w.count
      | .advance _ => (min 65535 (max 0 w.net)).toNat
      | _ => 0
    finalPos := some counter
    markNumber := if status = .barrier then w.barrier
      else match o.kind with
        | .seekMark m => some m
        | _ => none }

/-- What a hold entry of transport `x` with a cause leaves, `y` (R149): the running order ended FAULT and the pending ones
discarded (R105), no window (R71), the drive cut (R138, R145), the record rewritten, a moving capstan coasting with EXACT
become COASTED (R16, R2), and the Sequencer HELD, with a load interrupted (R123). -/
def Transport.heldBy (cause : Cause) (x y : Transport) : Prop :=
  y.sequencer = { x.sequencer with
    state := .held, panelMotion := false, loadTimer := none, quiet := none, ending := false, lpStop := false
    loadResult := match x.sequencer.state with
      | .loading _ => .interrupted
      | _ => x.sequencer.loadResult } ∧
    y.prot.driveEnable = false ∧ y.supply.cut ∧ y.takeup.cut ∧
    y.prot.hold =
      { active := true, primary := some cause, position := some x.cap.counter, state := some x.sequencer.state
        further := [], failed := false } ∧
    y.capture = { x.capture with windows := [], watch := [], target := none } ∧
    y.cap.counter = x.cap.counter ∧ y.cap.lastGap = none ∧ y.cap.eotPos = x.cap.eotPos ∧
    y.cap.conf = (if cause = .capstanTachLoss then .lost
      else if x.cap.seg.moving = true ∧ x.cap.conf = .exact then .coasted else x.cap.conf) ∧
    y.cap.seg = (if x.cap.seg.moving then
      { cond := .coasting, dir := x.cap.seg.dir, speed := none, stopTarget := none, approach := .none, owner := none
        cls := x.cap.seg.cls } else x.cap.seg) ∧
    y.orders = { x.orders with list := faultedList x.cap.counter x.orders.list } ∧
    y.flags = { x.flags with hold := true } ∧ y.masks = x.masks ∧ y.loop = x.loop ∧ y.drive = x.drive

/-- What a cause leaves of a RECOVERING transport `x`, `y`: HELD again with the drive cut, both recovery timers stopped, the
hold record failed with the cause among the further ones and otherwise as it was, and HOLD set (R154, R138). -/
def Transport.failedBy (cause : Cause) (x y : Transport) : Prop :=
  y.sequencer = { x.sequencer with state := .held } ∧ y.prot.driveEnable = false ∧ y.supply.cut ∧ y.takeup.cut ∧
    y.prot.recovery = none ∧ y.prot.steady = none ∧
    y.prot.hold = { x.prot.hold with
      failed := true, further := Cause.all.filter fun k => k == cause || x.prot.hold.further.contains k } ∧
    y.cap = x.cap ∧ y.capture = x.capture ∧ y.orders = x.orders ∧ y.flags = { x.flags with hold := true } ∧
    y.masks = x.masks ∧ y.loop = x.loop ∧ y.drive = x.drive

/-- A transport HELD since this very moment, with what was armed then (R147, R151, log entry 46). -/
def Transport.heldNow (now : Nat) (armed : HoldMoment → Bool) (x : Transport) : Prop :=
  x.sequencer.state = .held ∧ ∃ m, x.prot.moment = some m ∧ m.clock = now ∧ armed m = true

/-- A cause put among the further causes of a hold record, which else stays (R151). -/
def Protection.withFurther (cause : Cause) (p : Protection) : Protection :=
  { p with hold := { p.hold with
    further := Cause.all.filter fun k => k == cause || p.hold.further.contains k } }

/-- The running order `o` of transport `x` has begun its stop in `y`, with a stop reason and the barrier that gives it; `w`
are its working values, the stop aside (R84, R91). -/
def Transport.stopsOrder (o : Order) (w : Work) (reason : Completion) (barrier : Option Nat) (x y : Transport) : Prop :=
  x.cap.seg.stopsFor .orders y.cap.seg ∧
    y.running = some (o, { w with phase := .stopping, reason := some reason, barrier := barrier })

/-- Segment `g` has begun a RUN request of block `o` from rest, in the class that was chosen (R10, R11). -/
def Segment.startsFor (o : Owner) (c : Inertia) (r : RunReq) (g : Segment) : Prop :=
  (∃ k, g.cond = .ramping k ∧ k.goal = .toSpeed ∧ k.dir = r.dir ∧ k.fromSpeed = 0 ∧ k.toSpeed = r.speed.mm ∧
      k.lasts = restTime c r.speed) ∧
    g.dir = some r.dir ∧ g.speed = some r.speed ∧ g.stopTarget = r.target ∧ g.approach = r.approach ∧
    g.owner = some o ∧ g.cls = c

/-- Transport `t` can start an order at once: READY and online, its capstan at rest, its order list holding completion
records alone, with a slot free (R83, R86, R87). -/
def State.startReady (t : TNum) (done : List Record) (s : State) : Prop :=
  s.lineReady ∧ (s.tr t).sequencer.online = true ∧ (s.tr t).sequencer.state = .ready ∧
    (s.tr t).orders.list = done.map .record ∧ done.length < 8 ∧ (s.tr t).cap.seg.cond = .atRest

/-- Transport `x` runs order `o`, with working values `w`, on a forward leg at SEEK speed: before EOT, with no window open
and no barrier under watch, and with the approach distance or more still to go (R90). -/
def Transport.fastForward (o : Order) (w : Work) (x : Transport) : Prop :=
  x.running = some (o, w) ∧ w.phase = .fast ∧ ((∃ p, o.kind = .seekPos p) ∨ ∃ m, o.kind = .seekMark m) ∧
    w.leg.dir = .forward ∧ x.cap.seg.cond = .running ∧ x.cap.seg.speed = some .seek ∧ x.cap.seg.dir = some .forward ∧
    x.cap.eotPos = none ∧ x.cap.conf ≠ .lost ∧ x.capture.windows = [] ∧ x.capture.watch = [] ∧
    x.cap.counter + 1500 ≤ w.leg.endPoint

/-- No order of transport `x` is on a forward leg at SEEK speed, so that a change to a barrier plans nothing anew (R90). -/
def Transport.planStands (x : Transport) : Prop :=
  ∀ o w, x.running = some (o, w) → w.phase ≠ .fast ∨ w.leg.dir = .reverse

/-- The slow-down point of a forward leg where the volume holds one barrier, with no window, or none: the low bound of a
barrier ahead of the head that applies, or the end point if that is lower, less the approach distance (R76, R90). Ahead of
the head is a position above the counter (log entry 17). -/
def Transport.slowDownFor (w : Work) (barrier : Option Int) (x : Transport) : Int :=
  match barrier with
  | some p =>
    if w.start < p - x.capture.lead ∧ x.cap.counter < p then min (w.leg.endPoint - 1500) (p - x.capture.lead - 1500)
    else w.leg.endPoint - 1500
  | none => w.leg.endPoint - 1500

/-- The forward leg of order `o` of transport `x` has been planned anew in `y`, with slow-down point `slow`: where the head
has not reached it nothing else of the order and the capstan changes, and else the capstan goes on at READ speed at once
(R80, R90). Nothing of the Sequencer, the reels, the hold and the notices changes. -/
def Transport.replannedTo (slow : Int) (o : Order) (w : Work) (x y : Transport) : Prop :=
  let v := { w with leg := { w.leg with slowDown := slow } }
  y.sequencer = x.sequencer ∧ y.supply = x.supply ∧ y.takeup = x.takeup ∧ y.prot = x.prot ∧ y.flags = x.flags ∧
    y.masks = x.masks ∧ y.orders.list.length = x.orders.list.length ∧
  (x.cap.counter < slow → y.running = some (o, v) ∧ y.cap = x.cap) ∧
    (slow ≤ x.cap.counter → y.running = some (o, { v with phase := .readLeg, runoutTarget := false }) ∧
      y.cap.counter = x.cap.counter ∧ y.cap.conf = x.cap.conf ∧ y.cap.seg.dir = some .forward ∧
      y.cap.seg.speed = some .read ∧ y.cap.seg.stopTarget = (if w.leg.rests then some w.leg.endPoint else none) ∧
      ∃ k, y.cap.seg.cond = .ramping k ∧ k.goal = .toSpeed ∧ k.fromSpeed = 8000 ∧ k.toSpeed = 4000)

/-- Only POINT marks in the volume bound to `t`, if there is one. -/
def State.noBarriers (t : TNum) (s : State) : Prop := ∀ m ∈ s.boundMarks t, m.kind = .point

/-- The bounds of the range of mark `m`: those of its open window, or by the lead and the lag in force (R76). -/
def Transport.boundsOf (m : Mark) (low high : Int) (x : Transport) : Prop :=
  match x.capture.windowOf m.number with
  | some w => low = w.low ∧ high = w.high
  | none => low = m.pos - x.capture.lead ∧ high = m.pos + x.capture.lag

/-- Mark `m` is the first BARRIER of the volume bound to `t`, and it applies to order `o`, which the capstan carries forward
(R76, R77). -/
def State.firstBarrier (t : TNum) (o : Order) (w : Work) (m : Mark) (s : State) : Prop :=
  (∃ before after, s.boundMarks t = before ++ m :: after ∧ ∀ k ∈ before, k.kind = .point) ∧ m.kind = .barrier ∧
    (s.tr t).cap.conf ≠ .lost ∧ w.start < m.pos - (s.tr t).capture.lead ∧
    (match o.kind with
      | .spaceF _ => True
      | .advance _ => True
      | .seekPos _ => True
      | .seekMark _ => True
      | _ => False)

end Sys2Proof.Machine
end

