-- ==== Sys2Proof/Certificates/Slice0/Obligations.lean ====
section
/-! DEFINITION. The statements for the provers, by the chapters of the manual: the queue, the line, the notices, the
capstan, the volumes, the marks, the capture windows, the orders, the sequencer, the loops and reels, the holds, and the
conditions every step keeps. A request is stated on a line that can answer (`State.lineReady`); the statements
`RequestsWaitForTheTransmitter` and `AMessageRunsItsCommand` say what happens elsewhere. -/

open Sys2Proof Sys2Proof.Machine

/-! ### The queue and the start -/

/-- A step takes the command at the front of the queue and executes it on the state with the queue's rest (log entry 1); on
an empty queue 1 µs passes and nothing else happens (log entry 2, the model's choice). -/
def Obligations.StepTakesTheFrontCommand : Prop :=
  (∀ (c : Instr) (q : List Instr) (s : State), step { s with pending := c :: q } = exec c { s with pending := q }) ∧
    ∀ s : State, s.pending = [] → step s = .next { s with clock := s.clock + 1 }

/-- The machine right after power-on with no reel: the values the manual gives (R21, R23, R40, R63, R83, R108, R110,
R132, R141, R142, R144, R159, R161, R162, R164, R169, R170, R174). That no transport has a reel is log entry 5. -/
def Obligations.ResetLeavesThePowerOnValues : Prop :=
  State.reset.pending = [] ∧
  (∀ t : TNum,
    let x := State.reset.tr t
    (x.cap.counter = 0 ∧ x.cap.conf = .lost ∧ x.cap.lastGap = none ∧ x.cap.eotPos = none ∧ x.cap.seg.cond = .atRest ∧
      x.cap.defaultClass = .standard ∧ x.cap.filter.time = .us40 ∧ x.cap.filter.level = x.cap.filter.raw) ∧
    (x.capture.lead = 80 ∧ x.capture.lag = 80 ∧ x.capture.windows = [] ∧ x.orders.list = [] ∧ x.orders.threshold = 0) ∧
    (x.sequencer.state = .unloaded ∧ x.sequencer.online = false ∧ x.sequencer.panelMotion = false ∧
      x.sequencer.leader = false ∧ x.sequencer.valveOpen = false ∧ x.sequencer.loadResult = .none) ∧
    x.loop = { limitShort := 12, bandLow := 100, bandHigh := 156, limitLong := 244, gain := 2, persistence := 2 } ∧
    x.drive = { supplyLevel := 200, takeupLevel := 200, resume := .atPeriod, stallMs := 25 } ∧
    (∀ e : Reel, (x.reel e).cut ∧ (x.reel e).mode = .zone ∧ (x.reel e).entered = true ∧ (x.reel e).zone = .limitLong ∧
      (x.reel e).persist = 0) ∧
    (x.prot.driveEnable = false ∧ x.prot.recovery = none ∧ x.prot.steady = none ∧
      x.prot.hold =
        { active := false, primary := none, position := none, state := none, further := [], failed := false }) ∧
    x.flags = { slots := false, hold := false, state := false } ∧
    x.masks = { done := true, slots := true, passed := true, hold := true, state := true }) ∧
  (∀ i : Fin 16, State.reset.volumes[i] = .free ∧ State.reset.marks[i] = []) ∧ State.reset.shelf = [] ∧
  State.reset.line.receiver = .unselected ∧ State.reset.line.buffer = none ∧ State.reset.line.transmitter = .idle ∧
  State.reset.line.flags = { parity := false, framing := false, check := false, timeout := false, overrun := false } ∧
  State.reset.ctl = { evict := false, line := false } ∧ State.reset.ctlMasks = { evict := true, line := true } ∧
  State.reset.eviction = { serial := none, count := 0 }

/-- POWER_ON: a transport with a reel whose tape stands in a column starts HELD with cause POWER ON and its valve open,
any other UNLOADED with its valve closed; the drive is off, and the pins are taken (R110, R21, R144, R155, R158). The
queue of waiting commands is kept (log entry 1). -/
def Obligations.PowerOnStartsEachTransport : Prop :=
  ∀ (pins : PowerPins) (s : State), ∃ r, exec (.powerOn pins) s = .next r ∧ r.pending = s.pending ∧
    r.line.station = pins.station ∧ r.line.rate = pins.rate ∧ r.line.receiver = .unselected ∧
    (∀ i : Fin 16, r.volumes[i] = .free ∧ r.marks[i] = []) ∧ r.shelf = [] ∧
    ∀ t : TNum,
      let p := pins.x.get t
      let x := r.tr t
      let held := p.reelPresent = true ∧ (p.supplyDepth.toNat < 244 ∨ p.takeupDepth.toNat < 244)
      (held → x.sequencer.state = .held ∧ x.sequencer.valveOpen = true ∧
        x.prot.hold = { active := true, primary := some .powerOn, position := some 0, state := none, further := []
                        failed := false }) ∧
      (¬ held → x.sequencer.state = .unloaded ∧ x.sequencer.valveOpen = false ∧ x.prot.hold.active = false) ∧
      x.prot.driveEnable = false ∧ x.sequencer.online = false ∧ x.cap.counter = 0 ∧ x.cap.conf = .lost ∧
      x.cap.filter.level = p.rawGap ∧ x.prot.vacuum.debounced = p.vacuumPresent ∧
      x.prot.door.debounced = p.doorOpen ∧
      x.supplySlot.depth = p.supplyDepth.toNat ∧ x.takeupSlot.depth = p.takeupDepth.toNat ∧ x.orders.list = []

/-! ### The station line -/

/-- An address frame selects by its number, and any other selection than ADDRESSED cuts a response (R159, R164). -/
def Obligations.AddressFramesSelect : Prop :=
  ∀ (data : Byte) (s : State),
    let own := data = s.line.station.setWidth 8
    exec (.addressFrame data) s = .next { s with
      line := { s.line with
        receiver := if own then .idle .addressed else if data = 0xFF then .idle .broadcast else .unselected
        transmitter :=
          match s.line.transmitter with
          | .idle => .idle
          | .sending frames cut => .sending frames (if own then cut else true) } }

/-- A data frame by the state of the receiver, up to the last frame of a message; a message that fails its CHECK is
discarded, CHECK being set, and LINE with it if CHECK was clear (R159, R160, R161). -/
def Obligations.DataFramesAssembleMessages : Prop :=
  ∀ (data : Byte) (s : State) (k : SelKind),
    (s.line.receiver = .unselected → exec (.dataFrame data) s = .next s) ∧
    (s.line.receiver = .discarding k → exec (.dataFrame data) s = .next s) ∧
    (s.line.receiver = .idle k → 2 ≤ data.toNat ∧ data.toNat ≤ 63 →
      exec (.dataFrame data) s = .next { s with line := { s.line with receiver := .receiving k data.toNat [data] } }) ∧
    (s.line.receiver = .idle k → data.toNat < 2 ∨ 63 < data.toNat →
      exec (.dataFrame data) s = .next { s with line := { s.line with receiver := .discarding k } }) ∧
    (∀ (n : Nat) (got : List Byte), s.line.receiver = .receiving k (n + 2) got →
      exec (.dataFrame data) s =
        .next { s with line := { s.line with receiver := .receiving k (n + 1) (got ++ [data]) } }) ∧
    ∀ got : List Byte, s.line.receiver = .receiving k 1 got → byteSum (got ++ [data]) ≠ 0 →
      exec (.dataFrame data) s = .next { s with
        line := { s.line with receiver := .idle k, flags := { s.line.flags with check := true } }
        ctl := if s.line.flags.check then s.ctl else { s.ctl with line := true } }

/-- A frame received on the pair is a FRAME_ERROR by its parity test (an even number of ones) and its framing test (the stop
bit), whatever its kind bit shows, and else an address or a data frame by its kind bit (R158). A frame with an error sets
its flags unless the receiver is UNSELECTED, sets LINE if a flag was clear, and discards a message in progress; a frame gap
of more than 3 ms ends RECEIVING with TIMEOUT and DISCARDING without it, and is nothing elsewhere (R159, R161). -/
def Obligations.FrameErrorsAndGaps : Prop :=
  (∀ f : WireFrame,
    let ones := ((List.range 8).countP fun i => f.data.getLsbD i) + (if f.kind then 1 else 0) + (if f.parity then 1 else 0)
    f.command = if ones % 2 = 0 ∨ f.stop = false then .frameError (decide (ones % 2 = 0)) (!f.stop)
      else if f.kind then .addressFrame f.data
      else .dataFrame f.data) ∧
  ∀ (parity framing : Bool) (s : State) (k : SelKind),
    ((parity || framing) = true →
      let flags := { s.line.flags with
        parity := s.line.flags.parity || parity, framing := s.line.flags.framing || framing }
      let ctl := if flags = s.line.flags then s.ctl else { s.ctl with line := true }
      (s.line.receiver = .unselected → exec (.frameError parity framing) s = .next s) ∧
      (s.line.receiver = .discarding k ∨ s.line.receiver = .idle k ∨
          (∃ n got, s.line.receiver = .receiving k n got) →
        exec (.frameError parity framing) s =
          .next { s with line := { s.line with flags := flags, receiver := .discarding k }, ctl := ctl })) ∧
    (s.line.receiver = .unselected ∨ s.line.receiver = .idle k → exec .frameGapTimeout s = .next s) ∧
    (s.line.receiver = .discarding k →
      exec .frameGapTimeout s = .next { s with line := { s.line with receiver := .idle k } }) ∧
    ∀ n got, s.line.receiver = .receiving k n got →
      exec .frameGapTimeout s = .next { s with
        line := { s.line with receiver := .idle k, flags := { s.line.flags with timeout := true } }
        ctl := if s.line.flags.timeout then s.ctl else { s.ctl with line := true } }

/-- Every request, in the bytes of the catalogue, is read back as that request (R160, R176, R178). -/
def Obligations.RequestsReadBackFromTheirBytes : Prop :=
  ∀ r : Request, decodeMessage r.code r.body = .known r

/-- The frames of a request's whole message, sent to a selected receiver, do what the request's command does; a broadcast
message of any other request than ALL STOP and RESET STATION does nothing (R159 to R163). -/
def Obligations.AMessageRunsItsCommand : Prop :=
  ∀ (r : Request) (k : SelKind) (s : State), s.line.receiver = .idle k →
    s.pending = (messageBytes r).map .dataFrame →
    (k = .addressed ∨ r = .allStop ∨ r = .resetStation →
      Sys2Proof.core.run (messageBytes r).length s = exec (r.command k) { s with pending := [] }) ∧
    (k = .broadcast → r ≠ .allStop → r ≠ .resetStation →
      Sys2Proof.core.run (messageBytes r).length s = .next { s with pending := [] })

/-- The checks common to all requests, which change nothing: a checked message whose CODE is not one of the catalogue's is
refused UNKNOWN REQUEST, and one whose body has not the length the catalogue gives its CODE is refused BAD LENGTH (R163,
R178); a request that names a transport outside 0 to 3 is refused BAD PARAMETER (R163). -/
def Obligations.CommonChecksRefuse : Prop :=
  (∀ (data : Byte) (got : List Byte) (s : State) (code : Byte) (body : List Byte),
    s.line.receiver = .receiving .addressed 1 got → s.line.buffer = none → s.line.transmitter = .idle →
    got.length = body.length + 2 → got.getD 1 0 = code → got.drop 2 = body → byteSum (got ++ [data]) = 0 →
    let ready := { s with line := { s.line with receiver := .idle .addressed } }
    let lengths : List (Byte × Nat) :=
      [(0x01, 0), (0x02, 0), (0x03, 5), (0x04, 0), (0x05, 5), (0x06, 0), (0x0E, 0), (0x0F, 0)] ++
        [(0x10, 1), (0x11, 2), (0x20, 13), (0x21, 1), (0x22, 6), (0x23, 8), (0x24, 1)] ++
        [(0x30, 12), (0x31, 12), (0x32, 3), (0x33, 3), (0x34, 7), (0x35, 5), (0x36, 3), (0x37, 1), (0x38, 6), (0x39, 1)] ++
        [(0x40, 6), (0x41, 1), (0x42, 1), (0x43, 1), (0x44, 2), (0x50, 1), (0x51, 1), (0x52, 1)] ++
        [(0x60, 7), (0x61, 5), (0x62, 1), (0x70, 1), (0x71, 1)]
    ((∀ p ∈ lengths, p.1 ≠ code) → exec (.dataFrame data) s = .next (ready.sending .unknownRequest [])) ∧
    (∀ n, (code, n) ∈ lengths → body.length ≠ n →
      exec (.dataFrame data) s = .next (ready.sending .badLength []))) ∧
  ∀ (r : Request) (b : Byte) (s : State), s.lineReady → r.transportByte? = some b → 4 ≤ b.toNat →
    exec (r.command .addressed) s = .next (s.sending .badParameter [])

/-- A request that reaches an empty buffer while a response is sent waits there; one that finds the buffer full is lost,
OVERRUN being set, and LINE with it if OVERRUN was clear. The end of the transmission makes the transmitter idle, and a
waiting request is executed then as if it came then (R161 to R164). -/
def Obligations.RequestsWaitForTheTransmitter : Prop :=
  ∀ (r : Request) (s : State),
    (s.line.buffer = none → s.line.transmitter.isIdle = false →
      exec (r.command .addressed) s =
        .next { s with line := { s.line with buffer := some { message := .known r, kind := .addressed } } }) ∧
    (∀ b, s.line.buffer = some b →
      exec (r.command .addressed) s = .next { s with
        line := { s.line with flags := { s.line.flags with overrun := true } }
        ctl := if s.line.flags.overrun then s.ctl else { s.ctl with line := true } }) ∧
    ∀ (frames : List Frame) (cut : Bool), s.line.transmitter = .sending frames cut →
      (s.line.buffer = none → exec .transmitEnd s = .next { s with line := { s.line with transmitter := .idle } }) ∧
      (s.line.buffer = some { message := .known r, kind := .addressed } →
        exec .transmitEnd s =
          exec (r.command .addressed) { s with line := { s.line with transmitter := .idle, buffer := none } })

/-- A response is the station's address frame and data frames, of which the first counts those after it and all sum to
0 modulo 256 (R164). Each frame is sent with its kind bit, a parity bit that makes the number of ones odd, and its stop
bit at the resting level, so that it is received as what it is, and lasts twelve bit times of the line rate (R158): on
the line a start bit, which leaves the resting level (log entry 57), the data bits from the least significant one, the
kind bit, the parity bit and the stop bit (R176), from which any frame is read back. The codes of the values that the
manual names, and the three bytes of a position and of an absent one, are those of R176, R177 and R179 (the position
that three bytes cannot hold is log entry 39; the codes of a state without a phase: log entry 21; those of orders,
completions, volumes and roles stand in the statements about their records). -/
def Obligations.ResponsesCarryLengthAndCheck : Prop :=
  (∀ (station : BitVec 4) (summary : Byte) (status : Status) (body : List Byte), body.length ≤ 60 →
    ∃ data : List Byte,
      responseFrames station summary { status := status, body := body } =
        { address := true, data := station.setWidth 8 } :: data.map (fun b => { address := false, data := b }) ∧
      data.take 3 = [byte (data.length - 1), byte status.code, summary] ∧
      (data.drop 3).take body.length = body ∧ data.length = body.length + 4 ∧ byteSum data = 0) ∧
  (∀ f : Frame,
    f.wire.data = f.data ∧ f.wire.kind = f.address ∧ f.wire.stop = true ∧
      (((List.range 8).countP fun i => f.data.getLsbD i) + (if f.address then 1 else 0) +
        (if f.wire.parity then 1 else 0)) % 2 = 1 ∧
      f.wire.command = if f.address then .addressFrame f.data else .dataFrame f.data) ∧
  (∀ w : WireFrame,
    w.bits = [false, w.data.getLsbD 0, w.data.getLsbD 1, w.data.getLsbD 2, w.data.getLsbD 3, w.data.getLsbD 4,
      w.data.getLsbD 5, w.data.getLsbD 6, w.data.getLsbD 7, w.kind, w.parity, w.stop] ∧
    WireFrame.ofBits w.bits = some w) ∧
  [0, 1, 2, 3].map lineBits = [19200, 38400, 76800, 153600] ∧
  [0, 1, 2, 3].map frameTime = [625000, 312500, 156250, 78125] ∧
  [Status.done, .unknownRequest, .badLength, .badParameter, .wrongState, .offline, .held, .busy, .slotsFull, .notBound,
    .noSuchMark, .markExists, .poolFull, .noSuchVolume, .boundElsewhere, .causePresent, .notExact, .noLastGap].map
      Status.code = List.range 18 ∧
  [Confidence.exact, .coasted, .lost].map Confidence.code = [0, 1, 2] ∧
  [Inertia.light, .standard, .heavy].map Inertia.code = [0, 1, 2] ∧
  [MarkKind.point, .barrier].map MarkKind.code = [0, 1] ∧
  [MarkState.provisional, .verified, .doubtful].map MarkState.code = [0, 1, 2] ∧
  [NoticeMode.none, .forward, .reverse, .both].map NoticeMode.code = [0, 1, 2, 3] ∧
  [FilterTime.us0, .us20, .us40, .us80].map FilterTime.code = [0, 1, 2, 3] ∧
  [ResumeMode.atPeriod, .afterHoldOff].map ResumeMode.code = [0, 1] ∧
  [XState.unloaded, .ready, .moving, .held, .recovering].map (fun q => (q.code, q.phaseCode, q.returnCode)) =
    [(0, 0, 0), (2, 0, 0), (3, 0, 0), (6, 0, 0), (7, 0, 0)] ∧
  [LoadPhase.thread, .fill, .findLoadPoint].map (fun p => ((XState.loading p).code, (XState.loading p).phaseCode,
    (XState.loading p).returnCode)) = [(1, 1, 0), (1, 2, 0), (1, 3, 0)] ∧
  [RewindPhase.fast, .approach, .settle].map (fun p => ((XState.rewinding p).code, (XState.rewinding p).phaseCode,
    (XState.rewinding p).returnCode)) = [(4, 4, 0), (4, 5, 0), (4, 6, 0)] ∧
  [UnloadPhase.ret .fast, .ret .approach, .ret .settle, .release].map (fun p => ((XState.unloading p).code,
    (XState.unloading p).phaseCode, (XState.unloading p).returnCode)) = [(5, 7, 4), (5, 7, 5), (5, 7, 6), (5, 8, 0)] ∧
  [Cause.supplyLoopShort, .supplyLoopLong, .takeupLoopShort, .takeupLoopLong, .vacuumLoss, .supplyStall, .takeupStall,
    .capstanTachLoss, .doorOpen, .powerOn, .recoveryTimeout].map Cause.code = List.range 11 ∧
  Cause.all.map Cause.code = List.range 11 ∧
  [LoadResult.none, .complete, .threadTimeout, .fillTimeout, .noLoadPoint, .abandoned, .interrupted].map
    LoadResult.code = List.range 7 ∧
  [Lamp.off, .steady, .flashing].map Lamp.code = [0, 1, 2] ∧
  [Zone.limitShort, .short, .center, .long, .limitLong].map Zone.code = [0, 1, 2, 3, 4] ∧
  [ReelMode.thread, .zone, .release].map ReelMode.code = [0, 1, 2] ∧
  [Condition.atRest, .running, .coasting, .free].map Condition.code = [0, 2, 3, 4] ∧
  (∀ r, (Condition.ramping r).code = 1) ∧
  [Speed.creep, .read, .seek, .rewind].map Speed.code = [0, 1, 2, 3] ∧
  [Approach.none, .establishing, .returning].map Approach.code = [0, 1, 2] ∧
  (∀ p : Int, -8388608 ≤ p → p ≤ 8388607 →
    let v := (p % 16777216).toNat
    positionBytes p = [byte (v / 65536), byte (v / 256 % 256), byte (v % 256)] ∧ positionBytes? (some p) = positionBytes p) ∧
  positionBytes? none = [0x80, 0, 0]

/-- POLL answers the station number and the line rate, and changes nothing (R165). READ LINE STATUS returns the five flags
and clears them; the LINE notice is left as it was (R166). -/
def Obligations.PollAndReadLineStatus : Prop :=
  ∀ s : State, s.lineReady →
    exec .poll s = .next (s.sending .done [s.line.station.setWidth 8, s.line.rate.setWidth 8]) ∧
    let f := s.line.flags
    exec .readLineStatus s = .next (State.sending .done
      [byteOfBits [f.parity, f.framing, f.check, f.timeout, f.overrun]]
      { s with line := { s.line with
        flags := { parity := false, framing := false, check := false, timeout := false, overrun := false } } })

/-! ### Notices -/

/-- SET NOTICE MASKS sets all 22 masks by the bits of its selection (R170, R176). READ EVICTION returns the last evicted
serial and the count, makes the count 0, and clears EVICT; the serial stays (R174). -/
def Obligations.MasksAreSetAndEvictionsRead : Prop :=
  ∀ (sel : NoticeSel) (s : State), s.lineReady →
    (∃ r : State, exec (.setNoticeMasks sel) s = .next (r.sending .done []) ∧
      r.ctlMasks = { evict := sel.controller.getLsbD 0, line := sel.controller.getLsbD 1 } ∧
      (∀ t : TNum, r.tr t =
        let b := sel.x.get t
        { s.tr t with
          masks := { done := b.getLsbD 0, slots := b.getLsbD 1, passed := b.getLsbD 2, hold := b.getLsbD 3
                     state := b.getLsbD 4 } }) ∧
      { r with x := s.x, ctlMasks := s.ctlMasks } = s) ∧
    exec .readEviction s = .next (State.sending .done
      ((match s.eviction.serial with
        | some v => [v.c0, v.c1, v.c2, v.c3, v.c4, v.c5]
        | none => [0, 0, 0, 0, 0, 0]) ++ [byte s.eviction.count])
      { s with eviction := { s.eviction with count := 0 }, ctl := { s.ctl with evict := false } })

/-- READ NOTICES returns the 22 flags, the 22 masks and the eviction count, and changes nothing (R172). DONE is a record at
the front of the order list (R108), and PASSED a passed flag set on a mark of the bound volume (R43). -/
def Obligations.ReadNoticesReturnsFlagsAndMasks : Prop :=
  ∀ s : State, s.lineReady →
    let done := fun t : TNum =>
      match (s.tr t).orders.list with
      | .record _ :: _ => true
      | _ => false
    let passed := fun t : TNum => (s.boundMarks t).any fun m => m.passed
    let flags := fun t : TNum => byteOfBits
      [done t, (s.tr t).flags.slots, passed t, (s.tr t).flags.hold, (s.tr t).flags.state]
    let masks := fun t : TNum => byteOfBits
      [(s.tr t).masks.done, (s.tr t).masks.slots, (s.tr t).masks.passed, (s.tr t).masks.hold, (s.tr t).masks.state]
    exec .readNotices s = .next (s.sending .done
      [flags .t0, flags .t1, flags .t2, flags .t3, byteOfBits [s.ctl.evict, s.ctl.line],
        masks .t0, masks .t1, masks .t2, masks .t3, byteOfBits [s.ctlMasks.evict, s.ctlMasks.line],
        byte s.eviction.count])

/-- ACK NOTICES clears the event flags it names and no others; the level flags, whose conditions are left as they were,
stay as they are (R173). -/
def Obligations.AckNoticesClearsTheNamedEvents : Prop :=
  ∀ (sel : NoticeSel) (s : State), s.lineReady → ∃ r : State,
    exec (.ackNotices sel) s = .next (r.sending .done []) ∧
    r.ctl = { evict := s.ctl.evict && !sel.controller.getLsbD 0, line := s.ctl.line && !sel.controller.getLsbD 1 } ∧
    (∀ t : TNum, r.tr t =
      let b := sel.x.get t
      let f := (s.tr t).flags
      { s.tr t with
        flags := { slots := f.slots && !b.getLsbD 1, hold := f.hold && !b.getLsbD 3, state := f.state && !b.getLsbD 4 } }) ∧
    (∀ t : TNum, (r.tr t).doneFlag = (s.tr t).doneFlag ∧ r.passedFlag t = s.passedFlag t) ∧
    { r with x := s.x, ctl := s.ctl } = s

/-- The attention line is asserted exactly when some flag is set whose mask is enabled, and the summary has one bit for
each transport and one for the controller (R171). DONE is a record at the front of the order list (R108), PASSED a passed
flag set on a mark of the bound volume (R43). -/
def Obligations.AttentionFollowsTheMaskedFlags : Prop :=
  ∀ s : State,
    let shown := fun t : TNum =>
      ((∃ r rest, (s.tr t).orders.list = .record r :: rest) ∧ (s.tr t).masks.done = true) ∨
        ((s.tr t).flags.slots = true ∧ (s.tr t).masks.slots = true) ∨
        ((∃ m ∈ s.boundMarks t, m.passed = true) ∧ (s.tr t).masks.passed = true) ∨
        ((s.tr t).flags.hold = true ∧ (s.tr t).masks.hold = true) ∨
        ((s.tr t).flags.state = true ∧ (s.tr t).masks.state = true)
    let own := (s.ctl.evict = true ∧ s.ctlMasks.evict = true) ∨ (s.ctl.line = true ∧ s.ctlMasks.line = true)
    (s.attention = true ↔ (∃ t, shown t) ∨ own) ∧ (∀ t, s.summary.getLsbD t.toNat = true ↔ shown t) ∧
      (s.summary.getLsbD 4 = true ↔ own)

/-- A station reset drops every record and pending order, clears every event flag, the line error flags and the eviction
record, enables every mask, deselects the receiver and empties the buffer; it answers nothing, and of transports without a
running order and without a panel motion all else stays (R167, R106, R175). On one transport with a driven capstan it halts
a running order with a STOP at once, with no halt search (R106; a halt search too: log entry 38), lets one that is stopping
or in its approach go on (R95, R101), and ends a rewind or an UNLOADING RETURN, whether an order's or the panel's (R118,
R126). -/
def Obligations.ResetStationOnQuietTransports : Prop :=
  ∀ (k : SelKind) (s : State), s.line.buffer = none → s.line.transmitter = .idle →
    let quiet := fun t : TNum => (s.tr t).running = none ∧ (s.tr t).sequencer.panelMotion = false
    let clear := fun x : Transport => { x with
      orders := { x.orders with list := [] }
      flags := { slots := false, hold := false, state := false }
      masks := { done := true, slots := true, passed := true, hold := true, state := true } }
    let reset := fun r : State => { r with x := s.x } = { s with
      ctl := { evict := false, line := false }, ctlMasks := { evict := true, line := true }
      eviction := { serial := none, count := 0 }
      line := { s.line with
        receiver := .unselected
        flags := { parity := false, framing := false, check := false, timeout := false, overrun := false } } }
    ((∀ t, quiet t) → ∃ r : State, exec (.resetStation k) s = .next r ∧ reset r ∧ ∀ t, r.tr t = clear (s.tr t)) ∧
    ∀ t : TNum, (∀ u, u ≠ t → quiet u) → (s.tr t).cap.seg.driven = true →
      (s.tr t).sequencer.state ≠ .unloading .release → ∃ r : State,
      exec (.resetStation k) s = .next r ∧ reset r ∧ (∀ u, u ≠ t → r.tr u = clear (s.tr u)) ∧
      (r.tr t).flags = { slots := false, hold := false, state := false } ∧
      (r.tr t).masks = { done := true, slots := true, passed := true, hold := true, state := true } ∧
      (∀ sl ∈ (r.tr t).orders.list, sl.isRunning = true) ∧
      (∀ (o : Order) (w : Work), (s.tr t).running = some (o, w) →
        (w.phase ∈ [OrderPhase.fast, .readLeg, .search, .haltSearch] → (s.tr t).cap.seg.stopsFor .orders (r.tr t).cap.seg ∧
          ∃ v, (r.tr t).running = some (o, v) ∧ { v with haltTravel := w.haltTravel } = { w with
            phase := .stopping, reason := some .halted, barrier := none, halted := true }) ∧
        (w.phase = .stopping ∨ w.phase = .approach →
          (r.tr t).cap = (s.tr t).cap ∧ (r.tr t).running = some (o, { w with halted := true })) ∧
        (w.phase = .sequence → (s.tr t).sequencer.state.rewindPhase?.isSome = true →
          (s.tr t).rewindEnded (r.tr t) ∧ (r.tr t).running = some (o, { w with halted := true }))) ∧
      ((s.tr t).running = none → (s.tr t).sequencer.panelMotion = true →
        (s.tr t).sequencer.state.rewindPhase?.isSome = true → (s.tr t).rewindEnded (r.tr t))

/-- ALL STOP leaves transports without a running order and without a panel motion as they are; on one transport with a
running order it does what HALT does, and reports it (R168, R104, R126; the report's bits are log entry 23). -/
def Obligations.AllStopHaltsWhatRuns : Prop :=
  ∀ (s : State), s.lineReady →
    ((∀ t, (s.tr t).running = none ∧ (s.tr t).sequencer.panelMotion = false) →
      exec (.allStop .addressed) s = .next (s.sending .done [0, 0, 0, 0]) ∧
      exec (.allStop .broadcast) s = .next s) ∧
    ∀ t, (s.tr t).running.isSome = true → (s.tr t).releasing = false →
      (∀ u, u ≠ t → (s.tr u).running = none ∧ (s.tr u).sequencer.panelMotion = false) →
      ∃ r : State, exec (.halt (transportByte t)) s = .next (r.sending .done []) ∧
        exec (.allStop .addressed) s = .next (r.sending .done
          (TNum.all.map fun u => if u = t then byte (128 + (s.tr t).pendingCount) else 0)) ∧
        exec (.allStop .broadcast) s = .next r

/-! ### Position and capstan -/

/-- READ POSITION reports the unit's state and changes nothing (R19, R179); an absent speed and direction are sent as 0 (log
entry 22), and a position that three bytes cannot hold as a free value (log entry 39). SET DEFAULT CLASS sets the default
class, or refuses a class outside the three (R20). -/
def Obligations.PositionIsReadAndTheClassSet : Prop :=
  ∀ (t : TNum) (cls : Byte) (s : State), s.lineReady →
    (let c := (s.tr t).cap
     let g := c.seg
     exec (.readPosition (transportByte t)) s = .next (s.sending .done
       (positionBytes c.counter ++ [byte c.conf.code] ++ positionBytes? c.lastGap ++ positionBytes? c.eotPos ++
         [byte (g.cond.code + bitAt 3 (g.dir == some .reverse) + 16 * (g.speed.map Speed.code).getD 0),
           byte (g.cls.code + 4 * c.defaultClass.code + 16 * g.approach.code),
           byte (bitAt 0 c.eotPos.isSome + bitAt 1 g.stopTarget.isSome + bitAt 2 (c.filter.level == .gap) +
             bitAt 3 g.atSpeed)]))) ∧
    (∀ c : Inertia, c.code = cls.toNat →
      exec (.setDefaultClass (transportByte t) cls) s = .next (State.sending .done []
        (s.upd t fun x => { x with cap := { x.cap with defaultClass := c } }))) ∧
    (2 < cls.toNat → exec (.setDefaultClass (transportByte t) cls) s = .next (s.sending .badParameter []))

/-- The at-speed line is asserted exactly while the segment is RUNNING at READ speed (R18). -/
def Obligations.AtSpeedWhileRunningAtReadSpeed : Prop :=
  ∀ g : Segment, g.atSpeed = true ↔ g.cond = .running ∧ g.speed = some .read

/-- Every count moves the counter one pu with the tape, within its range; a reverse count takes the last-gap position
away, and a count past an end makes the confidence LOST and is still the count last taken (R1, R2, R8; log entry 32). A
forward count opens the windows whose low bound it reaches (R64), and closes the window whose high bound it passes:
with no candidate the mark is DOUBTFUL (R70); with one, a VERIFIED mark corrects the counter and makes it EXACT (R17,
R68), and another is VERIFIED at its gap in EXACT confidence (R67). It stops an order at a barrier's low bound met at
SEEK speed, and at a barrier's high bound with no gap seen, the barrier being doubted if its whole range was searched
(R74, R76, R78, R91), and a search at the high end of its range (R74, R99; the doubt at this count: log entry 43; the
watch of a barrier: log entry 17; the order of the parts: log entry 8). Of two barriers passed, or met too fast, at one
count the first in list order is named (log entry 58). A search that ends at the count of a barrier's high bound stops
with BARRIER (log entry 44). -/
def Obligations.CountsMoveTheCounter : Prop :=
  (∀ (t : TNum) (d : Dir) (s : State), d = .reverse ∨ (s.tr t).capture.windows = [] →
    ∃ r, exec (.capstanTachCount t d) s = .next r ∧ (r.tr t).cap.lastDir = d ∧
      (d = .forward → (r.tr t).cap.counter =
        if (s.tr t).cap.counter < 8388607 then (s.tr t).cap.counter + 1 else (s.tr t).cap.counter) ∧
      (d = .reverse → (r.tr t).cap.lastGap = none ∧ (r.tr t).cap.counter =
        if -32768 < (s.tr t).cap.counter then (s.tr t).cap.counter - 1 else (s.tr t).cap.counter) ∧
      (d = .forward ∧ 8388607 ≤ (s.tr t).cap.counter ∨ d = .reverse ∧ (s.tr t).cap.counter ≤ -32768 →
        (r.tr t).cap.conf = .lost)) ∧
  ∀ (t : TNum) (s : State) (i : Fin 16),
    let x := s.tr t
    let here := x.cap.counter
    let g := x.cap.seg
    let marks := s.marks[i]
    s.boundIdx t = some i → x.sequencer.state = .moving → here < 8388607 → x.cap.conf ≠ .lost →
    g.cond = .running → g.dir = some .forward →
    let unpassed := ∀ m ∈ marks, m.pos ≠ here + 1
    let unopened := ∀ m ∈ marks, m.pos - x.capture.lead ≠ here + 1
    let doubted := fun n : Nat => s.marks.set i (marks.map fun m => if m.number = n then { m with state := .doubtful } else m)
    let other := s.noBarriers t ∧ ∀ o w n, x.running = some (o, w) → o.kind ≠ .seekMark n
    (other → g.speed = some .read → x.capture.windows = [] →
      ∃ r, exec (.capstanTachCount t .forward) s = .next r ∧ (r.tr t).capture.windows =
        (marks.filter fun m => m.pos - x.capture.lead == here + 1 && (x.cap.conf == .exact || m.state == .verified)).map
          fun m =>
            { number := m.number, low := m.pos - x.capture.lead, high := m.pos + x.capture.lag
              role := if x.capture.target = some { number := m.number, pos := m.pos } then .target else .ordinary
              candidate := none, fixed := false }) ∧
    (∀ v m, other → unpassed → x.capture.windows = [v] → v.high = here → findNumber v.number marks = some m →
      ∃ r, exec (.capstanTachCount t .forward) s = .next r ∧ (r.tr t).capture.windowOf v.number = none ∧
        (v.candidate = none →
          r.marks = doubted v.number ∧ (r.tr t).cap.counter = here + 1 ∧ (r.tr t).cap.conf = x.cap.conf) ∧
        ∀ gap, v.candidate = some gap →
          let by' := m.pos - gap
          (m.state = .verified → -32768 ≤ here + 1 + by' → here + 1 + by' ≤ 8388607 →
            r.marks = s.marks ∧ (r.tr t).cap.counter = here + 1 + by' ∧ (r.tr t).cap.conf = .exact ∧
              (r.tr t).cap.lastGap = x.cap.lastGap.map (· + by') ∧
              (r.tr t).cap.eotPos = x.cap.eotPos.map (· + by')) ∧
          (m.state ≠ .verified → (r.tr t).cap.counter = here + 1 ∧ (r.tr t).cap.conf = x.cap.conf ∧
            r.marks = if x.cap.conf = .exact then
              s.marks.set i (insertMark { m with state := .verified, pos := gap } (removeNumber v.number marks))
            else s.marks)) ∧
    (∀ o w m, x.running = some (o, w) → s.firstBarrier t o w m → x.capture.windows = [] →
      w.phase ∈ [OrderPhase.fast, .readLeg, .search, .haltSearch] →
      let travelled := { w with
        net := w.net + 1
        blank := match o.kind with
          | .spaceF _ => w.blank + 1
          | _ => w.blank }
      (g.speed = some .seek → m.pos - x.capture.lead = here + 1 → ∃ r, exec (.capstanTachCount t .forward) s = .next r ∧
        x.stopsOrder o travelled .barrier (some m.number) (r.tr t)) ∧
      (g.speed = some .read → m.pos + x.capture.lag = here → unopened → unpassed →
        (x.capture.watch = [] ∨ x.capture.watch = [{ number := m.number, pos := m.pos, searched := true, gapSeen := false }]) →
        ∃ r, exec (.capstanTachCount t .forward) s = .next r ∧
          x.stopsOrder o travelled .barrier (some m.number) (r.tr t) ∧
          r.marks = if x.capture.watch = [] then s.marks else doubted m.number)) ∧
    ∀ (tag : Byte) (n : Nat) (w : Work) (c : Int), x.running = some ({ tag := tag, kind := .seekMark n }, w) →
      w.phase = .search → w.copied = some c → c + x.capture.lag = here → s.noBarriers t → x.capture.windows = [] →
      unopened → unpassed →
      ∃ r, exec (.capstanTachCount t .forward) s = .next r ∧
        x.stopsOrder { tag := tag, kind := .seekMark n } { w with net := w.net + 1 }
          (if w.targetRetired then .markRetired else .markNotFound) none (r.tr t) ∧
        (w.targetRetired = true → r.marks = s.marks) ∧
        ∀ m, w.targetRetired = false → findNumber n marks = some m →
          r.marks = if m.pos = c then doubted n else s.marks

/-- A count on a READY transport whose capstan has no stop target changes its counter, its last direction, in reverse its
last-gap position, and the passed flags of the bound volume's marks that it passes in an admitted direction, and nothing
else (R1, R8, R43, R75). -/
def Obligations.CountsOnAReadyTransportPassMarks : Prop :=
  ∀ (t : TNum) (d : Dir) (s : State) (i : Fin 16),
    (s.tr t).sequencer.state = .ready → (s.tr t).running = none → (s.tr t).capture.windows = [] →
    (s.tr t).capture.watch = [] → (s.tr t).cap.seg.stopTarget = none → s.boundIdx t = some i →
    -32768 < (s.tr t).cap.counter → (s.tr t).cap.counter < 8388607 → (s.tr t).cap.conf ≠ .lost →
    let here := (s.tr t).cap.counter
    let passedAt := match d with
      | .forward => here + 1
      | .reverse => here
    exec (.capstanTachCount t d) s = .next { s.upd t (fun x => { x with
        cap := { x.cap with
          counter := match d with
            | .forward => here + 1
            | .reverse => here - 1
          lastDir := d
          lastGap := match d with
            | .forward => x.cap.lastGap
            | .reverse => none } }) with
      marks := s.marks.set i (s.marks[i].map fun m =>
        if m.pos = passedAt ∧ m.mode.admits d then { m with passed := true } else m) }

/-- Tachometer loss while the capstan is driven makes the confidence LOST and holds the transport (R15, R149); where
the hold entry of another cause was taken first at the same moment, it makes the confidence LOST too and joins the
further causes (R2, R151, log entry 46). The end of a coast with no request waiting brings a COASTING segment AT REST
and does nothing else (R16). A RUN that waits is then made again from rest, that of an order under the runout position
in force, and a STOP of an order hands the at-rest event at once: its record is made, or its returning approach begins
(R11, R12, R88, R89, R95; of two that one block has waiting only the latest is made: log entry 50; an ADVANCE's count:
log entry 24). At any other time both are nothing (log entry 16). -/
def Obligations.TachLossHoldsAndCoastsEnd : Prop :=
  ∀ (t : TNum) (s : State),
    let late := (s.tr t).heldNow s.clock fun m => m.tach
    ((s.tr t).cap.seg.driven = true → (s.tr t).sequencer.state.tripping = true →
      ∃ r, exec (.capstanTachLoss t) s = .next r ∧ s.sameOutside t r ∧
        (s.tr t).heldBy .capstanTachLoss (r.tr t) ∧ (r.tr t).cap.conf = .lost) ∧
    (late → exec (.capstanTachLoss t) s = .next (s.upd t fun x => { x with
      cap := { x.cap with conf := .lost }, capture := { x.capture with windows := [], watch := [] }
      prot := x.prot.withFurther .capstanTachLoss })) ∧
    ((s.tr t).cap.seg.driven = false → ¬ late → exec (.capstanTachLoss t) s = .next s) ∧
    ((s.tr t).cap.seg.cond = .coasting → (s.tr t).cap.refusedOrders = none → (s.tr t).cap.refusedSequencer = none →
      exec (.coastEnd t) s = .next (s.upd t fun x => { x with cap := { x.cap with
        seg := { cond := .atRest, dir := none, speed := none, stopTarget := none, approach := .none, owner := none
                 cls := x.cap.seg.cls } } })) ∧
    ((s.tr t).cap.seg.cond ≠ .coasting → exec (.coastEnd t) s = .next s) ∧
    ((s.tr t).cap.seg.cond = .coasting →
      let c := (s.tr t).cap
      let ahead := fun q : RunReq => ∀ p, q.target = some p → match q.dir with
        | .forward => c.counter < p
        | .reverse => p < c.counter
      let starts := fun (o : Owner) (q : RunReq) (y : Transport) => y.cap.seg.startsFor o (s.chosenClass t) q ∧
        y.cap.refusedOrders = none ∧ y.cap.refusedSequencer = none ∧ y.cap.counter = c.counter ∧ y.cap.conf = c.conf ∧
        y.sequencer = (s.tr t).sequencer
      let meets := fun p : Transport → Prop => ∃ r, exec (.coastEnd t) s = .next r ∧ s.sameOutside t r ∧ p (r.tr t)
      (∀ o w q, (s.tr t).running = some (o, w) → c.refusedOrders = some (.run q) → c.refusedSequencer = none →
        let runout := c.eotPos.map fun e => e + 30000
        let bounded := q.dir = .forward ∧ ∃ e, runout = some e ∧ ∀ p, q.target = some p → e < p
        let made : RunReq := { q with target := match q.dir, runout, q.target with
          | .forward, some e, none => some e
          | .forward, some e, some p => some (min e p)
          | _, _, p => p }
        ahead made → meets fun y => starts .orders made y ∧
          (bounded → y.running = some (o, { w with runoutTarget := true })) ∧
          (¬ bounded → y.running = some (o, { w with runoutTarget := false }))) ∧
      (∀ o w, (s.tr t).orders.list = [.running o w] → c.refusedOrders = some .stop → c.refusedSequencer = none →
        (∀ status, w.phase = .stopping → w.reason = some status → meets fun y => y.sequencer.state = .ready ∧
          y.cap.seg.cond = .atRest ∧ y.cap.counter = c.counter ∧ y.cap.conf = c.conf ∧
          y.orders.list = [completionRecord o w status c.counter]) ∧
        (w.phase = .approach → w.runoutTarget = false → c.eotPos = none → meets fun y =>
          starts .orders { dir := .forward, speed := .creep, target := none, approach := .returning } y ∧
            y.orders = (s.tr t).orders)) ∧
      ∀ q, c.refusedOrders = none → c.refusedSequencer = some (.run q) → ahead q →
        ((s.tr t).sequencer.state.rewindPhase?.isSome = true ∨ (s.tr t).sequencer.state = .loading .findLoadPoint) →
        meets fun y => starts .sequencer q y ∧ y.orders = (s.tr t).orders)

/-- The marker events: the EOT marker sets and takes away the EOT position, and its forward passage gives an order that
moves forward the runout position, 30,000 pu further, as its stop target, unless that is already lower (R89); the load
point clears and sets the leader flag; its forward edge in an approach begins the stop that rezeroes. Met in reverse by a
SPACE_R, a SEEK_POS or a SEEK_MARK it stops the order, unless a stop is under way, and the order goes on to its approach; in
a rewind it stops FAST, unless the rewind is being ended (log entry 29), and APPROACH (R3, R4, R5, R95, R115 to R117). -/
def Obligations.MarkerEdges : Prop :=
  ∀ (t : TNum) (s : State),
    let placed := s.upd t fun x => { x with cap := { x.cap with eotPos := some x.cap.counter } }
    ((s.tr t).cap.lastDir = .forward → (s.tr t).running = none → exec (.markerEdge t .eot) s = .next placed) ∧
    (∀ (o : Order) (w : Work) (v : Speed), (s.tr t).cap.lastDir = .forward → (s.tr t).running = some (o, w) →
      w.phase ≠ .stopping → (s.tr t).cap.seg.cond = .running → (s.tr t).cap.seg.dir = some .forward →
      (s.tr t).cap.seg.owner = some .orders → (s.tr t).cap.seg.speed = some v →
      let runout := (s.tr t).cap.counter + 30000
      ((s.tr t).cap.seg.stopTarget = none ∨ (∃ p, (s.tr t).cap.seg.stopTarget = some p ∧ runout < p) →
        ∃ r, exec (.markerEdge t .eot) s = .next r ∧ s.sameOutside t r ∧
          (r.tr t).cap.eotPos = some (s.tr t).cap.counter ∧
          (r.tr t).cap.seg = { (s.tr t).cap.seg with stopTarget := some runout } ∧
          (r.tr t).running = some (o, { w with runoutTarget := true }) ∧
          (r.tr t).cap.counter = (s.tr t).cap.counter ∧ (r.tr t).cap.conf = (s.tr t).cap.conf) ∧
      ∀ p, (s.tr t).cap.seg.stopTarget = some p → p ≤ runout → exec (.markerEdge t .eot) s = .next placed) ∧
    ((s.tr t).cap.lastDir = .reverse →
      exec (.markerEdge t .eot) s = .next (s.upd t fun x => { x with cap := { x.cap with eotPos := none } })) ∧
    ((s.tr t).cap.lastDir = .forward → (s.tr t).cap.seg.approach = .none →
      exec (.markerEdge t .loadPoint) s =
        .next (s.upd t fun x => { x with sequencer := { x.sequencer with leader := false } })) ∧
    ((s.tr t).cap.lastDir = .forward → (s.tr t).cap.seg.approach ≠ .none → (s.tr t).cap.seg.cond = .running →
      ∃ r, exec (.markerEdge t .loadPoint) s = .next r ∧ s.sameOutside t r ∧ (r.tr t).sequencer.leader = false ∧
        (r.tr t).cap.counter = (s.tr t).cap.counter ∧ (r.tr t).cap.seg.approach = (s.tr t).cap.seg.approach ∧
        ∃ k, (r.tr t).cap.seg.cond = .ramping k ∧ k.goal = .toRest true ∧ k.toSpeed = 0) ∧
    ((s.tr t).cap.lastDir = .reverse → (s.tr t).sequencer.state = .ready → (s.tr t).running = none →
      exec (.markerEdge t .loadPoint) s =
        .next (s.upd t fun x => { x with sequencer := { x.sequencer with leader := true } })) ∧
    (∀ (o : Order) (w : Work), (s.tr t).cap.lastDir = .reverse → (s.tr t).sequencer.state = .moving →
      (s.tr t).running = some (o, w) →
      ((∃ n, o.kind = .spaceR n) ∨ (∃ p, o.kind = .seekPos p) ∨ ∃ m, o.kind = .seekMark m) →
      (s.tr t).cap.seg.driven = true → (s.tr t).cap.seg.tapeDir = some .reverse →
      w.phase ∈ [OrderPhase.fast, .readLeg, .search, .haltSearch, .stopping] →
      ∃ r, exec (.markerEdge t .loadPoint) s = .next r ∧ s.sameOutside t r ∧ (r.tr t).sequencer.leader = true ∧
        (r.tr t).running = some (o, { w with phase := .approach, reason := some .loadPoint, barrier := none }) ∧
        (w.phase ≠ .stopping → (s.tr t).cap.seg.stopsFor .orders (r.tr t).cap.seg) ∧
        (w.phase = .stopping → (r.tr t).cap = (s.tr t).cap)) ∧
    ∀ p, (s.tr t).cap.lastDir = .reverse → (s.tr t).sequencer.state.rewindPhase? = some p →
      (∀ o w, (s.tr t).running = some (o, w) → o.kind = .rewind ∨ o.kind = .unload) → (s.tr t).cap.seg.driven = true →
      let stopped := fun lpStop : Bool => ∃ r, exec (.markerEdge t .loadPoint) s = .next r ∧ s.sameOutside t r ∧
        (r.tr t).sequencer = { (s.tr t).sequencer with leader := true, lpStop := lpStop } ∧
        (s.tr t).cap.seg.stopsFor .sequencer (r.tr t).cap.seg ∧ (r.tr t).orders = (s.tr t).orders
      let leader := s.upd t fun x => { x with sequencer := { x.sequencer with leader := true } }
      (p = .fast → (s.tr t).sequencer.ending = false → stopped true) ∧
      (p = .fast → (s.tr t).sequencer.ending = true → exec (.markerEdge t .loadPoint) s = .next leader) ∧
      (p = .approach → stopped (s.tr t).sequencer.lpStop) ∧
      (p = .settle → exec (.markerEdge t .loadPoint) s = .next leader)

/-- The gap-line filter: a raw change away from the filtered level is timed, or taken at once with a filter time of 0;
a return abandons the timing; the expiry takes the change. No gap start is made of a change to BLOCK, outside MOVING,
or at a speed or on a ramp at which none is taken (R6, R7). A raw change to GAP with a filter time of 0 does all that
the expiry of that change does, the gap start with it (`SpaceForwardCountsGapStarts`); an ADVANCE on an unbound
transport goes on, and the last-gap position is set in forward motion (R8). The same raw level again is no change (log
entry 36), and an expiry with nothing timed is nothing (log entry 16). -/
def Obligations.TheGapFilterTimesChanges : Prop :=
  ∀ (t : TNum) (l : GapLevel) (s : State),
    let c := (s.tr t).cap
    let f := c.filter
    let put := fun g : GapFilter => s.upd t fun x => { x with cap := { x.cap with filter := g } }
    let noStart := f.level = .gap ∨ (s.tr t).sequencer.state ≠ .moving ∨
      c.seg.cond ∈ [Condition.atRest, .coasting, .free] ∨
      (c.seg.cond = .running ∧ c.seg.speed ≠ some .creep ∧ c.seg.speed ≠ some .read) ∨
      ∃ k, c.seg.cond = .ramping k ∧ (k.low ≠ none ∨ k.high ≠ .read)
    (l = f.raw → exec (.rawGapLineChange t l) s = .next s) ∧
    (l ≠ f.raw → l = f.level → exec (.rawGapLineChange t l) s = .next (put { f with raw := l, since := none })) ∧
    (l ≠ f.raw → l ≠ f.level → f.time ≠ .us0 →
      exec (.rawGapLineChange t l) s = .next (put { f with raw := l, since := some s.clock })) ∧
    (noStart → l ≠ f.raw → l ≠ f.level → f.time = .us0 →
      exec (.rawGapLineChange t l) s = .next (put { f with raw := l, level := l, since := none })) ∧
    (noStart → f.since.isSome = true →
      exec (.gapFilterExpiry t) s = .next (put { f with level := f.raw, since := none })) ∧
    (f.since = none → exec (.gapFilterExpiry t) s = .next s) ∧
    (f.raw = .block → f.level = .block → f.time = .us0 →
      exec (.rawGapLineChange t .gap) s = exec (.gapFilterExpiry t) (put { f with raw := .gap, since := some s.clock }) ∧
      ∀ tag d w, (s.tr t).running = some ({ tag := tag, kind := .advance d }, w) → s.boundIdx t = none →
        (s.tr t).sequencer.state = .moving → c.seg.cond = .running → c.seg.speed = some .read →
        exec (.rawGapLineChange t .gap) s = .next (s.upd t fun x => { x with cap := { x.cap with
          filter := { f with raw := .gap, level := .gap, since := none }
          lastGap := if c.lastDir = .forward then some c.counter else c.lastGap } }))

/-- A gap start sets the last-gap position in forward motion (R7, R8), and a SPACE order of its direction counts it; at
the order's count it begins the stop that will end COMPLETE, past EOT a SPACE_F's END OF TAPE, in a halt search HALTED
(R92 to R94, R101, R102). On a bound transport it is the candidate of a window whose range holds it, if it lies nearest
its mark, and fixes it in a TARGET window (R65, R72). In the range of an applying barrier it stops the order with
BARRIER and is the fixed candidate of the barrier's window (R72, R76, R77, R91); in its range it stops a SEEK_MARK's
search with the target's status (R99). Stated of the expiry of the filter; a raw change with a filter time of 0 does
the same (`TheGapFilterTimesChanges`). The order of the parts is log entry 9. -/
def Obligations.SpaceForwardCountsGapStarts : Prop :=
  (∀ (t : TNum) (s : State) (tag : Byte) (n : Nat) (w : Work),
    let o : Order := { tag := tag, kind := .spaceF n }
    let c := (s.tr t).cap
    (s.tr t).sequencer.state = .moving → c.filter.level = .block → c.filter.raw = .gap →
    c.filter.since.isSome = true → c.seg.cond = .running → c.seg.speed = some .read → c.seg.dir = some .forward →
    c.lastDir = .forward → c.eotPos = none → s.boundIdx t = none → (s.tr t).running = some (o, w) →
    w.phase = .readLeg → ∃ r, exec (.gapFilterExpiry t) s = .next r ∧ s.sameOutside t r ∧
      (r.tr t).cap.lastGap = some c.counter ∧ (r.tr t).cap.counter = c.counter ∧ (r.tr t).cap.filter.level = .gap ∧
      (w.count + 1 ≠ n → (r.tr t).running = some (o, { w with count := w.count + 1, blank := 0 }) ∧
        (r.tr t).cap.seg = c.seg) ∧
      (w.count + 1 = n → (r.tr t).running = some (o, { w with
          count := n, blank := 0, phase := .stopping, reason := some .complete, barrier := none }) ∧
        c.seg.stopsFor .orders (r.tr t).cap.seg)) ∧
  ∀ (t : TNum) (s : State),
    let x := s.tr t
    let p := x.cap.counter
    x.sequencer.state = .moving → x.cap.filter.level = .block → x.cap.filter.raw = .gap →
    x.cap.filter.since.isSome = true → x.cap.seg.cond = .running → x.cap.seg.speed = some .read →
    x.cap.seg.dir = some x.cap.lastDir →
    (∀ (o : Order) (n : Nat) (w : Work), x.running = some (o, w) → w.phase = .readLeg ∨ w.phase = .haltSearch →
      (o.kind = .spaceF n ∧ x.cap.lastDir = .forward ∧ s.noBarriers t) ∨ (o.kind = .spaceR n ∧ x.cap.lastDir = .reverse) →
      let counted := { w with count := w.count + 1, blank := 0 }
      let tape := x.cap.lastDir = .forward ∧ x.cap.eotPos.isSome = true
      let stops := fun (reason : Completion) (r : State) => x.stopsOrder o counted reason none (r.tr t)
      ∃ r, exec (.gapFilterExpiry t) s = .next r ∧ s.sameOutside t r ∧ (r.tr t).cap.counter = p ∧
        (r.tr t).cap.lastGap = (if x.cap.lastDir = .forward then some p else x.cap.lastGap) ∧
        (tape → stops .endOfTape r) ∧ (¬ tape → w.count + 1 = n → stops .complete r) ∧
        (¬ tape → w.count + 1 ≠ n → w.phase = .haltSearch → stops .halted r) ∧
        (¬ tape → w.count + 1 ≠ n → w.phase = .readLeg →
          (r.tr t).running = some (o, counted) ∧ (r.tr t).cap.seg = x.cap.seg)) ∧
    (x.cap.lastDir = .forward → s.noBarriers t → ∃ r, exec (.gapFilterExpiry t) s = .next r ∧
      (r.tr t).capture.windows = x.capture.windows.map fun v =>
        match findNumber v.number (s.boundMarks t) with
        | some m =>
          if v.low ≤ p ∧ p ≤ v.high ∧ v.fixed = false then
            if v.role = .target then { v with candidate := some p, fixed := true }
            else
              match v.candidate with
              | some k => if (p - m.pos).natAbs < (k - m.pos).natAbs then { v with candidate := some p } else v
              | none => { v with candidate := some p }
          else v
        | none => v) ∧
    (∀ (o : Order) (w : Work) (m : Mark) (low high : Int), x.cap.lastDir = .forward → x.running = some (o, w) →
      w.phase = .readLeg → s.firstBarrier t o w m → x.boundsOf m low high → low ≤ p → p ≤ high →
      let counted := match o.kind with
        | .spaceF _ => { w with count := w.count + 1, blank := 0 }
        | _ => w
      ∃ r, exec (.gapFilterExpiry t) s = .next r ∧ s.sameOutside t r ∧
        x.stopsOrder o counted .barrier (some m.number) (r.tr t) ∧
        ∀ v, x.capture.windowOf m.number = some v → v.fixed = false →
          (r.tr t).capture.windowOf m.number = some { v with role := .barrier, candidate := some p, fixed := true }) ∧
    ∀ (tag : Byte) (n : Nat) (w : Work) (c low high : Int), x.cap.lastDir = .forward →
      x.running = some ({ tag := tag, kind := .seekMark n }, w) → w.phase = .search → w.copied = some c →
      s.noBarriers t →
      ((∃ v, x.capture.windowOf n = some v ∧ v.role = .target ∧ low = v.low ∧ high = v.high) ∨
        ((∀ v, x.capture.windowOf n = some v → v.role ≠ .target) ∧ low = c - x.capture.lead ∧
          high = c + x.capture.lag)) →
      low ≤ p → p ≤ high → ∃ r, exec (.gapFilterExpiry t) s = .next r ∧ s.sameOutside t r ∧
        x.stopsOrder { tag := tag, kind := .seekMark n } w (if w.targetRetired then .markRetired else .complete) none (r.tr t)

/-- The end of a ramp: RUNNING at a ramp up, and a new ramp in the newly chosen class at a change through rest (R10, R11); at
rest in the load's approach the rezero that makes the transport READY in EXACT confidence (R12, R4, R113), without a rezero
the failed load (R113, R114); at rest of a stopped order its completion record, in its place, and READY, and the next
pending order of an online transport starts, here a SPACE_R (R85, R87, R88, R94; the count of an ADVANCE is clamped to 0 to
65535: log entry 24). A SEEK_MARK at rest at the end of its reverse leg begins its search (R98; halted: log entry 14). An
order that met the load point begins its returning approach, and at its rezero ends LOAD POINT, a SEEK_MARK going on to its
search or ending HALTED (R95). At rest a window with no fixed candidate is abandoned, and one with a fixed candidate is
evaluated: a VERIFIED mark corrects the counter, another is VERIFIED at its gap in EXACT confidence (R71, R73, R17). Where no
ramp is in progress it is nothing (log entry 16). The Sequencer's phases of a rewind are in `RewindBeginsByTheTable`. -/
def Obligations.RampsEnd : Prop :=
  ∀ (t : TNum) (s : State),
    (∀ k, (s.tr t).cap.seg.cond = .ramping k → k.goal = .toSpeed →
      exec (.capstanRampEnd t) s = .next (s.upd t fun x => { x with
        cap := { x.cap with seg := { x.cap.seg with cond := .running } } })) ∧
    ((∀ k, (s.tr t).cap.seg.cond ≠ .ramping k) → exec (.capstanRampEnd t) s = .next s) ∧
    (∀ k, (s.tr t).cap.seg.cond = .ramping k → k.goal = .toRest true → (s.tr t).cap.seg.approach = .establishing →
      (s.tr t).cap.seg.owner = some .sequencer → (s.tr t).sequencer.state = .loading .findLoadPoint →
      (s.tr t).capture.windows = [] →
      ∃ r, exec (.capstanRampEnd t) s = .next r ∧ s.sameOutside t r ∧ (r.tr t).sequencer.state = .ready ∧
        (r.tr t).sequencer.loadResult = .complete ∧ (r.tr t).flags = { (s.tr t).flags with state := true } ∧
        (r.tr t).cap.counter = 0 ∧ (r.tr t).cap.conf = .exact ∧ (r.tr t).cap.lastGap = none ∧
        (r.tr t).cap.eotPos = none ∧ (r.tr t).cap.seg.cond = .atRest ∧ (r.tr t).orders = (s.tr t).orders) ∧
    (∀ k, (s.tr t).cap.seg.cond = .ramping k → k.goal = .toRest false → (s.tr t).cap.seg.owner = some .sequencer →
      (s.tr t).sequencer.state = .loading .findLoadPoint → (s.tr t).capture.windows = [] →
      ∃ r, exec (.capstanRampEnd t) s = .next r ∧ s.sameOutside t r ∧
        (r.tr t).sequencer = { (s.tr t).sequencer with
          state := .unloading .release, loadResult := .noLoadPoint, loadTimer := none, panelMotion := true
          valveOpen := false, quiet := some s.clock, ending := false, lpStop := false } ∧
        (r.tr t).flags = { (s.tr t).flags with state := true } ∧ (r.tr t).cap.seg.cond = .free ∧
        (r.tr t).cap.conf = .lost) ∧
    (∀ k o d v, (s.tr t).cap.seg.cond = .ramping k → k.goal = .throughRest → (s.tr t).cap.seg.owner = some o →
      (s.tr t).cap.seg.dir = some d → (s.tr t).cap.seg.speed = some v → (s.tr t).cap.seg.stopTarget = none →
      (s.tr t).capture.windows = [] → ∃ r, exec (.capstanRampEnd t) s = .next r ∧ s.sameOutside t r ∧
        (r.tr t).cap.seg.startsFor o (s.chosenClass t)
          { dir := d, speed := v, target := none, approach := (s.tr t).cap.seg.approach } ∧
        (r.tr t).orders = (s.tr t).orders ∧ (r.tr t).sequencer = (s.tr t).sequencer ∧
        (r.tr t).cap.counter = (s.tr t).cap.counter) ∧
    (∀ k rezero o w, (s.tr t).cap.seg.cond = .ramping k → k.goal = .toRest rezero →
      (s.tr t).cap.seg.owner = some .orders → (s.tr t).sequencer.state = .moving → (s.tr t).cap.eotPos = none →
      (s.tr t).capture.windows = [] → (s.tr t).orders.list = [.running o w] →
      let counter := if rezero then 0 else (s.tr t).cap.counter
      let ended := fun status : Completion => ∃ r, exec (.capstanRampEnd t) s = .next r ∧ s.sameOutside t r ∧
        (r.tr t).sequencer.state = .ready ∧ (r.tr t).cap.counter = counter ∧ (r.tr t).cap.conf = (s.tr t).cap.conf ∧
        (r.tr t).cap.seg.cond = .atRest ∧ (r.tr t).orders.list = [.record
          { tag := o.tag, kind := o.kind, status := status
            count := match o.kind with
              | .spaceR _ => w.count
              | _ => 0
            finalPos := some counter
            markNumber := match o.kind with
              | .seekMark m => some m
              | _ => none }]
      let runs := fun (v : Speed) (a : Approach) (w' : Work) => ∃ r, exec (.capstanRampEnd t) s = .next r ∧
        s.sameOutside t r ∧ (r.tr t).sequencer = (s.tr t).sequencer ∧ (r.tr t).cap.counter = counter ∧
        (r.tr t).cap.conf = (s.tr t).cap.conf ∧ (r.tr t).orders.list = [.running o w'] ∧
        (r.tr t).cap.seg.startsFor .orders (s.chosenClass t)
          { dir := .forward, speed := v, target := none, approach := a }
      let search := { w with phase := .search, reason := none, runoutTarget := false }
      (∀ m, o.kind = .seekMark m → rezero = false → w.phase = .stopping → w.reason = none →
        (w.halted = false → runs .read .none search) ∧ (w.halted = true → ended .halted)) ∧
      (rezero = false → w.phase = .approach → w.runoutTarget = false → runs .creep .returning w) ∧
      (rezero = true → w.phase = .approach → (s.tr t).cap.seg.approach = .returning →
        ((∃ n, o.kind = .spaceR n) ∨ (∃ p, o.kind = .seekPos p) → ended .loadPoint) ∧
        ∀ m, o.kind = .seekMark m →
          (w.halted = false → runs .read .none search) ∧ (w.halted = true → ended .halted))) ∧
    ∀ (k : Ramp) (o : Order) (w : Work) (status : Completion),
      (s.tr t).cap.seg.cond = .ramping k → k.goal = .toRest false → (s.tr t).cap.seg.owner = some .orders →
      (s.tr t).sequencer.state = .moving → w.phase = .stopping → w.reason = some status →
      let record := completionRecord o w status
      let c := (s.tr t).cap
      ((s.tr t).orders.list = [.running o w] →
        ((s.tr t).capture.windows = [] → ∃ r, exec (.capstanRampEnd t) s = .next r ∧ s.sameOutside t r ∧
          (r.tr t).sequencer.state = .ready ∧ (r.tr t).orders.list = [record c.counter] ∧
          (r.tr t).cap.seg.cond = .atRest ∧ (r.tr t).cap.counter = c.counter ∧ (r.tr t).cap.conf = c.conf) ∧
        ∀ i v m, s.boundIdx t = some i → (s.tr t).capture.windows = [v] → findNumber v.number s.marks[i] = some m →
          ∃ r, exec (.capstanRampEnd t) s = .next r ∧ (r.tr t).sequencer.state = .ready ∧
            (r.tr t).orders.list = [record (r.tr t).cap.counter] ∧ (r.tr t).cap.seg.cond = .atRest ∧
            (r.tr t).capture.windows = [] ∧
            (v.fixed = false → r.marks = s.marks ∧ (r.tr t).cap.counter = c.counter ∧ (r.tr t).cap.conf = c.conf) ∧
            ∀ gap, v.fixed = true → v.candidate = some gap →
              (m.state = .verified → c.conf ≠ .lost → -32768 ≤ c.counter + (m.pos - gap) →
                c.counter + (m.pos - gap) ≤ 8388607 →
                r.marks = s.marks ∧ (r.tr t).cap.counter = c.counter + (m.pos - gap) ∧ (r.tr t).cap.conf = .exact) ∧
              (m.state ≠ .verified → (r.tr t).cap.counter = c.counter ∧ (r.tr t).cap.conf = c.conf ∧
                r.marks = if c.conf = .exact then s.marks.set i
                  (insertMark { m with state := .verified, pos := gap } (removeNumber v.number s.marks[i]))
                else s.marks)) ∧
      ∀ (tag : Byte) (n : Nat), (s.tr t).capture.windows = [] →
        (s.tr t).orders.list = [.running o w, .pending { tag := tag, kind := .spaceR n }] →
        ∃ r, exec (.capstanRampEnd t) s = .next r ∧ s.sameOutside t r ∧
          ((s.tr t).sequencer.online = false → (r.tr t).sequencer.state = .ready ∧
            (r.tr t).orders.list = [record c.counter, .pending { tag := tag, kind := .spaceR n }]) ∧
          ((s.tr t).sequencer.online = true → (r.tr t).sequencer.state = .moving ∧
            (∃ k, (r.tr t).orders.list = [record c.counter, .running { tag := tag, kind := .spaceR n } k] ∧
              k.start = c.counter ∧ k.count = 0 ∧ k.phase = .readLeg ∧ k.reason = none) ∧
            (r.tr t).cap.seg.startsFor .orders (s.chosenClass t)
              { dir := .reverse, speed := .read, target := none, approach := .none })

/-! ### Volumes -/

/-- BIND VOLUME of a serial not in the table takes the FREE entry of lowest index. With no FREE entry it evicts the entry at
the old end of the shelf: its marks go, its serial and the count stand in the eviction record, and EVICT is set (R28, R31
to R33, R174). -/
def Obligations.BindMakesANewEntry : Prop :=
  ∀ (t : TNum) (serial : Serial) (generation : BitVec 16) (cls : Byte) (length : BitVec 24) (s : State) (c : Inertia)
    (i : Fin 16), s.lineReady → (s.tr t).sequencer.state = .ready → s.boundIdx t = none → c.code = cls.toNat →
    serialOk serial = true → 1 ≤ length.toNat → length.toNat ≤ 8388607 → s.findSerial serial = none →
    let volumes := s.volumes.set i
      (.mounted { serial := serial, generation := generation, cls := c, length := length.toNat } t)
    (s.volumes[i].isFree = true → (∀ j : Fin 16, j < i → s.volumes[j].isFree = false) →
      exec (.bindVolume (transportByte t) serial generation cls length) s = .next (State.sending .done
        [byte i.val, 0, 0, 0, 0, 0, 0, 0, 0, 0, 0, 0]
        { s with volumes := volumes, shelf := s.shelf.filter fun k => k != i, marks := s.marks.set i [] })) ∧
    ∀ rest old, (∀ j : Fin 16, s.volumes[j].isFree = false) → s.shelf = i :: rest → s.volumes[i] = .shelved old →
      exec (.bindVolume (transportByte t) serial generation cls length) s = .next (State.sending .done
        [byte i.val, 0, 0, 0, 0, 0, old.serial.c0, old.serial.c1, old.serial.c2, old.serial.c3, old.serial.c4,
          old.serial.c5]
        { s with
          volumes := volumes, shelf := rest.filter fun k => k != i, marks := s.marks.set i []
          eviction := { serial := some old.serial, count := min 255 (s.eviction.count + 1) }
          ctl := { s.ctl with evict := true } })

/-- BIND VOLUME of a SHELVED serial of the same generation keeps its marks and reports those beyond the new length; of
another generation it retires them and reports how many (R29, R30, R32). -/
def Obligations.BindTakesAShelvedEntryBack : Prop :=
  ∀ (t : TNum) (serial : Serial) (generation : BitVec 16) (cls : Byte) (length : BitVec 24) (s : State) (c : Inertia)
    (i : Fin 16) (old : Volume), s.lineReady → (s.tr t).sequencer.state = .ready → s.boundIdx t = none →
    c.code = cls.toNat → serialOk serial = true → 1 ≤ length.toNat → length.toNat ≤ 8388607 →
    s.findSerial serial = some i → s.volumes[i] = .shelved old →
    let volumes := s.volumes.set i
      (.mounted { serial := serial, generation := generation, cls := c, length := length.toNat } t)
    let shelf := s.shelf.filter fun k => k != i
    (old.generation = generation →
      exec (.bindVolume (transportByte t) serial generation cls length) s = .next (State.sending .done
        ([byte i.val, 1, 0, 0] ++ two (s.marks[i].countP fun m => decide ((length.toNat : Int) < m.pos)) ++
          [0, 0, 0, 0, 0, 0])
        { s with volumes := volumes, shelf := shelf })) ∧
    (old.generation ≠ generation →
      exec (.bindVolume (transportByte t) serial generation cls length) s = .next (State.sending .done
        ([byte i.val, 2] ++ two s.marks[i].length ++ [0, 0, 0, 0, 0, 0, 0, 0])
        { s with volumes := volumes, shelf := shelf, marks := s.marks.set i [] }))

/-- BIND VOLUME's refusals, in their order: BAD PARAMETER, WRONG STATE, BOUND ELSEWHERE (R28). WRONG STATE holds in HELD too,
where R150 says that a volume may be bound (log entry 45). -/
def Obligations.BindRefusals : Prop :=
  ∀ (t : TNum) (serial : Serial) (generation : BitVec 16) (cls : Byte) (length : BitVec 24) (s : State), s.lineReady →
    let allowed := cls.toNat ≤ 2 ∧ serialOk serial = true ∧ 1 ≤ length.toNat ∧ length.toNat ≤ 8388607
    let free := (s.tr t).sequencer.state = .ready ∧ s.boundIdx t = none
    let c : Instr := .bindVolume (transportByte t) serial generation cls length
    (¬ allowed → exec c s = .next (s.sending .badParameter [])) ∧
    (allowed → ¬ free → exec c s = .next (s.sending .wrongState [])) ∧
    ∀ i v u, allowed → free → s.findSerial serial = some i → s.volumes[i] = .mounted v u →
      exec c s = .next (s.sending .boundElsewhere [])

/-- UNBIND VOLUME in READY, HELD and RECOVERING shelves the bound entry at the young end; it is refused NOT BOUND, also
where R35 gives BUSY too (log entry 40), or BUSY while an order runs and in REWINDING and UNLOADING. RETIRE VOLUME
frees a SHELVED entry with its marks; READ VOLUME and LIST VOLUMES report entries, each in its 14 bytes, and change
nothing. A serial of six spaces or with a byte outside the 37 characters, a form above 1, and an index or a start index
above 15 are refused BAD PARAMETER (R35, R37 to R39, R26, R177, R179; the class bits of a FREE entry: log entry 22). -/
def Obligations.VolumesAreUnboundRetiredAndRead : Prop :=
  ∀ (s : State), s.lineReady →
    (∀ t : TNum,
      (s.boundIdx t = none → exec (.unbindVolume (transportByte t)) s = .next (s.sending .notBound [])) ∧
      ((s.boundIdx t).isSome = true → ((s.tr t).running.isSome = true ∨ (∃ p, (s.tr t).sequencer.state = .rewinding p) ∨
          ∃ p, (s.tr t).sequencer.state = .unloading p) →
        exec (.unbindVolume (transportByte t)) s = .next (s.sending .busy [])) ∧
      ∀ i v, s.boundIdx t = some i → s.volumes[i] = .mounted v t →
        (s.tr t).sequencer.state ∈ [XState.ready, .held, .recovering] → (s.tr t).running = none →
        exec (.unbindVolume (transportByte t)) s = .next (State.sending .done []
          { s with volumes := s.volumes.set i (.shelved v), shelf := s.shelf ++ [i] })) ∧
    (∀ serial i v, serialOk serial = true → s.findSerial serial = some i → s.volumes[i] = .shelved v →
      exec (.retireVolume serial) s = .next (State.sending .done (two s.marks[i].length)
        { s with
          volumes := s.volumes.set i .free, marks := s.marks.set i []
          shelf := s.shelf.filter fun k => k != i })) ∧
    (∀ serial i v u, serialOk serial = true → s.findSerial serial = some i → s.volumes[i] = .mounted v u →
      exec (.retireVolume serial) s = .next (s.sending .wrongState [])) ∧
    (∀ serial, serialOk serial = true → s.findSerial serial = none →
      exec (.retireVolume serial) s = .next (s.sending .noSuchVolume []) ∧
      ∀ index, exec (.readVolume 1 index serial) s = .next (s.sending .noSuchVolume [])) ∧
    (∀ serial (i : Fin 16), exec (.readVolume 0 (byte i.val) serial) s = .next (s.sending .done (s.volumeRecord i))) ∧
    (∀ serial index i, serialOk serial = true → s.findSerial serial = some i →
      exec (.readVolume 1 index serial) s = .next (s.sending .done (s.volumeRecord i))) ∧
    (∀ serial : Serial, let spaces := ∀ b ∈ serial.bytes, b = 0x20
      let outside := ∃ b ∈ serial.bytes, b ≠ 0x20 ∧ ¬ (0x30 ≤ b.toNat ∧ b.toNat ≤ 0x39) ∧ ¬ (0x41 ≤ b.toNat ∧ b.toNat ≤ 0x5A)
      (serialOk serial = false ↔ spaces ∨ outside) ∧
      (spaces ∨ outside → exec (.retireVolume serial) s = .next (s.sending .badParameter []) ∧
        ∀ index, exec (.readVolume 1 index serial) s = .next (s.sending .badParameter []))) ∧
    (∀ serial (form index : Byte), 1 < form.toNat ∨ form = 0 ∧ 15 < index.toNat →
      exec (.readVolume form index serial) s = .next (s.sending .badParameter [])) ∧
    (∀ start : Byte, 15 < start.toNat → exec (.listVolumes start) s = .next (s.sending .badParameter [])) ∧
    (∀ i : Fin 16, s.volumeRecord i =
      let count := s.marks[i].length
      let form := fun (state place : Nat) (v : Volume) =>
        [byte (16 * i.val + 4 * state + v.cls.code), byte (16 * place + count / 256), byte (count % 256),
          v.serial.c0, v.serial.c1, v.serial.c2, v.serial.c3, v.serial.c4, v.serial.c5] ++
        bytes16 v.generation ++ bytes24 (BitVec.ofNat 24 v.length)
      match s.volumes[i] with
      | .free => [byte (16 * i.val), 0, 0, 0, 0, 0, 0, 0, 0, 0, 0, 0, 0, 0]
      | .mounted v t => form 1 t.toNat v
      | .shelved v => form 2 ((s.shelf.findIdx? fun k => k == i).getD 0) v) ∧
    ∀ i : Fin 16,
      let listed := (List.finRange 16).filter fun k => decide (i ≤ k) && !s.volumes[k].isFree
      exec (.listVolumes (byte i.val)) s = .next (s.sending .done
        ((listed.take 4).flatMap s.volumeRecord ++
          [byte ((if 4 < listed.length then 128 else 0) + s.countEntries Entry.isFree),
            byte (32 * s.countEntries Entry.isMounted + s.countEntries Entry.isShelved)] ++ two s.poolInUse))

/-! ### Marks -/

/-- SET MARK puts a mark of an unused number into the bound volume's list: at the last gap VERIFIED, here or at a named
position PROVISIONAL. With a full pool it first evicts the oldest shelved volume that holds a mark: its marks go, its
entry is FREE, and its serial is answered (R34, R51, R33, R174). A BARRIER set while an order is on a forward leg at
SEEK speed has that leg planned anew: stated for a volume without another barrier and a pool with room (R46 to R51,
R80, R90; ahead of the head, in R90, is a position above the counter: log entry 17). -/
def Obligations.SetMarkInsertsAMark : Prop :=
  ∀ (t : TNum) (number : BitVec 16) (attributes form : Byte) (position : BitVec 24) (tag : BitVec 32) (s : State)
    (i : Fin 16) (p : Int) (st : MarkState), s.lineReady → s.boundIdx t = some i → 1 ≤ number.toNat →
    number.toNat ≤ 4095 → findNumber number.toNat s.marks[i] = none →
    (form = 0 ∧ (s.tr t).cap.lastGap = some p ∧ (s.tr t).cap.conf = .exact ∧ st = .verified) ∨
      (form = 1 ∧ (s.tr t).cap.seg.cond = .atRest ∧ (s.tr t).cap.conf = .exact ∧ p = (s.tr t).cap.counter ∧
        st = .provisional) ∨
      (form = 2 ∧ p = position.toInt ∧ -32768 ≤ p ∧ p ≤ s.tapeLength t ∧ st = .provisional) →
    let m : Mark :=
      { number := number.toNat, kind := if attributes.getLsbD 0 then .barrier else .point, pos := p, state := st
        mode := modeOf attributes, passed := false, tag := if attributes.getLsbD 3 then some tag else none }
    let plain := attributes.getLsbD 0 = false ∨ (s.tr t).planStands
    (s.poolInUse < 512 →
      let r := { s with marks := s.marks.set i (insertMark m s.marks[i]) }
      (plain → exec (.setMark (transportByte t) number attributes form position tag) s =
        .next (r.sending .done (r.markSummary t m ++ [0, 0, 0, 0, 0, 0]))) ∧
      ∀ o w, attributes.getLsbD 0 = true → (s.tr t).fastForward o w → s.noBarriers t →
        ∃ q : State, exec (.setMark (transportByte t) number attributes form position tag) s =
            .next (q.sending .done (r.markSummary t m ++ [0, 0, 0, 0, 0, 0])) ∧ r.sameOutside t q ∧
          (q.tr t).capture = (s.tr t).capture ∧
          (s.tr t).replannedTo ((s.tr t).slowDownFor w (some p)) o w (q.tr t)) ∧
    ∀ before (j : Fin 16) after old, plain → 512 ≤ s.poolInUse → s.shelf = before ++ j :: after →
      (∀ k ∈ before, s.marks[k] = []) → s.marks[j] ≠ [] → s.volumes[j] = .shelved old →
      let r := { s with
        volumes := s.volumes.set j .free, shelf := s.shelf.filter fun k => k != j
        marks := (s.marks.set j []).set i (insertMark m s.marks[i])
        eviction := { serial := some old.serial, count := min 255 (s.eviction.count + 1) }
        ctl := { s.ctl with evict := true } }
      exec (.setMark (transportByte t) number attributes form position tag) s =
        .next (r.sending .done (r.markSummary t m ++ [old.serial.c0, old.serial.c1, old.serial.c2, old.serial.c3,
          old.serial.c4, old.serial.c5]))

/-- SET MARK's refusals, in their order: NOT BOUND; BAD PARAMETER; MARK EXISTS; NO LAST GAP or NOT EXACT; POOL FULL, in
each form that has passed its own check (R46 to R51). -/
def Obligations.SetMarkRefusals : Prop :=
  ∀ (t : TNum) (number : BitVec 16) (attributes form : Byte) (position : BitVec 24) (tag : BitVec 32) (s : State),
    s.lineReady →
    let c : Instr := .setMark (transportByte t) number attributes form position tag
    let numbered := 1 ≤ number.toNat ∧ number.toNat ≤ 4095
    let placed := form.toNat < 2 ∨ form = 2 ∧ -32768 ≤ position.toInt ∧ position.toInt ≤ s.tapeLength t
    (s.boundIdx t = none → exec c s = .next (s.sending .notBound [])) ∧
    ∀ i, s.boundIdx t = some i →
      (¬ (numbered ∧ placed) → exec c s = .next (s.sending .badParameter [])) ∧
      (numbered → placed → (findNumber number.toNat s.marks[i]).isSome = true →
        exec c s = .next (s.sending .markExists [])) ∧
      (numbered → form = 0 → findNumber number.toNat s.marks[i] = none → (s.tr t).cap.lastGap = none →
        exec c s = .next (s.sending .noLastGap [])) ∧
      (numbered → form = 0 → findNumber number.toNat s.marks[i] = none → (s.tr t).cap.lastGap.isSome = true →
        (s.tr t).cap.conf ≠ .exact → exec c s = .next (s.sending .notExact [])) ∧
      (numbered → form = 1 → findNumber number.toNat s.marks[i] = none →
        ¬ ((s.tr t).cap.seg.cond = .atRest ∧ (s.tr t).cap.conf = .exact) →
        exec c s = .next (s.sending .notExact [])) ∧
      (numbered → findNumber number.toNat s.marks[i] = none →
        (form = 0 ∧ (s.tr t).cap.lastGap.isSome = true ∧ (s.tr t).cap.conf = .exact ∨
          form = 1 ∧ (s.tr t).cap.seg.cond = .atRest ∧ (s.tr t).cap.conf = .exact ∨ form = 2 ∧ placed) →
        512 ≤ s.poolInUse → (∀ j ∈ s.shelf, s.marks[j] = []) → exec c s = .next (s.sending .poolFull []))

/-- CHANGE MARK changes the fields its selector names and leaves the others; a new position makes the mark PROVISIONAL,
clears its passed flag, and gives up its window. Its response shows the changed mark, with the passed flag as it stood
before and the candidate as it was found (R57, log entry 41). RETIRE MARK takes the mark out of its list and gives up
its window; its response shows the mark as it was; a running SEEK_MARK toward it learns that its target is retired
(R98). A barrier changed or retired while an order is on a forward leg at SEEK speed has that leg planned anew: stated
for a volume without another barrier (R52 to R55, R71, R80, R90; ahead of the head, in R90, is a position above the
counter: log entry 17); in other phases a change is stated with no barrier under watch, or with the changed barrier
alone under watch: one given its own position again stays watched, and one moved is watched no longer (R74, R78, R80;
log entry 17). Both are refused NOT BOUND, BAD PARAMETER and NO SUCH MARK, in that order (R46, R52, R55, R177; position
bytes that are not named are held to the position encoding alone, not to the volume's length: log entry 48). -/
def Obligations.MarksAreChangedAndRetired : Prop :=
  ∀ (t : TNum) (number : BitVec 16) (selector attributes : Byte) (position : BitVec 24) (tag : BitVec 32) (s : State),
    s.lineReady →
    let change : Instr := .changeMark (transportByte t) number selector attributes position tag
    let retire : Instr := .retireMark (transportByte t) number
    let numbered := 1 ≤ number.toNat ∧ number.toNat ≤ 4095
    let asked :=
      (selector.getLsbD 0 || selector.getLsbD 1 || selector.getLsbD 2 || selector.getLsbD 3 || selector.getLsbD 4) = true ∧
        (selector.getLsbD 3 && selector.getLsbD 4) = false ∧
        -32768 ≤ position.toInt ∧ (selector.getLsbD 0 = true → position.toInt ≤ s.tapeLength t)
    (s.boundIdx t = none → exec change s = .next (s.sending .notBound []) ∧ exec retire s = .next (s.sending .notBound [])) ∧
    ∀ i, s.boundIdx t = some i →
      (¬ (numbered ∧ asked) → exec change s = .next (s.sending .badParameter [])) ∧
      (¬ numbered → exec retire s = .next (s.sending .badParameter [])) ∧
      (numbered → findNumber number.toNat s.marks[i] = none →
        (asked → exec change s = .next (s.sending .noSuchMark [])) ∧ exec retire s = .next (s.sending .noSuchMark [])) ∧
      ∀ m, numbered → findNumber number.toNat s.marks[i] = some m →
        let others := ∀ k ∈ s.marks[i], k.number ≠ m.number → k.kind = .point
        let givenUp := fun (kept : BarrierWatch → Bool) (x : Transport) =>
          { x with capture := { x.capture with
            windows := x.capture.windows.filter fun w => w.number != m.number
            watch := x.capture.watch.filter fun b => b.number != m.number || kept b
            target := x.capture.target.filter fun k => k.number != m.number } }
        let learnt := fun (o : Order) (w : Work) =>
          if o.kind = .seekMark m.number then { w with targetRetired := true } else w
        (asked →
          let n : Mark :=
            { m with
              pos := if selector.getLsbD 0 then position.toInt else m.pos
              state := if selector.getLsbD 0 then .provisional else m.state
              kind := if selector.getLsbD 1 then (if attributes.getLsbD 0 then .barrier else .point) else m.kind
              mode := if selector.getLsbD 2 then modeOf attributes else m.mode
              passed := if selector.getLsbD 0 || (selector.getLsbD 2 && modeOf attributes == .none) then false else m.passed
              tag := if selector.getLsbD 3 then some tag else if selector.getLsbD 4 then none else m.tag }
          let list := insertMark n (removeNumber m.number s.marks[i])
          let r := { s with marks := s.marks.set i list }.upd t fun x =>
            if selector.getLsbD 0 then givenUp (fun b => b.pos == n.pos) x else x
          let shown := Mark.summary (ordinalOf m.number list) ((s.tr t).candidateOf m.number) { n with passed := m.passed }
          let points := m.kind = .point ∧ n.kind = .point
          (((s.tr t).running = none ∨ (s.tr t).capture.watch = []) → (points ∨ (s.tr t).planStands) →
            exec change s = .next (r.sending .done shown)) ∧
          (∀ o w b, (s.tr t).running = some (o, w) → s.firstBarrier t o w m → w.phase ≠ .approach → (s.tr t).planStands →
            (s.tr t).cap.seg.cond = .running → (s.tr t).cap.seg.dir = some .forward → (s.tr t).capture.watch = [b] →
            b.number = m.number → n.kind = .barrier → n.pos = m.pos ∨ selector.getLsbD 0 = true ∧ n.pos ≠ b.pos →
            exec change s = .next (r.sending .done shown) ∧
              (b.pos = m.pos → (r.tr t).capture.watch = if n.pos = m.pos then [b] else [])) ∧
          ∀ o w, ¬ points → others → (s.tr t).fastForward o w → ∃ q : State,
            exec change s = .next (q.sending .done shown) ∧ r.sameOutside t q ∧ (q.tr t).capture = (r.tr t).capture ∧
            (s.tr t).replannedTo ((s.tr t).slowDownFor w (if n.kind = .barrier then some n.pos else none)) o w (q.tr t)) ∧
        let gone := { s with marks := s.marks.set i (s.marks[i].filter fun k => k.number != m.number) }.upd t fun x =>
          (givenUp (fun _ => false) x).modWork learnt
        (m.kind = .point ∨ (s.tr t).planStands → exec retire s = .next (State.sending .done (s.markSummary t m) gone)) ∧
        ∀ o w, m.kind = .barrier → others → (s.tr t).fastForward o w → ∃ q : State,
          exec retire s = .next (q.sending .done (s.markSummary t m)) ∧ gone.sameOutside t q ∧
          (q.tr t).capture = (gone.tr t).capture ∧
          (s.tr t).replannedTo ((s.tr t).slowDownFor w none) o (learnt o w) (q.tr t)

/-- The requests that find marks: by number, by tag, by nearness, by ordinal, and the marks passed. They change
nothing, but for READ PASSED, which clears the passed flags of the marks it returns (R57 to R61). A mark is reported in
14 bytes (R179; a position that three bytes cannot hold: log entry 39), and the more indicator in one byte (log entry
61). They are refused NOT BOUND, then BAD PARAMETER, then NO SUCH MARK (R46, R57 to R60). -/
def Obligations.MarksAreFound : Prop :=
  (∀ (ordinal : Nat) (candidate : Option Int) (m : Mark), m.summary ordinal candidate =
    bytes24 (BitVec.ofNat 24 (512 * m.number + (ordinal - 1))) ++
      [byte ((match m.kind with
          | .point => 0
          | .barrier => 1) +
        (match m.state with
          | .provisional => 0
          | .verified => 2
          | .doubtful => 4) +
        (match m.mode with
          | .none => 0
          | .forward => 8
          | .reverse => 16
          | .both => 24) +
        (if m.passed then 32 else 0) + (if m.tag.isSome then 64 else 0))] ++
      positionBytes m.pos ++
      (match m.tag with
        | some tag => bytes32 tag
        | none => [0, 0, 0, 0]) ++
      (match candidate with
        | some p => positionBytes p
        | none => [0x80, 0, 0])) ∧
  ∀ (t : TNum) (s : State), s.lineReady →
    (s.boundIdx t = none → ∀ number tag start position side,
      exec (.findMark (transportByte t) number) s = .next (s.sending .notBound []) ∧
      exec (.findByTag (transportByte t) tag start) s = .next (s.sending .notBound []) ∧
      exec (.findNearest (transportByte t) position side) s = .next (s.sending .notBound []) ∧
      exec (.listMarks (transportByte t) start) s = .next (s.sending .notBound []) ∧
      exec (.readPassed (transportByte t)) s = .next (s.sending .notBound [])) ∧
    ∀ i : Fin 16, s.boundIdx t = some i →
      let summary := fun m : Mark => m.summary (ordinalOf m.number s.marks[i]) ((s.tr t).candidateOf m.number)
      let shown := fun l : List Mark => (l.take 4).flatMap summary
      let more : List Mark → Byte := fun l => if 4 < l.length then 1 else 0
      (∀ number : BitVec 16,
        (number.toNat < 1 ∨ 4095 < number.toNat →
          exec (.findMark (transportByte t) number) s = .next (s.sending .badParameter [])) ∧
        (1 ≤ number.toNat → number.toNat ≤ 4095 →
          (findNumber number.toNat s.marks[i] = none →
            exec (.findMark (transportByte t) number) s = .next (s.sending .noSuchMark [])) ∧
          ∀ m, findNumber number.toNat s.marks[i] = some m →
            exec (.findMark (transportByte t) number) s = .next (s.sending .done (summary m)))) ∧
      (∀ (tag : BitVec 32) (start : BitVec 16),
        (start.toNat < 1 ∨ 512 < start.toNat →
          exec (.findByTag (transportByte t) tag start) s = .next (s.sending .badParameter []) ∧
          exec (.listMarks (transportByte t) start) s = .next (s.sending .badParameter [])) ∧
        (1 ≤ start.toNat → start.toNat ≤ 512 →
          let found := (s.marks[i].drop (start.toNat - 1)).filter fun m => m.tag == some tag
          exec (.findByTag (transportByte t) tag start) s = .next (s.sending .done (more found :: shown found)) ∧
          exec (.listMarks (transportByte t) start) s = .next (s.sending .done
            (two s.marks[i].length ++ shown (s.marks[i].drop (start.toNat - 1)))))) ∧
      (∀ (position : BitVec 24) (side : Byte),
        (position.toInt < -32768 ∨ 1 < side.toNat →
          exec (.findNearest (transportByte t) position side) s = .next (s.sending .badParameter [])) ∧
        (-32768 ≤ position.toInt →
          ((∀ m ∈ s.marks[i], position.toInt < m.pos) →
            exec (.findNearest (transportByte t) position 0) s = .next (s.sending .noSuchMark [])) ∧
          ((∀ m ∈ s.marks[i], m.pos < position.toInt) →
            exec (.findNearest (transportByte t) position 1) s = .next (s.sending .noSuchMark [])) ∧
          ∀ (m : Mark) (before after : List Mark), s.marks[i] = before ++ m :: after →
            (m.pos ≤ position.toInt → (∀ k ∈ after, position.toInt < k.pos) →
              exec (.findNearest (transportByte t) position 0) s = .next (s.sending .done (summary m))) ∧
            (position.toInt ≤ m.pos → (∀ k ∈ before, k.pos < position.toInt) →
              exec (.findNearest (transportByte t) position 1) s = .next (s.sending .done (summary m))))) ∧
      let passed := s.marks[i].filter fun m => m.passed
      exec (.readPassed (transportByte t)) s = .next (State.sending .done (more passed :: shown passed)
        { s with marks := s.marks.set i (s.marks[i].map fun m =>
          if (passed.take 4).any fun q => q.number == m.number then { m with passed := false } else m) })

/-! ### Capture windows -/

/-- SET CAPTURE PARAMETERS sets the lead, the lag and the filter time, or refuses values out of range (R81, R6); a
change of the gap line that is being timed is judged by the new time, being taken at once, as at the expiry of the
filter, if it has held that long, and timed on otherwise (R6; a gap start that this gives is that of
`TheGapFilterTimesChanges` and `SpaceForwardCountsGapStarts`); stated with no order at SEEK speed and no barrier
watched, which a new lead would touch (R80, R90, log entry 17). READ CAPTURE reports them with the number of the open
windows, whether there are more than four, and the first four in the list order of their marks, each in 12 bytes, and
changes nothing (R82, R179; the more indicator: log entry 61; a bound that three bytes cannot hold is sent as a free
value: log entry 39). -/
def Obligations.CaptureParametersAreSetAndRead : Prop :=
  ∀ (t : TNum) (lead lag : BitVec 16) (filter : Byte) (s : State), s.lineReady →
    (∀ time : FilterTime, time.code = filter.toNat → lead.toNat ≤ 1023 → lag.toNat ≤ 1023 →
      (s.tr t).cap.filter.since = none →
      (∀ o w, (s.tr t).running = some (o, w) → w.phase ≠ .fast ∧ (s.tr t).capture.watch = []) →
      exec (.setCaptureParameters (transportByte t) lead lag filter) s = .next (State.sending .done []
        (s.upd t fun x => { x with
          capture := { x.capture with lead := lead.toNat, lag := lag.toNat }
          cap := { x.cap with filter := { x.cap.filter with time := time } } }))) ∧
    (∀ (time : FilterTime) (since : Nat), time.code = filter.toNat → lead.toNat ≤ 1023 → lag.toNat ≤ 1023 →
      (s.tr t).cap.filter.since = some since →
      (∀ o w, (s.tr t).running = some (o, w) → w.phase ≠ .fast ∧ (s.tr t).capture.watch = []) →
      let k := (s.tr t).cap
      let set := fun f : GapFilter => s.upd t fun x => { x with
        capture := { x.capture with lead := lead.toNat, lag := lag.toNat }
        cap := { x.cap with filter := f } }
      let us := match time with
        | .us0 => 0
        | .us20 => 20
        | .us40 => 40
        | .us80 => 80
      let noStart := k.filter.level = .gap ∨ (s.tr t).sequencer.state ≠ .moving ∨
        k.seg.cond ∈ [Condition.atRest, .coasting, .free] ∨
        (k.seg.cond = .running ∧ k.seg.speed ≠ some .creep ∧ k.seg.speed ≠ some .read) ∨
        ∃ r, k.seg.cond = .ramping r ∧ (r.low ≠ none ∨ r.high ≠ .read)
      (s.clock - since < us → exec (.setCaptureParameters (transportByte t) lead lag filter) s =
        .next (State.sending .done [] (set { k.filter with time := time }))) ∧
      (us ≤ s.clock - since → ∃ r, exec (.gapFilterExpiry t) (set { k.filter with time := time }) = .next r ∧
        exec (.setCaptureParameters (transportByte t) lead lag filter) s = .next (State.sending .done [] r) ∧
        (r.tr t).cap.filter = { k.filter with time := time, level := k.filter.raw, since := none } ∧
        (noStart → r = set { k.filter with time := time, level := k.filter.raw, since := none }))) ∧
    (3 < filter.toNat ∨ 1023 < lead.toNat ∨ 1023 < lag.toNat →
      exec (.setCaptureParameters (transportByte t) lead lag filter) s = .next (s.sending .badParameter [])) ∧
    let c := (s.tr t).capture
    let record := fun v : Window =>
      two v.number ++ positionBytes v.low ++ positionBytes v.high ++
        [byte ((match v.role with
            | .ordinary => 0
            | .target => 1
            | .barrier => 2) + (if v.fixed then 4 else 0))] ++
        match v.candidate with
        | some p => positionBytes p
        | none => [0x80, 0, 0]
    let listed := (s.boundMarks t).filterMap fun m => c.windows.find? fun v => v.number == m.number
    exec (.readCapture (transportByte t)) s = .next (s.sending .done
      (two c.lead ++ two c.lag ++ [byte (s.tr t).cap.filter.time.code] ++ two c.windows.length ++
        [if 4 < c.windows.length then 1 else 0] ++ (listed.take 4).flatMap record))

/-! ### Orders -/

/-- A SPACE_F queued on a READY online transport with nothing in its list but completion records, its capstan at rest,
unbound and not past EOT, starts at once: RUNNING, MOVING, and a ramp forward to READ speed from rest in the default
class (R86, R87, R93, R10, R11). -/
def Obligations.QueueOrderStartsASpace : Prop :=
  ∀ (t : TNum) (tag : Byte) (argument : BitVec 24) (s : State) (done : List Record), s.startReady t done →
    (s.tr t).cap.eotPos = none → s.boundIdx t = none → 1 ≤ argument.toNat → argument.toNat ≤ 65535 → ∃ r : State,
    exec (.queueOrder (transportByte t) tag 0 argument) s =
      .next (r.sending .done [byte (7 - done.length), 1]) ∧ s.sameOutside t r ∧
    (r.tr t).sequencer.state = .moving ∧
    (∃ w, (r.tr t).orders.list =
        done.map .record ++ [.running { tag := tag, kind := .spaceF argument.toNat } w] ∧
      w.start = (s.tr t).cap.counter ∧ w.count = 0 ∧ w.blank = 0 ∧ w.phase = .readLeg ∧ w.reason = none) ∧
    (let g := (r.tr t).cap.seg
     (∃ k, g.cond = .ramping k ∧ k.goal = .toSpeed ∧ k.fromSpeed = 0 ∧ k.toSpeed = 4000 ∧ k.dir = .forward ∧
       k.lasts = restTime (s.tr t).cap.defaultClass .read) ∧
     g.dir = some .forward ∧ g.speed = some .read ∧ g.stopTarget = none ∧ g.owner = some .orders ∧
     g.cls = (s.tr t).cap.defaultClass) ∧
    (r.tr t).cap.counter = (s.tr t).cap.counter ∧ (r.tr t).cap.conf = (s.tr t).cap.conf ∧
    (r.tr t).prot = (s.tr t).prot ∧ (r.tr t).flags = (s.tr t).flags ∧ (r.tr t).supply = (s.tr t).supply ∧
    (r.tr t).takeup = (s.tr t).takeup

/-- QUEUE ORDER on a READY online transport with nothing in its list but completion records, its capstan at rest,
starts the order at once by the plan of its kind, or ends it by its start checks; its slot follows the records, and the
free count falls by 1 (R83, R86, R87). SPACE_F and ADVANCE end RUNOUT at or beyond the runout position, and SEEK_POS
and SEEK_MARK NO POSITION, NO MARK, RANGE (of a mark beyond the length too, although R29 says that it can be sought:
log entry 60), or COMPLETE where the counter already reads the target; a first motion forward from inside a barrier's
range ends BARRIER (R79, R89, R91, R93, R96 to R98). Else the capstan starts from rest at READ speed, or at SEEK speed
for a leg of more than 20,000 pu (R90, R93 to R98, R10, R11), or the Sequencer begins the rewind or the unload (R100,
R116, R119). A leg at SEEK speed goes on at READ speed at its slow-down point (R90); at the stop distance before its
stop target the capstan ramps down, and the order will end RUNOUT where the target came from the runout position, an
ADVANCE or SEEK_POS else COMPLETE (R13, R89, R96, R97; the speed in force: log entry 12). Forward motions are stated
with no barrier in the bound volume, and those of a seek before EOT. -/
def Obligations.OrdersStartAndFollowTheirPlans : Prop :=
  (∀ (t : TNum) (tag : Byte) (argument : BitVec 24) (s : State) (done : List Record), s.startReady t done →
    let free := byte (7 - done.length)
    let x := s.tr t
    let c := x.cap
    let here := c.counter
    let n := argument.toNat
    let p := argument.toInt
    let queue := fun code : Byte => exec (.queueOrder (transportByte t) tag code argument) s
    let ends := fun (code : Byte) (kind : OrderKind) (status : Completion) (mark : Option Nat) =>
      queue code = .next (State.sending .done [free, 2] (s.upd t fun y => { y with orders := { y.orders with
        list := done.map .record ++ [.record { tag := tag, kind := kind, status := status, count := 0
                                               finalPos := some here, markNumber := mark }] } }))
    let moves := fun (code : Byte) (kind : OrderKind) (phase : OrderPhase) (copied : Option Int) (d : Dir) (v : Speed)
        (target : Option Int) => ∃ r : State,
      queue code = .next (r.sending .done [free, 1]) ∧ s.sameOutside t r ∧
      (r.tr t).sequencer = { x.sequencer with state := .moving } ∧
      (∃ w, (r.tr t).orders.list = done.map .record ++ [.running { tag := tag, kind := kind } w] ∧ w.start = here ∧ w.count = 0 ∧
        w.blank = 0 ∧ w.phase = phase ∧ w.reason = none ∧ w.copied = copied) ∧
      (r.tr t).cap.seg.startsFor .orders (s.chosenClass t)
        { dir := d, speed := v, target := target, approach := .none } ∧
      (∀ m q, kind = .seekMark m → copied = some q → (r.tr t).capture.target = some { number := m, pos := q }) ∧
      (r.tr t).cap.counter = here ∧ (r.tr t).cap.conf = c.conf ∧ (r.tr t).prot = x.prot ∧ (r.tr t).flags = x.flags
    let runout := c.eotPos.map fun e => e + 30000
    let inCount := 1 ≤ n ∧ n ≤ 65535
    let inside := fun m : Mark => (∃ before after, s.boundMarks t = before ++ m :: after ∧ ∀ k ∈ before, k.kind = .point) ∧
      m.kind = .barrier ∧ c.conf ≠ .lost ∧ ∃ low high, x.boundsOf m low high ∧ low ≤ here ∧ here ≤ high
    let outside := fun q : Int => q < 0 ∨ s.tapeLength t < q ∨ ∃ e, runout = some e ∧ e < q
    (inCount →
      (∀ e, runout = some e → e ≤ here →
        ends 0 (.spaceF n) .runout none ∧ ends 2 (.advance n) .runout none) ∧
      ((∀ e, runout = some e → here < e) →
        (∀ m, inside m → ends 0 (.spaceF n) .barrier (some m.number) ∧ ends 2 (.advance n) .barrier (some m.number)) ∧
        (s.noBarriers t →
          moves 0 (.spaceF n) .readLeg none .forward .read runout ∧
          (here + n ≤ 8388607 → moves 2 (.advance n) .readLeg none .forward .read
            (some (match runout with
              | some e => min e (here + n)
              | none => here + n))))) ∧
      moves 1 (.spaceR n) .readLeg none .reverse .read none) ∧
    (-32768 ≤ p →
      (c.conf = .lost → ends 3 (.seekPos p) .noPosition none) ∧
      (c.conf ≠ .lost →
        (outside p → ends 3 (.seekPos p) .range none) ∧
        (¬ outside p →
          (here = p → ends 3 (.seekPos p) .complete none) ∧
          (∀ m, here < p → inside m → ends 3 (.seekPos p) .barrier (some m.number)) ∧
          (here < p → s.noBarriers t → c.eotPos = none →
            (20000 < p - here → moves 3 (.seekPos p) .fast none .forward .seek none) ∧
            (p - here ≤ 20000 → moves 3 (.seekPos p) .readLeg none .forward .read (some p))) ∧
          (p < here →
            (20000 < here - p → moves 3 (.seekPos p) .fast none .reverse .seek none) ∧
            (here - p ≤ 20000 → moves 3 (.seekPos p) .readLeg none .reverse .read (some p)))))) ∧
    (1 ≤ n → n ≤ 4095 →
      (c.conf = .lost → ends 4 (.seekMark n) .noPosition (some n)) ∧
      (c.conf ≠ .lost → findNumber n (s.boundMarks t) = none → ends 4 (.seekMark n) .noMark (some n)) ∧
      ∀ k, c.conf ≠ .lost → findNumber n (s.boundMarks t) = some k →
        let a := k.pos - x.capture.lead - 1500
        (outside k.pos → ends 4 (.seekMark n) .range (some n)) ∧
        (¬ outside k.pos →
          (∀ m, here < a → inside m → ends 4 (.seekMark n) .barrier (some m.number)) ∧
          (here < a → s.noBarriers t → c.eotPos = none →
            (20000 < a - here → moves 4 (.seekMark n) .fast (some k.pos) .forward .seek none) ∧
            (a - here ≤ 20000 → moves 4 (.seekMark n) .readLeg (some k.pos) .forward .read none)) ∧
          (a < here →
            (20000 < here - a → moves 4 (.seekMark n) .fast (some k.pos) .reverse .seek none) ∧
            (here - a ≤ 20000 → moves 4 (.seekMark n) .readLeg (some k.pos) .reverse .read (some a))) ∧
          (here = a → c.eotPos = none → moves 4 (.seekMark n) .search (some k.pos) .forward .read none))) ∧
    let sequence := fun (code : Byte) (kind : OrderKind) (state : RewindPhase → XState) => ∃ r : State,
      queue code = .next (r.sending .done [free, 1]) ∧ s.sameOutside t r ∧
      (∃ w, (r.tr t).orders.list = done.map .record ++ [.running { tag := tag, kind := kind } w] ∧ w.phase = .sequence ∧
        w.reason = none) ∧
      (r.tr t).cap.counter = here ∧ (r.tr t).cap.conf = c.conf ∧ (r.tr t).sequencer.panelMotion = false ∧
      let begun := fun (phase : RewindPhase) (d : Dir) (v : Speed) (target : Option Int) (a : Approach) =>
        (r.tr t).sequencer.state = state phase ∧ (r.tr t).cap.seg.startsFor .sequencer (s.chosenClass t)
          { dir := d, speed := v, target := target, approach := a }
      if x.sequencer.leader = true then begun .settle .forward .creep none .establishing
      else if c.conf = .lost then begun .fast .reverse .seek none .none
      else if 30000 < here then begun .fast .reverse .rewind none .none
      else if 1500 < here then begun .fast .reverse .seek (some 1500) .none
      else begun .approach .reverse .creep none .none
    sequence 5 .rewind .rewinding ∧
    (¬ (here = 0 ∧ c.conf = .exact) → sequence 6 .unload fun phase => .unloading (.ret phase)) ∧
    (here = 0 → c.conf = .exact → ∃ r : State, queue 6 = .next (r.sending .done [free, 1]) ∧ s.sameOutside t r ∧
      (r.tr t).sequencer.state = .unloading .release ∧ (r.tr t).sequencer.panelMotion = false ∧
      (r.tr t).sequencer.valveOpen = false ∧ (r.tr t).sequencer.quiet = some s.clock ∧
      (r.tr t).cap.seg.cond = .free ∧ (r.tr t).cap.conf = .lost ∧
      ∃ w, (r.tr t).orders.list = done.map .record ++ [.running { tag := tag, kind := .unload } w] ∧
        w.phase = .sequence)) ∧
  ∀ (t : TNum) (d : Dir) (s : State) (o : Order) (w : Work),
    let x := s.tr t
    let g := x.cap.seg
    let next := match d with
      | .forward => x.cap.counter + 1
      | .reverse => x.cap.counter - 1
    let travelled := { w with net := match d with
      | .forward => w.net + 1
      | .reverse => w.net - 1 }
    x.running = some (o, w) → x.sequencer.state = .moving → g.cond = .running → g.dir = some d → s.noBarriers t →
    x.capture.windows = [] → -32768 < x.cap.counter → x.cap.counter < 8388607 →
    ((∃ q, o.kind = .seekPos q) ∨ (∃ m, o.kind = .seekMark m) → w.phase = .fast → g.speed = some .seek → w.leg.dir = d →
      w.leg.slowDown = next → x.cap.eotPos = none → g.stopTarget = none →
      (match d with
        | .forward => next + 1500 ≤ w.leg.endPoint
        | .reverse => w.leg.endPoint + 1500 ≤ next) →
      ∃ r, exec (.capstanTachCount t d) s = .next r ∧
        (r.tr t).running = some (o, { travelled with phase := .readLeg, runoutTarget := false }) ∧
        (r.tr t).cap.seg.dir = some d ∧ (r.tr t).cap.seg.speed = some .read ∧
        (r.tr t).cap.seg.stopTarget = (if w.leg.rests then some w.leg.endPoint else none) ∧
        ∃ k, (r.tr t).cap.seg.cond = .ramping k ∧ k.goal = .toSpeed ∧ k.fromSpeed = 8000 ∧ k.toSpeed = 4000) ∧
    ∀ target, (∃ n, o.kind = .advance n) ∨ (∃ q, o.kind = .seekPos q) → w.phase = .readLeg → g.speed = some .read →
      g.owner = some .orders → g.stopTarget = some target →
      next = (match d with
        | .forward => target - stopDistance g.cls .read
        | .reverse => target + stopDistance g.cls .read) →
      ∃ r, exec (.capstanTachCount t d) s = .next r ∧
        (r.tr t).running = some (o, { travelled with
          phase := .stopping, reason := some (if w.runoutTarget then .runout else .complete) }) ∧
        (r.tr t).cap.seg.stopTarget = some target ∧ (r.tr t).cap.seg.dir = some d ∧
        ∃ k, (r.tr t).cap.seg.cond = .ramping k ∧ k.goal = .toRest false ∧ k.toSpeed = 0

/-- An order queued behind others on a MOVING or REWINDING online transport waits at the young end of the list, and
nothing else changes. QUEUE ORDER's refusals, in their order: OFFLINE; HELD; WRONG STATE; SLOTS FULL; BAD PARAMETER
(R86), which a kind code above 6 and an argument outside the range of its kind give (R84, R176, R177). -/
def Obligations.QueueOrderWaitsOrIsRefused : Prop :=
  ∀ (t : TNum) (tag kind : Byte) (argument : BitVec 24) (s : State), s.lineReady →
    let c : Instr := .queueOrder (transportByte t) tag kind argument
    let x := s.tr t
    let moves := x.sequencer.state = .moving ∨ ∃ p, x.sequencer.state = .rewinding p
    let open' := x.sequencer.state = .ready ∨ moves
    (x.sequencer.online = false → exec c s = .next (s.sending .offline [])) ∧
    (x.sequencer.online = true →
      (x.sequencer.state = .held ∨ x.sequencer.state = .recovering → exec c s = .next (s.sending .held [])) ∧
      (x.sequencer.state = .unloaded ∨ (∃ p, x.sequencer.state = .loading p) ∨ (∃ p, x.sequencer.state = .unloading p) →
        exec c s = .next (s.sending .wrongState [])) ∧
      (open' → x.orders.list.any Slot.isUnload = true → exec c s = .next (s.sending .wrongState [])) ∧
      (open' → x.orders.list.any Slot.isUnload = false → 8 ≤ x.orders.list.length →
        exec c s = .next (s.sending .slotsFull [])) ∧
      (open' → x.orders.list.any Slot.isUnload = false → x.orders.list.length < 8 →
        orderKindOf kind argument = none → exec c s = .next (s.sending .badParameter [])) ∧
      ∀ k, moves → x.orders.list.any Slot.isUnload = false → x.orders.list.length < 8 →
        orderKindOf kind argument = some k →
        exec c s = .next (State.sending .done [byte (7 - x.orders.list.length), 0]
          (s.upd t fun y => { y with
            orders := { y.orders with list := y.orders.list ++ [.pending { tag := tag, kind := k }] } }))) ∧
    let n := argument.toNat
    let counted := fun k : OrderKind => if 1 ≤ n ∧ n ≤ 65535 then some k else none
    (kind = 0 → orderKindOf kind argument = counted (.spaceF n)) ∧
    (kind = 1 → orderKindOf kind argument = counted (.spaceR n)) ∧
    (kind = 2 → orderKindOf kind argument = counted (.advance n)) ∧
    (kind = 3 → orderKindOf kind argument =
      if -32768 ≤ argument.toInt ∧ argument.toInt ≤ 8388607 then some (.seekPos argument.toInt) else none) ∧
    (kind = 4 → orderKindOf kind argument = if 1 ≤ n ∧ n ≤ 4095 then some (.seekMark n) else none) ∧
    (kind = 5 → orderKindOf kind argument = some .rewind) ∧ (kind = 6 → orderKindOf kind argument = some .unload) ∧
    (6 < kind.toNat → orderKindOf kind argument = none)

/-- HALT: nothing without a running order; WRONG STATE in the RELEASE of an UNLOAD; else the pending orders are discarded. An
ADVANCE, a SEEK_POS or a SEEK_MARK with no stop under way begins its stop with reason HALTED; a SPACE goes on to the next gap
in phase HALT SEARCH; an order that is stopping, in its approach or in its halt search goes on as it was; a REWIND, or the
RETURN of an UNLOAD, is ended (R101 to R103, R118). Stated while the capstan is driven. -/
def Obligations.HaltReachesTheRunningOrder : Prop :=
  ∀ (t : TNum) (s : State), s.lineReady →
    ((s.tr t).running = none → exec (.halt (transportByte t)) s = .next (s.sending .done [])) ∧
    ((s.tr t).running.isSome = true → (s.tr t).sequencer.state = .unloading .release →
      exec (.halt (transportByte t)) s = .next (s.sending .wrongState [])) ∧
    ∀ (o : Order) (w : Work), (s.tr t).running = some (o, w) → (s.tr t).sequencer.state ≠ .unloading .release →
      (s.tr t).cap.seg.driven = true →
      ∃ r : State, exec (.halt (transportByte t)) s = .next (r.sending .done []) ∧ s.sameOutside t r ∧
        (r.tr t).orders.list.length = (s.tr t).orders.list.length ∧
        (∀ sl ∈ (r.tr t).orders.list, sl.isPending = false) ∧ (r.tr t).cap.counter = (s.tr t).cap.counter ∧
        (w.phase ∈ [OrderPhase.fast, .readLeg, .search] →
          ((∃ d, o.kind = .advance d) ∨ (∃ p, o.kind = .seekPos p) ∨ (∃ m, o.kind = .seekMark m) →
            (s.tr t).cap.seg.stopsFor .orders (r.tr t).cap.seg ∧ (r.tr t).running = some (o, { w with
              phase := .stopping, reason := some .halted, barrier := none, halted := true })) ∧
          ∀ n, o.kind = .spaceF n ∨ o.kind = .spaceR n → (r.tr t).cap = (s.tr t).cap ∧
            (r.tr t).running = some (o, { w with phase := .haltSearch, halted := true, haltTravel := 0 })) ∧
        (w.phase ∈ [OrderPhase.stopping, .approach, .haltSearch] →
          (r.tr t).cap = (s.tr t).cap ∧ (r.tr t).running = some (o, { w with halted := true })) ∧
        (w.phase = .sequence → (s.tr t).sequencer.state.rewindPhase?.isSome = true →
          (s.tr t).rewindEnded (r.tr t) ∧ (r.tr t).running = some (o, { w with halted := true }))

/-- CANCEL PENDING turns each pending order into a DISCARDED record in its own slot; READ COMPLETIONS takes up to four
records from the front, each in 10 bytes, and sets SLOTS when the free count rises to the threshold; SET SLOT THRESHOLD sets
it (R103, R107, R108, R176, R179). -/
def Obligations.SlotsAreCancelledReadAndWatched : Prop :=
  (∀ r : Record, r.bytes =
    [r.tag,
      (match r.kind with
        | .spaceF _ => 0
        | .spaceR _ => 1
        | .advance _ => 2
        | .seekPos _ => 3
        | .seekMark _ => 4
        | .rewind => 5
        | .unload => 6),
      (match r.status with
        | .complete => 0
        | .halted => 1
        | .discarded => 2
        | .fault => 3
        | .barrier => 4
        | .markNotFound => 5
        | .markRetired => 6
        | .loadPoint => 7
        | .endOfTape => 8
        | .runout => 9
        | .range => 10
        | .blank => 11
        | .noPosition => 12
        | .noMark => 13)] ++
    two r.count ++
    (match r.finalPos with
      | some p => positionBytes p
      | none => [0x80, 0, 0]) ++
    match r.markNumber with
    | some n => two n
    | none => [0, 0]) ∧
  ∀ (t : TNum) (s : State), s.lineReady →
    (exec (.cancelPending (transportByte t)) s = .next (State.sending .done
      [byte ((s.tr t).orders.list.filter Slot.isPending).length]
      (s.upd t fun x => { x with
        orders := { x.orders with
          list := x.orders.list.map fun sl =>
            match sl with
            | .pending o => .record { tag := o.tag, kind := o.kind, status := .discarded, count := 0, finalPos := none
                                      markNumber := match o.kind with
                                        | .seekMark m => some m
                                        | _ => none }
            | other => other } }))) ∧
    (∀ (records : List Record) (rest : List Slot), (s.tr t).orders.list = records.map .record ++ rest →
      records.length ≤ 4 → (records.length = 4 ∨ ∀ r q, rest ≠ .record r :: q) →
      let before := 8 - (s.tr t).orders.list.length
      let free := 8 - rest.length
      exec (.readCompletions (transportByte t)) s = .next (State.sending .done
        ([byte free, byte ((match rest with
            | .record _ :: _ => 1
            | _ => 0) + (if recordsBehind rest then 2 else 0))] ++ records.flatMap Record.bytes)
        (s.upd t fun x => { x with
          orders := { x.orders with list := rest }
          flags := { x.flags with
            slots := x.flags.slots || decide (before < x.orders.threshold ∧ x.orders.threshold ≤ free) } }))) ∧
    ∀ threshold : Byte,
      (threshold.toNat ≤ 8 → exec (.setSlotThreshold (transportByte t) threshold) s = .next (State.sending .done []
        (s.upd t fun x => { x with orders := { x.orders with threshold := threshold.toNat } }))) ∧
      (8 < threshold.toNat →
        exec (.setSlotThreshold (transportByte t) threshold) s = .next (s.sending .badParameter []))

/-- The blank-tape limit stops a SPACE_F or SPACE_R under way with reason BLANK, and the halt gap search stops one in HALT
SEARCH with reason HALTED (R92, R94, R101), whatever distance was counted (log entry 15); where no such order is under way
they are nothing (log entry 16). -/
def Obligations.DistanceLimitsStopSpaces : Prop :=
  ∀ (t : TNum) (s : State),
    let under := fun w : Work => w.phase ∈ [OrderPhase.fast, .readLeg, .search, .haltSearch]
    (∀ (o : Order) (n : Nat) (w : Work), o.kind = .spaceF n ∨ o.kind = .spaceR n → (s.tr t).running = some (o, w) →
      (s.tr t).cap.seg.cond = .running →
      (under w → ∃ r, exec (.blankTapeLimit t) s = .next r ∧ s.sameOutside t r ∧
        (s.tr t).stopsOrder o w .blank none (r.tr t)) ∧
      (w.phase = .haltSearch → ∃ r, exec (.haltGapSearchEnd t) s = .next r ∧ s.sameOutside t r ∧
        (s.tr t).stopsOrder o w .halted none (r.tr t))) ∧
    ((∀ o w, (s.tr t).running = some (o, w) → ¬ (under w ∧ ∃ n, o.kind = .spaceF n ∨ o.kind = .spaceR n)) →
      exec (.blankTapeLimit t) s = .next s) ∧
    ((∀ o w, (s.tr t).running = some (o, w) → w.phase ≠ .haltSearch) → exec (.haltGapSearchEnd t) s = .next s)

/-! ### The Sequencer -/

/-- READ TRANSPORT reports the transport in 6 bytes; RELEASE TRANSPORT takes a transport offline with no notice, doing
to a running order what HALT does, but for an UNLOAD in RELEASE, which goes on (R104); an offline transport it leaves
as it is; READ HOLD RECORD reports in 15 bytes; READ LOOPS reports in 20, and clears the fresh flags (R128, R121, R157,
R143, R131, R179). An absent phase is sent as 0 in the transport status and as 0xFF in the hold record (logs 21, 22); a
timer's time is in whole ms rounded down, and a stopped timer is sent as 0 (log entry 47). -/
def Obligations.TransportsAreReadAndReleased : Prop :=
  ∀ (t : TNum) (s : State), s.lineReady →
    let x := s.tr t
    let ms := fun since : Option Nat =>
      match since with
      | some b => two ((s.clock - b) / 1000)
      | none => [0, 0]
    let causes := fun has : Cause → Bool =>
      [byteOfBits [has .doorOpen, has .powerOn, has .recoveryTimeout],
        byteOfBits [has .supplyLoopShort, has .supplyLoopLong, has .takeupLoopShort, has .takeupLoopLong, has .vacuumLoss,
          has .supplyStall, has .takeupStall, has .capstanTachLoss]]
    let reel := fun (d : ReelDrive) (k : ResultSlot) =>
      [byte k.depth,
        byte ((x.loop.zoneOf k.depth).code + 8 * d.mode.code + (if d.entered then 32 else 0) +
          (if d.limiting then 64 else 0) + (if k.fresh then 128 else 0)),
        byte (d.persist + (if d.stall.isSome then 128 else 0)), BitVec.ofInt 8 d.commanded,
        BitVec.ofInt 8 d.output]
    (exec (.readTransport (transportByte t)) s = .next (s.sending .done
      [byte x.sequencer.state.code, byte (x.sequencer.state.phaseCode + 16 * x.sequencer.state.returnCode),
        byte x.sequencer.loadResult.code,
        byteOfBits [x.sequencer.online, x.sequencer.panelMotion, x.sequencer.leader, x.sequencer.valveOpen,
          x.prot.vacuum.debounced, x.prot.door.debounced, x.prot.reelPresent.debounced, x.prot.driveEnable],
        (match s.boundIdx t with
          | some i => byte (128 + i.val)
          | none => 0),
        byte (x.readyLamp.code + 4 * x.onlineLamp.code + 16 * x.holdLamp.code)])) ∧
    (x.running = none → exec (.releaseTransport (transportByte t)) s = .next (State.sending .done []
      (s.upd t fun y => { y with sequencer := { y.sequencer with online := false } }))) ∧
    (let offline := s.upd t fun y => { y with sequencer := { y.sequencer with online := false } }
     (x.sequencer.online = false → exec (.releaseTransport (transportByte t)) s = .next (s.sending .done [])) ∧
     (x.sequencer.online = true → x.running.isSome = true → x.releasing = false → ∃ r : State,
       exec (.halt (transportByte t)) offline = .next (r.sending .done []) ∧
       exec (.releaseTransport (transportByte t)) s = .next (r.sending .done [])) ∧
     ∀ o w, x.sequencer.online = true → x.orders.list = [.running o w] → x.releasing = true →
       exec (.releaseTransport (transportByte t)) s = .next (offline.sending .done [])) ∧
    (exec (.readHoldRecord (transportByte t)) s = .next (s.sending .done
      ([byteOfBits [x.prot.hold.active, x.prot.hold.failed, x.prot.driveEnable, x.prot.steady.isSome,
            !x.prot.vacuum.debounced, x.prot.door.debounced, (x.loop.zoneOf x.supplySlot.depth).isLimit,
            (x.loop.zoneOf x.takeupSlot.depth).isLimit],
          (match x.prot.hold.primary with
            | some c => byte c.code
            | none => 0xFF)] ++
        (match x.prot.hold.position with
          | some p => positionBytes p
          | none => [0x80, 0, 0]) ++
        [(match x.prot.hold.state with
            | some st => byte st.code
            | none => 0xFF),
          (match x.prot.hold.state with
            | some st => if st.phaseCode = 0 then 0xFF else byte st.phaseCode
            | none => 0xFF)] ++
        causes (fun c => x.prot.hold.further.contains c) ++ causes x.isArmed ++ ms x.prot.recovery ++
        ms x.prot.steady))) ∧
    exec (.readLoops (transportByte t)) s = .next (State.sending .done
      (reel x.supply x.supplySlot ++ reel x.takeup x.takeupSlot ++
        [byte ((if x.sequencer.state = .unloaded then 0 else 1) + (if x.drive.resume = .afterHoldOff then 2 else 0)),
          byte x.loop.limitShort, byte x.loop.bandLow, byte x.loop.bandHigh, byte x.loop.limitLong, byte x.loop.gain,
          byte x.loop.persistence, byte x.drive.supplyLevel, byte x.drive.takeupLevel, byte x.drive.stallMs])
      (s.upd t fun y => { y with
        supplySlot := { y.supplySlot with fresh := false }, takeupSlot := { y.takeupSlot with fresh := false } }))

/-- A transport reset, by request or by the panel's RESET: records and pending orders go and the event flags are cleared (R125,
R106, R175). With no running order, READY, UNLOADED, RECOVERING and the RELEASE of an unload go on as they are; a rewind and
an UNLOADING RETURN are ended (R118); LOADING is abandoned into RELEASE; HELD begins a recovery, or with a cause present a
forced unload, in which an open door holds the transport anew and sets HOLD (R148, R156). A running order is halted, while
the capstan is driven: a STOP at once, with no halt search (a halt search too: log entry 38); one that is stopping or in its
approach, and the RELEASE of an UNLOAD, go on; a REWIND and the RETURN of an UNLOAD are ended. -/
def Obligations.TransportReset : Prop :=
  ∀ (t : TNum) (s : State), s.lineReady →
    let x := s.tr t
    let none' : XFlags := { slots := false, hold := false, state := false }
    let resets := fun p : Transport → Prop => ∃ r : State,
      exec (.resetPress t) s = .next r ∧ exec (.resetTransport (transportByte t)) s = .next (r.sending .done []) ∧
      s.sameOutside t r ∧ (∀ sl ∈ (r.tr t).orders.list, sl.isRunning = true) ∧
      (r.tr t).orders.threshold = x.orders.threshold ∧ (r.tr t).masks = x.masks ∧ p (r.tr t)
    (x.running = none →
      (x.sequencer.state ∈ [XState.ready, .unloaded, .recovering, .unloading .release] →
        resets fun y => y = { x with orders := { x.orders with list := [] }, flags := none' }) ∧
      (x.sequencer.state.rewindPhase?.isSome = true → x.cap.seg.driven = true →
        resets fun y => x.rewindEnded y ∧ y.flags = none') ∧
      (∀ p, x.sequencer.state = .loading p → resets fun y => y.sequencer.state = .unloading .release ∧
        y.sequencer.loadResult = .abandoned ∧ y.sequencer.panelMotion = true ∧ y.sequencer.loadTimer = none ∧
        y.sequencer.valveOpen = false ∧ y.cap.seg.cond = .free ∧ y.cap.conf = .lost ∧ y.flags = none') ∧
      (x.sequencer.state = .held → x.causePresent = false → resets fun y =>
        y.sequencer.state = .recovering ∧ y.prot.driveEnable = true ∧ y.sequencer.valveOpen = true ∧
        y.prot.recovery = some s.clock ∧ y.flags = none') ∧
      (x.sequencer.state = .held → x.causePresent = true → x.prot.door.debounced = false → resets fun y =>
        y.sequencer.state = .unloading .release ∧ y.prot.driveEnable = true ∧ y.prot.hold.active = false ∧
        y.sequencer.panelMotion = true ∧ y.cap.seg.cond = .free ∧ y.flags = none') ∧
      (x.sequencer.state = .held → x.prot.door.debounced = true → resets fun y =>
        y.sequencer.state = .held ∧ y.prot.driveEnable = false ∧ y.sequencer.valveOpen = false ∧
        y.supply.cut ∧ y.takeup.cut ∧ y.cap.seg.cond = .coasting ∧ y.cap.conf = .lost ∧
        y.prot.hold = { active := true, primary := some .doorOpen, position := some x.cap.counter
                        state := some (.unloading .release), further := [], failed := false } ∧
        y.flags = { none' with hold := true })) ∧
    ∀ o w, x.running = some (o, w) →
      (x.sequencer.state = .unloading .release →
        resets fun y => { y with orders := x.orders } = { x with flags := none' } ∧ y.running = some (o, w)) ∧
      (x.sequencer.state ≠ .unloading .release → x.cap.seg.driven = true → resets fun y => y.flags = none' ∧
        (w.phase ∈ [OrderPhase.fast, .readLeg, .search, .haltSearch] → x.cap.seg.stopsFor .orders y.cap.seg ∧
          y.running = some (o, { w with
            phase := .stopping, reason := some .halted, barrier := none, halted := true })) ∧
        (w.phase = .stopping ∨ w.phase = .approach →
          y.cap = x.cap ∧ y.running = some (o, { w with halted := true })) ∧
        (w.phase = .sequence → x.sequencer.state.rewindPhase?.isSome = true →
          x.rewindEnded y ∧ y.running = some (o, { w with halted := true })))

/-- The LOAD press begins a load, when it is taken, and is nothing otherwise; an idle converter then begins a pass (R111, R21,
R130, R136). A revolution in THREAD is counted, and the third begins FILL (R112; the revolutions: log entry 20); outside
THREAD it is nothing (log entry 16). A timer that runs out fails the load with its result and releases the tape (R112 to
R114); the end of the load-point search stops the approach, whatever was counted (R113, log entry 15). -/
def Obligations.LoadsBeginAndGoOn : Prop :=
  ∀ (t : TNum) (s : State),
    let x := s.tr t
    let taken := x.sequencer.state = .unloaded ∧ x.sequencer.online = false ∧ x.prot.reelPresent.debounced = true ∧
      x.prot.door.debounced = false
    (¬ taken → exec (.loadPress t) s = .next s) ∧
    (taken → ∃ r, exec (.loadPress t) s = .next r ∧ s.sameOutside t { r with converter := s.converter } ∧
      (s.converter.busy.isSome = true → r.converter = s.converter) ∧
      (s.converter.busy = none → (∀ u, u ≠ t → (s.tr u).sequencer.state = .unloaded) →
        r.converter = { busy := some { t := t, reel := .supply, handed := true }, rest := [(t, .takeup)] }) ∧
      (r.tr t).sequencer.state = .loading .thread ∧ (r.tr t).sequencer.leader = true ∧
      (r.tr t).sequencer.loadTimer = some s.clock ∧ (r.tr t).sequencer.revolutions = 0 ∧
      (r.tr t).sequencer.valveOpen = x.sequencer.valveOpen ∧ (r.tr t).sequencer.loadResult = x.sequencer.loadResult ∧
      (r.tr t).prot.driveEnable = true ∧ (r.tr t).cap.seg.cond = .free ∧ (r.tr t).cap.conf = .lost ∧
      (r.tr t).cap.lastGap = none ∧ (r.tr t).cap.eotPos = none ∧
      (r.tr t).supply.mode = .thread ∧ (r.tr t).supply.commanded = 40 ∧
      (r.tr t).takeup.mode = .thread ∧ (r.tr t).takeup.commanded = -40 ∧
      (r.tr t).supply.brake = false ∧ (r.tr t).takeup.brake = false) ∧
    let failed := fun (r : State) (result : LoadResult) => s.sameOutside t r ∧
      (r.tr t).sequencer.state = .unloading .release ∧ (r.tr t).sequencer.loadResult = result ∧
      (r.tr t).sequencer.panelMotion = true ∧ (r.tr t).sequencer.valveOpen = false ∧
      (r.tr t).sequencer.loadTimer = none ∧ (r.tr t).sequencer.quiet = some s.clock ∧
      (r.tr t).flags = { (s.tr t).flags with state := true } ∧ (r.tr t).cap.seg.cond = .free ∧
      (r.tr t).cap.conf = .lost ∧ (r.tr t).supply.mode = .release
    ((s.tr t).sequencer.state = .loading .thread → (s.tr t).sequencer.revolutions < 2 →
      exec (.takeupReelRevolution t) s = .next (s.upd t fun x => { x with
        sequencer := { x.sequencer with revolutions := x.sequencer.revolutions + 1 } })) ∧
    ((s.tr t).sequencer.state = .loading .thread → (s.tr t).sequencer.revolutions = 2 →
      (s.tr t).cap.seg.cond = .free → (s.tr t).prot.driveEnable = true →
      ∃ r, exec (.takeupReelRevolution t) s = .next r ∧ s.sameOutside t r ∧
        (r.tr t).sequencer.state = .loading .fill ∧ (r.tr t).sequencer.valveOpen = true ∧
        (r.tr t).sequencer.loadTimer = some s.clock ∧ (r.tr t).cap.seg.cond = .atRest ∧
        (r.tr t).supply.mode = .zone ∧ (r.tr t).takeup.mode = .zone ∧
        (r.tr t).supply.commanded = 40 ∧ (r.tr t).takeup.commanded = 40) ∧
    ((s.tr t).sequencer.state ≠ .loading .thread → exec (.takeupReelRevolution t) s = .next s) ∧
    ((s.tr t).sequencer.state = .loading .thread → (s.tr t).sequencer.loadTimer.isSome = true →
      ∃ r, exec (.threadTimeout t) s = .next r ∧ failed r .threadTimeout) ∧
    ((s.tr t).sequencer.state = .loading .fill → (s.tr t).sequencer.loadTimer.isSome = true →
      ∃ r, exec (.fillTimeout t) s = .next r ∧ failed r .fillTimeout) ∧
    ((s.tr t).sequencer.state = .loading .findLoadPoint → (s.tr t).cap.seg.approach = .establishing →
      (s.tr t).cap.seg.cond = .running → ∃ r, exec (.loadPointSearchEnd t) s = .next r ∧ s.sameOutside t r ∧
        (r.tr t).sequencer = (s.tr t).sequencer ∧ (s.tr t).cap.seg.stopsFor .sequencer (r.tr t).cap.seg)

/-- The REWIND press on a READY offline transport at rest begins a rewind in the phase and with the motion that the leader
flag, the confidence and the counter give; elsewhere it is nothing (R116, R120). At rest, with no rezero, FAST goes on to
APPROACH, or to SETTLE where the load point began its stop; APPROACH goes on to SETTLE. At the rezero of SETTLE a rewind ends
READY in EXACT confidence at 0: a REWIND order COMPLETE, an UNLOAD that has been ended HALTED; a FAST phase that has been
ended ends READY, its order HALTED. A panel motion that ends so clears panel motion and sets STATE instead (R116 to R118,
R100, R127). The same holds of the RETURN of an unload, but for its rezero, which is in `UnloadsBeginAndEnd`. -/
def Obligations.RewindBeginsByTheTable : Prop :=
  ∀ (t : TNum) (s : State),
    (¬ ((s.tr t).sequencer.state = .ready ∧ (s.tr t).sequencer.online = false) →
      exec (.rewindPress t) s = .next s) ∧
    ((s.tr t).sequencer.state = .ready → (s.tr t).sequencer.online = false → (s.tr t).cap.seg.cond = .atRest →
      ∃ r, exec (.rewindPress t) s = .next r ∧ s.sameOutside t r ∧ (r.tr t).sequencer.panelMotion = true ∧
        (r.tr t).cap.counter = (s.tr t).cap.counter ∧ (r.tr t).cap.conf = (s.tr t).cap.conf ∧
        (r.tr t).cap.seg.owner = some .sequencer ∧
        let c := (s.tr t).cap
        let g := (r.tr t).cap.seg
        let begun := fun (p : RewindPhase) (d : Dir) (v : Speed) (target : Option Int) (a : Approach) =>
          (r.tr t).sequencer.state = .rewinding p ∧ g.dir = some d ∧ g.speed = some v ∧ g.stopTarget = target ∧
            g.approach = a
        if (s.tr t).sequencer.leader = true then begun .settle .forward .creep none .establishing
        else if c.conf = .lost then begun .fast .reverse .seek none .none
        else if 30000 < c.counter then begun .fast .reverse .rewind none .none
        else if 1500 < c.counter then begun .fast .reverse .seek (some 1500) .none
        else begun .approach .reverse .creep none .none) ∧
    ∀ k rezero p, (s.tr t).cap.seg.cond = .ramping k → k.goal = .toRest rezero →
      (s.tr t).cap.seg.owner = some .sequencer → (s.tr t).capture.windows = [] →
      (s.tr t).sequencer.state.rewindPhase? = some p →
      let x := s.tr t
      let q := x.sequencer
      let goes := fun (next : RewindPhase) (req : RunReq) => ∃ r, exec (.capstanRampEnd t) s = .next r ∧
        s.sameOutside t r ∧ (r.tr t).cap.counter = x.cap.counter ∧ (r.tr t).cap.conf = x.cap.conf ∧
        (r.tr t).sequencer = { q with state := match q.state with
          | .rewinding _ => .rewinding next
          | _ => .unloading (.ret next) } ∧
        (r.tr t).orders = x.orders ∧ (r.tr t).cap.seg.startsFor .sequencer (s.chosenClass t) req
      let ends := fun (status : Completion) (counter : Int) (conf : Confidence) => ∃ r,
        exec (.capstanRampEnd t) s = .next r ∧ s.sameOutside t r ∧ (r.tr t).cap.counter = counter ∧
        (r.tr t).cap.conf = conf ∧ (r.tr t).cap.seg.cond = .atRest ∧ (r.tr t).sequencer.state = .ready ∧
        (∀ o w, x.orders.list = [.running o w] → o.kind = .rewind ∨ o.kind = .unload →
          (r.tr t).orders.list = [.record { tag := o.tag, kind := o.kind, status := status, count := 0
                                            finalPos := some counter, markNumber := none }] ∧
          (r.tr t).flags = x.flags) ∧
        (x.running = none → (r.tr t).orders = x.orders ∧ (r.tr t).sequencer.panelMotion = false ∧
          (r.tr t).flags = { x.flags with state := true })
      let settle : RunReq := { dir := .forward, speed := .creep, target := none, approach := .establishing }
      (rezero = false → p = .fast → q.lpStop = true → goes .settle settle) ∧
      (rezero = false → p = .fast → q.lpStop = false → q.ending = false →
        goes .approach { dir := .reverse, speed := .creep, target := none, approach := .none }) ∧
      (rezero = false → p = .approach → goes .settle settle) ∧
      (rezero = false → p = .fast → q.lpStop = false → q.ending = true →
        x.running = none ∨ (∃ o w, x.orders.list = [.running o w]) → ends .halted x.cap.counter x.cap.conf) ∧
      (rezero = true → p = .settle → x.cap.seg.approach = .establishing →
        x.running = none ∨ (∃ o w, x.orders.list = [.running o w]) →
        (q.state = .rewinding .settle → ends .complete 0 .exact) ∧
        (q.state = .unloading (.ret .settle) → q.ending = true → ends .halted 0 .exact))

/-- The UNLOAD press: in READY at rest at the load point in EXACT confidence it begins RELEASE, elsewhere in READY it begins
the RETURN of an unload as the REWIND press begins a rewind; during a panel rewind it turns that into the RETURN of an unload,
with an ending asked for before it (log entry 55); online it is nothing. At the rezero of RETURN, unless it has been ended,
RELEASE begins. The end of RELEASE enters UNLOADED: drive off, counter 0, LOST, STATE set, an UNLOAD order COMPLETE at
position 0, the bound volume shelved at the young end, and the transport out of the converter's scan (R100, R117, R119,
R120, R21, R36, R130, R136, R145; the end elsewhere is nothing: log entry 16). -/
def Obligations.UnloadsBeginAndEnd : Prop :=
  ∀ (t : TNum) (s : State),
    ((s.tr t).sequencer.online = true → exec (.unloadPress t) s = .next s) ∧
    (∀ p, (s.tr t).sequencer.online = false → (s.tr t).sequencer.state = .rewinding p →
      exec (.unloadPress t) s = .next (if (s.tr t).sequencer.panelMotion = true then
        s.upd t fun x => { x with sequencer := { x.sequencer with state := .unloading (.ret p) } } else s)) ∧
    ((s.tr t).sequencer.online = false → (s.tr t).sequencer.state = .ready → (s.tr t).cap.seg.cond = .atRest →
      (s.tr t).cap.counter = 0 → (s.tr t).cap.conf = .exact → (s.tr t).prot.driveEnable = true →
      (s.tr t).supply.limiting = false →
      ∃ r, exec (.unloadPress t) s = .next r ∧ s.sameOutside t r ∧
        (r.tr t).sequencer.state = .unloading .release ∧ (r.tr t).sequencer.panelMotion = true ∧
        (r.tr t).sequencer.valveOpen = false ∧ (r.tr t).sequencer.quiet = some s.clock ∧
        (r.tr t).cap.seg.cond = .free ∧ (r.tr t).cap.conf = .lost ∧ (r.tr t).supply.commanded = -60 ∧
        (r.tr t).supply.output = -60 ∧ (r.tr t).takeup.commanded = 0) ∧
    ((s.tr t).sequencer.online = false → (s.tr t).sequencer.state = .ready →
      ¬ ((s.tr t).cap.seg.cond = .atRest ∧ (s.tr t).cap.counter = 0 ∧ (s.tr t).cap.conf = .exact) →
      ∃ r p, exec (.rewindPress t) s = .next r ∧ (r.tr t).sequencer.state = .rewinding p ∧
        exec (.unloadPress t) s =
          .next (r.upd t fun x => { x with sequencer := { x.sequencer with state := .unloading (.ret p) } })) ∧
    (∀ k, (s.tr t).cap.seg.cond = .ramping k → k.goal = .toRest true → (s.tr t).cap.seg.approach = .establishing →
      (s.tr t).cap.seg.owner = some .sequencer → (s.tr t).capture.windows = [] →
      (s.tr t).sequencer.state = .unloading (.ret .settle) → (s.tr t).sequencer.ending = false →
      ∃ r, exec (.capstanRampEnd t) s = .next r ∧ s.sameOutside t r ∧ (r.tr t).cap.counter = 0 ∧
        (r.tr t).sequencer = { (s.tr t).sequencer with
          state := .unloading .release, valveOpen := false, quiet := some s.clock, lpStop := false } ∧
        (r.tr t).cap.seg.cond = .free ∧ (r.tr t).cap.conf = .lost ∧ (r.tr t).orders = (s.tr t).orders) ∧
    ((s.tr t).sequencer.state ≠ .unloading .release → exec (.releaseQuietTimeout t) s = .next s) ∧
    ((s.tr t).sequencer.state = .unloading .release → (s.tr t).sequencer.quiet.isSome = true →
      ∃ r, exec (.releaseQuietTimeout t) s = .next r ∧ (r.tr t).sequencer.state = .unloaded ∧
        (r.tr t).sequencer.panelMotion = false ∧ (r.tr t).sequencer.leader = false ∧
        (r.tr t).sequencer.online = (s.tr t).sequencer.online ∧ (r.tr t).prot.driveEnable = false ∧
        (r.tr t).supply.cut ∧ (r.tr t).takeup.cut ∧ (r.tr t).cap.counter = 0 ∧ (r.tr t).cap.conf = .lost ∧
        (r.tr t).cap.lastGap = none ∧ (r.tr t).cap.eotPos = none ∧
        (r.tr t).flags = { (s.tr t).flags with state := true } ∧ r.marks = s.marks ∧ r.line = s.line ∧
        (∀ u, u ≠ t → r.tr u = s.tr u) ∧
        (∀ i v, s.boundIdx t = some i → s.volumes[i] = .mounted v t →
          r.volumes = s.volumes.set i (.shelved v) ∧ r.shelf = s.shelf ++ [i]) ∧
        (s.boundIdx t = none → r.volumes = s.volumes ∧ r.shelf = s.shelf) ∧
        (∀ tag w, (s.tr t).orders.list = [.running { tag := tag, kind := .unload } w] →
          (r.tr t).orders.list = [.record { tag := tag, kind := .unload, status := .complete, count := 0
                                            finalPos := some 0, markNumber := none }]) ∧
        (∀ c ∈ r.converter.rest, c.1 ≠ t))

/-- The ONLINE press goes offline in every state and online in READY and UNLOADED only; a change of the flag sets STATE
(R121). Going offline it does to a running order what HALT does, which is stated outside the RELEASE of an UNLOAD (R104).
LAMP_FLASH_TOGGLE turns the lit half of the flash and nothing else; the three panel lamps follow the state and the online
flag, the front-edge lamp the drive enable, and a flashing lamp is lit in the lit half (R122, R145). -/
def Obligations.OnlinePressAndTheFlash : Prop :=
  (∀ (t : TNum) (s : State),
    let changed := fun b : Bool => s.upd t fun x => { x with
      sequencer := { x.sequencer with online := b }, flags := { x.flags with state := true } }
    ((s.tr t).sequencer.online = true → (s.tr t).running = none → exec (.onlinePress t) s = .next (changed false)) ∧
    ((s.tr t).sequencer.online = true → (s.tr t).running.isSome = true → (s.tr t).releasing = false → s.lineReady →
      ∃ r : State, exec (.halt (transportByte t)) (s.upd t fun x => { x with
          sequencer := { x.sequencer with online := false } }) = .next (r.sending .done []) ∧
        exec (.onlinePress t) s = .next (r.upd t fun x => { x with flags := { x.flags with state := true } })) ∧
    ((s.tr t).sequencer.online = false →
      exec (.onlinePress t) s = .next (if (s.tr t).sequencer.state = .ready ∨ (s.tr t).sequencer.state = .unloaded then
        changed true else s)) ∧
    exec (.lampFlashToggle t) s = .next (s.upd t fun x => { x with
      sequencer := { x.sequencer with flashLit := !x.sequencer.flashLit } })) ∧
  ∀ x : Transport,
    (x.readyLamp = match x.sequencer.state with
      | .ready => .steady
      | .moving => .steady
      | .unloaded => .off
      | .held => .off
      | _ => .flashing) ∧
    (x.onlineLamp = if x.sequencer.online then .steady else .off) ∧
    (x.holdLamp = match x.sequencer.state with
      | .held => .steady
      | .recovering => .flashing
      | _ => .off) ∧
    (x.frontLamp = if x.prot.driveEnable then .steady else .off) ∧
    ∀ flash : Bool, Lamp.steady.lit flash = true ∧ Lamp.off.lit flash = false ∧ Lamp.flashing.lit flash = flash

/-! ### Loops and reels -/

/-- SET LOOP PARAMETERS and SET DRIVE PARAMETERS take allowed values and refuse others with BAD PARAMETER (R132, R133,
R141). With the drive enable on, a reel that is not limited is forced to 0 where its current, the one last reported
(log entry 18), is at or above the new level and not 0, and a limited one whose 20 µs have passed resumes in AFTER
HOLD-OFF, unless its current is so still. A stall timer that has reached the new stall time hands its cause, of two the
supply reel's first (log entry 49), and the hold entry is stated for a state in which it is made (R149); one that has
not runs on. -/
def Obligations.LoopAndDriveParametersAreSet : Prop :=
  ∀ (t : TNum) (a b c d e f : Byte) (s : State), s.lineReady →
    (let p : LoopParams :=
       { limitShort := a.toNat, bandLow := b.toNat, bandHigh := c.toNat, limitLong := d.toNat, gain := e.toNat
         persistence := f.toNat }
     (p.allowed → exec (.setLoopParameters (transportByte t) a b c d e f) s =
       .next (State.sending .done [] (s.upd t fun x => { x with loop := p }))) ∧
     (¬ p.allowed →
       exec (.setLoopParameters (transportByte t) a b c d e f) s = .next (s.sending .badParameter []))) ∧
    (∀ m : ResumeMode, m.code = c.toNat → 5 ≤ d.toNat → d.toNat ≤ 100 → (s.tr t).prot.driveEnable = false →
      (s.tr t).supply.stall = none → (s.tr t).takeup.stall = none →
      exec (.setDriveParameters (transportByte t) a b c d) s = .next (State.sending .done []
        (s.upd t fun x => { x with
          drive := { supplyLevel := a.toNat, takeupLevel := b.toNat, resume := m, stallMs := d.toNat } }))) ∧
    (∀ m : ResumeMode, m.code = c.toNat → 5 ≤ d.toNat → d.toNat ≤ 100 → (s.tr t).prot.driveEnable = true →
      let p : DriveParams := { supplyLevel := a.toNat, takeupLevel := b.toNat, resume := m, stallMs := d.toNat }
      let reached := fun e : Reel => ∃ since, ((s.tr t).reel e).stall = some since ∧ 1000 * d.toNat ≤ s.clock - since
      let reel := fun (level : Byte) (k : ReelDrive) =>
        if k.limiting = true ∧ ¬ (m = .afterHoldOff ∧ 20 ≤ s.clock - k.forcedAt) then k
        else if level.toNat ≤ k.current ∧ 0 < k.current then
          { k with output := 0, limiting := true, overThisPeriod := true, forcedAt := s.clock
                   stall := some (k.stall.getD s.clock) }
        else if k.limiting = true then { k with limiting := false, output := k.commanded }
        else k
      (¬ reached .supply → ¬ reached .takeup →
        exec (.setDriveParameters (transportByte t) a b c d) s = .next (State.sending .done []
          (s.upd t fun x => { x with drive := p, supply := reel a x.supply, takeup := reel b x.takeup }))) ∧
      (∀ e, reached e → (∀ g, g ≠ e → ¬ reached g) → (s.tr t).sequencer.state.tripping = true → ∃ r,
        exec (.setDriveParameters (transportByte t) a b c d) s = .next (r.sending .done []) ∧ s.sameOutside t r ∧
          Transport.heldBy (if e = .supply then .supplyStall else .takeupStall) { s.tr t with drive := p } (r.tr t)) ∧
      (reached .supply → reached .takeup → (s.tr t).sequencer.state.tripping = true → ∃ r y,
        exec (.setDriveParameters (transportByte t) a b c d) s = .next (r.sending .done []) ∧ s.sameOutside t r ∧
          Transport.heldBy .supplyStall { s.tr t with drive := p } y ∧
          r.tr t = { y with prot := { y.prot with hold := { y.prot.hold with further := [.takeupStall] } } })) ∧
    (1 < c.toNat ∨ d.toNat < 5 ∨ 100 < d.toNat →
      exec (.setDriveParameters (transportByte t) a b c d) s = .next (s.sending .badParameter []))

/-- The end of a conversion writes its slot and begins the next channel, or after the last channel a new pass over the
transports that are not UNLOADED (R130, R131). To a transport that has left the scan nothing else happens. Elsewhere,
in LOADING FILL and RECOVERING too, the result gives the reel its zone and persistence count (R137) and, in mode ZONE
with the drive enable on, its drive: the feed-forward of the capstan plus the zone correction, clamped, or +40 until a
column is entered (R135, R136); with the drive enable off column entered stays as it was (R138, log entry 56). A result
that brings a limit zone's count to the persistence holds a transport in which it is armed (R137, R147, R149); one that
shows both loops in CENTER with vacuum ends FILL (R113). In RECOVERING a result without a trip starts or goes on with
the steady measurement while both loops lie in CENTER, and stops it otherwise (R153). With no conversion in progress
the event is nothing (log entry 16). A ramp is linear in time (log entry 10). -/
def Obligations.ConversionsDriveTheReels : Prop :=
  ∀ (s : State) (t : TNum) (e : Reel) (rest : List (TNum × Reel)) (depth : Byte) (handed : Bool),
    let slot : ResultSlot := { depth := depth.toNat, fresh := true }
    (s.converter.busy = none → exec (.conversionEnd depth) s = .next s) ∧
    (s.converter = { busy := some { t := t, reel := e, handed := handed }, rest := rest } →
      let pass : Converter := match TNum.all.filter fun v => (s.tr v).sequencer.state != .unloaded with
        | [] => { busy := none, rest := [] }
        | v :: others =>
          { busy := some { t := v, reel := .supply, handed := true }
            rest := (v, .takeup) :: others.flatMap fun v => [(v, .supply), (v, .takeup)] }
      let next : Converter := match rest with
        | [] => pass
        | (u, g) :: more => { busy := some { t := u, reel := g, handed := true }, rest := more }
      let x := s.tr t
      let d := x.reel e
      let p := x.loop
      let z : Zone :=
        if depth.toNat < p.limitShort then .limitShort
        else if depth.toNat < p.bandLow then .short
        else if depth.toNat ≤ p.bandHigh then .center
        else if depth.toNat ≤ p.limitLong then .long
        else .limitLong
      let limit := z = .limitShort ∨ z = .limitLong
      let count := if limit then (if d.zone = z then min 4 (d.persist + 1) else 1) else 0
      let named : Speed → Int := fun v =>
        match v with
        | .creep => 12
        | .read => 60
        | .seek => 100
        | .rewind => 120
      let feed : Int :=
        match x.cap.seg.cond with
        | .running =>
          match x.cap.seg.speed with
          | some v => named v
          | none => 0
        | .ramping k =>
          let done := min (s.clock - k.began) k.lasts
          if k.lasts = 0 then k.toFeed else ((k.fromFeed * (k.lasts - done) + k.toFeed * done) / k.lasts : Nat)
        | _ => 0
      let way := match x.cap.seg.cond with
        | .ramping k => some k.dir
        | _ => x.cap.seg.dir
      let forward : Int := if way = some .forward then feed else if way = some .reverse then -feed else 0
      let correction : Int :=
        if depth.toNat < p.bandLow then p.gain * (p.bandLow - depth.toNat)
        else if p.bandHigh < depth.toNat then -(p.gain * (depth.toNat - p.bandHigh))
        else 0
      let entered := d.entered || decide (depth.toNat < p.limitLong)
      let drive : Int :=
        if entered then max (-127) (min 127 ((if e = .supply then forward else -forward) + correction)) else 40
      let judged := { d with zone := z, persist := count }
      let driven :=
        if x.prot.driveEnable = true ∧ d.mode = .zone then
          { judged with entered := entered, commanded := drive, output := if d.limiting then 0 else drive }
        else judged
      let given := s.upd t fun y => (y.setSlot e slot).modReel e fun _ => driven
      let other := match e with
        | .supply => x.takeupSlot.depth
        | .takeup => x.supplySlot.depth
      (handed = false →
        exec (.conversionEnd depth) s = .next { s.upd t (Transport.setSlot e slot) with converter := next }) ∧
      (handed = true → p.allowed →
        (x.sequencer.state ∈ [XState.ready, .moving, .held, .loading .thread, .loading .findLoadPoint, .unloading .release] ∨
            (∃ q, x.sequencer.state = .rewinding q) ∨ ∃ q, x.sequencer.state = .unloading (.ret q)) →
        (¬ limit ∨ count < p.persistence ∨ x.sequencer.state.loopsArmed = false →
          exec (.conversionEnd depth) s = .next { given with converter := next }) ∧
        (limit → p.persistence ≤ count → x.sequencer.state.loopsArmed = true →
          ∃ r, exec (.conversionEnd depth) s = .next r ∧ r.converter = next ∧
            x.heldBy (match e, z with
              | .supply, .limitShort => .supplyLoopShort
              | .supply, _ => .supplyLoopLong
              | .takeup, .limitShort => .takeupLoopShort
              | .takeup, _ => .takeupLoopLong) (r.tr t) ∧
            ∀ v, v ≠ t → r.tr v = s.tr v)) ∧
      (handed = true → p.allowed → x.sequencer.state = .loading .fill → z = .center →
        (p.bandLow ≤ other ∧ other ≤ p.bandHigh ∧ x.prot.vacuum.debounced = true → x.cap.seg.cond = .atRest →
          ∃ r, exec (.conversionEnd depth) s = .next r ∧ r.converter = next ∧
            (r.tr t).sequencer = { x.sequencer with state := .loading .findLoadPoint, loadTimer := none, searchCount := 0 } ∧
            (r.tr t).cap.seg.startsFor .sequencer (s.chosenClass t)
              { dir := .forward, speed := .creep, target := none, approach := .establishing } ∧
            (r.tr t).reel e = driven ∧ ∀ v, v ≠ t → r.tr v = s.tr v) ∧
        (¬ (p.bandLow ≤ other ∧ other ≤ p.bandHigh ∧ x.prot.vacuum.debounced = true) →
          exec (.conversionEnd depth) s = .next { given with converter := next })) ∧
      (handed = true → p.allowed → x.sequencer.state = .loading .fill → z ≠ .center →
        exec (.conversionEnd depth) s = .next { given with converter := next }) ∧
      (handed = true → p.allowed → x.sequencer.state = .recovering → ¬ limit ∨ count < p.persistence →
        let center := z = .center ∧ p.bandLow ≤ other ∧ other ≤ p.bandHigh
        let measured := given.upd t fun y => { y with prot := { y.prot with
          steady := if center then some (x.prot.steady.getD s.clock) else none } }
        exec (.conversionEnd depth) s = .next { measured with converter := next }))

/-- Current limiting with the drive enable on: an over-current event, a motor current at or above the level and not 0,
forces the output to 0 and starts the stall timer; the next period, or 20 µs, by the resume mode, lets the commanded
drive out again, and a current at the level still forces it again at once. A period without an over-current event stops
the stall timer at the next one's start (R139, R140). With the drive enable off no notice is taken but of the current
itself (R138). The current that a report gives stands until the next one, and a current at the level that a period
start or a hold-off expiry reports of an output that does not resume there is only noted (log entries 16, 18). A
tachometer pulse stops the stall timer, and one of the take-up reel begins the quiet measurement of RELEASE afresh
(R140, R119). -/
def Obligations.CurrentLimitingForcesAndResumes : Prop :=
  ∀ (t : TNum) (e : Reel) (current : Byte) (s : State),
    let x := s.tr t
    let d := x.reel e
    let level := x.drive.level e
    let put := fun n : ReelDrive => s.upd t fun y => y.modReel e fun _ => n
    let atLevel := level ≤ current.toNat ∧ 0 < current.toNat
    let seen := { d with current := current.toNat }
    let begun := { seen with overThisPeriod := false, stall := if d.overThisPeriod then d.stall else none }
    let forced := fun k : ReelDrive => { k with
      output := 0, limiting := true, overThisPeriod := true, forcedAt := s.clock, stall := some (k.stall.getD s.clock) }
    let resumed := fun k : ReelDrive => if atLevel then forced k else { k with output := k.commanded, limiting := false }
    (x.prot.driveEnable = true →
      exec (.overCurrentEvent t e current) s = .next (put (if d.limiting = false ∧ atLevel then forced seen else seen)) ∧
      exec (.reelDrivePeriodStart t e current) s =
        .next (put (if d.limiting = true ∧ x.drive.resume = .atPeriod then resumed begun else begun)) ∧
      exec (.holdOffExpiry t e current) s =
        .next (put (if d.limiting = true ∧ x.drive.resume = .afterHoldOff then resumed seen else seen))) ∧
    (x.prot.driveEnable = false → exec (.overCurrentEvent t e current) s = .next (put seen) ∧
      exec (.reelDrivePeriodStart t e current) s = .next (put seen) ∧
      exec (.holdOffExpiry t e current) s = .next (put seen)) ∧
    (exec (.reelTachPulse t .supply) s = .next (s.upd t fun y => { y with supply := { y.supply with stall := none } })) ∧
    exec (.reelTachPulse t .takeup) s = .next (s.upd t fun y => { y with
      takeup := { y.takeup with stall := none }
      sequencer := { y.sequencer with quiet := y.sequencer.quiet.map fun _ => s.clock } })

/-! ### Holds and recovery -/

/-- A stall, a vacuum loss shown by the debounced switch, and an opened door each hold a transport in which they are
armed, with everything a hold entry does (`Transport.heldBy`: R149, R105, R71, R138, R145, R16, R2, R123). A stall
reached at the very moment of another cause's hold entry joins the further causes (R149, R151, log entry 46); one with
no timer running is nothing (log entry 16). A vacuum that comes in LOADING FILL ends it when both loops lie in CENTER,
and does nothing else otherwise (R113; stated for allowed loop parameters). An opened door in HELD joins the further
causes, and HOLD is not set again (R151). A raw level of any switch other than the debounced one is timed, the same raw
level again is no change (log entry 36), and a return abandons the timing; the expiry takes the level, and does nothing
else for the reel-present switch (log entry 19), a door that closes, a vacuum that comes outside FILL, and a vacuum
loss or an opened door where it is not armed (R147); an expiry with nothing timed is nothing (log entry 16; R140, R147,
R148). The causes are armed by the table of R147. -/
def Obligations.SwitchesAndStallsHoldTheTransport : Prop :=
  ∀ (t : TNum) (w : Switch) (shows : Bool) (s : State),
    ((s.tr t).sequencer.state.tripping = true →
      (∀ e : Reel, (s.tr t).prot.driveEnable = true → ((s.tr t).reel e).stall.isSome = true →
        ∃ r, exec (.stallTimeReached t e) s = .next r ∧ s.sameOutside t r ∧
          (s.tr t).heldBy (if e = .supply then .supplyStall else .takeupStall) (r.tr t)) ∧
      ((s.tr t).sequencer.state.loopsArmed = true → (s.tr t).prot.vacuum.since.isSome = true →
        (s.tr t).prot.vacuum.raw = false →
        ∃ r, exec (.switchDebounceExpiry t .vacuum) s = .next r ∧ s.sameOutside t r ∧
          (s.tr t).heldBy .vacuumLoss (r.tr t) ∧ (r.tr t).prot.vacuum.debounced = false) ∧
      ((s.tr t).prot.door.since.isSome = true → (s.tr t).prot.door.raw = true →
        ∃ r, exec (.switchDebounceExpiry t .door) s = .next r ∧ s.sameOutside t r ∧
          (s.tr t).heldBy .doorOpen (r.tr t) ∧ (r.tr t).prot.door.debounced = true)) ∧
    (∀ e : Reel,
      let timed := (s.tr t).prot.driveEnable = true ∧ ((s.tr t).reel e).stall.isSome = true
      let late := (s.tr t).heldNow s.clock fun m => if e = .supply then m.supplyStall else m.takeupStall
      (¬ timed → late → exec (.stallTimeReached t e) s = .next (s.upd t fun x => { x with
        prot := x.prot.withFurther (if e = .supply then .supplyStall else .takeupStall) })) ∧
      (¬ timed → ¬ late → exec (.stallTimeReached t e) s = .next s)) ∧
    ((s.tr t).sequencer.state = .held → (s.tr t).prot.door.since.isSome = true → (s.tr t).prot.door.raw = true →
      exec (.switchDebounceExpiry t .door) s = .next (s.upd t fun x => { x with
        prot := Protection.withFurther .doorOpen
          { x.prot with door := { raw := true, debounced := true, since := none } } })) ∧
    ((s.tr t).sequencer.state = .loading .fill → (s.tr t).prot.vacuum.since.isSome = true →
      (s.tr t).prot.vacuum.raw = true → (s.tr t).loop.allowed →
      let x := s.tr t
      let shown := s.upd t (Transport.modInput .vacuum fun _ => { raw := true, debounced := true, since := none })
      let center := ∀ depth ∈ [x.supplySlot.depth, x.takeupSlot.depth], x.loop.bandLow ≤ depth ∧ depth ≤ x.loop.bandHigh
      (¬ center → exec (.switchDebounceExpiry t .vacuum) s = .next shown) ∧
      (center → x.cap.seg.cond = .atRest → ∃ r, exec (.switchDebounceExpiry t .vacuum) s = .next r ∧
        s.sameOutside t r ∧ (r.tr t).prot = (shown.tr t).prot ∧
        (r.tr t).sequencer = { x.sequencer with state := .loading .findLoadPoint, loadTimer := none, searchCount := 0 } ∧
        (r.tr t).cap.seg.startsFor .sequencer (s.chosenClass t)
          { dir := .forward, speed := .creep, target := none, approach := .establishing })) ∧
    let i := (s.tr t).prot.input w
    let put := fun k : SwitchInput => s.upd t (Transport.modInput w fun _ => k)
    let quiet := w = .reelPresent ∨ (w = .door ∧ i.raw = false) ∨
      (w = .vacuum ∧ i.raw = true ∧ (s.tr t).sequencer.state ≠ .loading .fill) ∨
      (w = .vacuum ∧ i.raw = false ∧ (s.tr t).sequencer.state.loopsArmed = false) ∨
      (w = .door ∧ (s.tr t).sequencer.state = .unloaded)
    (shows = i.raw → exec (.switchRawChange t w shows) s = .next s) ∧
    (shows ≠ i.raw → shows ≠ i.debounced →
      exec (.switchRawChange t w shows) s = .next (put { i with raw := shows, since := some s.clock })) ∧
    (shows ≠ i.raw → shows = i.debounced →
      exec (.switchRawChange t w shows) s = .next (put { i with raw := shows, since := none })) ∧
    (i.since.isSome = true → quiet →
      exec (.switchDebounceExpiry t w) s = .next (put { raw := i.raw, debounced := i.raw, since := none })) ∧
    (i.since = none → exec (.switchDebounceExpiry t w) s = .next s) ∧
    let x := s.tr t
    let q := x.sequencer.state
    (q.loopsArmed = true ↔ q = .ready ∨ q = .moving ∨ (∃ p, q = .rewinding p) ∨ (∃ p, q = .unloading (.ret p)) ∨
      q = .loading .findLoadPoint ∨ q = .recovering) ∧
    (∀ c ∈ [Cause.supplyLoopShort, .supplyLoopLong, .takeupLoopShort, .takeupLoopLong, .vacuumLoss],
      x.isArmed c = q.loopsArmed) ∧
    (∀ c ∈ [Cause.supplyStall, .takeupStall], x.isArmed c = x.prot.driveEnable) ∧
    (x.isArmed .capstanTachLoss = true ↔ (∃ k, x.cap.seg.cond = .ramping k) ∨ x.cap.seg.cond = .running) ∧
    (x.isArmed .doorOpen = true ↔ q ≠ .unloaded) ∧ x.isArmed .powerOn = false ∧ x.isArmed .recoveryTimeout = false

/-- CLEAR HOLD: WRONG STATE outside HELD, CAUSE PRESENT while a cause is present, else a recovery begins with the drive on,
the valve open, the recovery timer running, and the steady measurement running if both loops lie in CENTER (R152, R153, R124,
R138). Steady it ends READY with the hold no longer active and both timers stopped (R153). Its time-out, or a stall, a vacuum
loss, an opened door or a loop trip in it, makes the transport HELD again with both timers stopped, the drive cut, the hold
still active, failed set and the cause among the further ones (`Transport.failedBy`: R154, R147). -/
def Obligations.RecoveryFromAHold : Prop :=
  ∀ (t : TNum) (s : State),
    (s.lineReady → (s.tr t).sequencer.state ≠ .held →
      exec (.clearHold (transportByte t)) s = .next (s.sending .wrongState [])) ∧
    (s.lineReady → (s.tr t).sequencer.state = .held → (s.tr t).causePresent = true →
      exec (.clearHold (transportByte t)) s = .next (s.sending .causePresent [])) ∧
    (s.lineReady → (s.tr t).sequencer.state = .held → (s.tr t).causePresent = false →
      ∃ r : State, exec (.clearHold (transportByte t)) s = .next (r.sending .done []) ∧ s.sameOutside t r ∧
        (r.tr t).sequencer = { (s.tr t).sequencer with state := .recovering, valveOpen := true } ∧
        (r.tr t).prot = { (s.tr t).prot with
          driveEnable := true, recovery := some s.clock
          steady := if (s.tr t).loop.zoneOf (s.tr t).supplySlot.depth = .center ∧
              (s.tr t).loop.zoneOf (s.tr t).takeupSlot.depth = .center then some s.clock else none } ∧
        (r.tr t).supply = { (s.tr t).supply with mode := .zone, entered := true, brake := false } ∧
        (r.tr t).takeup = { (s.tr t).takeup with mode := .zone, entered := true, brake := false } ∧
        (r.tr t).cap.counter = (s.tr t).cap.counter ∧ (r.tr t).cap.conf = (s.tr t).cap.conf ∧
        (r.tr t).orders = (s.tr t).orders ∧ (r.tr t).flags = (s.tr t).flags) ∧
    ((s.tr t).sequencer.state = .recovering → (s.tr t).prot.steady.isSome = true →
      exec (.recoverySteady t) s = .next (s.upd t fun x => { x with
        sequencer := { x.sequencer with state := .ready }
        prot := { x.prot with recovery := none, steady := none, hold := { x.prot.hold with active := false } } })) ∧
    ((s.tr t).sequencer.state = .recovering →
      let fails := fun (c : Instr) (cause : Cause) => ∃ r, exec c s = .next r ∧ s.sameOutside t r ∧
        (s.tr t).failedBy cause (r.tr t)
      ((s.tr t).prot.recovery.isSome = true → fails (.recoveryTimeout t) .recoveryTimeout) ∧
      (∀ e : Reel, (s.tr t).prot.driveEnable = true → ((s.tr t).reel e).stall.isSome = true →
        fails (.stallTimeReached t e) (if e = .supply then .supplyStall else .takeupStall)) ∧
      ((s.tr t).prot.vacuum.since.isSome = true → (s.tr t).prot.vacuum.raw = false →
        fails (.switchDebounceExpiry t .vacuum) .vacuumLoss) ∧
      ((s.tr t).prot.door.since.isSome = true → (s.tr t).prot.door.raw = true →
        fails (.switchDebounceExpiry t .door) .doorOpen) ∧
      ∀ (e : Reel) (depth : Byte) (u : TNum) (g : Reel) (rest : List (TNum × Reel)),
        s.converter = { busy := some { t := t, reel := e, handed := true }, rest := (u, g) :: rest } →
        let d := (s.tr t).reel e
        (s.tr t).loop.allowed → d.persist + 1 = (s.tr t).loop.persistence →
        (depth.toNat < (s.tr t).loop.limitShort ∧ d.zone = .limitShort) ∨
          ((s.tr t).loop.limitLong < depth.toNat ∧ d.zone = .limitLong) →
        ∃ r, exec (.conversionEnd depth) s = .next r ∧ (∀ v, v ≠ t → r.tr v = s.tr v) ∧
          (s.tr t).failedBy (match e, d.zone with
            | .supply, .limitShort => .supplyLoopShort
            | .supply, _ => .supplyLoopLong
            | .takeup, .limitShort => .takeupLoopShort
            | .takeup, _ => .takeupLoopLong) (r.tr t))

/-! ### What every step keeps -/

/-- An event of one transport leaves the other transports, its own masks, the line, the controller's flags and masks and
the eviction record alone, and the queue and the clock too (R1 to R18, R92, R101, R109 to R125, R134 to R156: each is a rule
of one transport). -/
def Obligations.EventsStayOnTheirTransport : Prop :=
  ∀ (c : Instr) (t : TNum) (s : State), c.transport? = some t → ∃ r, exec c s = .next r ∧
    (∀ u, u ≠ t → r.tr u = s.tr u) ∧ (r.tr t).masks = (s.tr t).masks ∧ r.line = s.line ∧ r.ctl = s.ctl ∧
    r.ctlMasks = s.ctlMasks ∧ r.eviction = s.eviction ∧ r.pending = s.pending ∧ r.clock = s.clock ∧
    ∀ i : Fin 16, s.boundIdx t ≠ some i → r.marks[i] = s.marks[i]

/-- Every step keeps the drive enable off in HELD and UNLOADED, and with the drive enable off both reels cut off and braked
(R138, R145). -/
def Obligations.StepsKeepTheDriveSafe : Prop :=
  ∀ s r : State, s.every (fun x => x.driveSafe ∧ x.reelsSafe) → step s = .next r →
    r.every fun x => x.driveSafe ∧ x.reelsSafe

/-- Every step keeps every position counter in its range, the loop parameters allowed, and no more than eight slots in use
(R1, R132, R83). -/
def Obligations.StepsKeepCountersParametersAndSlots : Prop :=
  ∀ s r : State, s.every (fun x => x.cap.inRange ∧ x.loop.allowed ∧ x.orders.list.length ≤ 8) → step s = .next r →
    r.every fun x => x.cap.inRange ∧ x.loop.allowed ∧ x.orders.list.length ≤ 8

/-- Every step keeps a waiting request waiting for the transmitter alone (R163). -/
def Obligations.StepsKeepTheLineSound : Prop := ∀ s r : State, s.line.sound → step s = .next r → r.line.sound

/-- Every step keeps every volume's marks in order with no number twice, and the pool within its 512 records (R40, R44). -/
def Obligations.StepsKeepTheMarksSound : Prop := ∀ s r : State, s.marksSound → step s = .next r → r.marksSound

/-- Every step keeps the shelf list exact, the serials and the transports of the volumes unique, and FREE entries without
marks (R23, R25, R26, R27). -/
def Obligations.StepsKeepTheVolumesSound : Prop := ∀ s r : State, s.volumesSound → step s = .next r → r.volumesSound

/-- The machine right after reset meets every condition that a step keeps. -/
def Obligations.ResetMeetsTheConditions : Prop :=
  State.reset.every (fun x => x.cap.inRange ∧ (x.driveSafe ∧ x.reelsSafe) ∧ x.loop.allowed ∧ x.orders.list.length ≤ 8) ∧
    State.reset.line.sound ∧ State.reset.marksSound ∧ State.reset.volumesSound
end

