-- ==== Sys2Proof/Laws/Decode.lean ====
section
/-! SUPPORT. The bytes of a value read back as that value: two, three and four bytes, most significant first (R176). -/

namespace Sys2Proof

theorem word16_bytes (v : BitVec 16) : word16 (v.extractLsb' 8 8) (v.extractLsb' 0 8) = v := by
  apply BitVec.eq_of_getLsbD_eq
  intro i hi
  unfold word16
  rw [BitVec.getLsbD_append]
  simp only [BitVec.getLsbD_extractLsb', Nat.zero_add]
  by_cases h : i < 8
  · simp [h]
  · have e : 8 + (i - 8) = i := by omega
    have : i - 8 < 8 := by omega
    simp [h, e, this]

theorem word24_bytes (v : BitVec 24) : word24 (v.extractLsb' 16 8) (v.extractLsb' 8 8) (v.extractLsb' 0 8) = v := by
  apply BitVec.eq_of_getLsbD_eq
  intro i hi
  unfold word24
  rw [BitVec.getLsbD_append, BitVec.getLsbD_append]
  simp only [BitVec.getLsbD_extractLsb', Nat.zero_add]
  by_cases h : i < 8
  · simp [h]
  · by_cases h' : i - 8 < 8
    · have e : 8 + (i - 8) = i := by omega
      simp [h, h', e]
    · have e : 16 + (i - 8 - 8) = i := by omega
      have : i - 8 - 8 < 8 := by omega
      simp [h, h', e, this]

theorem word32_bytes (v : BitVec 32) :
    word32 (v.extractLsb' 24 8) (v.extractLsb' 16 8) (v.extractLsb' 8 8) (v.extractLsb' 0 8) = v := by
  apply BitVec.eq_of_getLsbD_eq
  intro i hi
  unfold word32
  rw [BitVec.getLsbD_append, BitVec.getLsbD_append, BitVec.getLsbD_append]
  simp only [BitVec.getLsbD_extractLsb', Nat.zero_add]
  by_cases h : i < 8
  · simp [h]
  · by_cases h' : i - 8 < 8
    · have e : 8 + (i - 8) = i := by omega
      simp [h, h', e]
    · by_cases h'' : i - 8 - 8 < 8
      · have e : 16 + (i - 8 - 8) = i := by omega
        simp [h, h', h'', e]
      · have e : 24 + (i - 8 - 8 - 8) = i := by omega
        have : i - 8 - 8 - 8 < 8 := by omega
        simp [h, h', h'', e, this]

end Sys2Proof
end

