-- ==== Sys2Proof/Laws/State.lean ====
section
/-! SUPPORT. What each update of the state leaves in each field: one lemma per field and update. -/

namespace Sys2Proof.Machine

open Sys2Proof

/-! ### The four transports -/

@[simp] theorem Quad.get_set_same {α : Type} (q : Quad α) (t : TNum) (a : α) : (q.set t a).get t = a := by
  cases t <;> rfl

theorem Quad.get_set_other {α : Type} (q : Quad α) (t u : TNum) (a : α) (h : u ≠ t) :
    (q.set t a).get u = q.get u := by
  cases t <;> cases u <;> first | rfl | exact absurd rfl h

@[simp] theorem Quad.set_set {α : Type} (q : Quad α) (t : TNum) (a b : α) : (q.set t a).set t b = q.set t b := by
  cases t <;> rfl

@[simp] theorem Quad.set_get {α : Type} (q : Quad α) (t : TNum) : q.set t (q.get t) = q := by
  cases t <;> rfl

@[simp] theorem State.tr_upd_same (t : TNum) (f : Transport → Transport) (s : State) :
    (s.upd t f).tr t = f (s.tr t) :=
  Quad.get_set_same ..

theorem State.tr_upd_other (t u : TNum) (f : Transport → Transport) (s : State) (h : u ≠ t) :
    (s.upd t f).tr u = s.tr u :=
  Quad.get_set_other _ _ _ _ h

/-- Two changes of one transport are one. -/
@[simp] theorem State.upd_upd (t : TNum) (f g : Transport → Transport) (s : State) :
    (s.upd t f).upd t g = s.upd t fun x => g (f x) := by
  simp [State.upd]

/-- A change that leaves the transport as it is leaves the state as it is. -/
theorem State.upd_id (t : TNum) (f : Transport → Transport) (s : State) (h : f (s.tr t) = s.tr t) : s.upd t f = s := by
  have h' : f (s.x.get t) = s.x.get t := h
  simp [State.upd, h']

@[simp] theorem State.tr_setEntry (i : Fin 16) (e : Entry) (s : State) (t : TNum) : (s.setEntry i e).tr t = s.tr t := rfl

@[simp] theorem State.tr_setMarks (i : Fin 16) (l : List Mark) (s : State) (t : TNum) : (s.setMarks i l).tr t = s.tr t := rfl

@[simp] theorem State.tr_unshelve (i : Fin 16) (s : State) (t : TNum) : (s.unshelve i).tr t = s.tr t := rfl

@[simp] theorem State.tr_noteEviction (v : Option Serial) (s : State) (t : TNum) : (s.noteEviction v).tr t = s.tr t := rfl

@[simp] theorem State.tr_setReceiver (r : Receiver) (s : State) (t : TNum) : (s.setReceiver r).tr t = s.tr t := rfl

@[simp] theorem State.tr_raiseFlag (f : LineFlags → LineFlags) (s : State) (t : TNum) : (s.raiseFlag f).tr t = s.tr t := rfl

@[simp] theorem State.tr_withPending (q : List Instr) (s : State) (t : TNum) : (s.withPending q).tr t = s.tr t := rfl

/-! ### Updates of the whole state -/

@[simp] theorem State.upd_pending (t : TNum) (f : Transport → Transport) (s : State) :
    (s.upd t f).pending = s.pending := rfl
@[simp] theorem State.upd_clock (t : TNum) (f : Transport → Transport) (s : State) :
    (s.upd t f).clock = s.clock := rfl
@[simp] theorem State.upd_x (t : TNum) (f : Transport → Transport) (s : State) :
    (s.upd t f).x = s.x.set t (f (s.x.get t)) := rfl
@[simp] theorem State.upd_volumes (t : TNum) (f : Transport → Transport) (s : State) :
    (s.upd t f).volumes = s.volumes := rfl
@[simp] theorem State.upd_shelf (t : TNum) (f : Transport → Transport) (s : State) :
    (s.upd t f).shelf = s.shelf := rfl
@[simp] theorem State.upd_marks (t : TNum) (f : Transport → Transport) (s : State) :
    (s.upd t f).marks = s.marks := rfl
@[simp] theorem State.upd_converter (t : TNum) (f : Transport → Transport) (s : State) :
    (s.upd t f).converter = s.converter := rfl
@[simp] theorem State.upd_line (t : TNum) (f : Transport → Transport) (s : State) : (s.upd t f).line = s.line := rfl
@[simp] theorem State.upd_ctl (t : TNum) (f : Transport → Transport) (s : State) : (s.upd t f).ctl = s.ctl := rfl
@[simp] theorem State.upd_ctlMasks (t : TNum) (f : Transport → Transport) (s : State) :
    (s.upd t f).ctlMasks = s.ctlMasks := rfl
@[simp] theorem State.upd_eviction (t : TNum) (f : Transport → Transport) (s : State) :
    (s.upd t f).eviction = s.eviction := rfl
@[simp] theorem State.setEntry_pending (i : Fin 16) (e : Entry) (s : State) :
    (s.setEntry i e).pending = s.pending := rfl
@[simp] theorem State.setEntry_clock (i : Fin 16) (e : Entry) (s : State) : (s.setEntry i e).clock = s.clock := rfl
@[simp] theorem State.setEntry_x (i : Fin 16) (e : Entry) (s : State) : (s.setEntry i e).x = s.x := rfl
@[simp] theorem State.setEntry_volumes (i : Fin 16) (e : Entry) (s : State) :
    (s.setEntry i e).volumes = s.volumes.set i e := rfl
@[simp] theorem State.setEntry_shelf (i : Fin 16) (e : Entry) (s : State) : (s.setEntry i e).shelf = s.shelf := rfl
@[simp] theorem State.setEntry_marks (i : Fin 16) (e : Entry) (s : State) : (s.setEntry i e).marks = s.marks := rfl
@[simp] theorem State.setEntry_converter (i : Fin 16) (e : Entry) (s : State) :
    (s.setEntry i e).converter = s.converter := rfl
@[simp] theorem State.setEntry_line (i : Fin 16) (e : Entry) (s : State) : (s.setEntry i e).line = s.line := rfl
@[simp] theorem State.setEntry_ctl (i : Fin 16) (e : Entry) (s : State) : (s.setEntry i e).ctl = s.ctl := rfl
@[simp] theorem State.setEntry_ctlMasks (i : Fin 16) (e : Entry) (s : State) :
    (s.setEntry i e).ctlMasks = s.ctlMasks := rfl
@[simp] theorem State.setEntry_eviction (i : Fin 16) (e : Entry) (s : State) :
    (s.setEntry i e).eviction = s.eviction := rfl
@[simp] theorem State.setMarks_pending (i : Fin 16) (l : List Mark) (s : State) :
    (s.setMarks i l).pending = s.pending := rfl
@[simp] theorem State.setMarks_clock (i : Fin 16) (l : List Mark) (s : State) :
    (s.setMarks i l).clock = s.clock := rfl
@[simp] theorem State.setMarks_x (i : Fin 16) (l : List Mark) (s : State) : (s.setMarks i l).x = s.x := rfl
@[simp] theorem State.setMarks_volumes (i : Fin 16) (l : List Mark) (s : State) :
    (s.setMarks i l).volumes = s.volumes := rfl
@[simp] theorem State.setMarks_shelf (i : Fin 16) (l : List Mark) (s : State) :
    (s.setMarks i l).shelf = s.shelf := rfl
@[simp] theorem State.setMarks_marks (i : Fin 16) (l : List Mark) (s : State) :
    (s.setMarks i l).marks = s.marks.set i l := rfl
@[simp] theorem State.setMarks_converter (i : Fin 16) (l : List Mark) (s : State) :
    (s.setMarks i l).converter = s.converter := rfl
@[simp] theorem State.setMarks_line (i : Fin 16) (l : List Mark) (s : State) : (s.setMarks i l).line = s.line := rfl
@[simp] theorem State.setMarks_ctl (i : Fin 16) (l : List Mark) (s : State) : (s.setMarks i l).ctl = s.ctl := rfl
@[simp] theorem State.setMarks_ctlMasks (i : Fin 16) (l : List Mark) (s : State) :
    (s.setMarks i l).ctlMasks = s.ctlMasks := rfl
@[simp] theorem State.setMarks_eviction (i : Fin 16) (l : List Mark) (s : State) :
    (s.setMarks i l).eviction = s.eviction := rfl
@[simp] theorem State.unshelve_pending (i : Fin 16) (s : State) : (s.unshelve i).pending = s.pending := rfl
@[simp] theorem State.unshelve_clock (i : Fin 16) (s : State) : (s.unshelve i).clock = s.clock := rfl
@[simp] theorem State.unshelve_x (i : Fin 16) (s : State) : (s.unshelve i).x = s.x := rfl
@[simp] theorem State.unshelve_volumes (i : Fin 16) (s : State) : (s.unshelve i).volumes = s.volumes := rfl
@[simp] theorem State.unshelve_shelf (i : Fin 16) (s : State) :
    (s.unshelve i).shelf = s.shelf.filter fun k => k != i := rfl
@[simp] theorem State.unshelve_marks (i : Fin 16) (s : State) : (s.unshelve i).marks = s.marks := rfl
@[simp] theorem State.unshelve_converter (i : Fin 16) (s : State) : (s.unshelve i).converter = s.converter := rfl
@[simp] theorem State.unshelve_line (i : Fin 16) (s : State) : (s.unshelve i).line = s.line := rfl
@[simp] theorem State.unshelve_ctl (i : Fin 16) (s : State) : (s.unshelve i).ctl = s.ctl := rfl
@[simp] theorem State.unshelve_ctlMasks (i : Fin 16) (s : State) : (s.unshelve i).ctlMasks = s.ctlMasks := rfl
@[simp] theorem State.unshelve_eviction (i : Fin 16) (s : State) : (s.unshelve i).eviction = s.eviction := rfl
@[simp] theorem State.noteEviction_pending (v : Option Serial) (s : State) :
    (s.noteEviction v).pending = s.pending := rfl
@[simp] theorem State.noteEviction_clock (v : Option Serial) (s : State) : (s.noteEviction v).clock = s.clock := rfl
@[simp] theorem State.noteEviction_x (v : Option Serial) (s : State) : (s.noteEviction v).x = s.x := rfl
@[simp] theorem State.noteEviction_volumes (v : Option Serial) (s : State) :
    (s.noteEviction v).volumes = s.volumes := rfl
@[simp] theorem State.noteEviction_shelf (v : Option Serial) (s : State) : (s.noteEviction v).shelf = s.shelf := rfl
@[simp] theorem State.noteEviction_marks (v : Option Serial) (s : State) : (s.noteEviction v).marks = s.marks := rfl
@[simp] theorem State.noteEviction_converter (v : Option Serial) (s : State) :
    (s.noteEviction v).converter = s.converter := rfl
@[simp] theorem State.noteEviction_line (v : Option Serial) (s : State) : (s.noteEviction v).line = s.line := rfl
@[simp] theorem State.noteEviction_ctl (v : Option Serial) (s : State) :
    (s.noteEviction v).ctl = { s.ctl with evict := true } := rfl
@[simp] theorem State.noteEviction_ctlMasks (v : Option Serial) (s : State) :
    (s.noteEviction v).ctlMasks = s.ctlMasks := rfl
@[simp] theorem State.noteEviction_eviction (v : Option Serial) (s : State) :
    (s.noteEviction v).eviction = { serial := v, count := min Config.maxEvictions (s.eviction.count + 1) } := rfl
@[simp] theorem State.setReceiver_pending (r : Receiver) (s : State) : (s.setReceiver r).pending = s.pending := rfl
@[simp] theorem State.setReceiver_clock (r : Receiver) (s : State) : (s.setReceiver r).clock = s.clock := rfl
@[simp] theorem State.setReceiver_x (r : Receiver) (s : State) : (s.setReceiver r).x = s.x := rfl
@[simp] theorem State.setReceiver_volumes (r : Receiver) (s : State) : (s.setReceiver r).volumes = s.volumes := rfl
@[simp] theorem State.setReceiver_shelf (r : Receiver) (s : State) : (s.setReceiver r).shelf = s.shelf := rfl
@[simp] theorem State.setReceiver_marks (r : Receiver) (s : State) : (s.setReceiver r).marks = s.marks := rfl
@[simp] theorem State.setReceiver_converter (r : Receiver) (s : State) :
    (s.setReceiver r).converter = s.converter := rfl
@[simp] theorem State.setReceiver_line (r : Receiver) (s : State) :
    (s.setReceiver r).line = { s.line with receiver := r } := rfl
@[simp] theorem State.setReceiver_ctl (r : Receiver) (s : State) : (s.setReceiver r).ctl = s.ctl := rfl
@[simp] theorem State.setReceiver_ctlMasks (r : Receiver) (s : State) : (s.setReceiver r).ctlMasks = s.ctlMasks := rfl
@[simp] theorem State.setReceiver_eviction (r : Receiver) (s : State) : (s.setReceiver r).eviction = s.eviction := rfl
@[simp] theorem State.raiseFlag_pending (f : LineFlags → LineFlags) (s : State) :
    (s.raiseFlag f).pending = s.pending := rfl
@[simp] theorem State.raiseFlag_clock (f : LineFlags → LineFlags) (s : State) : (s.raiseFlag f).clock = s.clock := rfl
@[simp] theorem State.raiseFlag_x (f : LineFlags → LineFlags) (s : State) : (s.raiseFlag f).x = s.x := rfl
@[simp] theorem State.raiseFlag_volumes (f : LineFlags → LineFlags) (s : State) :
    (s.raiseFlag f).volumes = s.volumes := rfl
@[simp] theorem State.raiseFlag_shelf (f : LineFlags → LineFlags) (s : State) : (s.raiseFlag f).shelf = s.shelf := rfl
@[simp] theorem State.raiseFlag_marks (f : LineFlags → LineFlags) (s : State) : (s.raiseFlag f).marks = s.marks := rfl
@[simp] theorem State.raiseFlag_converter (f : LineFlags → LineFlags) (s : State) :
    (s.raiseFlag f).converter = s.converter := rfl
@[simp] theorem State.raiseFlag_line (f : LineFlags → LineFlags) (s : State) :
    (s.raiseFlag f).line = { s.line with flags := f s.line.flags } := rfl
@[simp] theorem State.raiseFlag_ctlMasks (f : LineFlags → LineFlags) (s : State) :
    (s.raiseFlag f).ctlMasks = s.ctlMasks := rfl
@[simp] theorem State.raiseFlag_eviction (f : LineFlags → LineFlags) (s : State) :
    (s.raiseFlag f).eviction = s.eviction := rfl
@[simp] theorem State.withPending_pending (q : List Instr) (s : State) : (s.withPending q).pending = q := rfl
@[simp] theorem State.withPending_clock (q : List Instr) (s : State) : (s.withPending q).clock = s.clock := rfl
@[simp] theorem State.withPending_x (q : List Instr) (s : State) : (s.withPending q).x = s.x := rfl
@[simp] theorem State.withPending_volumes (q : List Instr) (s : State) : (s.withPending q).volumes = s.volumes := rfl
@[simp] theorem State.withPending_shelf (q : List Instr) (s : State) : (s.withPending q).shelf = s.shelf := rfl
@[simp] theorem State.withPending_marks (q : List Instr) (s : State) : (s.withPending q).marks = s.marks := rfl
@[simp] theorem State.withPending_converter (q : List Instr) (s : State) :
    (s.withPending q).converter = s.converter := rfl
@[simp] theorem State.withPending_line (q : List Instr) (s : State) : (s.withPending q).line = s.line := rfl
@[simp] theorem State.withPending_ctl (q : List Instr) (s : State) : (s.withPending q).ctl = s.ctl := rfl
@[simp] theorem State.withPending_ctlMasks (q : List Instr) (s : State) :
    (s.withPending q).ctlMasks = s.ctlMasks := rfl
@[simp] theorem State.withPending_eviction (q : List Instr) (s : State) :
    (s.withPending q).eviction = s.eviction := rfl
@[simp] theorem State.startPass_pending (s : State) : (s.startPass).pending = s.pending := rfl
@[simp] theorem State.startPass_clock (s : State) : (s.startPass).clock = s.clock := rfl
@[simp] theorem State.startPass_x (s : State) : (s.startPass).x = s.x := rfl
@[simp] theorem State.startPass_volumes (s : State) : (s.startPass).volumes = s.volumes := rfl
@[simp] theorem State.startPass_shelf (s : State) : (s.startPass).shelf = s.shelf := rfl
@[simp] theorem State.startPass_marks (s : State) : (s.startPass).marks = s.marks := rfl
@[simp] theorem State.startPass_converter (s : State) :
    (s.startPass).converter = Converter.start s.passChannels := rfl
@[simp] theorem State.startPass_line (s : State) : (s.startPass).line = s.line := rfl
@[simp] theorem State.startPass_ctl (s : State) : (s.startPass).ctl = s.ctl := rfl
@[simp] theorem State.startPass_ctlMasks (s : State) : (s.startPass).ctlMasks = s.ctlMasks := rfl
@[simp] theorem State.startPass_eviction (s : State) : (s.startPass).eviction = s.eviction := rfl
@[simp] theorem State.leaveScan_pending (t : TNum) (s : State) : (s.leaveScan t).pending = s.pending := rfl
@[simp] theorem State.leaveScan_clock (t : TNum) (s : State) : (s.leaveScan t).clock = s.clock := rfl
@[simp] theorem State.leaveScan_x (t : TNum) (s : State) : (s.leaveScan t).x = s.x := rfl
@[simp] theorem State.leaveScan_volumes (t : TNum) (s : State) : (s.leaveScan t).volumes = s.volumes := rfl
@[simp] theorem State.leaveScan_shelf (t : TNum) (s : State) : (s.leaveScan t).shelf = s.shelf := rfl
@[simp] theorem State.leaveScan_marks (t : TNum) (s : State) : (s.leaveScan t).marks = s.marks := rfl
@[simp] theorem State.leaveScan_line (t : TNum) (s : State) : (s.leaveScan t).line = s.line := rfl
@[simp] theorem State.leaveScan_ctl (t : TNum) (s : State) : (s.leaveScan t).ctl = s.ctl := rfl
@[simp] theorem State.leaveScan_ctlMasks (t : TNum) (s : State) : (s.leaveScan t).ctlMasks = s.ctlMasks := rfl
@[simp] theorem State.leaveScan_eviction (t : TNum) (s : State) : (s.leaveScan t).eviction = s.eviction := rfl

/-! ### Updates of one transport -/

@[simp] theorem Transport.modSeq_cap (f : Sequencer → Sequencer) (x : Transport) : (x.modSeq f).cap = x.cap := rfl
@[simp] theorem Transport.modSeq_capture (f : Sequencer → Sequencer) (x : Transport) :
    (x.modSeq f).capture = x.capture := rfl
@[simp] theorem Transport.modSeq_orders (f : Sequencer → Sequencer) (x : Transport) :
    (x.modSeq f).orders = x.orders := rfl
@[simp] theorem Transport.modSeq_sequencer (f : Sequencer → Sequencer) (x : Transport) :
    (x.modSeq f).sequencer = f x.sequencer := rfl
@[simp] theorem Transport.modSeq_supply (f : Sequencer → Sequencer) (x : Transport) :
    (x.modSeq f).supply = x.supply := rfl
@[simp] theorem Transport.modSeq_takeup (f : Sequencer → Sequencer) (x : Transport) :
    (x.modSeq f).takeup = x.takeup := rfl
@[simp] theorem Transport.modSeq_supplySlot (f : Sequencer → Sequencer) (x : Transport) :
    (x.modSeq f).supplySlot = x.supplySlot := rfl
@[simp] theorem Transport.modSeq_takeupSlot (f : Sequencer → Sequencer) (x : Transport) :
    (x.modSeq f).takeupSlot = x.takeupSlot := rfl
@[simp] theorem Transport.modSeq_loop (f : Sequencer → Sequencer) (x : Transport) : (x.modSeq f).loop = x.loop := rfl
@[simp] theorem Transport.modSeq_drive (f : Sequencer → Sequencer) (x : Transport) :
    (x.modSeq f).drive = x.drive := rfl
@[simp] theorem Transport.modSeq_prot (f : Sequencer → Sequencer) (x : Transport) : (x.modSeq f).prot = x.prot := rfl
@[simp] theorem Transport.modSeq_flags (f : Sequencer → Sequencer) (x : Transport) :
    (x.modSeq f).flags = x.flags := rfl
@[simp] theorem Transport.modSeq_masks (f : Sequencer → Sequencer) (x : Transport) :
    (x.modSeq f).masks = x.masks := rfl
@[simp] theorem Transport.setState_cap (st : XState) (x : Transport) : (x.setState st).cap = x.cap := rfl
@[simp] theorem Transport.setState_capture (st : XState) (x : Transport) : (x.setState st).capture = x.capture := rfl
@[simp] theorem Transport.setState_orders (st : XState) (x : Transport) : (x.setState st).orders = x.orders := rfl
@[simp] theorem Transport.setState_sequencer (st : XState) (x : Transport) :
    (x.setState st).sequencer = { x.sequencer with state := st } := rfl
@[simp] theorem Transport.setState_supply (st : XState) (x : Transport) : (x.setState st).supply = x.supply := rfl
@[simp] theorem Transport.setState_takeup (st : XState) (x : Transport) : (x.setState st).takeup = x.takeup := rfl
@[simp] theorem Transport.setState_supplySlot (st : XState) (x : Transport) :
    (x.setState st).supplySlot = x.supplySlot := rfl
@[simp] theorem Transport.setState_takeupSlot (st : XState) (x : Transport) :
    (x.setState st).takeupSlot = x.takeupSlot := rfl
@[simp] theorem Transport.setState_loop (st : XState) (x : Transport) : (x.setState st).loop = x.loop := rfl
@[simp] theorem Transport.setState_drive (st : XState) (x : Transport) : (x.setState st).drive = x.drive := rfl
@[simp] theorem Transport.setState_prot (st : XState) (x : Transport) : (x.setState st).prot = x.prot := rfl
@[simp] theorem Transport.setState_flags (st : XState) (x : Transport) : (x.setState st).flags = x.flags := rfl
@[simp] theorem Transport.setState_masks (st : XState) (x : Transport) : (x.setState st).masks = x.masks := rfl
@[simp] theorem Transport.modCapture_cap (f : Capture → Capture) (x : Transport) : (x.modCapture f).cap = x.cap := rfl
@[simp] theorem Transport.modCapture_capture (f : Capture → Capture) (x : Transport) :
    (x.modCapture f).capture = f x.capture := rfl
@[simp] theorem Transport.modCapture_orders (f : Capture → Capture) (x : Transport) :
    (x.modCapture f).orders = x.orders := rfl
@[simp] theorem Transport.modCapture_sequencer (f : Capture → Capture) (x : Transport) :
    (x.modCapture f).sequencer = x.sequencer := rfl
@[simp] theorem Transport.modCapture_supply (f : Capture → Capture) (x : Transport) :
    (x.modCapture f).supply = x.supply := rfl
@[simp] theorem Transport.modCapture_takeup (f : Capture → Capture) (x : Transport) :
    (x.modCapture f).takeup = x.takeup := rfl
@[simp] theorem Transport.modCapture_supplySlot (f : Capture → Capture) (x : Transport) :
    (x.modCapture f).supplySlot = x.supplySlot := rfl
@[simp] theorem Transport.modCapture_takeupSlot (f : Capture → Capture) (x : Transport) :
    (x.modCapture f).takeupSlot = x.takeupSlot := rfl
@[simp] theorem Transport.modCapture_loop (f : Capture → Capture) (x : Transport) :
    (x.modCapture f).loop = x.loop := rfl
@[simp] theorem Transport.modCapture_drive (f : Capture → Capture) (x : Transport) :
    (x.modCapture f).drive = x.drive := rfl
@[simp] theorem Transport.modCapture_prot (f : Capture → Capture) (x : Transport) :
    (x.modCapture f).prot = x.prot := rfl
@[simp] theorem Transport.modCapture_flags (f : Capture → Capture) (x : Transport) :
    (x.modCapture f).flags = x.flags := rfl
@[simp] theorem Transport.modCapture_masks (f : Capture → Capture) (x : Transport) :
    (x.modCapture f).masks = x.masks := rfl
@[simp] theorem Transport.modList_cap (f : List Slot → List Slot) (x : Transport) : (x.modList f).cap = x.cap := rfl
@[simp] theorem Transport.modList_capture (f : List Slot → List Slot) (x : Transport) :
    (x.modList f).capture = x.capture := rfl
@[simp] theorem Transport.modList_orders (f : List Slot → List Slot) (x : Transport) :
    (x.modList f).orders = { x.orders with list := f x.orders.list } := rfl
@[simp] theorem Transport.modList_sequencer (f : List Slot → List Slot) (x : Transport) :
    (x.modList f).sequencer = x.sequencer := rfl
@[simp] theorem Transport.modList_supply (f : List Slot → List Slot) (x : Transport) :
    (x.modList f).supply = x.supply := rfl
@[simp] theorem Transport.modList_takeup (f : List Slot → List Slot) (x : Transport) :
    (x.modList f).takeup = x.takeup := rfl
@[simp] theorem Transport.modList_supplySlot (f : List Slot → List Slot) (x : Transport) :
    (x.modList f).supplySlot = x.supplySlot := rfl
@[simp] theorem Transport.modList_takeupSlot (f : List Slot → List Slot) (x : Transport) :
    (x.modList f).takeupSlot = x.takeupSlot := rfl
@[simp] theorem Transport.modList_loop (f : List Slot → List Slot) (x : Transport) :
    (x.modList f).loop = x.loop := rfl
@[simp] theorem Transport.modList_drive (f : List Slot → List Slot) (x : Transport) :
    (x.modList f).drive = x.drive := rfl
@[simp] theorem Transport.modList_prot (f : List Slot → List Slot) (x : Transport) :
    (x.modList f).prot = x.prot := rfl
@[simp] theorem Transport.modList_flags (f : List Slot → List Slot) (x : Transport) :
    (x.modList f).flags = x.flags := rfl
@[simp] theorem Transport.modList_masks (f : List Slot → List Slot) (x : Transport) :
    (x.modList f).masks = x.masks := rfl
@[simp] theorem Transport.modWork_cap (f : Order → Work → Work) (x : Transport) : (x.modWork f).cap = x.cap := rfl
@[simp] theorem Transport.modWork_capture (f : Order → Work → Work) (x : Transport) :
    (x.modWork f).capture = x.capture := rfl
@[simp] theorem Transport.modWork_sequencer (f : Order → Work → Work) (x : Transport) :
    (x.modWork f).sequencer = x.sequencer := rfl
@[simp] theorem Transport.modWork_supply (f : Order → Work → Work) (x : Transport) :
    (x.modWork f).supply = x.supply := rfl
@[simp] theorem Transport.modWork_takeup (f : Order → Work → Work) (x : Transport) :
    (x.modWork f).takeup = x.takeup := rfl
@[simp] theorem Transport.modWork_supplySlot (f : Order → Work → Work) (x : Transport) :
    (x.modWork f).supplySlot = x.supplySlot := rfl
@[simp] theorem Transport.modWork_takeupSlot (f : Order → Work → Work) (x : Transport) :
    (x.modWork f).takeupSlot = x.takeupSlot := rfl
@[simp] theorem Transport.modWork_loop (f : Order → Work → Work) (x : Transport) : (x.modWork f).loop = x.loop := rfl
@[simp] theorem Transport.modWork_drive (f : Order → Work → Work) (x : Transport) :
    (x.modWork f).drive = x.drive := rfl
@[simp] theorem Transport.modWork_prot (f : Order → Work → Work) (x : Transport) : (x.modWork f).prot = x.prot := rfl
@[simp] theorem Transport.modWork_flags (f : Order → Work → Work) (x : Transport) :
    (x.modWork f).flags = x.flags := rfl
@[simp] theorem Transport.modWork_masks (f : Order → Work → Work) (x : Transport) :
    (x.modWork f).masks = x.masks := rfl
@[simp] theorem Transport.modReels_cap (f : ReelDrive → ReelDrive) (x : Transport) : (x.modReels f).cap = x.cap := rfl
@[simp] theorem Transport.modReels_capture (f : ReelDrive → ReelDrive) (x : Transport) :
    (x.modReels f).capture = x.capture := rfl
@[simp] theorem Transport.modReels_orders (f : ReelDrive → ReelDrive) (x : Transport) :
    (x.modReels f).orders = x.orders := rfl
@[simp] theorem Transport.modReels_sequencer (f : ReelDrive → ReelDrive) (x : Transport) :
    (x.modReels f).sequencer = x.sequencer := rfl
@[simp] theorem Transport.modReels_supply (f : ReelDrive → ReelDrive) (x : Transport) :
    (x.modReels f).supply = f x.supply := rfl
@[simp] theorem Transport.modReels_takeup (f : ReelDrive → ReelDrive) (x : Transport) :
    (x.modReels f).takeup = f x.takeup := rfl
@[simp] theorem Transport.modReels_supplySlot (f : ReelDrive → ReelDrive) (x : Transport) :
    (x.modReels f).supplySlot = x.supplySlot := rfl
@[simp] theorem Transport.modReels_takeupSlot (f : ReelDrive → ReelDrive) (x : Transport) :
    (x.modReels f).takeupSlot = x.takeupSlot := rfl
@[simp] theorem Transport.modReels_loop (f : ReelDrive → ReelDrive) (x : Transport) :
    (x.modReels f).loop = x.loop := rfl
@[simp] theorem Transport.modReels_drive (f : ReelDrive → ReelDrive) (x : Transport) :
    (x.modReels f).drive = x.drive := rfl
@[simp] theorem Transport.modReels_prot (f : ReelDrive → ReelDrive) (x : Transport) :
    (x.modReels f).prot = x.prot := rfl
@[simp] theorem Transport.modReels_flags (f : ReelDrive → ReelDrive) (x : Transport) :
    (x.modReels f).flags = x.flags := rfl
@[simp] theorem Transport.modReels_masks (f : ReelDrive → ReelDrive) (x : Transport) :
    (x.modReels f).masks = x.masks := rfl
@[simp] theorem Transport.noteState_cap (x : Transport) : (x.noteState).cap = x.cap := rfl
@[simp] theorem Transport.noteState_capture (x : Transport) : (x.noteState).capture = x.capture := rfl
@[simp] theorem Transport.noteState_orders (x : Transport) : (x.noteState).orders = x.orders := rfl
@[simp] theorem Transport.noteState_sequencer (x : Transport) : (x.noteState).sequencer = x.sequencer := rfl
@[simp] theorem Transport.noteState_supply (x : Transport) : (x.noteState).supply = x.supply := rfl
@[simp] theorem Transport.noteState_takeup (x : Transport) : (x.noteState).takeup = x.takeup := rfl
@[simp] theorem Transport.noteState_supplySlot (x : Transport) : (x.noteState).supplySlot = x.supplySlot := rfl
@[simp] theorem Transport.noteState_takeupSlot (x : Transport) : (x.noteState).takeupSlot = x.takeupSlot := rfl
@[simp] theorem Transport.noteState_loop (x : Transport) : (x.noteState).loop = x.loop := rfl
@[simp] theorem Transport.noteState_drive (x : Transport) : (x.noteState).drive = x.drive := rfl
@[simp] theorem Transport.noteState_prot (x : Transport) : (x.noteState).prot = x.prot := rfl
@[simp] theorem Transport.noteState_flags (x : Transport) :
    (x.noteState).flags = { x.flags with state := true } := rfl
@[simp] theorem Transport.noteState_masks (x : Transport) : (x.noteState).masks = x.masks := rfl
@[simp] theorem Transport.noteHold_cap (x : Transport) : (x.noteHold).cap = x.cap := rfl
@[simp] theorem Transport.noteHold_capture (x : Transport) : (x.noteHold).capture = x.capture := rfl
@[simp] theorem Transport.noteHold_orders (x : Transport) : (x.noteHold).orders = x.orders := rfl
@[simp] theorem Transport.noteHold_sequencer (x : Transport) : (x.noteHold).sequencer = x.sequencer := rfl
@[simp] theorem Transport.noteHold_supply (x : Transport) : (x.noteHold).supply = x.supply := rfl
@[simp] theorem Transport.noteHold_takeup (x : Transport) : (x.noteHold).takeup = x.takeup := rfl
@[simp] theorem Transport.noteHold_supplySlot (x : Transport) : (x.noteHold).supplySlot = x.supplySlot := rfl
@[simp] theorem Transport.noteHold_takeupSlot (x : Transport) : (x.noteHold).takeupSlot = x.takeupSlot := rfl
@[simp] theorem Transport.noteHold_loop (x : Transport) : (x.noteHold).loop = x.loop := rfl
@[simp] theorem Transport.noteHold_drive (x : Transport) : (x.noteHold).drive = x.drive := rfl
@[simp] theorem Transport.noteHold_prot (x : Transport) : (x.noteHold).prot = x.prot := rfl
@[simp] theorem Transport.noteHold_flags (x : Transport) : (x.noteHold).flags = { x.flags with hold := true } := rfl
@[simp] theorem Transport.noteHold_masks (x : Transport) : (x.noteHold).masks = x.masks := rfl
@[simp] theorem Transport.noteSlots_cap (x : Transport) : (x.noteSlots).cap = x.cap := rfl
@[simp] theorem Transport.noteSlots_capture (x : Transport) : (x.noteSlots).capture = x.capture := rfl
@[simp] theorem Transport.noteSlots_orders (x : Transport) : (x.noteSlots).orders = x.orders := rfl
@[simp] theorem Transport.noteSlots_sequencer (x : Transport) : (x.noteSlots).sequencer = x.sequencer := rfl
@[simp] theorem Transport.noteSlots_supply (x : Transport) : (x.noteSlots).supply = x.supply := rfl
@[simp] theorem Transport.noteSlots_takeup (x : Transport) : (x.noteSlots).takeup = x.takeup := rfl
@[simp] theorem Transport.noteSlots_supplySlot (x : Transport) : (x.noteSlots).supplySlot = x.supplySlot := rfl
@[simp] theorem Transport.noteSlots_takeupSlot (x : Transport) : (x.noteSlots).takeupSlot = x.takeupSlot := rfl
@[simp] theorem Transport.noteSlots_loop (x : Transport) : (x.noteSlots).loop = x.loop := rfl
@[simp] theorem Transport.noteSlots_drive (x : Transport) : (x.noteSlots).drive = x.drive := rfl
@[simp] theorem Transport.noteSlots_prot (x : Transport) : (x.noteSlots).prot = x.prot := rfl
@[simp] theorem Transport.noteSlots_flags (x : Transport) :
    (x.noteSlots).flags = { x.flags with slots := true } := rfl
@[simp] theorem Transport.noteSlots_masks (x : Transport) : (x.noteSlots).masks = x.masks := rfl
@[simp] theorem Transport.clearEvents_cap (x : Transport) : (x.clearEvents).cap = x.cap := rfl
@[simp] theorem Transport.clearEvents_capture (x : Transport) : (x.clearEvents).capture = x.capture := rfl
@[simp] theorem Transport.clearEvents_orders (x : Transport) : (x.clearEvents).orders = x.orders := rfl
@[simp] theorem Transport.clearEvents_sequencer (x : Transport) : (x.clearEvents).sequencer = x.sequencer := rfl
@[simp] theorem Transport.clearEvents_supply (x : Transport) : (x.clearEvents).supply = x.supply := rfl
@[simp] theorem Transport.clearEvents_takeup (x : Transport) : (x.clearEvents).takeup = x.takeup := rfl
@[simp] theorem Transport.clearEvents_supplySlot (x : Transport) : (x.clearEvents).supplySlot = x.supplySlot := rfl
@[simp] theorem Transport.clearEvents_takeupSlot (x : Transport) : (x.clearEvents).takeupSlot = x.takeupSlot := rfl
@[simp] theorem Transport.clearEvents_loop (x : Transport) : (x.clearEvents).loop = x.loop := rfl
@[simp] theorem Transport.clearEvents_drive (x : Transport) : (x.clearEvents).drive = x.drive := rfl
@[simp] theorem Transport.clearEvents_prot (x : Transport) : (x.clearEvents).prot = x.prot := rfl
@[simp] theorem Transport.clearEvents_flags (x : Transport) :
    (x.clearEvents).flags = { slots := false, hold := false, state := false } := rfl
@[simp] theorem Transport.clearEvents_masks (x : Transport) : (x.clearEvents).masks = x.masks := rfl
@[simp] theorem Transport.driveOff_cap (x : Transport) : (x.driveOff).cap = x.cap := rfl
@[simp] theorem Transport.driveOff_capture (x : Transport) : (x.driveOff).capture = x.capture := rfl
@[simp] theorem Transport.driveOff_orders (x : Transport) : (x.driveOff).orders = x.orders := rfl
@[simp] theorem Transport.driveOff_sequencer (x : Transport) : (x.driveOff).sequencer = x.sequencer := rfl
@[simp] theorem Transport.driveOff_supply (x : Transport) : (x.driveOff).supply = x.supply.off := rfl
@[simp] theorem Transport.driveOff_takeup (x : Transport) : (x.driveOff).takeup = x.takeup.off := rfl
@[simp] theorem Transport.driveOff_supplySlot (x : Transport) : (x.driveOff).supplySlot = x.supplySlot := rfl
@[simp] theorem Transport.driveOff_takeupSlot (x : Transport) : (x.driveOff).takeupSlot = x.takeupSlot := rfl
@[simp] theorem Transport.driveOff_loop (x : Transport) : (x.driveOff).loop = x.loop := rfl
@[simp] theorem Transport.driveOff_drive (x : Transport) : (x.driveOff).drive = x.drive := rfl
@[simp] theorem Transport.driveOff_prot (x : Transport) :
    (x.driveOff).prot = { x.prot with driveEnable := false } := rfl
@[simp] theorem Transport.driveOff_flags (x : Transport) : (x.driveOff).flags = x.flags := rfl
@[simp] theorem Transport.driveOff_masks (x : Transport) : (x.driveOff).masks = x.masks := rfl
@[simp] theorem Transport.driveOn_cap (x : Transport) : (x.driveOn).cap = x.cap := rfl
@[simp] theorem Transport.driveOn_capture (x : Transport) : (x.driveOn).capture = x.capture := rfl
@[simp] theorem Transport.driveOn_orders (x : Transport) : (x.driveOn).orders = x.orders := rfl
@[simp] theorem Transport.driveOn_sequencer (x : Transport) : (x.driveOn).sequencer = x.sequencer := rfl
@[simp] theorem Transport.driveOn_supply (x : Transport) :
    (x.driveOn).supply = { x.supply with brake := false } := rfl
@[simp] theorem Transport.driveOn_takeup (x : Transport) :
    (x.driveOn).takeup = { x.takeup with brake := false } := rfl
@[simp] theorem Transport.driveOn_supplySlot (x : Transport) : (x.driveOn).supplySlot = x.supplySlot := rfl
@[simp] theorem Transport.driveOn_takeupSlot (x : Transport) : (x.driveOn).takeupSlot = x.takeupSlot := rfl
@[simp] theorem Transport.driveOn_loop (x : Transport) : (x.driveOn).loop = x.loop := rfl
@[simp] theorem Transport.driveOn_drive (x : Transport) : (x.driveOn).drive = x.drive := rfl
@[simp] theorem Transport.driveOn_prot (x : Transport) : (x.driveOn).prot = { x.prot with driveEnable := true } := rfl
@[simp] theorem Transport.driveOn_flags (x : Transport) : (x.driveOn).flags = x.flags := rfl
@[simp] theorem Transport.driveOn_masks (x : Transport) : (x.driveOn).masks = x.masks := rfl
@[simp] theorem Transport.instruct_cap (m : ReelMode) (e : ReelDrive → Bool) (v w : Int) (x : Transport) :
    (x.instruct m e v w).cap = x.cap := rfl
@[simp] theorem Transport.instruct_capture (m : ReelMode) (e : ReelDrive → Bool) (v w : Int) (x : Transport) :
    (x.instruct m e v w).capture = x.capture := rfl
@[simp] theorem Transport.instruct_orders (m : ReelMode) (e : ReelDrive → Bool) (v w : Int) (x : Transport) :
    (x.instruct m e v w).orders = x.orders := rfl
@[simp] theorem Transport.instruct_sequencer (m : ReelMode) (e : ReelDrive → Bool) (v w : Int) (x : Transport) :
    (x.instruct m e v w).sequencer = x.sequencer := rfl
@[simp] theorem Transport.instruct_supplySlot (m : ReelMode) (e : ReelDrive → Bool) (v w : Int) (x : Transport) :
    (x.instruct m e v w).supplySlot = x.supplySlot := rfl
@[simp] theorem Transport.instruct_takeupSlot (m : ReelMode) (e : ReelDrive → Bool) (v w : Int) (x : Transport) :
    (x.instruct m e v w).takeupSlot = x.takeupSlot := rfl
@[simp] theorem Transport.instruct_loop (m : ReelMode) (e : ReelDrive → Bool) (v w : Int) (x : Transport) :
    (x.instruct m e v w).loop = x.loop := rfl
@[simp] theorem Transport.instruct_drive (m : ReelMode) (e : ReelDrive → Bool) (v w : Int) (x : Transport) :
    (x.instruct m e v w).drive = x.drive := rfl
@[simp] theorem Transport.instruct_prot (m : ReelMode) (e : ReelDrive → Bool) (v w : Int) (x : Transport) :
    (x.instruct m e v w).prot = x.prot := rfl
@[simp] theorem Transport.instruct_flags (m : ReelMode) (e : ReelDrive → Bool) (v w : Int) (x : Transport) :
    (x.instruct m e v w).flags = x.flags := rfl
@[simp] theorem Transport.instruct_masks (m : ReelMode) (e : ReelDrive → Bool) (v w : Int) (x : Transport) :
    (x.instruct m e v w).masks = x.masks := rfl
@[simp] theorem Transport.windRelease_cap (x : Transport) : (x.windRelease).cap = x.cap := rfl
@[simp] theorem Transport.windRelease_capture (x : Transport) : (x.windRelease).capture = x.capture := rfl
@[simp] theorem Transport.windRelease_orders (x : Transport) : (x.windRelease).orders = x.orders := rfl
@[simp] theorem Transport.windRelease_sequencer (x : Transport) : (x.windRelease).sequencer = x.sequencer := rfl
@[simp] theorem Transport.windRelease_supplySlot (x : Transport) : (x.windRelease).supplySlot = x.supplySlot := rfl
@[simp] theorem Transport.windRelease_takeupSlot (x : Transport) : (x.windRelease).takeupSlot = x.takeupSlot := rfl
@[simp] theorem Transport.windRelease_loop (x : Transport) : (x.windRelease).loop = x.loop := rfl
@[simp] theorem Transport.windRelease_drive (x : Transport) : (x.windRelease).drive = x.drive := rfl
@[simp] theorem Transport.windRelease_prot (x : Transport) : (x.windRelease).prot = x.prot := rfl
@[simp] theorem Transport.windRelease_flags (x : Transport) : (x.windRelease).flags = x.flags := rfl
@[simp] theorem Transport.windRelease_masks (x : Transport) : (x.windRelease).masks = x.masks := rfl
@[simp] theorem Transport.loseConfidence_cap (x : Transport) :
    (x.loseConfidence).cap = { x.cap with conf := .lost } := rfl
@[simp] theorem Transport.loseConfidence_capture (x : Transport) :
    (x.loseConfidence).capture = x.capture.abandonAll := rfl
@[simp] theorem Transport.loseConfidence_orders (x : Transport) : (x.loseConfidence).orders = x.orders := rfl
@[simp] theorem Transport.loseConfidence_sequencer (x : Transport) : (x.loseConfidence).sequencer = x.sequencer := rfl
@[simp] theorem Transport.loseConfidence_supply (x : Transport) : (x.loseConfidence).supply = x.supply := rfl
@[simp] theorem Transport.loseConfidence_takeup (x : Transport) : (x.loseConfidence).takeup = x.takeup := rfl
@[simp] theorem Transport.loseConfidence_supplySlot (x : Transport) :
    (x.loseConfidence).supplySlot = x.supplySlot := rfl
@[simp] theorem Transport.loseConfidence_takeupSlot (x : Transport) :
    (x.loseConfidence).takeupSlot = x.takeupSlot := rfl
@[simp] theorem Transport.loseConfidence_loop (x : Transport) : (x.loseConfidence).loop = x.loop := rfl
@[simp] theorem Transport.loseConfidence_drive (x : Transport) : (x.loseConfidence).drive = x.drive := rfl
@[simp] theorem Transport.loseConfidence_prot (x : Transport) : (x.loseConfidence).prot = x.prot := rfl
@[simp] theorem Transport.loseConfidence_flags (x : Transport) : (x.loseConfidence).flags = x.flags := rfl
@[simp] theorem Transport.loseConfidence_masks (x : Transport) : (x.loseConfidence).masks = x.masks := rfl
@[simp] theorem Transport.free_capture (d : Dir) (x : Transport) : (x.free d).capture = x.capture.abandonAll := rfl
@[simp] theorem Transport.free_orders (d : Dir) (x : Transport) : (x.free d).orders = x.orders := rfl
@[simp] theorem Transport.free_sequencer (d : Dir) (x : Transport) : (x.free d).sequencer = x.sequencer := rfl
@[simp] theorem Transport.free_supply (d : Dir) (x : Transport) : (x.free d).supply = x.supply := rfl
@[simp] theorem Transport.free_takeup (d : Dir) (x : Transport) : (x.free d).takeup = x.takeup := rfl
@[simp] theorem Transport.free_supplySlot (d : Dir) (x : Transport) : (x.free d).supplySlot = x.supplySlot := rfl
@[simp] theorem Transport.free_takeupSlot (d : Dir) (x : Transport) : (x.free d).takeupSlot = x.takeupSlot := rfl
@[simp] theorem Transport.free_loop (d : Dir) (x : Transport) : (x.free d).loop = x.loop := rfl
@[simp] theorem Transport.free_drive (d : Dir) (x : Transport) : (x.free d).drive = x.drive := rfl
@[simp] theorem Transport.free_prot (d : Dir) (x : Transport) : (x.free d).prot = x.prot := rfl
@[simp] theorem Transport.free_flags (d : Dir) (x : Transport) : (x.free d).flags = x.flags := rfl
@[simp] theorem Transport.free_masks (d : Dir) (x : Transport) : (x.free d).masks = x.masks := rfl
@[simp] theorem Transport.stopDriven_capture (n : Nat) (o : Owner) (x : Transport) :
    (x.stopDriven n o).capture = x.capture := rfl
@[simp] theorem Transport.stopDriven_orders (n : Nat) (o : Owner) (x : Transport) :
    (x.stopDriven n o).orders = x.orders := rfl
@[simp] theorem Transport.stopDriven_sequencer (n : Nat) (o : Owner) (x : Transport) :
    (x.stopDriven n o).sequencer = x.sequencer := rfl
@[simp] theorem Transport.stopDriven_supply (n : Nat) (o : Owner) (x : Transport) :
    (x.stopDriven n o).supply = x.supply := rfl
@[simp] theorem Transport.stopDriven_takeup (n : Nat) (o : Owner) (x : Transport) :
    (x.stopDriven n o).takeup = x.takeup := rfl
@[simp] theorem Transport.stopDriven_supplySlot (n : Nat) (o : Owner) (x : Transport) :
    (x.stopDriven n o).supplySlot = x.supplySlot := rfl
@[simp] theorem Transport.stopDriven_takeupSlot (n : Nat) (o : Owner) (x : Transport) :
    (x.stopDriven n o).takeupSlot = x.takeupSlot := rfl
@[simp] theorem Transport.stopDriven_loop (n : Nat) (o : Owner) (x : Transport) :
    (x.stopDriven n o).loop = x.loop := rfl
@[simp] theorem Transport.stopDriven_drive (n : Nat) (o : Owner) (x : Transport) :
    (x.stopDriven n o).drive = x.drive := rfl
@[simp] theorem Transport.stopDriven_prot (n : Nat) (o : Owner) (x : Transport) :
    (x.stopDriven n o).prot = x.prot := rfl
@[simp] theorem Transport.stopDriven_flags (n : Nat) (o : Owner) (x : Transport) :
    (x.stopDriven n o).flags = x.flags := rfl
@[simp] theorem Transport.stopDriven_masks (n : Nat) (o : Owner) (x : Transport) :
    (x.stopDriven n o).masks = x.masks := rfl
@[simp] theorem Transport.stopForRezero_capture (n : Nat) (x : Transport) :
    (x.stopForRezero n).capture = x.capture := rfl
@[simp] theorem Transport.stopForRezero_orders (n : Nat) (x : Transport) :
    (x.stopForRezero n).orders = x.orders := rfl
@[simp] theorem Transport.stopForRezero_sequencer (n : Nat) (x : Transport) :
    (x.stopForRezero n).sequencer = x.sequencer := rfl
@[simp] theorem Transport.stopForRezero_supply (n : Nat) (x : Transport) :
    (x.stopForRezero n).supply = x.supply := rfl
@[simp] theorem Transport.stopForRezero_takeup (n : Nat) (x : Transport) :
    (x.stopForRezero n).takeup = x.takeup := rfl
@[simp] theorem Transport.stopForRezero_supplySlot (n : Nat) (x : Transport) :
    (x.stopForRezero n).supplySlot = x.supplySlot := rfl
@[simp] theorem Transport.stopForRezero_takeupSlot (n : Nat) (x : Transport) :
    (x.stopForRezero n).takeupSlot = x.takeupSlot := rfl
@[simp] theorem Transport.stopForRezero_loop (n : Nat) (x : Transport) : (x.stopForRezero n).loop = x.loop := rfl
@[simp] theorem Transport.stopForRezero_drive (n : Nat) (x : Transport) : (x.stopForRezero n).drive = x.drive := rfl
@[simp] theorem Transport.stopForRezero_prot (n : Nat) (x : Transport) : (x.stopForRezero n).prot = x.prot := rfl
@[simp] theorem Transport.stopForRezero_flags (n : Nat) (x : Transport) : (x.stopForRezero n).flags = x.flags := rfl
@[simp] theorem Transport.stopForRezero_masks (n : Nat) (x : Transport) : (x.stopForRezero n).masks = x.masks := rfl
@[simp] theorem Transport.discard_cap (x : Transport) : (x.discard).cap = x.cap := rfl
@[simp] theorem Transport.discard_capture (x : Transport) : (x.discard).capture = x.capture := rfl
@[simp] theorem Transport.discard_sequencer (x : Transport) : (x.discard).sequencer = x.sequencer := rfl
@[simp] theorem Transport.discard_supply (x : Transport) : (x.discard).supply = x.supply := rfl
@[simp] theorem Transport.discard_takeup (x : Transport) : (x.discard).takeup = x.takeup := rfl
@[simp] theorem Transport.discard_supplySlot (x : Transport) : (x.discard).supplySlot = x.supplySlot := rfl
@[simp] theorem Transport.discard_takeupSlot (x : Transport) : (x.discard).takeupSlot = x.takeupSlot := rfl
@[simp] theorem Transport.discard_loop (x : Transport) : (x.discard).loop = x.loop := rfl
@[simp] theorem Transport.discard_drive (x : Transport) : (x.discard).drive = x.drive := rfl
@[simp] theorem Transport.discard_prot (x : Transport) : (x.discard).prot = x.prot := rfl
@[simp] theorem Transport.discard_flags (x : Transport) : (x.discard).flags = x.flags := rfl
@[simp] theorem Transport.discard_masks (x : Transport) : (x.discard).masks = x.masks := rfl
@[simp] theorem Transport.dropOrders_cap (x : Transport) : (x.dropOrders).cap = x.cap := rfl
@[simp] theorem Transport.dropOrders_capture (x : Transport) : (x.dropOrders).capture = x.capture := rfl
@[simp] theorem Transport.dropOrders_sequencer (x : Transport) : (x.dropOrders).sequencer = x.sequencer := rfl
@[simp] theorem Transport.dropOrders_supply (x : Transport) : (x.dropOrders).supply = x.supply := rfl
@[simp] theorem Transport.dropOrders_takeup (x : Transport) : (x.dropOrders).takeup = x.takeup := rfl
@[simp] theorem Transport.dropOrders_supplySlot (x : Transport) : (x.dropOrders).supplySlot = x.supplySlot := rfl
@[simp] theorem Transport.dropOrders_takeupSlot (x : Transport) : (x.dropOrders).takeupSlot = x.takeupSlot := rfl
@[simp] theorem Transport.dropOrders_loop (x : Transport) : (x.dropOrders).loop = x.loop := rfl
@[simp] theorem Transport.dropOrders_drive (x : Transport) : (x.dropOrders).drive = x.drive := rfl
@[simp] theorem Transport.dropOrders_prot (x : Transport) : (x.dropOrders).prot = x.prot := rfl
@[simp] theorem Transport.dropOrders_flags (x : Transport) : (x.dropOrders).flags = x.flags := rfl
@[simp] theorem Transport.dropOrders_masks (x : Transport) : (x.dropOrders).masks = x.masks := rfl
@[simp] theorem Transport.makeRecord_cap (c : Completion) (x : Transport) : (x.makeRecord c).cap = x.cap := rfl
@[simp] theorem Transport.makeRecord_sequencer (c : Completion) (x : Transport) :
    (x.makeRecord c).sequencer = x.sequencer := rfl
@[simp] theorem Transport.makeRecord_supply (c : Completion) (x : Transport) :
    (x.makeRecord c).supply = x.supply := rfl
@[simp] theorem Transport.makeRecord_takeup (c : Completion) (x : Transport) :
    (x.makeRecord c).takeup = x.takeup := rfl
@[simp] theorem Transport.makeRecord_supplySlot (c : Completion) (x : Transport) :
    (x.makeRecord c).supplySlot = x.supplySlot := rfl
@[simp] theorem Transport.makeRecord_takeupSlot (c : Completion) (x : Transport) :
    (x.makeRecord c).takeupSlot = x.takeupSlot := rfl
@[simp] theorem Transport.makeRecord_loop (c : Completion) (x : Transport) : (x.makeRecord c).loop = x.loop := rfl
@[simp] theorem Transport.makeRecord_drive (c : Completion) (x : Transport) : (x.makeRecord c).drive = x.drive := rfl
@[simp] theorem Transport.makeRecord_prot (c : Completion) (x : Transport) : (x.makeRecord c).prot = x.prot := rfl
@[simp] theorem Transport.makeRecord_flags (c : Completion) (x : Transport) : (x.makeRecord c).flags = x.flags := rfl
@[simp] theorem Transport.makeRecord_masks (c : Completion) (x : Transport) : (x.makeRecord c).masks = x.masks := rfl
@[simp] theorem Transport.giveUpMark_cap (n : Nat) (p : Option Int) (x : Transport) :
    (x.giveUpMark n p).cap = x.cap := rfl
@[simp] theorem Transport.giveUpMark_orders (n : Nat) (p : Option Int) (x : Transport) :
    (x.giveUpMark n p).orders = x.orders := rfl
@[simp] theorem Transport.giveUpMark_sequencer (n : Nat) (p : Option Int) (x : Transport) :
    (x.giveUpMark n p).sequencer = x.sequencer := rfl
@[simp] theorem Transport.giveUpMark_supply (n : Nat) (p : Option Int) (x : Transport) :
    (x.giveUpMark n p).supply = x.supply := rfl
@[simp] theorem Transport.giveUpMark_takeup (n : Nat) (p : Option Int) (x : Transport) :
    (x.giveUpMark n p).takeup = x.takeup := rfl
@[simp] theorem Transport.giveUpMark_supplySlot (n : Nat) (p : Option Int) (x : Transport) :
    (x.giveUpMark n p).supplySlot = x.supplySlot := rfl
@[simp] theorem Transport.giveUpMark_takeupSlot (n : Nat) (p : Option Int) (x : Transport) :
    (x.giveUpMark n p).takeupSlot = x.takeupSlot := rfl
@[simp] theorem Transport.giveUpMark_loop (n : Nat) (p : Option Int) (x : Transport) :
    (x.giveUpMark n p).loop = x.loop := rfl
@[simp] theorem Transport.giveUpMark_drive (n : Nat) (p : Option Int) (x : Transport) :
    (x.giveUpMark n p).drive = x.drive := rfl
@[simp] theorem Transport.giveUpMark_prot (n : Nat) (p : Option Int) (x : Transport) :
    (x.giveUpMark n p).prot = x.prot := rfl
@[simp] theorem Transport.giveUpMark_flags (n : Nat) (p : Option Int) (x : Transport) :
    (x.giveUpMark n p).flags = x.flags := rfl
@[simp] theorem Transport.giveUpMark_masks (n : Nat) (p : Option Int) (x : Transport) :
    (x.giveUpMark n p).masks = x.masks := rfl

end Sys2Proof.Machine
end

