-- ==== Sys2Proof/Laws/Kept.lean ====
section
/-! SUPPORT. What an event of one transport keeps: everything outside that transport and the marks of its volume, the
parameters of its blocks, the counter's range, and the safety of its drive. One relation, one lemma per operation. -/

namespace Sys2Proof.Machine

open Sys2Proof

/-! ### Ordered mark lists (R44) -/

theorem Mark.before_iff (a b : Mark) :
    a.before b = true ↔ a.pos < b.pos ∨ (a.pos = b.pos ∧ a.number < b.number) := by
  simp [Mark.before]

theorem Mark.before_trans {a b c : Mark} (h : a.before b = true) (k : b.before c = true) : a.before c = true := by
  rw [Mark.before_iff] at *
  omega

theorem Mark.before_of_not {a b : Mark} (h : a.before b = false) (n : a.number ≠ b.number) : b.before a = true := by
  have h' : ¬ a.before b = true := by simp [h]
  rw [Mark.before_iff] at *
  omega

theorem insertMark_perm (m : Mark) (l : List Mark) : (insertMark m l).Perm (m :: l) := by
  induction l with
  | nil => exact List.Perm.refl _
  | cons k rest ih =>
    unfold insertMark
    split
    · exact List.Perm.refl _
    · exact (ih.cons k).trans (List.Perm.swap m k rest)

theorem insertMark_length (m : Mark) (l : List Mark) : (insertMark m l).length = l.length + 1 :=
  (insertMark_perm m l).length_eq

/-- A mark of a new number put into a list leaves it in order (R44). -/
theorem insertMark_ok (m : Mark) (l : List Mark) (h : MarksOk l) (n : ∀ k ∈ l, k.number ≠ m.number) :
    MarksOk (insertMark m l) := by
  constructor
  · induction l with
    | nil => simp [insertMark]
    | cons k rest ih =>
      have hr : MarksOk rest := ⟨h.1.tail, (List.nodup_cons.mp h.2).2⟩
      have hk : ∀ b ∈ rest, k.before b = true := (List.pairwise_cons.mp h.1).1
      unfold insertMark
      split
      case isTrue hb =>
        refine List.pairwise_cons.mpr ⟨?_, h.1⟩
        intro b hb'
        rcases List.mem_cons.mp hb' with rfl | hb'
        · exact hb
        · exact Mark.before_trans hb (hk b hb')
      case isFalse hb =>
        refine List.pairwise_cons.mpr ⟨?_, ih hr fun q hq => n q (List.mem_cons_of_mem _ hq)⟩
        intro b hb'
        rcases List.mem_cons.mp ((insertMark_perm m rest).mem_iff.mp hb') with rfl | hb'
        · exact Mark.before_of_not (by simpa using hb) (n k List.mem_cons_self).symm
        · exact hk b hb'
  · have p := (insertMark_perm m l).map fun k => k.number
    rw [p.nodup_iff, List.map_cons, List.nodup_cons]
    refine ⟨?_, h.2⟩
    intro hm
    obtain ⟨k, hk, e⟩ := List.mem_map.mp hm
    exact n k hk e

theorem removeNumber_ok (n : Nat) (l : List Mark) (h : MarksOk l) : MarksOk (removeNumber n l) :=
  ⟨h.1.filter _, (List.filter_sublist.map _).nodup h.2⟩

theorem removeNumber_new (n : Nat) (l : List Mark) : ∀ k ∈ removeNumber n l, k.number ≠ n := by
  intro k hk
  have := (List.mem_filter.mp hk).2
  simpa using this

theorem removeNumber_none (n : Nat) (l : List Mark) (h : ∀ k ∈ l, k.number ≠ n) : removeNumber n l = l := by
  apply List.filter_eq_self.mpr
  intro k hk
  simp [h k hk]

theorem removeNumber_length (n : Nat) (l : List Mark) (h : MarksOk l) (m : Mark) (hm : findNumber n l = some m) :
    (removeNumber n l).length + 1 = l.length := by
  induction l with
  | nil => simp [findNumber] at hm
  | cons k rest ih =>
    have hr : MarksOk rest := ⟨h.1.tail, (List.nodup_cons.mp h.2).2⟩
    by_cases hk : k.number = n
    · have : ∀ q ∈ rest, q.number ≠ n := by
        intro q hq e
        have h2 := h.2
        rw [List.map_cons, List.nodup_cons] at h2
        exact h2.1 (List.mem_map.mpr ⟨q, hq, by rw [e, hk]⟩)
      have e := removeNumber_none n rest this
      unfold removeNumber at e ⊢
      simp [hk, e]
    · have hm' : findNumber n rest = some m := by
        unfold findNumber at hm ⊢
        rw [List.find?_cons_of_neg (by simp [hk])] at hm
        exact hm
      have := ih hr hm'
      unfold removeNumber at this ⊢
      simp [hk]
      omega

theorem findNumber_number {n : Nat} {l : List Mark} {m : Mark} (h : findNumber n l = some m) : m.number = n := by
  have := List.find?_some h
  simpa using this

theorem updateNumber_length (n : Nat) (f : Mark → Mark) (l : List Mark) : (updateNumber n f l).length = l.length := by
  simp [updateNumber]

/-- Marks changed in place, with their positions and numbers kept, stay in order (R54, R62). -/
theorem mapMarks_ok (f : Mark → Mark) (hp : ∀ m, (f m).pos = m.pos) (hn : ∀ m, (f m).number = m.number)
    (l : List Mark) (h : MarksOk l) : MarksOk (l.map f) := by
  constructor
  · refine (List.pairwise_map.mpr (h.1.imp ?_))
    intro a b hab
    simpa [Mark.before, hp, hn] using hab
  · have : (l.map f).map (fun m => m.number) = l.map fun m => m.number := by simp [hn]
    rw [this]
    exact h.2

theorem updateNumber_ok (n : Nat) (f : Mark → Mark) (hp : ∀ m, (f m).pos = m.pos) (hn : ∀ m, (f m).number = m.number)
    (l : List Mark) (h : MarksOk l) : MarksOk (updateNumber n f l) := by
  apply mapMarks_ok _ _ _ l h
  · intro m; split <;> simp [hp]
  · intro m; split <;> simp [hn]

/-- A mark moved to the place its new position gives it leaves the list in order (R45). -/
theorem moveNumber_ok (n : Nat) (f : Mark → Mark) (hn : ∀ m, (f m).number = m.number) (l : List Mark) (h : MarksOk l) :
    MarksOk (moveNumber n f l) := by
  unfold moveNumber
  split
  case h_1 m hm =>
    apply insertMark_ok _ _ (removeNumber_ok n l h)
    intro k hk
    rw [hn, findNumber_number hm]
    exact removeNumber_new n l k hk
  case h_2 => exact h

theorem moveNumber_length (n : Nat) (f : Mark → Mark) (l : List Mark) (h : MarksOk l) :
    (moveNumber n f l).length = l.length := by
  unfold moveNumber
  split
  case h_1 m hm => rw [insertMark_length, removeNumber_length n l h m hm]
  case h_2 => rfl

/-! ### Slots (R83) -/

theorem replaceRunning_length (f : Order → Work → Slot) (l : List Slot) : (replaceRunning f l).length = l.length := by
  induction l with
  | nil => rfl
  | cons a rest ih => cases a <;> simp [replaceRunning, ih]

theorem replaceOldest_length (f : Order → Slot) (l : List Slot) : (replaceOldest f l).length = l.length := by
  induction l with
  | nil => rfl
  | cons a rest ih => cases a <;> simp [replaceOldest, ih]

/-! ### One transport -/

/-- What an event of a transport keeps of it. -/
structure Transport.Kept (x y : Transport) : Prop where
  loop : y.loop = x.loop
  drive : y.drive = x.drive
  masks : y.masks = x.masks
  lead : y.capture.lead = x.capture.lead
  lag : y.capture.lag = x.capture.lag
  threshold : y.orders.threshold = x.orders.threshold
  slots : y.orders.list.length ≤ x.orders.list.length
  range : x.cap.inRange → y.cap.inRange
  safe : x.driveSafe ∧ x.reelsSafe → y.driveSafe ∧ y.reelsSafe

theorem Transport.Kept.refl (x : Transport) : x.Kept x :=
  ⟨rfl, rfl, rfl, rfl, rfl, rfl, le_refl _, id, id⟩

theorem Transport.Kept.trans {x y z : Transport} (h : x.Kept y) (k : y.Kept z) : x.Kept z :=
  ⟨k.loop.trans h.loop, k.drive.trans h.drive, k.masks.trans h.masks, k.lead.trans h.lead, k.lag.trans h.lag,
    k.threshold.trans h.threshold, le_trans k.slots h.slots, fun r => k.range (h.range r), fun r => k.safe (h.safe r)⟩

/-- A transport whose drive enable, reels and state are as they were is as safe as it was. -/
theorem Transport.safe_of_same {x y : Transport} (he : y.prot.driveEnable = x.prot.driveEnable)
    (hs : y.supply = x.supply) (ht : y.takeup = x.takeup) (hq : y.sequencer.state = x.sequencer.state) :
    x.driveSafe ∧ x.reelsSafe → y.driveSafe ∧ y.reelsSafe := by
  unfold Transport.driveSafe Transport.reelsSafe
  rw [he, hs, ht, hq]
  exact id

theorem Transport.kept_cap (x : Transport) (c : Capstan) (h : x.cap.inRange → c.inRange) :
    x.Kept { x with cap := c } :=
  ⟨rfl, rfl, rfl, rfl, rfl, rfl, le_refl _, h, Transport.safe_of_same rfl rfl rfl rfl⟩

theorem Transport.kept_capture (x : Transport) (f : Capture → Capture)
    (hl : (f x.capture).lead = x.capture.lead := by rfl) (hg : (f x.capture).lag = x.capture.lag := by rfl) : x.Kept (x.modCapture f) :=
  ⟨rfl, rfl, rfl, hl, hg, rfl, le_refl _, id, Transport.safe_of_same rfl rfl rfl rfl⟩

theorem Transport.kept_list (x : Transport) (f : List Slot → List Slot)
    (h : (f x.orders.list).length ≤ x.orders.list.length) : x.Kept (x.modList f) :=
  ⟨rfl, rfl, rfl, rfl, rfl, rfl, h, id, Transport.safe_of_same rfl rfl rfl rfl⟩

theorem Transport.kept_work (x : Transport) (f : Order → Work → Work) : x.Kept (x.modWork f) :=
  x.kept_list _ (le_of_eq (replaceRunning_length _ _))

theorem Transport.kept_seq (x : Transport) (f : Sequencer → Sequencer)
    (h : (f x.sequencer).state = x.sequencer.state := by rfl) :
    x.Kept (x.modSeq f) :=
  ⟨rfl, rfl, rfl, rfl, rfl, rfl, le_refl _, id, Transport.safe_of_same rfl rfl rfl h⟩

/-- A state whose drive may be on. -/
def XState.mayDrive (st : XState) : Prop := st ≠ .held ∧ st ≠ .unloaded

theorem Transport.kept_state (x : Transport) (st : XState) (h : st.mayDrive := by exact ⟨nofun, nofun⟩) : x.Kept (x.setState st) :=
  ⟨rfl, rfl, rfl, rfl, rfl, rfl, le_refl _, id, fun k =>
    ⟨⟨fun e => absurd e h.1, fun e => absurd e h.2⟩, k.2⟩⟩

theorem Transport.kept_flags (x : Transport) (f : XFlags) : x.Kept { x with flags := f } :=
  ⟨rfl, rfl, rfl, rfl, rfl, rfl, le_refl _, id, Transport.safe_of_same rfl rfl rfl rfl⟩

theorem Transport.kept_prot (x : Transport) (p : Protection) (h : p.driveEnable = x.prot.driveEnable) :
    x.Kept { x with prot := p } :=
  ⟨rfl, rfl, rfl, rfl, rfl, rfl, le_refl _, id, Transport.safe_of_same h rfl rfl rfl⟩

/-- Reel changes that keep a cut reel cut. -/
theorem Transport.kept_reels (x : Transport) (a b : ReelDrive)
    (h : x.prot.driveEnable = false → x.supply.cut ∧ x.takeup.cut → a.cut ∧ b.cut) :
    x.Kept { x with supply := a, takeup := b } :=
  ⟨rfl, rfl, rfl, rfl, rfl, rfl, le_refl _, id, fun k => ⟨k.1, fun e => h e (k.2 e)⟩⟩

theorem ReelDrive.off_cut (d : ReelDrive) : d.off.cut := ⟨rfl, rfl, rfl, rfl, rfl⟩

theorem Transport.driveOff_safe (x : Transport) : x.driveOff.driveSafe ∧ x.driveOff.reelsSafe :=
  ⟨⟨fun _ => rfl, fun _ => rfl⟩, fun _ => ⟨ReelDrive.off_cut _, ReelDrive.off_cut _⟩⟩

theorem Transport.kept_driveOff (x : Transport) : x.Kept x.driveOff :=
  ⟨rfl, rfl, rfl, rfl, rfl, rfl, le_refl _, id, fun _ => x.driveOff_safe⟩

/-! ### The capstan -/

theorem Transport.kept_loseConfidence (x : Transport) : x.Kept x.loseConfidence :=
  (x.kept_capture Capture.abandonAll rfl rfl).trans (Transport.kept_cap _ _ id)

theorem Transport.kept_decelWatch (now : Nat) (x : Transport) : x.Kept (x.decelWatch now) := by
  unfold Transport.decelWatch
  split
  · dsimp only
    split
    · refine Transport.Kept.trans ?_ (Transport.kept_work _ _)
      exact x.kept_cap _ id
    · exact x.kept_cap _ id
  · exact Transport.Kept.refl x

theorem Capstan.accept_counter (o : Owner) (c : Capstan) : (c.accept o).counter = c.counter := by
  cases o <;> rfl

theorem Capstan.refuse_counter (o : Owner) (r : MotionReq) (c : Capstan) : (c.refuse o r).counter = c.counter := by
  cases o <;> rfl

theorem Transport.kept_run (now : Nat) (c : Inertia) (o : Owner) (r : RunReq) (x : Transport) :
    x.Kept (x.run now c o r) := by
  have taken : x.Kept
      { x with
        cap := { x.cap.accept o with seg := x.cap.seg.takeRun now c x.cap.counter o r }
        capture :=
          if x.cap.seg.atSpeed && (x.cap.seg.dir == some r.dir && r.speed == .seek) then x.capture.abandonAll
          else x.capture } := by
    have first := x.kept_cap { x.cap.accept o with seg := x.cap.seg.takeRun now c x.cap.counter o r }
      (by unfold Capstan.inRange; dsimp only; rw [Capstan.accept_counter]; exact id)
    refine first.trans (Transport.kept_capture _ (fun _ =>
      if x.cap.seg.atSpeed && (x.cap.seg.dir == some r.dir && r.speed == .seek) then x.capture.abandonAll
      else x.capture) ?_ ?_)
    · dsimp only; split <;> rfl
    · dsimp only; split <;> rfl
  have refused : x.Kept { x with cap := x.cap.refuse o (.run r) } :=
    x.kept_cap _ (by unfold Capstan.inRange; rw [Capstan.refuse_counter]; exact id)
  unfold Transport.run
  split
  · exact refused
  · exact refused
  · exact taken.trans (Transport.kept_decelWatch _ _)

theorem Transport.kept_stopDriven (now : Nat) (o : Owner) (x : Transport) : x.Kept (x.stopDriven now o) :=
  x.kept_cap _ (by unfold Capstan.inRange; dsimp only; rw [Capstan.accept_counter]; exact id)

theorem Transport.kept_free (d : Dir) (x : Transport) : x.Kept (x.free d) := by
  refine Transport.Kept.trans ?_ (Transport.kept_loseConfidence _)
  exact x.kept_cap _ id

theorem Transport.kept_holdRest (now : Nat) (x : Transport) : x.Kept (x.holdRest now) := by
  unfold Transport.holdRest
  split
  · exact x.kept_cap _ id
  · exact x.kept_stopDriven now .sequencer
  · exact x.kept_stopDriven now .sequencer
  · exact Transport.Kept.refl x
  · exact Transport.Kept.refl x

theorem Transport.kept_stopForRezero (now : Nat) (x : Transport) : x.Kept (x.stopForRezero now) := x.kept_cap _ id

theorem Capstan.rezero_inRange (a : Approach) (c : Capstan) : (c.rezero a).inRange := by
  unfold Capstan.rezero Capstan.inRange Config.posMin Config.posMax
  cases a <;> simp

theorem Transport.kept_count (d : Dir) (x : Transport) : x.Kept (x.count d) := by
  unfold Transport.count
  split <;> split <;> rename_i h
  · refine x.kept_cap _ ?_
    unfold Capstan.inRange Config.posMin Config.posMax at *
    dsimp only
    omega
  · refine Transport.Kept.trans ?_ (Transport.kept_loseConfidence _)
    exact x.kept_cap _ id
  · refine x.kept_cap _ ?_
    unfold Capstan.inRange Config.posMin Config.posMax at *
    dsimp only
    omega
  · refine Transport.Kept.trans ?_ (Transport.kept_loseConfidence _)
    exact x.kept_cap _ id

theorem Transport.kept_correct (amount : Int) (x : Transport) : x.Kept (x.correct amount) := by
  unfold Transport.correct
  split
  · exact Transport.Kept.refl x
  · dsimp only
    split
    · refine Transport.Kept.trans (x.kept_cap _ ?_) (Transport.kept_loseConfidence _)
      unfold Capstan.inRange Config.posMin Config.posMax
      simp
    · split
      · refine Transport.Kept.trans (x.kept_cap _ ?_) (Transport.kept_loseConfidence _)
        unfold Capstan.inRange Config.posMin Config.posMax
        simp
      · refine x.kept_cap _ ?_
        unfold Capstan.inRange
        dsimp only
        omega

/-! ### The reels -/

theorem ReelDrive.command_cut (v : Int) (d : ReelDrive) (h : d.cut) : (d.command false v).cut :=
  ⟨rfl, h.2.1, rfl, h.2.2.2.1, h.2.2.2.2⟩

theorem Transport.kept_instruct (m : ReelMode) (e : ReelDrive → Bool) (v w : Int) (x : Transport) :
    x.Kept (x.instruct m e v w) := by
  refine x.kept_reels _ _ ?_
  intro off k
  rw [off]
  exact ⟨ReelDrive.command_cut v _ k.1, ReelDrive.command_cut w _ k.2⟩

theorem Transport.kept_servoLoops (x : Transport) : x.Kept x.servoLoops :=
  x.kept_reels _ _ fun _ k => k

theorem Transport.kept_modReel (r : Reel) (f : ReelDrive → ReelDrive) (x : Transport)
    (h : x.prot.driveEnable = false → ∀ d : ReelDrive, d.cut → (f d).cut) : x.Kept (x.modReel r f) := by
  cases r
  · exact x.kept_reels _ _ fun e k => ⟨h e _ k.1, k.2⟩
  · exact x.kept_reels _ _ fun e k => ⟨k.1, h e _ k.2⟩

theorem Transport.kept_takeResult (now : Nat) (r : Reel) (depth : Nat) (x : Transport) :
    x.Kept (x.takeResult now r depth) := by
  refine x.kept_modReel r _ ?_
  intro off d hd
  simp only [off, Bool.false_and]
  exact hd

theorem Transport.kept_whileEnabled (r : Reel) (c : Nat) (f : ReelDrive → ReelDrive) (x : Transport) :
    x.Kept (x.whileEnabled r c f) := by
  unfold Transport.whileEnabled
  split
  case isTrue h => exact x.kept_modReel r f fun e => absurd h (by simp [e])
  case isFalse => exact x.kept_modReel r _ fun _ d hd => hd

theorem Transport.kept_reelPulse (now : Nat) (r : Reel) (x : Transport) : x.Kept (x.reelPulse now r) := by
  have first : x.Kept (x.modReel r fun d => { d with stall := none }) :=
    x.kept_modReel r _ fun _ d hd => ⟨hd.1, hd.2.1, hd.2.2.1, hd.2.2.2.1, rfl⟩
  unfold Transport.reelPulse
  cases r
  · exact first
  · exact first.trans (Transport.kept_seq _ _ rfl)

theorem Transport.kept_modInput (w : Switch) (f : SwitchInput → SwitchInput) (x : Transport) :
    x.Kept (x.modInput w f) := by
  cases w
  · exact x.kept_prot _ rfl
  · exact x.kept_prot _ rfl
  · exact x.kept_prot _ rfl

/-- Turning the drive enable on with a change to a state that may drive keeps the transport safe. -/
theorem Transport.kept_driveOn (x : Transport) (st : XState) (h : st.mayDrive) : x.Kept (x.driveOn.setState st) :=
  ⟨rfl, rfl, rfl, rfl, rfl, rfl, le_refl _, id, fun _ =>
    ⟨⟨fun e => absurd e h.1, fun e => absurd e h.2⟩, fun e => Bool.noConfusion e⟩⟩

/-! ### Holds -/

theorem Transport.kept_makeRecord (c : Completion) (x : Transport) : x.Kept (x.makeRecord c) :=
  (x.kept_list _ (le_of_eq (replaceRunning_length _ _))).trans (Transport.kept_capture _ _ rfl rfl)

theorem Transport.kept_discard (x : Transport) : x.Kept x.discard := x.kept_list _ (by simp)

theorem Transport.kept_dropOrders (x : Transport) : x.Kept x.dropOrders := x.kept_list _ (List.length_filter_le _ _)

/-- A change to any state, the drive enable being off. -/
theorem Transport.kept_state_off (x : Transport) (f : Sequencer → Sequencer) (off : x.prot.driveEnable = false) :
    x.Kept (x.modSeq f) :=
  ⟨rfl, rfl, rfl, rfl, rfl, rfl, le_refl _, id, fun k => ⟨⟨fun _ => off, fun _ => off⟩, k.2⟩⟩

theorem Capstan.holdEntry_counter (c : Capstan) : c.holdEntry.counter = c.counter := rfl

theorem Transport.kept_holdEntry (now : Nat) (c : Cause) (x : Transport) : x.Kept (x.holdEntry now c) := by
  have ended : x.Kept ((x.makeRecord .fault).discard.modCapture Capture.abandonAll).driveOff :=
    (((x.kept_makeRecord .fault).trans (Transport.kept_discard _)).trans
      (Transport.kept_capture _ Capture.abandonAll rfl rfl)).trans (Transport.kept_driveOff _)
  unfold Transport.holdEntry
  dsimp only
  refine ended.trans ?_
  generalize hz : ((x.makeRecord .fault).discard.modCapture Capture.abandonAll).driveOff = z
  have off : z.prot.driveEnable = false := by rw [← hz]; rfl
  have a := z.kept_prot { z.prot with
    hold := HoldRecord.entered c x.cap.counter x.sequencer.state, moment := some (x.momentOf now) } rfl
  have b := Transport.kept_cap { z with
    prot := { z.prot with
    hold := HoldRecord.entered c x.cap.counter x.sequencer.state, moment := some (x.momentOf now) } } z.cap.holdEntry id
  have d := Transport.kept_state_off { z with
    prot := { z.prot with
    hold := HoldRecord.entered c x.cap.counter x.sequencer.state, moment := some (x.momentOf now) }
    cap := z.cap.holdEntry } (fun _ => z.sequencer.holdEntry) off
  exact ((a.trans b).trans d).trans (Transport.kept_flags _ _)

theorem Transport.kept_recoveryFail (now : Nat) (c : Cause) (x : Transport) : x.Kept (x.recoveryFail now c) := by
  have cut : x.Kept ((x.driveOff.setState .held).noteHold) :=
    ((x.kept_driveOff).trans (Transport.kept_state_off _ _ rfl)).trans (Transport.kept_flags _ _)
  unfold Transport.recoveryFail
  exact cut.trans (Transport.kept_prot _ _ rfl)

theorem Transport.kept_takeCause (now : Nat) (c : Cause) (x : Transport) : x.Kept (x.takeCause now c) := by
  unfold Transport.takeCause
  split
  · exact Transport.Kept.refl x
  · exact x.kept_prot _ rfl
  · exact x.kept_recoveryFail now c
  · exact x.kept_holdEntry now c

theorem Transport.kept_takeCause? (now : Nat) (c : Option Cause) (x : Transport) : x.Kept (x.takeCause? now c) := by
  cases c
  · exact Transport.Kept.refl x
  · exact x.kept_takeCause _ _

theorem Transport.kept_takeCauses (now : Nat) (l : List Cause) (x : Transport) :
    x.Kept (l.foldl (fun y c => y.takeCause now c) x) := by
  induction l generalizing x with
  | nil => exact Transport.Kept.refl x
  | cons c rest ih => exact (x.kept_takeCause now c).trans (ih _)

theorem Transport.kept_handTrip (now : Nat) (r : Reel) (x : Transport) : x.Kept (x.handTrip now r) :=
  x.kept_takeCause? now _

theorem Transport.kept_measureSteady (now : Nat) (x : Transport) : x.Kept (x.measureSteady now) := x.kept_prot _ rfl

theorem Transport.kept_recoveryBegin (now : Nat) (x : Transport) : x.Kept (x.recoveryBegin now) := by
  unfold Transport.recoveryBegin
  dsimp only
  refine Transport.Kept.trans ?_ (Transport.kept_measureSteady now _)
  refine Transport.Kept.trans ?_ (Transport.kept_prot _ _ rfl)
  exact (((Transport.kept_driveOn x .recovering ⟨nofun, nofun⟩).trans (Transport.kept_holdRest now _)).trans
    (Transport.kept_seq _ _ rfl)).trans (Transport.kept_servoLoops _)

theorem Transport.kept_recoverySteady (x : Transport) : x.Kept x.recoverySteady :=
  (x.kept_state .ready ⟨nofun, nofun⟩).trans (Transport.kept_prot _ _ rfl)

end Sys2Proof.Machine
end

