-- ==== Sys2Proof/Laws/Events.lean ====
section
/-! SUPPORT. What each event of one transport keeps of the whole state: the other transports, the tables, the line and
the notices of the controller, the order and the number of each volume's marks. Each lemma is in the form "if so far all is
kept, then after this operation too", so that a chain of operations is proved by going back along it. -/

namespace Sys2Proof.Machine

open Sys2Proof

/-- What an event of transport `t` keeps. -/
structure State.Kept (t : TNum) (s r : State) : Prop where
  pending : r.pending = s.pending
  clock : r.clock = s.clock
  volumes : r.volumes = s.volumes
  shelf : r.shelf = s.shelf
  converter : r.converter = s.converter
  line : r.line = s.line
  ctl : r.ctl = s.ctl
  ctlMasks : r.ctlMasks = s.ctlMasks
  eviction : r.eviction = s.eviction
  others : ∀ u, u ≠ t → r.tr u = s.tr u
  own : (s.tr t).Kept (r.tr t)
  marks : (∀ i : Fin 16, MarksOk s.marks[i]) →
    ∀ i : Fin 16, MarksOk r.marks[i] ∧ r.marks[i].length = s.marks[i].length
  elsewhere : ∀ i : Fin 16, s.boundIdx t ≠ some i → r.marks[i] = s.marks[i]

theorem State.Kept.refl (t : TNum) (s : State) : s.Kept t s :=
  ⟨rfl, rfl, rfl, rfl, rfl, rfl, rfl, rfl, rfl, fun _ _ => rfl, Transport.Kept.refl _, fun h i => ⟨h i, rfl⟩, fun _ _ => rfl⟩

/-- The bound entry depends on the table alone. -/
theorem State.boundIdx_eq {t : TNum} {s r : State} (h : r.volumes = s.volumes) : r.boundIdx t = s.boundIdx t := by
  unfold State.boundIdx
  rw [h]

theorem State.Kept.trans {t : TNum} {s r q : State} (h : s.Kept t r) (k : r.Kept t q) : s.Kept t q :=
  ⟨k.pending.trans h.pending, k.clock.trans h.clock, k.volumes.trans h.volumes, k.shelf.trans h.shelf,
    k.converter.trans h.converter, k.line.trans h.line, k.ctl.trans h.ctl, k.ctlMasks.trans h.ctlMasks,
    k.eviction.trans h.eviction, fun u n => (k.others u n).trans (h.others u n), h.own.trans k.own,
    fun m i =>
      have a := h.marks m
      have b := k.marks (fun j => (a j).1) i
      ⟨b.1, b.2.trans (a i).2⟩,
    fun i n => (k.elsewhere i (by rw [State.boundIdx_eq h.volumes]; exact n)).trans (h.elsewhere i n)⟩

variable {t : TNum} {s r : State}

/-- A change of the transport itself. -/
theorem State.Kept.upd (f : Transport → Transport) (h : s.Kept t r) (k : (r.tr t).Kept (f (r.tr t))) :
    s.Kept t (r.upd t f) :=
  h.trans
    { pending := rfl, clock := rfl, volumes := rfl, shelf := rfl, converter := rfl, line := rfl, ctl := rfl
      ctlMasks := rfl, eviction := rfl, others := fun u n => State.tr_upd_other t u f r n
      own := by rw [State.tr_upd_same]; exact k, marks := fun m i => ⟨m i, rfl⟩, elsewhere := fun _ _ => rfl }

/-- A change of the bound volume's marks that keeps them in order and in number. -/
theorem State.Kept.modBoundMarks (f : List Mark → List Mark) (h : s.Kept t r)
    (ok : ∀ l, MarksOk l → MarksOk (f l)) (len : ∀ l, MarksOk l → (f l).length = l.length) :
    s.Kept t (r.modBoundMarks t f) := by
  unfold State.modBoundMarks
  split
  case h_2 => exact h
  case h_1 i b =>
    refine h.trans ?_
    refine
      { pending := rfl, clock := rfl, volumes := rfl, shelf := rfl, converter := rfl, line := rfl, ctl := rfl
        ctlMasks := rfl, eviction := rfl, others := fun u n => rfl, own := Transport.Kept.refl _, marks := ?_
        elsewhere := fun j n => ?_ }
    case refine_2 =>
      have q : i.val ≠ j.val := fun e => n (b.trans (congrArg some (Fin.ext e)))
      simp [State.setMarks, Vector.getElem_set_ne _ _ q]
    intro m j
    unfold State.setMarks
    by_cases e : i = j
    · subst e
      simp only [Fin.getElem_fin, Vector.getElem_set_self]
      exact ⟨ok _ (m i), len _ (m i)⟩
    · have n : i.val ≠ j.val := fun q => e (Fin.ext q)
      simp only [Fin.getElem_fin, Vector.getElem_set_ne _ _ n]
      exact ⟨m j, trivial⟩

/-! ### The Capture Unit -/

theorem State.Kept.capture (f : Capture → Capture) (h : s.Kept t r)
    (l : ∀ c, (f c).lead = c.lead := by intro; rfl) (g : ∀ c, (f c).lag = c.lag := by intro; rfl) : s.Kept t (r.upd t fun x => x.modCapture f) :=
  h.upd _ (Transport.kept_capture _ f (l _) (g _))

theorem State.Kept.doubt (n : Nat) (h : s.Kept t r) : s.Kept t (r.doubt t n) :=
  h.modBoundMarks _ (fun l => updateNumber_ok n _ (by intro; rfl) (by intro; rfl) l) fun _ _ => updateNumber_length _ _ _

theorem State.Kept.verify (n : Nat) (gap : Int) (h : s.Kept t r) : s.Kept t (r.verify t n gap) :=
  h.modBoundMarks _ (fun l => moveNumber_ok n _ (by intro; rfl) l) fun l ok => moveNumber_length n _ l ok

theorem State.Kept.evaluate (w : Window) (h : s.Kept t r) : s.Kept t (r.evaluate t w) := by
  unfold State.evaluate
  split
  · exact h
  · exact h.doubt _
  · split
    · refine h.upd _ ?_
      exact (Transport.kept_correct _ _).trans (Transport.kept_capture _ _)
    · split
      · exact h.verify _ _
      · exact h

theorem State.Kept.closeWindow (n : Nat) (h : s.Kept t r) : s.Kept t (r.closeWindow t n) := by
  unfold State.closeWindow
  split
  · exact (h.capture _).evaluate _
  · exact h

theorem State.Kept.closeAll (l : List Nat) (h : s.Kept t r) : s.Kept t (l.foldl (State.closeWindow t) r) := by
  induction l generalizing r with
  | nil => exact h
  | cons n rest ih => exact ih (h.closeWindow n)

theorem State.Kept.closings (h : s.Kept t r) : s.Kept t (r.closings t) := h.closeAll _

theorem State.Kept.closeFixed (n : Nat) (h : s.Kept t r) : s.Kept t (r.closeFixed t n) := by
  unfold State.closeFixed
  split
  · split
    · exact h.closeWindow n
    · exact h
  · exact h

theorem State.Kept.closeFixedAll (l : List Nat) (h : s.Kept t r) : s.Kept t (l.foldl (State.closeFixed t) r) := by
  induction l generalizing r with
  | nil => exact h
  | cons n rest ih => exact ih (h.closeFixed n)

theorem State.Kept.windowsAtRest (h : s.Kept t r) : s.Kept t (r.windowsAtRest t) :=
  (h.closeFixedAll _).capture _

theorem Capture.openAll_params (l : List Mark) (c : Capture) :
    (l.foldl Capture.openWindow c).lead = c.lead ∧ (l.foldl Capture.openWindow c).lag = c.lag := by
  induction l generalizing c with
  | nil => exact ⟨rfl, rfl⟩
  | cons m rest ih => exact ih _

theorem State.Kept.openings (h : s.Kept t r) : s.Kept t (r.openings t) := by
  unfold State.openings
  dsimp only
  split
  · refine h.upd _ (Transport.kept_capture _ (fun c => List.foldl Capture.openWindow c _) ?_ ?_)
    · exact (Capture.openAll_params _ _).1
    · exact (Capture.openAll_params _ _).2
  · exact h

theorem State.Kept.offerGap (p : Int) (h : s.Kept t r) : s.Kept t (r.offerGap t p) :=
  h.capture _

theorem State.Kept.passAt (d : Dir) (p : Int) (h : s.Kept t r) : s.Kept t (r.passAt t d p) := by
  refine h.modBoundMarks _ (fun l => mapMarks_ok _ ?_ ?_ l) fun l _ => List.length_map _
  · intro m; split <;> rfl
  · intro m; split <;> rfl

theorem State.Kept.passages (d : Dir) (old : Int) (h : s.Kept t r) : s.Kept t (r.passages t d old) := by
  unfold State.passages
  dsimp only
  split
  · exact h
  · split
    · exact h.passAt _ _
    · exact h.passAt _ _

theorem State.Kept.watchLow (h : s.Kept t r) : s.Kept t (r.watchLow t) := by
  unfold State.watchLow
  dsimp only
  split
  · exact h.capture _
  · exact h

theorem State.Kept.doubtAll (l : List PassedBarrier) (h : s.Kept t r) :
    s.Kept t (l.foldl (fun acc p => if p.doubts then acc.doubt t p.number else acc) r) := by
  induction l generalizing r with
  | nil => exact h
  | cons p rest ih =>
    apply ih
    dsimp only
    split
    · exact h.doubt _
    · exact h

theorem State.Kept.endWatches (l : List PassedBarrier) (h : s.Kept t r) : s.Kept t (r.endWatches t l) :=
  (h.capture _).doubtAll l

theorem State.Kept.noteGapSeen (p : Int) (h : s.Kept t r) : s.Kept t (r.noteGapSeen t p) :=
  h.capture _

theorem State.Kept.fixBarrier (n : Nat) (p : Int) (h : s.Kept t r) : s.Kept t (r.fixBarrier t n p) :=
  h.capture _

/-! ### Motions -/

theorem State.Kept.pruneWatches (h : s.Kept t r) : s.Kept t (r.pruneWatches t) := by
  unfold State.pruneWatches
  split
  · exact h
  · exact h.capture _

theorem State.Kept.run (o : Owner) (q : RunReq) (h : s.Kept t r) : s.Kept t (r.run t o q) :=
  h.upd _ (Transport.kept_run _ _ _ _ _)

theorem State.Kept.seq (f : Sequencer → Sequencer) (h : s.Kept t r)
    (k : ∀ q, (f q).state = q.state := by intro; rfl) :
    s.Kept t (r.upd t fun x => x.modSeq f) :=
  h.upd _ (Transport.kept_seq _ _ (k _))

theorem State.Kept.work (f : Order → Work → Work) (h : s.Kept t r) : s.Kept t (r.upd t fun x => x.modWork f) :=
  h.upd _ (Transport.kept_work _ _)

theorem State.Kept.beginRewind (as : RewindPhase → XState) (h : s.Kept t r)
    (k : ∀ p, (as p).mayDrive := by intro; exact ⟨nofun, nofun⟩) :
    s.Kept t (r.beginRewind t as) := by
  unfold State.beginRewind
  refine State.Kept.run _ _ (h.upd _ ?_)
  exact (Transport.kept_state _ _ (k _)).trans (Transport.kept_seq _ _)

theorem State.Kept.beginRelease (h : s.Kept t r) : s.Kept t (r.beginRelease t) := by
  unfold State.beginRelease
  refine h.upd _ ?_
  refine Transport.Kept.trans ?_ (Transport.kept_instruct _ _ _ _ _)
  refine Transport.Kept.trans ?_ (Transport.kept_free _ _)
  exact (Transport.kept_state _ _).trans (Transport.kept_seq _ _)

theorem State.Kept.beginUnload (panel : Bool) (h : s.Kept t r) : s.Kept t (r.beginUnload t panel) := by
  unfold State.beginUnload
  dsimp only
  split
  · exact (h.seq _).beginRelease
  · exact (h.seq _).beginRewind _

theorem State.Kept.loadFail (result : LoadResult) (h : s.Kept t r) : s.Kept t (r.loadFail t result) := by
  unfold State.loadFail
  refine State.Kept.beginRelease (h.upd _ ?_)
  exact (Transport.kept_seq _ _).trans (Transport.kept_flags _ _)

theorem State.Kept.fillCheck (h : s.Kept t r) : s.Kept t (r.fillCheck t) := by
  unfold State.fillCheck
  dsimp only
  split
  · refine State.Kept.run _ _ (h.upd _ ?_)
    exact (Transport.kept_state _ _).trans (Transport.kept_seq _ _)
  · exact h

theorem State.Kept.refuse (o : Owner) (q : MotionReq) (h : s.Kept t r) :
    s.Kept t (r.upd t fun x => { x with cap := x.cap.refuse o q }) :=
  h.upd _ (Transport.kept_cap _ _ (by unfold Capstan.inRange; rw [Capstan.refuse_counter]; exact id))

theorem State.Kept.orderRun (q : RunReq) (h : s.Kept t r) : s.Kept t (r.orderRun t q) := by
  unfold State.orderRun
  split
  · exact h.refuse _ _
  · exact (h.work _).run _ _

theorem State.Kept.readLeg (h : s.Kept t r) : s.Kept t (r.readLeg t) := by
  unfold State.readLeg
  split
  · exact (h.work _).orderRun _
  · exact h

theorem State.Kept.beginLeg (l : Leg) (h : s.Kept t r) : s.Kept t (r.beginLeg t l) := by
  unfold State.beginLeg
  dsimp only
  split
  · exact ((h.work _).work _).orderRun _
  · exact (h.work _).readLeg

theorem State.Kept.beginSearch (h : s.Kept t r) : s.Kept t (r.beginSearch t) := (h.work _).orderRun _

theorem State.Kept.slowWatch (h : s.Kept t r) : s.Kept t (r.slowWatch t) := by
  unfold State.slowWatch
  split
  · split
    · exact h.readLeg
    · exact h
  · exact h

theorem State.Kept.replan (h : s.Kept t r) : s.Kept t (r.replan t) := by
  unfold State.replan
  split
  · split
    · exact (h.work _).slowWatch
    · exact h
  · exact h

/-! ### Orders -/

theorem State.Kept.state (st : XState) (h : s.Kept t r) (k : st.mayDrive := by exact ⟨nofun, nofun⟩) :
    s.Kept t (r.upd t (Transport.setState st)) :=
  h.upd _ (Transport.kept_state _ _ k)

theorem State.Kept.beginPlan (kind : OrderKind) (h : s.Kept t r) : s.Kept t (r.beginPlan t kind) := by
  have moving : s.Kept t (r.upd t (Transport.setState .moving)) := h.state _
  unfold State.beginPlan
  dsimp only
  split
  · exact moving.orderRun _
  · exact moving.orderRun _
  · exact moving.orderRun _
  · exact moving.beginLeg _
  · split
    · exact moving
    · have named := fun (a : Int) (m : Nat) => moving.upd
        (fun y => (y.modWork fun _ w => { w with copied := some a }).modCapture fun c =>
          { c with target := some { number := m, pos := a } })
        ((Transport.kept_work _ _).trans (Transport.kept_capture _ _))
      split
      · exact (named _ _).beginLeg _
      · split
        · exact (named _ _).beginLeg _
        · exact (named _ _).beginSearch
  · exact (h.seq _).beginRewind _
  · exact h.beginUnload _

theorem State.Kept.launch (kind : OrderKind) (h : s.Kept t r) : s.Kept t (r.launch t kind) := by
  unfold State.launch
  refine State.Kept.beginPlan _ (h.upd _ ?_)
  exact Transport.kept_list _ _ (le_of_eq (replaceOldest_length _ _))

theorem State.Kept.startPending (fuel : Nat) (h : s.Kept t r) : s.Kept t (r.startPending t fuel) := by
  induction fuel generalizing r with
  | zero => exact h
  | succ n ih =>
    unfold State.startPending
    dsimp only
    split
    · split
      · exact h
      · split
        · refine ih (h.upd _ ?_)
          exact Transport.kept_list _ _ (le_of_eq (replaceOldest_length _ _))
        · exact h.launch _
    · exact h

theorem State.Kept.startNext (h : s.Kept t r) : s.Kept t (r.startNext t) := h.startPending _

theorem State.Kept.orderEnd (status : Completion) (next : XState) (h : s.Kept t r)
    (k : next.mayDrive := by exact ⟨nofun, nofun⟩) :
    s.Kept t (r.orderEnd t status next) := by
  unfold State.orderEnd
  refine State.Kept.startNext (h.upd _ ?_)
  exact (Transport.kept_makeRecord _ _).trans (Transport.kept_state _ _ k)

/-! ### At rest -/

theorem State.Kept.approachAtRest (o : Order) (w : Work) (z : Bool) (h : s.Kept t r) :
    s.Kept t (r.approachAtRest t o w z) := by
  unfold State.approachAtRest
  split
  · split
    · split
      · exact h.orderEnd _ _
      · exact h.beginSearch
    · exact h.orderEnd _ _
  · split
    · exact h.orderEnd _ _
    · exact h.orderRun _

theorem State.Kept.ordersAtRest (z : Bool) (h : s.Kept t r) : s.Kept t (r.ordersAtRest t z) := by
  unfold State.ordersAtRest
  split
  · exact h
  · split
    · exact h
    · exact h.approachAtRest _ _ _
    · split
      · exact h.orderEnd _ _
      · split
        · exact h.orderEnd _ _
        · exact h.beginSearch
      · exact h.orderEnd _ _

theorem State.Kept.sequenceReady (status : Completion) (h : s.Kept t r) : s.Kept t (r.sequenceReady t status) := by
  unfold State.sequenceReady
  dsimp only
  split
  · exact (h.seq _).orderEnd _ _
  · refine (h.seq _).upd _ ?_
    exact ((Transport.kept_state _ _).trans (Transport.kept_seq _ _)).trans (Transport.kept_flags _ _)

theorem XState.withRewindPhase_mayDrive (p : RewindPhase) (st : XState) (k : st.rewindPhase?.isSome = true) :
    (st.withRewindPhase p).mayDrive := by
  unfold XState.withRewindPhase XState.mayDrive
  split
  · exact ⟨nofun, nofun⟩
  · exact ⟨nofun, nofun⟩
  · constructor
    · rintro rfl; exact absurd k (by decide)
    · rintro rfl; exact absurd k (by decide)

theorem State.Kept.nextRewindPhase (p : RewindPhase) (q : RunReq) (k : (r.tr t).sequencer.state.rewindPhase?.isSome = true)
    (h : s.Kept t r) : s.Kept t (r.nextRewindPhase t p q) := by
  unfold State.nextRewindPhase
  refine State.Kept.run _ _ (h.upd _ ?_)
  exact Transport.kept_state _ _ (XState.withRewindPhase_mayDrive p _ k)

theorem State.Kept.rewindAtRest (p : RewindPhase) (z : Bool) (k : (r.tr t).sequencer.state.rewindPhase?.isSome = true)
    (h : s.Kept t r) : s.Kept t (r.rewindAtRest t p z) := by
  unfold State.rewindAtRest
  dsimp only
  split
  · split
    · exact h.nextRewindPhase _ _ k
    · split
      · exact h.sequenceReady _
      · exact h.nextRewindPhase _ _ k
  · exact h.nextRewindPhase _ _ k
  · by_cases e : z = true <;> simp only [e, if_true, if_false, Bool.false_eq_true]
    · repeat' split
      all_goals first | exact h.sequenceReady _ | exact h.beginRelease
    · exact h.run _ _

theorem State.Kept.sequencerAtRest (z : Bool) (h : s.Kept t r) : s.Kept t (r.sequencerAtRest t z) := by
  unfold State.sequencerAtRest
  split
  · split
    · refine h.upd _ ?_
      exact ((Transport.kept_state _ _).trans (Transport.kept_seq _ _)).trans
        (Transport.kept_flags _ _)
    · exact h.loadFail _
  case h_2 e => exact h.rewindAtRest _ _ (by rw [e]; rfl)
  case h_3 e => exact h.rewindAtRest _ _ (by rw [e]; rfl)
  · exact h

theorem State.Kept.atRestEvent (o : Owner) (z : Bool) (h : s.Kept t r) : s.Kept t (r.atRestEvent t o z) := by
  cases o
  · exact h.ordersAtRest z
  · exact h.sequencerAtRest z

theorem State.Kept.accept (o : Owner) (h : s.Kept t r) :
    s.Kept t (r.upd t fun x => { x with cap := x.cap.accept o }) :=
  h.upd _ (Transport.kept_cap _ _ (by unfold Capstan.inRange; rw [Capstan.accept_counter]; exact id))

theorem State.Kept.stop (o : Owner) (h : s.Kept t r) : s.Kept t (r.stop t o) := by
  unfold State.stop
  split
  · exact (h.accept o).atRestEvent _ _
  · exact h.refuse _ _
  · exact h.refuse _ _
  · exact h.upd _ (Transport.kept_stopDriven _ _ _)

theorem State.Kept.stopOrder (reason : Completion) (b : Option Nat) (h : s.Kept t r) :
    s.Kept t (r.stopOrder t reason b) := (h.work _).stop _

theorem State.Kept.barrierStop (n : Nat) (h : s.Kept t r) : s.Kept t (r.barrierStop t n) := by
  unfold State.barrierStop
  split
  · split
    · exact h.stopOrder _ _
    · exact h
  · exact h

theorem State.Kept.rest (z : Bool) (h : s.Kept t r) :
    s.Kept t (r.upd t fun x =>
      let c := if z then x.cap.rezero x.cap.seg.approach else x.cap
      { x with cap := { c with seg := c.seg.rested } }) := by
  refine h.upd _ (Transport.kept_cap _ _ ?_)
  intro k
  cases z
  · exact k
  · exact Capstan.rezero_inRange _ _

theorem State.Kept.comeToRest (z : Bool) (h : s.Kept t r) : s.Kept t (r.comeToRest t z) := by
  unfold State.comeToRest
  dsimp only
  split
  · exact (h.windowsAtRest.rest z).atRestEvent _ _
  · exact h.windowsAtRest.rest z

theorem State.Kept.throughRest (h : s.Kept t r) : s.Kept t (r.throughRest t) := by
  unfold State.throughRest
  refine h.windowsAtRest.upd _ ?_
  refine Transport.Kept.trans ?_ (Transport.kept_decelWatch _ _)
  exact Transport.kept_cap _ _ id

theorem State.Kept.rampEnd (h : s.Kept t r) : s.Kept t (r.rampEnd t) := by
  unfold State.rampEnd
  split
  · split
    · exact h.upd _ (Transport.kept_cap _ _ id)
    · exact h.throughRest
    · exact h.comeToRest _
  · exact h

theorem State.Kept.retryOrders (h : s.Kept t r) : s.Kept t (r.retryOrders t) := by
  unfold State.retryOrders
  dsimp only
  split
  · exact (h.accept _).orderRun _
  · exact (h.accept _).stop _
  · exact h.accept _

theorem State.Kept.retrySequencer (h : s.Kept t r) : s.Kept t (r.retrySequencer t) := by
  unfold State.retrySequencer
  dsimp only
  split
  · split
    · exact (h.accept _).run _ _
    · exact (h.accept _).stop _
    · exact h.accept _
  · exact h.accept _

theorem State.Kept.coastEnd (h : s.Kept t r) : s.Kept t (r.coastEnd t) := by
  unfold State.coastEnd
  split
  · refine State.Kept.retrySequencer (State.Kept.retryOrders (h.upd _ ?_))
    exact Transport.kept_cap _ _ id
  · exact h

/-! ### Halts -/

theorem State.Kept.endRewind (h : s.Kept t r) : s.Kept t (r.endRewind t) := by
  unfold State.endRewind
  dsimp only
  split
  · split
    · exact h.seq _
    · exact (h.seq _).stop _
  · exact h.seq _
  · exact h

theorem State.Kept.markHalted (h : s.Kept t r) : s.Kept t (r.markHalted t) := h.work _

theorem State.Kept.haltRunning (h : s.Kept t r) : s.Kept t (r.haltRunning t) := by
  unfold State.haltRunning
  split
  · exact h
  · split
    · exact h
    · split
      · exact h.markHalted.endRewind
      · exact h.markHalted
      · exact h.markHalted
      · exact h.markHalted
      · split
        · exact h.work _
        · exact h.markHalted.stopOrder _ _

theorem State.Kept.haltOrders (h : s.Kept t r) : s.Kept t (r.haltOrders t) := by
  unfold State.haltOrders
  split
  · exact (h.upd _ (Transport.kept_discard _)).haltRunning
  · exact h

theorem State.Kept.goOffline (h : s.Kept t r) : s.Kept t (r.goOffline t) := (h.seq _).haltOrders

theorem State.Kept.allStopOne (h : s.Kept t r) : s.Kept t (r.allStopOne t) := by
  unfold State.allStopOne
  split
  · exact h.haltOrders
  · split
    · exact h.endRewind
    · exact h

theorem State.Kept.resetRunning (h : s.Kept t r) : s.Kept t (r.resetRunning t) := by
  unfold State.resetRunning
  split
  · exact h
  · split
    · exact h
    · split
      · exact h.markHalted.endRewind
      · exact h.markHalted
      · exact h.markHalted
      · exact h.markHalted.stopOrder _ _

theorem State.Kept.resetOrders (h : s.Kept t r) : s.Kept t (r.resetOrders t) :=
  (h.upd _ (Transport.kept_dropOrders _)).resetRunning

/-! ### Holds and resets -/

theorem State.Kept.takeCause? (now : Nat) (f : Transport → Option Cause) (h : s.Kept t r) :
    s.Kept t (r.upd t fun x => x.takeCause? now (f x)) :=
  h.upd _ (Transport.kept_takeCause? _ _ _)

theorem State.Kept.forcedUnload (h : s.Kept t r) :
    s.Kept t (r.forcedUnload t) := by
  refine h.trans ?_
  have freed : r.Kept t ((r.upd t fun x =>
      let on := x.driveOn.modSeq fun q => { q with panelMotion := true }
      { on with prot := { on.prot with hold := { on.prot.hold with active := false } } }).beginRelease t) := by
    unfold State.beginRelease
    rw [State.upd_upd]
    refine (State.Kept.refl t r).upd _ ?_
    refine Transport.Kept.trans ?_ (Transport.kept_instruct _ _ _ _ _)
    refine Transport.Kept.trans ?_ (Transport.kept_free _ _)
    exact ⟨rfl, rfl, rfl, rfl, rfl, rfl, le_refl _, id, fun _ =>
      ⟨⟨nofun, nofun⟩, fun e => Bool.noConfusion e⟩⟩
  exact freed.takeCause? r.clock fun x => if x.prot.door.debounced then some .doorOpen else none

theorem State.Kept.abandonLoad (h : s.Kept t r) : s.Kept t (r.abandonLoad t) :=
  (h.seq _).beginRelease

theorem State.Kept.resetByState (h : s.Kept t r) : s.Kept t (r.resetByState t) := by
  unfold State.resetByState
  split
  · exact h.endRewind
  · exact h.endRewind
  · exact h.abandonLoad
  · split
    · exact h.forcedUnload
    · exact h.upd _ (Transport.kept_recoveryBegin _ _)
  · exact h

theorem State.Kept.resetTransport (h : s.Kept t r) : s.Kept t (r.resetTransport t) := by
  have cleared : s.Kept t (r.upd t fun x => x.clearEvents.dropOrders) :=
    h.upd _ ((Transport.kept_flags _ _).trans (Transport.kept_dropOrders _))
  unfold State.resetTransport
  dsimp only
  split
  · exact cleared.resetRunning
  · exact cleared.resetByState

/-! ### Gap starts -/

theorem State.Kept.gapOrders (d : Dir) (p : Int) (b : Option Nat) (h : s.Kept t r) : s.Kept t (r.gapOrders t d p b) := by
  unfold State.gapOrders
  split
  · exact h
  · dsimp only
    split
    · exact (h.work _).stopOrder _ _
    · exact (h.work _).barrierStop _
    · exact (h.work _).stopOrder _ _
    · exact h.work _

theorem State.Kept.gapEvent (d : Dir) (p : Int) (h : s.Kept t r) : s.Kept t (r.gapEvent t d p) := by
  have seen : s.Kept t (((r.upd t fun x => { x with cap := { x.cap with lastGap := some p } }).offerGap t p).noteGapSeen t p) :=
    State.Kept.noteGapSeen _ (State.Kept.offerGap _ (h.upd _ (Transport.kept_cap _ _ id)))
  unfold State.gapEvent
  split
  · exact h.gapOrders _ _ _
  · dsimp only
    split
    · exact (seen.gapOrders _ _ _).fixBarrier _ _
    · exact seen.gapOrders _ _ _

theorem State.Kept.gapStart (h : s.Kept t r) : s.Kept t (r.gapStart t) := by
  unfold State.gapStart
  dsimp only
  split
  · exact h.gapEvent _ _
  · exact h

theorem State.Kept.filter (f : GapFilter → GapFilter) (h : s.Kept t r) : s.Kept t (r.filter t f) := by
  have set : s.Kept t (r.upd t fun x => { x with cap := { x.cap with filter := f x.cap.filter } }) :=
    h.upd _ (Transport.kept_cap _ _ id)
  unfold State.filter
  dsimp only
  split
  · exact set.gapStart
  · exact set

/-! ### The filter at a gap start -/

theorem Capstan.filter_accept (o : Owner) (c : Capstan) : (c.accept o).filter = c.filter := by
  cases o <;> rfl

/-- A STOP of a capstan at a speed at which gap starts are taken does not touch the gap-line filter (R7, R12). -/
theorem State.filter_stop (t : TNum) (o : Owner) (s : State) (h : (s.tr t).cap.seg.gapReady = true) :
    ((s.stop t o).tr t).cap.filter = (s.tr t).cap.filter := by
  unfold State.stop
  split
  case h_1 e => simp [Segment.gapReady, Segment.readRamp, e] at h
  case h_2 e => simp [Segment.gapReady, Segment.readRamp, e] at h
  case h_3 e => simp [Segment.gapReady, Segment.readRamp, e] at h
  case h_4 => simp [Transport.stopDriven, Capstan.filter_accept]

theorem State.filter_stopOrder (t : TNum) (c : Completion) (b : Option Nat) (s : State)
    (h : (s.tr t).cap.seg.gapReady = true) : ((s.stopOrder t c b).tr t).cap.filter = (s.tr t).cap.filter := by
  have keep : ∀ f : Order → Work → Work, ((s.upd t fun x => x.modWork f).tr t).cap = (s.tr t).cap := fun f => by
    rw [State.tr_upd_same]; rfl
  unfold State.stopOrder
  rw [State.filter_stop t _ _ (by rw [keep]; exact h), keep]

theorem State.filter_barrierStop (t : TNum) (n : Nat) (s : State) (h : (s.tr t).cap.seg.gapReady = true) :
    ((s.barrierStop t n).tr t).cap.filter = (s.tr t).cap.filter := by
  unfold State.barrierStop
  split
  · split
    · exact State.filter_stopOrder t _ _ s h
    · rfl
  · rfl

theorem State.filter_gapOrders (t : TNum) (d : Dir) (p : Int) (b : Option Nat) (s : State)
    (h : (s.tr t).cap.seg.gapReady = true) : ((s.gapOrders t d p b).tr t).cap.filter = (s.tr t).cap.filter := by
  unfold State.gapOrders
  split
  · rfl
  · rename_i o w e
    have keep : ∀ f : Order → Work → Work, ((s.upd t fun x => x.modWork f).tr t).cap = (s.tr t).cap := fun f => by
      rw [State.tr_upd_same]; rfl
    dsimp only
    split
    · rw [State.filter_stopOrder t _ _ _ (by rw [keep]; exact h), keep]
    · rw [State.filter_barrierStop t _ _ (by rw [keep]; exact h), keep]
    · rw [State.filter_stopOrder t _ _ _ (by rw [keep]; exact h), keep]
    · rw [keep]

/-- A gap start does not touch the gap-line filter (R6, R7). -/
theorem State.filter_gapStart (t : TNum) (s : State) : ((s.gapStart t).tr t).cap.filter = (s.tr t).cap.filter := by
  unfold State.gapStart
  dsimp only
  split
  case isFalse => rfl
  case isTrue h =>
    unfold State.gapEvent
    split
    · exact State.filter_gapOrders t _ _ _ s h.2
    · have seen : ∀ p, let q := ((s.upd t fun x => { x with cap := { x.cap with lastGap := some p } }).offerGap t p).noteGapSeen t p
          (q.tr t).cap.seg = (s.tr t).cap.seg ∧ (q.tr t).cap.filter = (s.tr t).cap.filter := by
        intro p
        simp [State.offerGap, State.noteGapSeen, Transport.modCapture]
      have judged := fun p b => (State.filter_gapOrders t .forward p b _ (by rw [(seen p).1]; exact h.2)).trans (seen p).2
      dsimp only
      split
      · rw [State.fixBarrier, State.tr_upd_same]
        exact judged _ _
      · exact judged _ _

/-! ### Counts and markers -/

theorem State.Kept.blankStop (h : s.Kept t r) : s.Kept t (r.blankStop t) := by
  unfold State.blankStop
  split
  · split
    · exact h.stopOrder _ _
    · exact h
  · exact h

theorem State.Kept.haltSearchEnd (h : s.Kept t r) : s.Kept t (r.haltSearchEnd t) := by
  unfold State.haltSearchEnd
  split
  · split
    · exact h.stopOrder _ _
    · exact h
  · exact h

theorem State.Kept.searchEnd (h : s.Kept t r) : s.Kept t (r.searchEnd t) := by
  unfold State.searchEnd
  split
  · exact h.stop _
  · exact h

theorem State.Kept.distanceWatch (d : Dir) (h : s.Kept t r) : s.Kept t (r.distanceWatch t d) := by
  unfold State.distanceWatch
  dsimp only
  split
  · split
    · exact (h.work _).blankStop
    · split
      · exact (h.work _).haltSearchEnd
      · exact h.work _
  · exact h.work _

theorem State.Kept.searchWatch (h : s.Kept t r) : s.Kept t (r.searchWatch t) := by
  unfold State.searchWatch
  split
  · split
    · split
      · exact h.work _
      · exact h
    · exact h
  · exact h

theorem State.Kept.searchPassed (e : SearchEnd) (h : s.Kept t r) : s.Kept t (r.searchPassed t e) := by
  unfold State.searchPassed
  split
  · split
    · exact h
    split
    · exact h.stopOrder _ _
    · dsimp only
      refine State.Kept.stopOrder _ _ ?_
      split
      · split
        · exact h.doubt _
        · exact h
      · exact h
  · exact h

theorem State.Kept.searchPassWatch (e : Option SearchEnd) (c : Int) (h : s.Kept t r) :
    s.Kept t (r.searchPassWatch t e c) := by
  unfold State.searchPassWatch
  split
  · split
    · exact h.searchPassed _
    · exact h
  · exact h

theorem State.Kept.findWatch (d : Dir) (h : s.Kept t r) : s.Kept t (r.findWatch t d) := by
  unfold State.findWatch
  dsimp only
  split
  · split
    · exact (h.seq _).searchEnd
    · exact h.seq _
  · exact h

theorem State.Kept.rewindWatch (h : s.Kept t r) : s.Kept t (r.rewindWatch t) := by
  unfold State.rewindWatch
  dsimp only
  split
  · exact h.run _ _
  · exact h

theorem State.Kept.lowBounds (h : s.Kept t r) : s.Kept t (r.lowBounds t) := by
  unfold State.lowBounds
  split
  · exact h.barrierStop _
  · exact h.watchLow

theorem State.Kept.highBounds (l : List PassedBarrier) (h : s.Kept t r) : s.Kept t (r.highBounds t l) := by
  unfold State.highBounds
  dsimp only
  split
  · exact (h.endWatches l).barrierStop _
  · exact h.endWatches l

theorem State.Kept.forwardWatches (h : s.Kept t r) : s.Kept t (r.forwardWatches t) := by
  unfold State.forwardWatches
  exact (((h.lowBounds.openings).closings).highBounds _).searchPassWatch _ _

/-- A count keeps all that is not its transport's, or its volume's marks' (R1). -/
theorem State.Kept.tachCount (d : Dir) (h : s.Kept t r) : s.Kept t (r.tachCount t d) := by
  have counted : s.Kept t (r.countAt t d) := h.upd _ (Transport.kept_count _ _)
  have passed : s.Kept t ((r.countAt t d).passages t d (r.tr t).cap.counter) := counted.passages _ _
  unfold State.tachCount
  dsimp only
  refine State.Kept.rewindWatch (State.Kept.findWatch _ (State.Kept.upd _ ?_ (Transport.kept_decelWatch _ _)))
  refine State.Kept.searchWatch (State.Kept.slowWatch (State.Kept.distanceWatch _ ?_))
  split
  · exact passed.forwardWatches
  · exact passed

theorem State.Kept.loadPointForward (h : s.Kept t r) : s.Kept t (r.loadPointForward t) := by
  unfold State.loadPointForward
  refine h.upd _ ?_
  dsimp only
  split
  · exact (Transport.kept_seq _ _).trans (Transport.kept_stopForRezero _ _)
  · exact Transport.kept_seq _ _

theorem State.Kept.loadPointOrders (h : s.Kept t r) : s.Kept t (r.loadPointOrders t) := by
  unfold State.loadPointOrders
  split
  · split
    · dsimp only
      split
      · exact (h.work _).stop _
      · exact h.work _
    · exact h
  · exact h

theorem State.Kept.loadPointSequencer (h : s.Kept t r) : s.Kept t (r.loadPointSequencer t) := by
  unfold State.loadPointSequencer
  dsimp only
  split
  · split
    · exact h
    · exact (h.seq _).stop _
  · exact h.stop _
  · exact h

theorem State.Kept.loadPointReverse (h : s.Kept t r) : s.Kept t (r.loadPointReverse t) :=
  ((h.seq _).loadPointOrders).loadPointSequencer

theorem State.Kept.eotOrders (h : s.Kept t r) : s.Kept t (r.eotOrders t) := by
  unfold State.eotOrders
  dsimp only
  split
  · by_cases k : (r.tr t).cap.seg.stopTarget = none <;> repeat' split
    all_goals first | exact h.orderRun _ | exact h
  · exact h

/-- A marker event keeps all that is not its transport's (R3). -/
theorem State.Kept.markerEvent (m : Marker) (h : s.Kept t r) : s.Kept t (r.markerEvent t m) := by
  unfold State.markerEvent
  split
  · exact h.loadPointForward
  · exact h.loadPointReverse
  · exact State.Kept.eotOrders (h.upd _ (Transport.kept_cap _ _ id))
  · exact h.upd _ (Transport.kept_cap _ _ id)

/-! ### The panel, the reels and the switches -/

theorem State.Kept.rewindPress (h : s.Kept t r) : s.Kept t (r.rewindPress t) := by
  unfold State.rewindPress
  dsimp only
  split
  · exact (h.seq _).beginRewind _
  · exact h

theorem State.Kept.unloadPress (h : s.Kept t r) : s.Kept t (r.unloadPress t) := by
  unfold State.unloadPress
  dsimp only
  split
  · exact h
  · split
    · exact h.beginUnload _
    · split
      · exact h.state _
      · exact h
    · exact h

theorem State.Kept.onlinePress (h : s.Kept t r) : s.Kept t (r.onlinePress t) := by
  unfold State.onlinePress
  dsimp only
  split
  · exact h.goOffline.upd _ (Transport.kept_flags _ _)
  · split
    · exact h.upd _ ((Transport.kept_seq _ _).trans (Transport.kept_flags _ _))
    · exact h

theorem Transport.kept_beginFill (now : Nat) (x : Transport) : x.Kept (x.beginFill now) := by
  unfold Transport.beginFill
  refine Transport.Kept.trans ?_ (Transport.kept_instruct _ _ _ _ _)
  refine Transport.Kept.trans ?_ (Transport.kept_seq _ _)
  exact (Transport.kept_state _ _).trans (Transport.kept_holdRest _ _)

theorem Transport.kept_beginLoad (now : Nat) (x : Transport) : x.Kept (x.beginLoad now) := by
  unfold Transport.beginLoad
  dsimp only
  refine Transport.Kept.trans ?_ (Transport.kept_instruct _ _ _ _ _)
  refine Transport.Kept.trans ?_ (Transport.kept_free _ _)
  refine Transport.Kept.trans ?_ (Transport.kept_cap _ _ id)
  refine Transport.Kept.trans ?_ (Transport.kept_seq _ _)
  exact Transport.kept_driveOn x _ ⟨nofun, nofun⟩

theorem State.Kept.revolution (h : s.Kept t r) : s.Kept t (r.revolution t) := by
  unfold State.revolution
  dsimp only
  split
  · split
    · exact (h.seq _).upd _ (Transport.kept_beginFill _ _)
    · exact h.seq _
  · exact h

theorem State.Kept.loadTimeout (p : LoadPhase) (q : LoadResult) (h : s.Kept t r) : s.Kept t (r.loadTimeout t p q) := by
  unfold State.loadTimeout
  split
  · exact h.loadFail _
  · exact h

theorem State.Kept.stallTime (e : Reel) (h : s.Kept t r) : s.Kept t (r.stallTime t e) := by
  unfold State.stallTime
  split
  case isTrue on =>
    refine h.upd _ (Transport.Kept.trans (Transport.kept_modReel e _ _ ?_) (Transport.kept_takeCause _ _ _))
    intro off
    rw [off] at on
    exact absurd on (by simp)
  case isFalse =>
    split
    · exact h.upd _ (Transport.kept_takeCause _ _ _)
    · exact h

theorem State.Kept.debounce (w : Switch) (h : s.Kept t r) : s.Kept t (r.debounce t w) := by
  unfold State.debounce
  split
  · dsimp only
    have set := h.upd (fun x => (x.modInput w SwitchInput.expire).takeCause? r.clock
      ((x.modInput w SwitchInput.expire).switchCause w))
      ((Transport.kept_modInput w _ _).trans (Transport.kept_takeCause? _ _ _))
    cases w
    · exact set.fillCheck
    · exact set
    · exact set
  · exact h

theorem State.Kept.measure (h : s.Kept t r) : s.Kept t (r.upd t (Transport.measureSteady r.clock)) :=
  h.upd _ (Transport.kept_measureSteady _ _)

/-- A loop result handed on keeps all that is not its transport's (R129). -/
theorem State.Kept.handResult (e : Reel) (depth : Nat) (h : s.Kept t r) : s.Kept t (r.handResult t e depth) := by
  have judged : s.Kept t (r.upd t fun x => (x.takeResult r.clock e depth).handTrip r.clock e) :=
    h.upd _ ((Transport.kept_takeResult _ _ _ _).trans (Transport.kept_handTrip _ _ _))
  unfold State.handResult
  dsimp only
  split
  · exact judged.fillCheck.upd _ (Transport.kept_measureSteady _ _)
  · exact judged.fillCheck

end Sys2Proof.Machine
end

