-- ==== Sys2Proof/Laws/Line.lean ====
section
/-! SUPPORT. What a step, a request command and the transmitter do, once each: the front command, the request executed at
once on a line that can answer, the request that waits, and the one that is lost. -/

namespace Sys2Proof.Machine

open Sys2Proof

/-! ### The queue -/

theorem step_front (c : Instr) (q : List Instr) (s : State) :
    step { s with pending := c :: q } = exec c { s with pending := q } := rfl

theorem step_empty (s : State) (h : s.pending = []) : step s = .next { s with clock := s.clock + 1 } := by
  unfold step
  split
  case h_1 e => rw [h] at e; cases e
  case h_2 => rfl

/-- Every command is answered with a next state: no command is refused, and none ends in a fault. -/
theorem exec_next (c : Instr) (s : State) : ∃ r, exec c s = .next r := by
  cases c <;> exact ⟨_, rfl⟩

/-! ### Requests -/

theorem exec_command (r : Request) (s : State) :
    exec (r.command .addressed) s = .next (s.submit { message := .known r, kind := .addressed }) := by
  cases r <;> rfl

theorem State.clearBuffer (s : State) (h : s.line.buffer = none) :
    { s with line := { s.line with buffer := none } } = s := by
  rw [← h]

/-- A request on a line that can answer is executed at once, and its response is composed after its effects (R163,
R164). -/
theorem State.submit_ready (r : Request) (s : State) (h : s.lineReady) :
    s.submit { message := .known r, kind := .addressed } =
      (s.handleRequest r).1.respond .addressed (s.handleRequest r).2 := by
  obtain ⟨_, hb, ht⟩ := h
  have e : { s with line := { receiver := s.line.receiver, buffer := none, transmitter := .idle, flags := s.line.flags
                              station := s.line.station, rate := s.line.rate } } = s := by
    rw [← hb, ← ht]
  simp [State.submit, hb, State.takeRequest, ht, Transmitter.isIdle, State.execute, State.handleMessage, e]

theorem State.respond_sending (s : State) (p : Reply) (h : s.line.receiver.isAddressed = true) :
    s.respond .addressed p = s.sending p.status p.body := by
  simp [State.respond, h, State.sending]

/-- What a request command on a line that can answer does, by its handler. -/
theorem exec_ready (r : Request) (s q : State) (p : Reply) (h : s.lineReady) (k : s.handleRequest r = (q, p))
    (l : q.line.receiver = s.line.receiver) : exec (r.command .addressed) s = .next (q.sending p.status p.body) := by
  rw [exec_command, State.submit_ready r s h, k]
  exact congrArg _ (State.respond_sending q p (by rw [l]; exact h.1))

/-- A request that a response in progress keeps waiting (R163). -/
theorem State.submit_waits (b : Buffered) (s : State) (hb : s.line.buffer = none)
    (ht : s.line.transmitter.isIdle = false) (k : b.kind = .addressed) :
    s.submit b = { s with line := { s.line with buffer := some b } } := by
  simp [State.submit, State.takeRequest, hb, ht, k]

/-- A request that finds the buffer full is lost (R162). -/
theorem State.submit_overrun (b : Buffered) (s : State) (hb : s.line.buffer.isSome = true) (k : b.kind = .addressed) :
    s.submit b = s.raiseFlag fun f => { f with overrun := true } := by
  simp [State.submit, hb, k]

/-! ### The line error flags -/

theorem LineFlags.check_set (f : LineFlags) : { f with check := true } = f ↔ f.check = true := by
  cases f
  simp [eq_comm]

theorem LineFlags.timeout_set (f : LineFlags) : { f with timeout := true } = f ↔ f.timeout = true := by
  cases f
  simp [eq_comm]

theorem LineFlags.overrun_set (f : LineFlags) : { f with overrun := true } = f ↔ f.overrun = true := by
  cases f
  simp [eq_comm]

/-! ### Transport bytes -/

@[simp] theorem transportOf_byte (t : TNum) : transportOf (transportByte t) = some t := by
  cases t <;> rfl

/-- A transport byte outside 0 to 3 names no transport (R163). -/
theorem transportOf_none (b : Byte) (h : 4 ≤ b.toNat) : transportOf b = none := by
  unfold transportOf
  split <;> first | rfl | omega

@[simp] theorem onTransport_byte (t : TNum) (f : TNum → State → State × Reply) (s : State) :
    onTransport (transportByte t) f s = f t s := by
  simp [onTransport]

theorem onTransport_none (b : Byte) (f : TNum → State → State × Reply) (s : State) (h : 4 ≤ b.toNat) :
    onTransport b f s = refuse .badParameter s := by
  simp [onTransport, transportOf_none b h]

end Sys2Proof.Machine
end

