-- ==== Sys2Proof/Laws/Still.lean ====
section
/-! SUPPORT. What the requests for motion, the orders and their halts leave of a transport's position: the counter, the last
direction and the last-gap position; the confidence stays or becomes LOST, the windows stay or are abandoned. With the
lemmas of Kept.lean these say once what those operations can do to a position. -/

namespace Sys2Proof.Machine

open Sys2Proof

/-! ### The running order in its list -/

theorem runningIn_replace (l : List Slot) (g : Order → Work → Work) :
    runningIn (replaceRunning (fun o w => .running o (g o w)) l) = (runningIn l).map fun p => (p.1, g p.1 p.2) := by
  induction l with
  | nil => rfl
  | cons a l ih => cases a <;> simp [replaceRunning, runningIn, ih]

/-- A change of the working values reaches the running order. -/
theorem Transport.modWork_running (x : Transport) (g : Order → Work → Work) :
    (x.modWork g).running = x.running.map fun p => (p.1, g p.1 p.2) := runningIn_replace _ g

theorem replaceRunning_none (l : List Slot) (f : Order → Work → Slot) (h : runningIn l = none) :
    replaceRunning f l = l := by
  induction l with
  | nil => rfl
  | cons a l ih =>
    cases a
    · exact congrArg _ (ih h)
    · cases h
    · exact congrArg _ (ih h)

theorem Transport.modWork_none (x : Transport) (g : Order → Work → Work) (h : x.running = none) : x.modWork g = x := by
  unfold Transport.modWork Transport.modList
  rw [replaceRunning_none _ _ h]

/-! ### Stops of a driven capstan -/

theorem State.stop_running (t : TNum) (o : Owner) (s : State) (h : (s.tr t).cap.seg.cond = .running) :
    s.stop t o = s.upd t (Transport.stopDriven s.clock o) := by
  unfold State.stop
  rw [h]

theorem State.stopOrder_running (t : TNum) (s : State) (c : Completion) (b : Option Nat)
    (h : (s.tr t).cap.seg.cond = .running) :
    s.stopOrder t c b = s.upd t fun x =>
      (x.modWork fun _ w => { w with phase := .stopping, reason := some c, barrier := b }).stopDriven s.clock .orders := by
  unfold State.stopOrder
  rw [State.stop_running _ _ _ (by rw [State.tr_upd_same]; exact h), State.upd_upd]
  rfl

/-! ### Positions that stay -/

/-- The position of `x` stands in `y`. -/
structure Transport.Still (x y : Transport) : Prop where
  counter : y.cap.counter = x.cap.counter
  lastDir : y.cap.lastDir = x.cap.lastDir
  lastGap : y.cap.lastGap = x.cap.lastGap
  conf : y.cap.conf = x.cap.conf ∨ y.cap.conf = .lost
  lead : y.capture.lead = x.capture.lead
  lag : y.capture.lag = x.capture.lag
  windows : y.capture.windows = x.capture.windows ∨ y.capture.windows = []

theorem Transport.Still.refl (x : Transport) : x.Still x :=
  ⟨rfl, rfl, rfl, .inl rfl, rfl, rfl, .inl rfl⟩

theorem Transport.Still.trans {x y z : Transport} (h : x.Still y) (k : y.Still z) : x.Still z := by
  refine ⟨k.counter.trans h.counter, k.lastDir.trans h.lastDir, k.lastGap.trans h.lastGap, ?_, k.lead.trans h.lead,
    k.lag.trans h.lag, ?_⟩
  · rcases k.conf with e | e
    · rw [e]; exact h.conf
    · exact .inr e
  · rcases k.windows with e | e
    · rw [e]; exact h.windows
    · exact .inr e

/-- The position of transport `t` stands. -/
def State.Still (t : TNum) (s r : State) : Prop := (s.tr t).Still (r.tr t)

variable {t : TNum} {s r : State}

theorem State.Still.refl (t : TNum) (s : State) : s.Still t s := Transport.Still.refl _

theorem State.Still.upd (f : Transport → Transport) (h : s.Still t r) (k : (r.tr t).Still (f (r.tr t))) :
    s.Still t (r.upd t f) := by
  unfold State.Still
  rw [State.tr_upd_same]
  exact Transport.Still.trans h k

theorem Transport.still_of (x y : Transport) (c : y.cap = x.cap) (k : y.capture = x.capture) : x.Still y := by
  refine ⟨?_, ?_, ?_, .inl ?_, ?_, ?_, .inl ?_⟩ <;> first | rw [c] | rw [k]

theorem State.Still.work (f : Order → Work → Work) (h : s.Still t r) : s.Still t (r.upd t fun x => x.modWork f) :=
  h.upd _ (Transport.still_of _ _ rfl rfl)

theorem State.Still.modList (f : List Slot → List Slot) (h : s.Still t r) :
    s.Still t (r.upd t (Transport.modList f)) := h.upd _ (Transport.still_of _ _ rfl rfl)

theorem State.Still.seq (f : Sequencer → Sequencer) (h : s.Still t r) : s.Still t (r.upd t fun x => x.modSeq f) :=
  h.upd _ (Transport.still_of _ _ rfl rfl)

theorem Transport.still_seg (x : Transport) (g : Segment) : x.Still { x with cap := { x.cap with seg := g } } :=
  ⟨rfl, rfl, rfl, .inl rfl, rfl, rfl, .inl rfl⟩

theorem Transport.still_accept (x : Transport) (o : Owner) (g : Segment) :
    x.Still { x with cap := { x.cap.accept o with seg := g } } := by
  cases o <;> exact ⟨rfl, rfl, rfl, .inl rfl, rfl, rfl, .inl rfl⟩

theorem Transport.still_lose (x : Transport) : x.Still x.loseConfidence :=
  ⟨rfl, rfl, rfl, .inr rfl, rfl, rfl, .inr rfl⟩

theorem Transport.still_decelWatch (now : Nat) (x : Transport) : x.Still (x.decelWatch now) := by
  unfold Transport.decelWatch
  split
  · dsimp only
    split
    · exact (x.still_seg _).trans (Transport.still_of _ _ rfl rfl)
    · exact x.still_seg _
  · exact Transport.Still.refl x

theorem Transport.still_run (now : Nat) (c : Inertia) (o : Owner) (q : RunReq) (x : Transport) :
    x.Still (x.run now c o q) := by
  have refused : x.Still { x with cap := x.cap.refuse o (.run q) } := by
    cases o <;> exact ⟨rfl, rfl, rfl, .inl rfl, rfl, rfl, .inl rfl⟩
  unfold Transport.run
  split
  · exact refused
  · exact refused
  · refine Transport.Still.trans ?_ (Transport.still_decelWatch _ _)
    refine Transport.Still.trans (x.still_accept o (x.cap.seg.takeRun now c x.cap.counter o q)) ?_
    dsimp only
    split
    · exact ⟨rfl, rfl, rfl, .inl rfl, rfl, rfl, .inr rfl⟩
    · exact ⟨rfl, rfl, rfl, .inl rfl, rfl, rfl, .inl rfl⟩

theorem Transport.still_stopDriven (now : Nat) (o : Owner) (x : Transport) : x.Still (x.stopDriven now o) :=
  x.still_accept o _

theorem Transport.still_free (d : Dir) (x : Transport) : x.Still (x.free d) := by
  refine Transport.Still.trans ?_ (Transport.still_lose _)
  exact x.still_seg _

theorem Transport.still_windRelease (x : Transport) : x.Still x.windRelease := Transport.still_of _ _ rfl rfl

theorem State.Still.run (o : Owner) (q : RunReq) (h : s.Still t r) : s.Still t (r.run t o q) :=
  h.upd _ (Transport.still_run _ _ _ _ _)

theorem State.Still.beginRewind (as : RewindPhase → XState) (h : s.Still t r) : s.Still t (r.beginRewind t as) := by
  unfold State.beginRewind
  exact State.Still.run _ _ (h.upd _ (Transport.still_of _ _ rfl rfl))

theorem State.Still.beginRelease (h : s.Still t r) : s.Still t (r.beginRelease t) := by
  unfold State.beginRelease
  refine h.upd _ ?_
  dsimp only
  refine Transport.Still.trans ?_ (Transport.still_windRelease _)
  refine Transport.Still.trans ?_ (Transport.still_free _ _)
  exact Transport.still_of _ _ rfl rfl

theorem State.Still.beginUnload (panel : Bool) (h : s.Still t r) : s.Still t (r.beginUnload t panel) := by
  unfold State.beginUnload
  dsimp only
  split
  · exact (h.seq _).beginRelease
  · exact (h.seq _).beginRewind _

theorem State.Still.refuse (o : Owner) (q : MotionReq) (h : s.Still t r) :
    s.Still t (r.upd t fun x => { x with cap := x.cap.refuse o q }) :=
  h.upd _ (by cases o <;> exact ⟨rfl, rfl, rfl, .inl rfl, rfl, rfl, .inl rfl⟩)

theorem State.Still.orderRun (q : RunReq) (h : s.Still t r) : s.Still t (r.orderRun t q) := by
  unfold State.orderRun
  split
  · exact h.refuse _ _
  · exact (h.work _).run _ _

theorem State.Still.readLeg (h : s.Still t r) : s.Still t (r.readLeg t) := by
  unfold State.readLeg
  split
  · exact (h.work _).orderRun _
  · exact h

theorem State.Still.beginLeg (l : Leg) (h : s.Still t r) : s.Still t (r.beginLeg t l) := by
  unfold State.beginLeg
  dsimp only
  split
  · exact ((h.work _).work _).orderRun _
  · exact (h.work _).readLeg

theorem State.Still.beginSearch (h : s.Still t r) : s.Still t (r.beginSearch t) := (h.work _).orderRun _

theorem State.Still.slowWatch (h : s.Still t r) : s.Still t (r.slowWatch t) := by
  unfold State.slowWatch
  split
  · split
    · exact h.readLeg
    · exact h
  · exact h

theorem State.Still.beginPlan (kind : OrderKind) (h : s.Still t r) : s.Still t (r.beginPlan t kind) := by
  have moving : s.Still t (r.upd t (Transport.setState .moving)) := h.seq _
  unfold State.beginPlan
  dsimp only
  split
  · exact moving.orderRun _
  · exact moving.orderRun _
  · exact moving.orderRun _
  · exact moving.beginLeg _
  · split
    · exact moving
    · have named := fun (a : Int) (m : Nat) => moving.upd
        (fun y => (y.modWork fun _ w => { w with copied := some a }).modCapture fun c =>
          { c with target := some { number := m, pos := a } })
        ⟨rfl, rfl, rfl, .inl rfl, rfl, rfl, .inl rfl⟩
      split
      · exact (named _ _).beginLeg _
      · split
        · exact (named _ _).beginLeg _
        · exact (named _ _).beginSearch
  · exact (h.seq _).beginRewind _
  · exact h.beginUnload _

theorem State.Still.launch (kind : OrderKind) (h : s.Still t r) : s.Still t (r.launch t kind) :=
  State.Still.beginPlan _ (h.upd _ (Transport.still_of _ _ rfl rfl))

theorem State.Still.startPending (fuel : Nat) (h : s.Still t r) : s.Still t (r.startPending t fuel) := by
  induction fuel generalizing r with
  | zero => exact h
  | succ n ih =>
    unfold State.startPending
    dsimp only
    split
    · split
      · exact h
      · split
        · exact ih (h.modList _)
        · exact h.launch _
    · exact h

theorem State.Still.orderEnd (status : Completion) (next : XState) (h : s.Still t r) :
    s.Still t (r.orderEnd t status next) := by
  unfold State.orderEnd
  refine State.Still.startPending _ (h.upd _ ?_)
  exact ⟨rfl, rfl, rfl, .inl rfl, rfl, rfl, .inl rfl⟩

theorem State.Still.approachAtRest (o : Order) (w : Work) (z : Bool) (h : s.Still t r) :
    s.Still t (r.approachAtRest t o w z) := by
  unfold State.approachAtRest
  split
  · split
    · split
      · exact h.orderEnd _ _
      · exact h.beginSearch
    · exact h.orderEnd _ _
  · split
    · exact h.orderEnd _ _
    · exact h.orderRun _

theorem State.Still.ordersAtRest (z : Bool) (h : s.Still t r) : s.Still t (r.ordersAtRest t z) := by
  unfold State.ordersAtRest
  split
  · exact h
  · split
    · exact h
    · exact h.approachAtRest _ _ _
    · split
      · exact h.orderEnd _ _
      · split
        · exact h.orderEnd _ _
        · exact h.beginSearch
      · exact h.orderEnd _ _

/-- A STOP request of the Order Slots leaves the position as it is (R12). -/
theorem State.Still.stopOrders (h : s.Still t r) : s.Still t (r.stop t .orders) := by
  unfold State.stop
  split
  · exact State.Still.ordersAtRest _ (h.upd _ (Transport.still_accept _ .orders _))
  · exact h.upd _ ⟨rfl, rfl, rfl, .inl rfl, rfl, rfl, .inl rfl⟩
  · exact h.upd _ ⟨rfl, rfl, rfl, .inl rfl, rfl, rfl, .inl rfl⟩
  · exact h.upd _ (Transport.still_stopDriven _ _ _)

theorem State.Still.stopOrder (reason : Completion) (b : Option Nat) (h : s.Still t r) :
    s.Still t (r.stopOrder t reason b) := (h.work _).stopOrders

theorem State.Still.barrierStop (n : Nat) (h : s.Still t r) : s.Still t (r.barrierStop t n) := by
  unfold State.barrierStop
  split
  · split
    · exact h.stopOrder _ _
    · exact h
  · exact h

theorem State.Still.blankStop (h : s.Still t r) : s.Still t (r.blankStop t) := by
  unfold State.blankStop
  split
  · split
    · exact h.stopOrder _ _
    · exact h
  · exact h

theorem State.Still.haltSearchEnd (h : s.Still t r) : s.Still t (r.haltSearchEnd t) := by
  unfold State.haltSearchEnd
  split
  · split
    · exact h.stopOrder _ _
    · exact h
  · exact h

theorem State.Still.distanceWatch (d : Dir) (h : s.Still t r) : s.Still t (r.distanceWatch t d) := by
  unfold State.distanceWatch
  dsimp only
  split
  · split
    · exact (h.work _).blankStop
    · split
      · exact (h.work _).haltSearchEnd
      · exact h.work _
  · exact h.work _

theorem State.Still.searchWatch (h : s.Still t r) : s.Still t (r.searchWatch t) := by
  unfold State.searchWatch
  split
  · split
    · split
      · exact h.work _
      · exact h
    · exact h
  · exact h

/-- An approach in force is driven, so the end of the load-point search only begins a ramp down (R113). -/
theorem State.Still.searchEnd (h : s.Still t r) : s.Still t (r.searchEnd t) := by
  unfold State.searchEnd
  split
  case isFalse => exact h
  case isTrue k =>
    have a := k.2
    unfold State.stop
    cases e : (r.tr t).cap.seg.cond with
    | running => exact h.upd _ (Transport.still_stopDriven _ _ _)
    | ramping g => exact h.upd _ (Transport.still_stopDriven _ _ _)
    | atRest => simp [Segment.approaching, e] at a
    | coasting => simp [Segment.approaching, e] at a
    | free => simp [Segment.approaching, e] at a

theorem State.Still.findWatch (d : Dir) (h : s.Still t r) : s.Still t (r.findWatch t d) := by
  unfold State.findWatch
  dsimp only
  split
  · split
    · exact (h.seq _).searchEnd
    · exact h.seq _
  · exact h

theorem State.Still.rewindWatch (h : s.Still t r) : s.Still t (r.rewindWatch t) := by
  unfold State.rewindWatch
  dsimp only
  split
  · exact h.run _ _
  · exact h

theorem State.tr_modBoundMarks (f : List Mark → List Mark) (s : State) (u : TNum) :
    (s.modBoundMarks t f).tr u = s.tr u := by
  unfold State.modBoundMarks
  split <;> rfl

theorem State.Still.marks (f : List Mark → List Mark) (h : s.Still t r) : s.Still t (r.modBoundMarks t f) := by
  unfold State.Still
  rw [State.tr_modBoundMarks]
  exact h

theorem State.Still.watch (f : Capture → List BarrierWatch) (h : s.Still t r) :
    s.Still t (r.upd t fun x => x.modCapture fun c => { c with watch := f c }) :=
  h.upd _ ⟨rfl, rfl, rfl, .inl rfl, rfl, rfl, .inl rfl⟩

theorem State.Still.watchLow (h : s.Still t r) : s.Still t (r.watchLow t) := by
  unfold State.watchLow
  dsimp only
  split
  · exact h.watch _
  · exact h

theorem State.Still.lowBounds (h : s.Still t r) : s.Still t (r.lowBounds t) := by
  unfold State.lowBounds
  split
  · exact h.barrierStop _
  · exact h.watchLow

theorem State.Still.doubtAll (l : List PassedBarrier) (h : s.Still t r) :
    s.Still t (l.foldl (fun acc p => if p.doubts then acc.doubt t p.number else acc) r) := by
  induction l generalizing r with
  | nil => exact h
  | cons p rest ih =>
    apply ih
    dsimp only
    split
    · exact h.marks _
    · exact h

theorem State.Still.highBounds (l : List PassedBarrier) (h : s.Still t r) : s.Still t (r.highBounds t l) := by
  have ended : s.Still t (r.endWatches t l) := (h.watch _).doubtAll l
  unfold State.highBounds
  dsimp only
  split
  · exact ended.barrierStop _
  · exact ended

theorem State.Still.searchPassWatch (e : Option SearchEnd) (c : Int) (h : s.Still t r) :
    s.Still t (r.searchPassWatch t e c) := by
  unfold State.searchPassWatch
  split
  · split
    · unfold State.searchPassed
      split
      · split
        · exact h
        split
        · exact h.stopOrder _ _
        · dsimp only
          refine State.Still.stopOrder _ _ ?_
          split
          · split
            · exact h.marks _
            · exact h
          · exact h
      · exact h
    · exact h
  · exact h

end Sys2Proof.Machine
end

