-- ==== Sys2Proof/Laws/Tables.lean ====
section
/-! SUPPORT. What the operations on the Volume Table and the mark pool keep: the order of each list and the size of the
pool, the shelf list, and the uniqueness of serials and transports. -/

namespace Sys2Proof.Machine

open Sys2Proof

/-! ### The pool (R40, R44, R51) -/

theorem sum_set (l : List Nat) (i v : Nat) (h : i < l.length) : (l.set i v).sum + l[i] = l.sum + v := by
  induction l generalizing i with
  | nil => simp at h
  | cons a l ih =>
    cases i with
    | zero => simp; omega
    | succ i =>
      have := ih i (by simpa using h)
      simp
      omega

/-- A list replaced changes the pool by its length. -/
theorem State.pool_setMarks (i : Fin 16) (l : List Mark) (s : State) :
    (s.setMarks i l).poolInUse + s.marks[i].length = s.poolInUse + l.length := by
  have h := sum_set (s.marks.toList.map List.length) i.val l.length (by simp)
  rw [List.getElem_map, Vector.getElem_toList, ← List.map_set] at h
  simpa [State.poolInUse, State.setMarks, Vector.toList_set] using h

theorem State.marks_setMarks (i j : Fin 16) (l : List Mark) (s : State) :
    (s.setMarks i l).marks[j] = if i = j then l else s.marks[j] := by
  unfold State.setMarks
  split
  case isTrue e =>
    subst e
    simp
  case isFalse e =>
    have n : i.val ≠ j.val := fun q => e (Fin.ext q)
    simp [Vector.getElem_set_ne _ _ n]

theorem State.marksSound_of_marks {s r : State} (h : s.marksSound) (e : r.marks = s.marks) : r.marksSound := by
  unfold State.marksSound State.poolInUse
  rw [e]
  exact h

/-- A list in order put in the place of another keeps the pool sound while there is room (R40, R44). -/
theorem State.marksSound_setMarks (i : Fin 16) (l : List Mark) (s : State) (h : s.marksSound) (ok : MarksOk l)
    (room : s.poolInUse + l.length ≤ Config.poolSize + s.marks[i].length) : (s.setMarks i l).marksSound := by
  refine ⟨fun j => ?_, ?_⟩
  · rw [State.marks_setMarks]
    split
    · exact ok
    · exact h.1 j
  · have := State.pool_setMarks i l s
    omega

theorem MarksOk.nil : MarksOk [] := ⟨List.Pairwise.nil, List.nodup_nil⟩

theorem State.evict_marks (i : Fin 16) (s : State) : (s.evict i).marks = (s.setMarks i []).marks := rfl

theorem State.marksSound_evict (i : Fin 16) (s : State) (h : s.marksSound) : (s.evict i).marksSound :=
  State.marksSound_of_marks (s.marksSound_setMarks i [] h MarksOk.nil (by have := h.2; simp; omega)) (s.evict_marks i)

theorem State.marksSound_events {t : TNum} {s r : State} (h : s.marksSound) (k : s.Kept t r) : r.marksSound := by
  have m := k.marks h.1
  refine ⟨fun i => (m i).1, ?_⟩
  have e : r.marks.toList.map List.length = s.marks.toList.map List.length := by
    apply List.ext_getElem
    · simp
    · intro n a b
      have := (m ⟨n, by simpa using a⟩).2
      simpa using this
  have := h.2
  unfold State.poolInUse at *
  rw [e]
  exact this

/-- The room SET MARK finds: a free record, with every list as it was or emptied by the eviction (R51). -/
theorem State.makeRoom_room {s room : State} {e : Option Serial} (h : s.makeRoom = some (room, e)) (m : s.marksSound) :
    room.marksSound ∧ room.poolInUse < Config.poolSize ∧
      ∀ i : Fin 16, room.marks[i] = s.marks[i] ∨ room.marks[i] = [] := by
  unfold State.makeRoom at h
  split at h
  case isTrue p =>
    cases h
    exact ⟨m, p, fun i => .inl rfl⟩
  case isFalse p =>
    split at h
    case h_2 => cases h
    case h_1 i q =>
      cases h
      refine ⟨State.marksSound_evict i s m, ?_, fun j => ?_⟩
      · have len : 0 < s.marks[i].length := by
          have := List.find?_some q
          exact of_decide_eq_true this
        have pool := State.pool_setMarks i [] s
        have size := m.2
        have same : (s.evict i).poolInUse = (s.setMarks i []).poolInUse := rfl
        rw [same]
        simp only [List.length_nil] at pool
        omega
      · rw [State.evict_marks, State.marks_setMarks]
        split
        · exact .inr rfl
        · exact .inl rfl

/-! ### The table (R23 to R27) -/

theorem State.volumes_setEntry (i j : Fin 16) (e : Entry) (s : State) :
    (s.setEntry i e).volumes[j] = if i = j then e else s.volumes[j] := by
  unfold State.setEntry
  split
  case isTrue q =>
    subst q
    simp
  case isFalse q =>
    have n : i.val ≠ j.val := fun e => q (Fin.ext e)
    simp [Vector.getElem_set_ne _ _ n]

theorem State.volumesSound_of {s r : State} (h : s.volumesSound) (v : r.volumes = s.volumes) (l : r.shelf = s.shelf)
    (m : ∀ i : Fin 16, s.volumes[i].isFree = true → r.marks[i] = []) : r.volumesSound := by
  unfold State.volumesSound State.serialOf at *
  rw [v, l]
  exact ⟨h.1, h.2.1, h.2.2.1, h.2.2.2.1, m⟩

/-- What a change of one entry must do to the shelf list, the serials and the marks to keep the table sound. -/
theorem State.volumesSound_set {s r : State} (h : s.volumesSound) (i : Fin 16) (e : Entry)
    (v : r.volumes = s.volumes.set i e)
    (nodup : r.shelf.Nodup) (mine : i ∈ r.shelf ↔ e.isShelved = true) (others : ∀ j, j ≠ i → (j ∈ r.shelf ↔ j ∈ s.shelf))
    (serial : ∀ j, j ≠ i → ∀ q, (e.volume?.map fun k => k.serial) = some q → s.serialOf j ≠ some q)
    (bound : ∀ (t : TNum) j, j ≠ i → e.isOn t = true → s.volumes[j].isOn t = false)
    (free : e.isFree = true → r.marks[i] = [])
    (marks : ∀ j : Fin 16, j ≠ i → s.volumes[j].isFree = true → r.marks[j] = []) : r.volumesSound := by
  have at_i : r.volumes[i] = e := by simp [v]
  have at_j : ∀ j : Fin 16, j ≠ i → r.volumes[j] = s.volumes[j] := by
    intro j n
    have q : i.val ≠ j.val := fun k => n (Fin.ext k).symm
    simp [v, Vector.getElem_set_ne _ _ q]
  have serial_i : r.serialOf i = e.volume?.map fun k => k.serial := by
    unfold State.serialOf
    rw [at_i]
  have serial_j : ∀ j, j ≠ i → r.serialOf j = s.serialOf j := fun j n => by
    unfold State.serialOf
    rw [at_j j n]
  refine ⟨nodup, fun j => ?_, fun j k => ?_, fun t j k => ?_, fun j => ?_⟩
  · by_cases n : j = i
    · rw [n, at_i]
      exact mine
    · rw [at_j j n, others j n]
      exact h.2.1 j
  · intro some_j same
    by_cases n : j = i
    · by_cases n' : k = i
      · rw [n, n']
      · subst n
        obtain ⟨q, hq⟩ := Option.isSome_iff_exists.mp some_j
        rw [serial_j k n'] at same
        exact absurd (same.symm.trans hq) (serial k n' q (serial_i ▸ hq))
    · by_cases n' : k = i
      · subst n'
        obtain ⟨q, hq⟩ := Option.isSome_iff_exists.mp some_j
        rw [serial_j j n] at hq
        refine absurd hq (serial j n q ?_)
        rw [← serial_i, ← same, serial_j j n]
        exact hq
      · rw [serial_j j n] at some_j same
        rw [serial_j k n'] at same
        exact h.2.2.1 j k some_j same
  · intro hj hk
    by_cases n : j = i
    · by_cases n' : k = i
      · rw [n, n']
      · rw [n, at_i] at hj
        rw [at_j k n', bound t k n' hj] at hk
        cases hk
    · by_cases n' : k = i
      · rw [n', at_i] at hk
        rw [at_j j n, bound t j n hk] at hj
        cases hj
      · rw [at_j j n] at hj
        rw [at_j k n'] at hk
        exact h.2.2.2.1 t j k hj hk
  · intro hf
    by_cases n : j = i
    · rw [n]
      rw [n, at_i] at hf
      exact free hf
    · rw [at_j j n] at hf
      exact marks j n hf

theorem mem_unshelve (i j : Fin 16) (l : List (Fin 16)) : j ∈ (l.filter fun k => k != i) ↔ j ∈ l ∧ j ≠ i := by
  simp

/-- An entry made FREE (R33, R37). -/
theorem State.volumesSound_freeEntry (i : Fin 16) (s : State) (h : s.volumesSound) : (s.freeEntry i).volumesSound := by
  refine State.volumesSound_set h i .free rfl (h.1.filter _) ?_ ?_ nofun nofun ?_ ?_
  · show i ∈ s.shelf.filter _ ↔ _
    rw [mem_unshelve]
    simp [Entry.isShelved]
  · intro j n
    show j ∈ s.shelf.filter _ ↔ _
    rw [mem_unshelve]
    simp [n]
  · intro _
    show (s.setMarks i []).marks[i] = []
    rw [State.marks_setMarks, if_pos rfl]
  · intro j n f
    show (s.setMarks i []).marks[j] = []
    rw [State.marks_setMarks]
    split
    · rfl
    · exact h.2.2.2.2 j f

theorem State.volumesSound_evict (i : Fin 16) (s : State) (h : s.volumesSound) : (s.evict i).volumesSound :=
  State.volumesSound_of (s.volumesSound_freeEntry i h) rfl rfl (s.volumesSound_freeEntry i h).2.2.2.2

/-- An entry mounted on a transport that had no volume, with a serial of its own (R27, R29 to R31). -/
theorem State.volumesSound_mount (i : Fin 16) (v : Volume) (t : TNum) (s : State) (h : s.volumesSound)
    (serial : ∀ j, j ≠ i → s.serialOf j ≠ some v.serial) (bound : ∀ j : Fin 16, s.volumes[j].isOn t = false) :
    (s.mount i v t).volumesSound := by
  refine State.volumesSound_set h i (.mounted v t) rfl (h.1.filter _) ?_ ?_ ?_ ?_ nofun ?_
  · show i ∈ s.shelf.filter _ ↔ _
    rw [mem_unshelve]
    simp [Entry.isShelved]
  · intro j n
    show j ∈ s.shelf.filter _ ↔ _
    rw [mem_unshelve]
    simp [n]
  · intro j n q e
    cases e
    exact serial j n
  · intro u j _ e
    have : t = u := by simpa [Entry.isOn] using e
    subst this
    exact bound j
  · intro j _ f
    exact h.2.2.2.2 j f

/-- The bound entry is the one on the transport (R27). -/
theorem State.boundIdx_isOn {t : TNum} {s : State} {i : Fin 16} (h : s.boundIdx t = some i) : s.volumes[i].isOn t = true := by
  unfold State.boundIdx at h
  exact (List.find?_eq_some_iff_append.mp h).1

theorem State.boundIdx_none {t : TNum} {s : State} (h : s.boundIdx t = none) (i : Fin 16) : s.volumes[i].isOn t = false := by
  have := (List.find?_eq_none.mp h) i (List.mem_finRange i)
  simpa using this

/-- The bound entry shelved at the young end (R35, R36). -/
theorem State.volumesSound_shelveBound (t : TNum) (s : State) (h : s.volumesSound) : (s.shelveBound t).volumesSound := by
  unfold State.shelveBound
  split
  case h_2 => exact h
  case h_1 i b =>
    split
    case h_2 => exact h
    case h_1 v u e =>
      have out : i ∉ s.shelf := fun k => by
        have := (h.2.1 i).mp k
        rw [e] at this
        cases this
      refine State.volumesSound_set h i (.shelved v) rfl ?_ ?_ ?_ ?_ nofun nofun ?_
      · show (s.shelf ++ [i]).Nodup
        rw [List.nodup_append]
        refine ⟨h.1, by simp, ?_⟩
        intro a ha b hb q
        simp at hb
        subst hb
        exact out (q ▸ ha)
      · show i ∈ s.shelf ++ [i] ↔ _
        simp [Entry.isShelved]
      · intro j n
        show j ∈ s.shelf ++ [i] ↔ _
        simp [n]
      · intro j n q k hj
        have mine : s.serialOf i = some q := by
          unfold State.serialOf
          rw [e]
          exact k
        exact n (h.2.2.1 j i (by rw [hj]; rfl) (hj.trans mine.symm))
      · intro j _ f
        exact h.2.2.2.2 j f

theorem State.findSerial_some {serial : Serial} {s : State} {i : Fin 16} (h : s.findSerial serial = some i) :
    s.serialOf i = some serial := by
  have := List.find?_some h
  simpa [State.serialOf] using this

theorem State.findSerial_none {serial : Serial} {s : State} (h : s.findSerial serial = none) (i : Fin 16) :
    s.serialOf i ≠ some serial := by
  have := (List.find?_eq_none.mp h) i (List.mem_finRange i)
  simpa [State.serialOf] using this

/-- An event of one transport touches neither the table nor the marks of FREE entries. -/
theorem State.volumesSound_events {t : TNum} {s r : State} (h : s.volumesSound) (k : s.Kept t r) : r.volumesSound := by
  refine State.volumesSound_of h k.volumes k.shelf fun i f => ?_
  rw [k.elsewhere i]
  · exact h.2.2.2.2 i f
  · intro b
    have := State.boundIdx_isOn b
    revert f this
    cases s.volumes[i] <;> nofun

end Sys2Proof.Machine
end

