-- ==== Sys2Proof/Tests/Slice0.lean ====
section
/-! SUPPORT. Tests by `decide`: the well-formedness check, messages read from bytes written out from the catalogue, and
for each statement with hypotheses a small state that meets them, at the ends of their ranges. -/

namespace Sys2Proof.Tests

open Sys2Proof Sys2Proof.Machine

/-! ### Well-formedness and the table -/

theorem test_ill_formed_frame_error : (Instr.frameError false false).wellFormed = false := rfl
theorem test_well_formed : (Instr.frameError true false).wellFormed = true ∧ Instr.poll.wellFormed = true ∧
    (Instr.queueOrder 9 0 9 0).wellFormed = true := by decide
theorem test_no_table_word : decodeTableWord 8 1 = none ∧ State.reset.withFetchWord 8 1 = State.reset := ⟨rfl, rfl⟩

/-! ### Messages (R178), each body written out from the catalogue -/

/-- The example of spec/11: SPACE_F 50 with tag 4 on T1. -/
theorem test_message_queue_order :
    decodeMessage 0x40 [0x01, 0x04, 0x00, 0x00, 0x00, 0x32] = .known (.queueOrder 1 4 0 50) := by decide
theorem test_message_check : byteSum [0x08, 0x40, 0x01, 0x04, 0x00, 0x00, 0x00, 0x32, 0x81] = 0 := by decide
theorem test_message_bad_length : decodeMessage 0x40 [0x01] = .badLength 0x40 [0x01] := rfl
theorem test_message_unknown : decodeMessage 0x7E [] = .unknown 0x7E [] := rfl
theorem test_message_poll : decodeMessage 0x01 [] = .known .poll := rfl
theorem test_message_masks :
    decodeMessage 0x03 [1, 2, 4, 8, 3] = .known (.setNoticeMasks ⟨⟨1, 2, 4, 8⟩, 3⟩) := rfl
theorem test_message_class : decodeMessage 0x11 [2, 1] = .known (.setDefaultClass 2 1) := rfl
theorem test_message_bind :
    decodeMessage 0x20 [3, 0x41, 0x20, 0x20, 0x20, 0x20, 0x20, 0x12, 0x34, 1, 0x01, 0x02, 0x03] =
      .known (.bindVolume 3 ⟨0x41, 0x20, 0x20, 0x20, 0x20, 0x20⟩ 0x1234 1 0x010203) := by decide
theorem test_message_set_mark :
    decodeMessage 0x30 [0, 0x0F, 0xFF, 0x0E, 2, 0xFF, 0xFF, 0xFF, 0xDE, 0xAD, 0xBE, 0xEF] =
      .known (.setMark 0 4095 0x0E 2 0xFFFFFF 0xDEADBEEF) := by decide
theorem test_message_find_nearest :
    decodeMessage 0x35 [0, 0xFF, 0x80, 0x00, 1] = .known (.findNearest 0 0xFF8000 1) := by decide
theorem test_message_capture :
    decodeMessage 0x38 [1, 0x03, 0xFF, 0x00, 0x50, 3] = .known (.setCaptureParameters 1 1023 80 3) := by decide
theorem test_message_loops :
    decodeMessage 0x60 [0, 12, 100, 156, 244, 2, 2] = .known (.setLoopParameters 0 12 100 156 244 2 2) := rfl
theorem test_message_hold : decodeMessage 0x71 [2] = .known (.readHoldRecord 2) := rfl

/-- The response of the example of spec/11: 3 free slots, PENDING, an unread record on T1. -/
theorem test_response_frames :
    (responseFrames 5 0x02 { status := .done, body := [3, 0] }).map (fun f => f.data) =
      [0x05, 0x05, 0x00, 0x02, 0x03, 0x00, 0xF6] := by decide

/-! ### Small states -/

/-- The state a command answers. -/
def after (c : Instr) (s : State) : State :=
  match exec c s with
  | .next r => r
  | .fault _ => s
  | .refused _ => s

/-- The status byte of the response being sent. -/
def statusSent (s : State) : Option Byte :=
  match s.line.transmitter with
  | .sending frames _ => (frames[2]?).map fun f => f.data
  | .idle => none

/-- The frames' data after the summary, without the CHECK. -/
def bodySent (s : State) : List Byte :=
  match s.line.transmitter with
  | .sending frames _ => ((frames.drop 4).map fun f => f.data).dropLast
  | .idle => []

/-- The reset state with the line able to answer. -/
def base : State := { State.reset with line := { Line.reset with receiver := .idle .addressed } }

/-- T0 changed. -/
def on (f : Transport → Transport) (s : State) : State := s.upd .t0 f

/-- A driven segment RUNNING. -/
def runs (d : Dir) (v : Speed) (o : Owner) : Segment :=
  { cond := .running, dir := some d, speed := some v, stopTarget := none, approach := .none, owner := some o
    cls := .standard }

/-- A ramp of a segment. -/
def ramps (goal : RampGoal) (o : Owner) : Segment :=
  { runs .forward .read o with
    cond := .ramping { dir := .forward, goal := goal, fromSpeed := 0, toSpeed := 4000, fromFeed := 0, toFeed := 60
                       low := none, high := .read, began := 0, lasts := 2500, start := none } }

/-- T0 with a threaded tape, at rest at 150 in EXACT confidence, its drive on. -/
def ready : State := base |> on fun x =>
  { x with
    cap := { x.cap with counter := 150, conf := .exact }
    sequencer := { x.sequencer with state := .ready, online := true, valveOpen := true }
    prot := { x.prot with
      driveEnable := true, vacuum := { raw := true, debounced := true, since := none }
      reelPresent := { raw := true, debounced := true, since := none } }
    supply := { x.supply with brake := false, zone := .center }
    takeup := { x.takeup with brake := false, zone := .center }
    supplySlot := { depth := 128, fresh := false }, takeupSlot := { depth := 128, fresh := false } }

/-- T0 in another state of the Sequencer. -/
def inState (st : XState) (s : State) : State := s |> on (Transport.setState st)

def offline (s : State) : State := s |> on fun x => { x with sequencer := { x.sequencer with online := false } }

def serialA : Serial := ⟨0x41, 0x20, 0x20, 0x20, 0x20, 0x20⟩

def volumeA : Volume := { serial := serialA, generation := 1, cls := .light, length := 5000 }

def mark (n : Nat) (p : Int) : Mark :=
  { number := n, kind := .point, pos := p, state := .verified, mode := .both, passed := false, tag := some 7 }

/-- Volume A in entry 0 with two marks. -/
def withEntry (e : Entry) (s : State) : State :=
  { s with volumes := s.volumes.set 0 e, marks := s.marks.set 0 [mark 1 100, mark 4095 200] }

def bound : State := ready |> withEntry (.mounted volumeA .t0)

def shelved : State := { (ready |> withEntry (.shelved volumeA)) with shelf := [0] }

/-- T0 running an order of a kind in a phase, its capstan RUNNING at READ speed. -/
def runningOrder (k : OrderKind) (p : OrderPhase) (d : Dir) : State := (ready |> inState .moving) |> on fun x =>
  { x with
    cap := { x.cap with seg := runs d .read .orders, lastDir := d }
    orders := { x.orders with list := [.running { tag := 1, kind := k } (Work.fresh 0 p)] } }

theorem test_lines_ready :
    base.lineReady ∧ ready.lineReady ∧ (offline ready).lineReady ∧ bound.lineReady ∧ shelved.lineReady ∧
      (runningOrder (.advance 5) .readLeg .forward).lineReady :=
  ⟨⟨rfl, rfl, rfl⟩, ⟨rfl, rfl, rfl⟩, ⟨rfl, rfl, rfl⟩, ⟨rfl, rfl, rfl⟩, ⟨rfl, rfl, rfl⟩, ⟨rfl, rfl, rfl⟩⟩

/-! ### The queue and the line: the hypotheses of the statements are met, clause by clause -/

theorem test_idle_step : State.reset.pending = [] ∧ (Host.Core.run Sys2Proof.core 1 State.reset) = .next
    { State.reset with clock := 1 } := ⟨rfl, rfl⟩

/-- A transport with a reel whose tape stands in a column at the last depth below limit_long, and one without. -/
def pins (depth : Byte) : XPins :=
  { rawGap := .gap, vacuumPresent := true, doorOpen := false, reelPresent := true, supplyDepth := depth
    takeupDepth := 255 }

theorem test_power_on :
    let s := after (.powerOn { station := 5, rate := 2, x := ⟨pins 243, pins 244, pins 0, pins 255⟩ }) base
    (s.tr .t0).sequencer.state = .held ∧ (s.tr .t1).sequencer.state = .unloaded ∧
      s.converter.busy = some { t := .t0, reel := .supply, handed := true } := by decide

/-- The line with another receiver. -/
def listening (r : Receiver) : State := { base with line := { base.line with receiver := r } }

theorem test_address_frames :
    (after (.addressFrame 0) base).line.receiver = .idle .addressed ∧
      (after (.addressFrame 0xFF) base).line.receiver = .idle .broadcast ∧
      (after (.addressFrame 1) base).line.receiver = .unselected := by decide

theorem test_data_frames :
    (listening .unselected).line.receiver = .unselected ∧
      (listening (.discarding .addressed)).line.receiver = .discarding .addressed ∧
      (listening (.idle .addressed)).line.receiver = .idle .addressed ∧
      (2 ≤ (2 : Byte).toNat ∧ (2 : Byte).toNat ≤ 63) ∧ (2 ≤ (63 : Byte).toNat ∧ (63 : Byte).toNat ≤ 63) ∧
      (1 : Byte).toNat < 2 ∧ 63 < (64 : Byte).toNat ∧
      (listening (.receiving .broadcast 2 [2])).line.receiver = .receiving .broadcast 2 [2] ∧
      (listening (.receiving .addressed 1 [2, 1])).line.receiver = .receiving .addressed 1 [2, 1] ∧
      byteSum ([2, 1] ++ [0xFC]) ≠ 0 ∧ (after (.dataFrame 0xFC) (listening (.receiving .addressed 1 [2, 1]))).ctl.line :=
  by decide

theorem test_frame_errors :
    (true || false) = true ∧ (after (.frameError true false) base).line.flags.parity = true ∧
      (after (.frameError true false) (listening (.receiving .addressed 3 [4]))).line.receiver =
        .discarding .addressed ∧
      after .frameGapTimeout (listening .unselected) = listening .unselected ∧
      (after .frameGapTimeout (listening (.receiving .addressed 3 [4]))).line.flags.timeout = true := by decide

theorem test_wire_frames :
    ({ data := 0x41, kind := false, parity := true, stop := true } : WireFrame).command = .dataFrame 0x41 ∧
      ({ data := 0x05, kind := true, parity := false, stop := true } : WireFrame).command = .addressFrame 0x05 ∧
      ({ data := 0x05, kind := true, parity := true, stop := true } : WireFrame).command = .frameError true false ∧
      ({ data := 0x41, kind := false, parity := true, stop := false } : WireFrame).command = .frameError false true :=
  by decide

theorem test_messages_run :
    let s : State := { base with pending := (messageBytes .poll).map .dataFrame }
    let b : State := { listening (.idle .broadcast) with pending := (messageBytes .poll).map .dataFrame }
    s.line.receiver = .idle .addressed ∧ b.line.receiver = .idle .broadcast ∧ Request.poll ≠ .allStop ∧
      Request.poll ≠ .resetStation := by decide

theorem test_common_checks :
    let got : List Byte := [0x02, 0x7E]
    let bad : List Byte := [0x03, 0x01, 0x00]
    byteSum (got ++ [0x80]) = 0 ∧ got.length = 0 + 2 ∧ got.getD 1 0 = 0x7E ∧ got.drop 2 = [] ∧
      decodeMessage 0x7E [] = .unknown 0x7E [] ∧ byteSum (bad ++ [0xFC]) = 0 ∧ bad.length = 1 + 2 ∧
      bad.getD 1 0 = 0x01 ∧ bad.drop 2 = [0] ∧ decodeMessage 0x01 [0] = .badLength 0x01 [0] ∧
      statusSent (after (.dataFrame 0x80) (listening (.receiving .addressed 1 got))) =
        some (byte Status.unknownRequest.code) ∧
      statusSent (after (.dataFrame 0xFC) (listening (.receiving .addressed 1 bad))) =
        some (byte Status.badLength.code) ∧
      (Request.halt 4).transportByte? = some 4 ∧ 4 ≤ (4 : Byte).toNat ∧
      statusSent (after (.halt 4) base) = some (byte Status.badParameter.code) := by decide

/-- A response is being sent. -/
def sendingNow (b : Option Buffered) : State :=
  { base with line := { base.line with transmitter := .sending [] false, buffer := b } }

def waitingPoll : Option Buffered := some { message := .known .poll, kind := .addressed }

theorem test_requests_wait :
    (sendingNow none).line.buffer = none ∧ (sendingNow none).line.transmitter.isIdle = false ∧
      (after .poll (sendingNow none)).line.buffer = waitingPoll ∧ (sendingNow waitingPoll).line.buffer = waitingPoll ∧
      (after .poll (sendingNow waitingPoll)).line.flags.overrun = true ∧
      (after .transmitEnd (sendingNow waitingPoll)).line.buffer = none ∧
      statusSent (after .transmitEnd (sendingNow waitingPoll)) = some 0 := by decide

theorem test_longest_response : (List.replicate 60 (0 : Byte)).length ≤ 60 := by decide

theorem test_line_status :
    bodySent (after .poll base) = [0, 0] ∧
      bodySent (after .readLineStatus (after (.frameError false true) base)) = [2] := by decide

/-! ### Notices and stops -/

theorem test_notices :
    (after (.setNoticeMasks ⟨⟨1, 0, 0, 0⟩, 2⟩) base).ctlMasks = { evict := false, line := true } ∧
      bodySent (after .readEviction base) = [0, 0, 0, 0, 0, 0, 0] ∧
      bodySent (after .readNotices base) = [0, 0, 0, 0, 0, 31, 31, 31, 31, 3, 0] ∧
      statusSent (after (.ackNotices ⟨⟨31, 31, 31, 31⟩, 3⟩) base) = some 0 ∧ base.attention = false := by decide

theorem test_quiet_transports :
    base.line.buffer = none ∧ base.line.transmitter = .idle ∧
      (∀ t, (base.tr t).running = none ∧ (base.tr t).sequencer.panelMotion = false) ∧
      (after (.resetStation .broadcast) base).line.receiver = .unselected :=
  ⟨rfl, rfl, fun t => by cases t <;> exact ⟨rfl, rfl⟩, by decide⟩

theorem test_all_stop :
    let s := runningOrder (.advance 5) .readLeg .forward
    s.lineReady ∧ (s.tr .t0).running.isSome = true ∧ (s.tr .t0).releasing = false ∧
      (∀ u, u ≠ TNum.t0 → (s.tr u).running = none ∧ (s.tr u).sequencer.panelMotion = false) ∧
      bodySent (after (.allStop .addressed) s) = [128, 0, 0, 0] :=
  ⟨⟨rfl, rfl, rfl⟩, rfl, rfl, fun u h => by cases u <;> first | exact absurd rfl h | exact ⟨rfl, rfl⟩, by decide⟩

/-! ### The capstan -/

theorem test_position_requests :
    Inertia.light.code = (0 : Byte).toNat ∧ Inertia.heavy.code = (2 : Byte).toNat ∧ 2 < (3 : Byte).toNat ∧
      bodySent (after (.readPosition 0) ready) = [0, 0, 150, 0, 0x80, 0, 0, 0x80, 0, 0, 0, 5, 0] ∧
      ((after (.setDefaultClass 0 2) ready).tr .t0).cap.defaultClass = .heavy := by decide

theorem test_counts :
    (ready.tr .t0).capture.windows = [] ∧ ((after (.capstanTachCount .t0 .forward) ready).tr .t0).cap.counter = 151 ∧
      ((after (.capstanTachCount .t0 .reverse) ready).tr .t0).cap.counter = 149 := by decide

/-- T0 with its counter at an end of the range. -/
def counterAt (p : Int) : State := ready |> on fun x => { x with cap := { x.cap with counter := p } }

theorem test_counts_at_the_ends :
    ((after (.capstanTachCount .t0 .forward) (counterAt 8388607)).tr .t0).cap.conf = .lost ∧
      ((after (.capstanTachCount .t0 .reverse) (counterAt (-32768))).tr .t0).cap.conf = .lost := by decide

theorem test_counts_pass_marks :
    let s := bound |> on fun x => { x with cap := { x.cap with counter := 199 } }
    (s.tr .t0).sequencer.state = .ready ∧ (s.tr .t0).running = none ∧ (s.tr .t0).capture.windows = [] ∧
      (s.tr .t0).capture.watch = [] ∧ (s.tr .t0).cap.seg.stopTarget = none ∧ s.boundIdx .t0 = some 0 ∧
      -32768 < (s.tr .t0).cap.counter ∧ (s.tr .t0).cap.counter < 8388607 ∧ (s.tr .t0).cap.conf ≠ .lost ∧
      (after (.capstanTachCount .t0 .forward) s).passedFlag .t0 = true := by decide

/-- T0 with its segment replaced. -/
def withSegment (g : Segment) (s : State) : State := s |> on fun x => { x with cap := { x.cap with seg := g } }

/-- T0 moving forward at READ speed for an order, on volume A with some marks. -/
def passing (k : OrderKind) (w : Work) (marks : List Mark) (here : Int) : State :=
  let s := (runningOrder k .readLeg .forward) |> withEntry (.mounted volumeA .t0) |> on fun x =>
    { x with
      cap := { x.cap with counter := here }
      orders := { x.orders with list := [.running { tag := 1, kind := k } w] } }
  { s with marks := s.marks.set 0 marks }

def withWindow (v : Window) (s : State) : State :=
  s |> on fun x => { x with capture := { x.capture with windows := [v] } }

/-- The window of `mark 1 100`. -/
def window (candidate : Option Int) (fixed : Bool) : Window :=
  { number := 1, low := 20, high := 180, role := .ordinary, candidate := candidate, fixed := fixed }

def provisional (n : Nat) (p : Int) : Mark := { mark n p with state := .provisional }

def barrier (n : Nat) (p : Int) : Mark := { mark n p with kind := .barrier }

theorem test_no_barriers :
    (passing (.advance 9) (Work.fresh 0 .readLeg) [mark 1 100] 19).noBarriers .t0 ∧
      ∀ o w n, ((passing (.advance 9) (Work.fresh 0 .readLeg) [mark 1 100] 19).tr .t0).running = some (o, w) →
        o.kind ≠ .seekMark n := by
  unfold State.noBarriers
  refine ⟨by decide, fun o w n h => ?_⟩
  cases h
  exact nofun

theorem test_first_barrier :
    (passing (.advance 9) (Work.fresh 0 .readLeg) [barrier 1 100] 19).firstBarrier .t0 { tag := 1, kind := .advance 9 }
      (Work.fresh 0 .readLeg) (barrier 1 100) :=
  ⟨⟨[], [], rfl, nofun⟩, rfl, nofun, by decide, trivial⟩

theorem test_windows_open_and_close :
    let w := Work.fresh 0 .readLeg
    let lost := passing (.advance 9) w [mark 1 100] 180 |> withWindow (window none false)
    let seen := passing (.advance 9) w [mark 1 100] 180 |> withWindow (window (some 98) false)
    let fresh := passing (.advance 9) w [provisional 1 100] 180 |> withWindow (window (some 98) false)
    (∀ m ∈ [mark 1 100], m.pos ≠ (180 : Int) + 1) ∧ findNumber 1 [mark 1 100] = some (mark 1 100) ∧
      ((after (.capstanTachCount .t0 .forward) (passing (.advance 9) w [mark 1 100] 19)).tr .t0).capture.windows =
        [window none false] ∧
      ((after (.capstanTachCount .t0 .forward) lost).boundMarks .t0) = [{ mark 1 100 with state := .doubtful }] ∧
      ((after (.capstanTachCount .t0 .forward) seen).tr .t0).cap.counter = 183 ∧
      ((after (.capstanTachCount .t0 .forward) fresh).boundMarks .t0) = [mark 1 98] := by decide

theorem test_barriers_stop :
    let w := Work.fresh 0 .readLeg
    let fast := passing (.seekPos 9000) { w with phase := .fast } [barrier 1 100] 19 |> withSegment (runs .forward .seek .orders)
    let high := passing (.advance 9) w [barrier 1 100] 180
    let watched := high |> on fun x => { x with capture := { x.capture with
      watch := [{ number := 1, pos := 100, searched := true, gapSeen := false }] } }
    let reason := fun s : State => ((after (.capstanTachCount .t0 .forward) s).tr .t0).running.map fun p => p.2.reason
    reason fast = some (some .barrier) ∧ reason high = some (some .barrier) ∧
      (after (.capstanTachCount .t0 .forward) high).boundMarks .t0 = [barrier 1 100] ∧
      (after (.capstanTachCount .t0 .forward) watched).boundMarks .t0 = [{ barrier 1 100 with state := .doubtful }] := by
  decide

/-- A transport whose head has nearly passed the range of a barrier, which it has watched from its low bound. -/
def watching : State :=
  passing (.advance 9) (Work.fresh 0 .readLeg) [barrier 1 100] 180 |> on fun x => { x with
    capture := { x.capture with watch := [{ number := 1, pos := 100, searched := true, gapSeen := false }] } }

theorem test_watched_barrier_applies :
    watching.firstBarrier .t0 { tag := 1, kind := .advance 9 } (Work.fresh 0 .readLeg) (barrier 1 100) ∧
      (watching.tr .t0).planStands ∧
      (watching.tr .t0).running = some ({ tag := 1, kind := .advance 9 }, Work.fresh 0 .readLeg) ∧
      (watching.tr .t0).cap.seg.cond = .running ∧ (watching.tr .t0).cap.seg.dir = some .forward :=
  ⟨⟨⟨[], [], rfl, nofun⟩, rfl, nofun, by decide, trivial⟩, fun _ _ h => by cases h; exact .inl nofun, rfl, rfl, rfl⟩

/-- A watched barrier given its own position again stays watched, and is doubted when its range is passed; one moved is
not. -/
theorem test_a_position_given_again_keeps_the_watch :
    let again := after (.changeMark 0 1 1 0 100 0) watching
    let moved := after (.changeMark 0 1 1 0 110 0) watching
    watching.lineReady ∧ (again.tr .t0).capture.watch = (watching.tr .t0).capture.watch ∧
      again.boundMarks .t0 = [{ barrier 1 100 with state := .provisional }] ∧ (moved.tr .t0).capture.watch = [] ∧
      (after (.capstanTachCount .t0 .forward) again).boundMarks .t0 = [{ barrier 1 100 with state := .doubtful }] := by
  unfold State.lineReady
  decide

theorem test_searches_end :
    let w : Work := { Work.fresh 0 .search with copied := some 100 }
    let s := passing (.seekMark 1) w [mark 1 100] 180
    (s.tr .t0).running = some ({ tag := 1, kind := .seekMark 1 }, w) ∧ w.copied = some 100 ∧
      (after (.capstanTachCount .t0 .forward) s).boundMarks .t0 = [{ mark 1 100 with state := .doubtful }] ∧
      (((after (.capstanTachCount .t0 .forward) s).tr .t0).running.map fun p => p.2.reason) =
        some (some .markNotFound) := by decide

theorem test_tach_loss_and_coast :
    let s := runningOrder (.advance 5) .readLeg .forward
    let c := ready |> withSegment { Segment.reset with cond := .coasting }
    (s.tr .t0).cap.seg.driven = true ∧ (s.tr .t0).sequencer.state.tripping = true ∧
      ((after (.capstanTachLoss .t0) s).tr .t0).sequencer.state = .held ∧ (ready.tr .t0).cap.seg.driven = false ∧
      (c.tr .t0).cap.seg.cond = .coasting ∧ (c.tr .t0).cap.refusedOrders = none ∧
      (c.tr .t0).cap.refusedSequencer = none ∧ (ready.tr .t0).cap.seg.cond ≠ .coasting := by decide

/-- T0 held by its door as its capstan was driven and its supply motor stalled. -/
def heldMoving : State :=
  after (.switchDebounceExpiry .t0 .door) (runningOrder (.advance 5) .readLeg .forward |> on fun x =>
    { x with
      prot := { x.prot with door := { raw := true, debounced := false, since := some 0 } }
      supply := { x.supply with stall := some 0 } })

theorem test_late_causes :
    (heldMoving.tr .t0).heldNow heldMoving.clock (fun m => m.tach) ∧
      (heldMoving.tr .t0).heldNow heldMoving.clock (fun m => m.supplyStall) :=
  ⟨⟨rfl, _, rfl, rfl, rfl⟩, ⟨rfl, _, rfl, rfl, rfl⟩⟩

theorem test_late_causes_join :
    ((after (.capstanTachLoss .t0) heldMoving).tr .t0).cap.conf = .lost ∧
      ((after (.capstanTachLoss .t0) heldMoving).tr .t0).prot.hold.further = [.capstanTachLoss] ∧
      ((after (.stallTimeReached .t0 .supply) heldMoving).tr .t0).prot.hold.further = [.supplyStall] ∧
      (heldMoving.tr .t0).prot.driveEnable = false := by decide

theorem test_eot_passage :
    let at_ := fun target => (runningOrder (.advance 60000) .readLeg .forward) |> withSegment
      { runs .forward .read .orders with stopTarget := target }
    let stop := fun target => ((after (.markerEdge .t0 .eot) (at_ target)).tr .t0).cap.seg.stopTarget
    stop none = some 30150 ∧ stop (some 30151) = some 30150 ∧ stop (some 30150) = some 30150 ∧
      (((after (.markerEdge .t0 .eot) (at_ (some 30151))).tr .t0).running.map fun p => p.2.runoutTarget) = some true ∧
      (((after (.markerEdge .t0 .eot) (at_ (some 30150))).tr .t0).running.map fun p => p.2.runoutTarget) = some false := by
  decide

theorem test_marker_edges :
    let r := ready |> on fun x => { x with cap := { x.cap with lastDir := .reverse } }
    let a := (ready |> inState (.loading .findLoadPoint)) |> withSegment
      { runs .forward .creep .sequencer with approach := .establishing }
    let o := runningOrder (.spaceR 3) .readLeg .reverse
    (ready.tr .t0).cap.lastDir = .forward ∧ (ready.tr .t0).running = none ∧
      ((after (.markerEdge .t0 .eot) ready).tr .t0).cap.eotPos = some 150 ∧ (r.tr .t0).cap.lastDir = .reverse ∧
      (r.tr .t0).sequencer.state = .ready ∧ (ready.tr .t0).cap.seg.approach = .none ∧
      (a.tr .t0).cap.lastDir = .forward ∧ (a.tr .t0).cap.seg.approach ≠ .none ∧ (a.tr .t0).cap.seg.cond = .running ∧
      (o.tr .t0).cap.lastDir = .reverse ∧ (o.tr .t0).sequencer.state = .moving ∧
      (o.tr .t0).running = some ({ tag := 1, kind := .spaceR 3 }, Work.fresh 0 .readLeg) ∧
      (o.tr .t0).cap.seg.cond = .running ∧ (o.tr .t0).cap.seg.dir = some .reverse := by decide

/-- T0 with its gap-line filter replaced. -/
def withFilter (f : GapFilter) (s : State) : State := s |> on fun x => { x with cap := { x.cap with filter := f } }

theorem test_gap_filter :
    let timed := ready |> withFilter { raw := .gap, level := .block, time := .us40, since := some 0 }
    let quick := ready |> withFilter { raw := .block, level := .block, time := .us0, since := none }
    (ready.tr .t0).sequencer.state ≠ .moving ∧ (ready.tr .t0).cap.filter.raw = .block ∧
      (ready.tr .t0).cap.filter.level ≠ .gap ∧ (ready.tr .t0).cap.filter.time ≠ .us0 ∧
      (ready.tr .t0).cap.filter.since = none ∧ GapLevel.block ≠ (timed.tr .t0).cap.filter.raw ∧
      GapLevel.block = (timed.tr .t0).cap.filter.level ∧ (timed.tr .t0).cap.filter.since.isSome = true ∧
      (quick.tr .t0).cap.filter.time = .us0 ∧
      ((after (.rawGapLineChange .t0 .gap) quick).tr .t0).cap.filter.level = .gap := by decide

theorem test_space_counts_gaps :
    let s := (runningOrder (.spaceF 1) .readLeg .forward) |> withFilter
      { raw := .gap, level := .block, time := .us40, since := some 0 }
    (s.tr .t0).sequencer.state = .moving ∧ (s.tr .t0).cap.seg.speed = some .read ∧
      (s.tr .t0).cap.seg.dir = some .forward ∧ (s.tr .t0).cap.lastDir = .forward ∧ (s.tr .t0).cap.eotPos = none ∧
      s.boundIdx .t0 = none ∧
      (s.tr .t0).running = some ({ tag := 1, kind := .spaceF 1 }, Work.fresh 0 .readLeg) ∧
      (Work.fresh 0 .readLeg).count + 1 = 1 ∧ (Work.fresh 0 .readLeg).count + 1 ≠ 2 ∧
      ((after (.gapFilterExpiry .t0) s).tr .t0).cap.lastGap = some 150 := by decide

/-- T0's filter about to take a gap. -/
def atGap (s : State) : State := s |> withFilter { raw := .gap, level := .block, time := .us40, since := some 0 }

theorem test_gaps_stop_orders :
    let reason := fun s : State => ((after (.gapFilterExpiry .t0) (atGap s)).tr .t0).running.map fun p => p.2.reason
    let back := runningOrder (.spaceR 1) .readLeg .reverse
    let tape := (runningOrder (.spaceF 9) .readLeg .forward) |> on fun x => { x with cap := { x.cap with eotPos := some 0 } }
    let seek : Work := { Work.fresh 0 .search with copied := some 100 }
    reason back = some (some .complete) ∧ reason tape = some (some .endOfTape) ∧
      reason (runningOrder (.spaceF 9) .haltSearch .forward) = some (some .halted) ∧
      reason (passing (.advance 9) (Work.fresh 0 .readLeg) [barrier 1 100] 180) = some (some .barrier) ∧
      reason (passing (.advance 9) (Work.fresh 0 .readLeg) [barrier 1 100] 20) = some (some .barrier) ∧
      reason (passing (.seekMark 1) seek [mark 1 100] 20) = some (some .complete) ∧
      reason (passing (.seekMark 1) seek [mark 1 100] 181) = some none := by decide

theorem test_gaps_are_candidates :
    let s := fun here v => passing (.advance 9) (Work.fresh 0 .readLeg) [mark 1 100] here |> withWindow v
    let got := fun here v => ((after (.gapFilterExpiry .t0) (atGap (s here v))).tr .t0).capture.windows
    let stopped := passing (.advance 9) (Work.fresh 0 .readLeg) [barrier 1 100] 99 |> withWindow (window none false)
    got 20 (window none false) = [window (some 20) false] ∧ got 181 (window none false) = [window none false] ∧
      got 99 (window (some 102) false) = [window (some 99) false] ∧
      got 98 (window (some 102) false) = [window (some 102) false] ∧
      got 99 { window none false with role := .target } = [{ window (some 99) true with role := .target }] ∧
      ((after (.gapFilterExpiry .t0) (atGap stopped)).tr .t0).capture.windows =
        [{ window (some 99) true with role := .barrier }] := by decide

theorem test_ramps_end :
    let u := ready |> withSegment (ramps .toSpeed .orders)
    let a := (ready |> inState (.loading .findLoadPoint)) |> withSegment
      { ramps (.toRest true) .sequencer with approach := .establishing }
    let w : Work := { Work.fresh 0 .stopping with reason := some .complete }
    let o := ((ready |> inState .moving) |> withSegment (ramps (.toRest false) .orders)) |> on fun x =>
      { x with orders := { x.orders with list := [.running { tag := 1, kind := .spaceF 1 } w] } }
    ((after (.capstanRampEnd .t0) u).tr .t0).cap.seg.cond = .running ∧
      (a.tr .t0).cap.seg.owner = some .sequencer ∧ (a.tr .t0).capture.windows = [] ∧
      ((after (.capstanRampEnd .t0) a).tr .t0).sequencer.state = .ready ∧
      ((after (.capstanRampEnd .t0) a).tr .t0).cap.counter = 0 ∧
      (o.tr .t0).orders.list = [.running { tag := 1, kind := .spaceF 1 } w] ∧ w.reason = some .complete ∧
      ((after (.capstanRampEnd .t0) o).tr .t0).doneFlag = true := by decide

theorem test_windows_at_rest :
    let w : Work := { Work.fresh 0 .stopping with reason := some .complete }
    let s := fun m v => passing (.advance 9) w [m] 120 |> withWindow v |> withSegment (ramps (.toRest false) .orders)
    let at_ := fun m v => after (.capstanRampEnd .t0) (s m v)
    ((at_ (mark 1 100) (window (some 98) true)).tr .t0).cap.counter = 122 ∧
      (at_ (provisional 1 100) (window (some 98) true)).boundMarks .t0 = [mark 1 98] ∧
      (at_ (provisional 1 100) (window (some 98) false)).boundMarks .t0 = [provisional 1 100] ∧
      ((at_ (mark 1 100) (window none false)).tr .t0).cap.counter = 120 := by decide

theorem test_next_order_starts :
    let w : Work := { Work.fresh 0 .stopping with reason := some .complete }
    let s := (runningOrder (.spaceF 1) .stopping .forward) |> withSegment (ramps (.toRest false) .orders) |> on fun x =>
      { x with orders := { x.orders with
        list := [.running { tag := 1, kind := .spaceF 1 } w, .pending { tag := 2, kind := .spaceR 3 }] } }
    ((after (.capstanRampEnd .t0) s).tr .t0).sequencer.state = .moving ∧
      ((after (.capstanRampEnd .t0) s).tr .t0).cap.seg.dir = some .reverse ∧
      ((after (.capstanRampEnd .t0) (offline s)).tr .t0).sequencer.state = .ready := by decide

theorem test_no_ramp : ∀ k, (ready.tr .t0).cap.seg.cond ≠ .ramping k := nofun

/-! ### Volumes and marks -/

theorem test_bind_new :
    (ready.tr .t0).sequencer.state = .ready ∧ ready.boundIdx .t0 = none ∧ Inertia.standard.code = (1 : Byte).toNat ∧
      serialOk serialA = true ∧ 1 ≤ (1 : BitVec 24).toNat ∧ (8388607 : BitVec 24).toNat ≤ 8388607 ∧
      ready.findSerial serialA = none ∧ ready.volumes[(0 : Fin 16)].isFree = true ∧
      ((after (.bindVolume 0 serialA 1 1 8388607) ready).boundIdx .t0) = some 0 := by decide

theorem test_bind_lowest : ∀ j : Fin 16, j < 0 → ready.volumes[j].isFree = false := by decide

/-- A full table whose entry 0 is shelved and whose other entries are mounted elsewhere. -/
def fullTable : State :=
  { ready with
    volumes := (Vector.ofFn fun i : Fin 16 =>
      Entry.mounted { volumeA with serial := ⟨0x42, byte (0x41 + i.val), 0x20, 0x20, 0x20, 0x20⟩ } .t1).set 0
        (.shelved { volumeA with serial := ⟨0x43, 0x20, 0x20, 0x20, 0x20, 0x20⟩ })
    shelf := [0] }

theorem test_bind_evicts :
    (∀ j : Fin 16, fullTable.volumes[j].isFree = false) ∧ fullTable.shelf = [0] ∧
      fullTable.volumes[(0 : Fin 16)] = .shelved { volumeA with serial := ⟨0x43, 0x20, 0x20, 0x20, 0x20, 0x20⟩ } ∧
      fullTable.findSerial serialA = none ∧ fullTable.boundIdx .t0 = none ∧
      (after (.bindVolume 0 serialA 1 1 1) fullTable).eviction.count = 1 := by decide

theorem test_bind_again :
    shelved.findSerial serialA = some 0 ∧ shelved.volumes[(0 : Fin 16)] = .shelved volumeA ∧
      shelved.boundIdx .t0 = none ∧ volumeA.generation = 1 ∧ volumeA.generation ≠ 2 ∧
      bodySent (after (.bindVolume 0 serialA 1 1 150) shelved) = [0, 1, 0, 0, 0, 1, 0, 0, 0, 0, 0, 0] ∧
      bodySent (after (.bindVolume 0 serialA 2 1 150) shelved) = [0, 2, 0, 2, 0, 0, 0, 0, 0, 0, 0, 0] := by decide

/-- Volume A on T1, which T0 asks for. -/
def elsewhere : State := ready |> withEntry (.mounted volumeA .t1)

theorem test_bind_refusals :
    ¬ ((3 : Byte).toNat ≤ 2) ∧ ¬ (1 ≤ (0 : BitVec 24).toNat) ∧ ¬ ((8388608 : BitVec 24).toNat ≤ 8388607) ∧
      serialOk ⟨0x20, 0x20, 0x20, 0x20, 0x20, 0x20⟩ = false ∧ bound.boundIdx .t0 ≠ none ∧
      elsewhere.findSerial serialA = some 0 ∧ elsewhere.volumes[(0 : Fin 16)] = .mounted volumeA .t1 ∧
      statusSent (after (.bindVolume 0 serialA 1 1 1) bound) = some (byte Status.wrongState.code) ∧
      statusSent (after (.bindVolume 0 serialA 1 1 1) elsewhere) = some (byte Status.boundElsewhere.code) := by decide

theorem test_volume_requests :
    let busy := (runningOrder (.advance 5) .readLeg .forward) |> withEntry (.mounted volumeA .t0)
    bound.boundIdx .t0 = some 0 ∧ (bound.tr .t0).running = none ∧ (busy.boundIdx .t0).isSome = true ∧
      (busy.tr .t0).running.isSome = true ∧ (after (.unbindVolume 0) bound).shelf = [0] ∧
      statusSent (after (.unbindVolume 0) busy) = some (byte Status.busy.code) ∧
      bodySent (after (.retireVolume serialA) shelved) = [0, 2] ∧ bound.findSerial serialA = some 0 ∧
      bound.volumes[(0 : Fin 16)] = .mounted volumeA .t0 ∧
      statusSent (after (.retireVolume serialA) bound) = some (byte Status.wrongState.code) ∧
      ready.findSerial serialA = none := by decide

theorem test_volume_reports :
    bodySent (after (.readVolume 0 15 serialA) bound) = [240, 0, 0, 0, 0, 0, 0, 0, 0, 0, 0, 0, 0, 0] ∧
      bodySent (after (.readVolume 1 0 serialA) bound) =
        [4, 0, 2, 0x41, 0x20, 0x20, 0x20, 0x20, 0x20, 0, 1, 0, 0x13, 0x88] ∧
      bodySent (after (.listVolumes 15) bound) = [15, 32, 0, 2] := by decide

theorem test_volume_bad_parameters :
    let spaces : Serial := ⟨0x20, 0x20, 0x20, 0x20, 0x20, 0x20⟩
    let lower : Serial := { serialA with c5 := 0x61 }
    [after (.retireVolume spaces) bound, after (.retireVolume lower) bound, after (.readVolume 1 0 spaces) bound,
      after (.readVolume 1 0 lower) bound, after (.readVolume 0 16 serialA) bound, after (.readVolume 2 0 serialA) bound,
      after (.listVolumes 16) bound].all fun r => statusSent r == some (byte Status.badParameter.code) := by decide

theorem test_set_mark :
    let here := bound |> on fun x => { x with cap := { x.cap with lastGap := some 140 } }
    1 ≤ (1 : BitVec 16).toNat ∧ (4095 : BitVec 16).toNat ≤ 4095 ∧ findNumber 2 bound.marks[(0 : Fin 16)] = none ∧
      bound.poolInUse < 512 ∧ (0x0E : Byte).getLsbD 0 = false ∧ (here.tr .t0).cap.lastGap = some 140 ∧
      (here.tr .t0).cap.conf = .exact ∧ (bound.tr .t0).cap.seg.cond = .atRest ∧ (bound.tr .t0).running = none ∧
      (-32768 ≤ (0xFF8000 : BitVec 24).toInt ∧ (5000 : BitVec 24).toInt ≤ bound.tapeLength .t0) ∧
      (after (.setMark 0 2 1 0 0 0) here).boundMarks .t0 = [mark 1 100
        , { number := 2, kind := .barrier, pos := 140, state := .verified, mode := .none, passed := false, tag := none }
        , mark 4095 200] ∧
      statusSent (after (.setMark 0 2 0x0E 1 0 0) bound) = some 0 ∧
      statusSent (after (.setMark 0 2 0x0E 2 0xFF8000 0) bound) = some 0 := by decide

/-- A pool filled by the marks of another mounted volume. -/
def fullPool : State := { bound with marks := bound.marks.set 1 ((List.range 510).map fun n => mark (n + 1) n) }

theorem test_set_mark_refusals :
    let lost := bound |> on fun x => { x with cap := { x.cap with conf := .lost, lastGap := some 1 } }
    ready.boundIdx .t0 = none ∧ ¬ (1 ≤ (0 : BitVec 16).toNat) ∧ ¬ ((4096 : BitVec 16).toNat ≤ 4095) ∧
      ¬ ((5001 : BitVec 24).toInt ≤ bound.tapeLength .t0) ∧ ¬ ((3 : Byte).toNat < 2) ∧ (1 : Byte).toNat < 2 ∧
      (findNumber 4095 bound.marks[(0 : Fin 16)]).isSome = true ∧ (bound.tr .t0).cap.lastGap = none ∧
      (lost.tr .t0).cap.lastGap.isSome = true ∧ (lost.tr .t0).cap.conf ≠ .exact ∧
      statusSent (after (.setMark 0 1 0 0 0 0) ready) = some (byte Status.notBound.code) ∧
      statusSent (after (.setMark 0 4096 0 0 0 0) bound) = some (byte Status.badParameter.code) ∧
      statusSent (after (.setMark 0 1 0 0 0 0) bound) = some (byte Status.markExists.code) ∧
      statusSent (after (.setMark 0 2 0 0 0 0) bound) = some (byte Status.noLastGap.code) ∧
      statusSent (after (.setMark 0 2 0 1 0 0) lost) = some (byte Status.notExact.code) := by decide

theorem test_pool_full :
    512 ≤ fullPool.poolInUse ∧ fullPool.shelf = [] ∧ fullPool.boundIdx .t0 = some 0 ∧
      findNumber 2 fullPool.marks[(0 : Fin 16)] = none := by decide +kernel

theorem test_pool_full_in_each_form :
    let gap := fullPool |> on fun x => { x with cap := { x.cap with lastGap := some 1 } }
    gap.lineReady ∧ (gap.tr .t0).cap.lastGap.isSome = true ∧ (gap.tr .t0).cap.conf = .exact ∧
      (gap.tr .t0).cap.seg.cond = .atRest ∧ 512 ≤ gap.poolInUse ∧
      statusSent (after (.setMark 0 2 0 0 0 0) gap) = some (byte Status.poolFull.code) ∧
      statusSent (after (.setMark 0 2 0 1 0 0) fullPool) = some (byte Status.poolFull.code) ∧
      statusSent (after (.setMark 0 2 0 2 5000 0) fullPool) = some (byte Status.poolFull.code) := by
  unfold State.lineReady
  decide +kernel

/-- A full pool, some of whose marks a shelved volume holds, behind one without marks. -/
def fullShelf : State :=
  { fullPool with
    volumes := (fullPool.volumes.set 1 (.shelved { volumeA with generation := 2 })).set 2 (.shelved { volumeA with generation := 3 })
    shelf := [2, 1] }

theorem test_set_mark_evicts :
    512 ≤ fullShelf.poolInUse ∧ fullShelf.shelf = [2] ++ 1 :: [] ∧ fullShelf.marks[(2 : Fin 16)] = [] ∧
      fullShelf.marks[(1 : Fin 16)] ≠ [] ∧ (after (.setMark 0 2 0 1 0 0) fullShelf).shelf = [2] ∧
      (after (.setMark 0 2 0 1 0 0) fullShelf).eviction = { serial := some serialA, count := 1 } ∧
      (after (.setMark 0 2 0 1 0 0) fullShelf).poolInUse = 3 := by decide +kernel

theorem test_mark_requests_refused :
    let status := fun c s => statusSent (after c s)
    status (.changeMark 0 1 1 0 5001 0) bound = some (byte Status.badParameter.code) ∧
      status (.changeMark 0 1 24 0 0 0) bound = some (byte Status.badParameter.code) ∧
      status (.changeMark 0 2 2 1 0x800000 0) bound = some (byte Status.badParameter.code) ∧
      status (.changeMark 0 1 2 1 0xFF7FFF 0) bound = some (byte Status.badParameter.code) ∧
      status (.changeMark 0 1 2 1 0xFF8000 0) bound = some 0 ∧ status (.changeMark 0 1 2 1 5001 0) bound = some 0 ∧
      status (.retireMark 0 0) bound = some (byte Status.badParameter.code) ∧
      status (.retireMark 0 2) bound = some (byte Status.noSuchMark.code) ∧
      status (.changeMark 0 1 1 0 0 0) ready = some (byte Status.notBound.code) ∧
      status (.findMark 0 4096) bound = some (byte Status.badParameter.code) ∧
      status (.findMark 0 2) bound = some (byte Status.noSuchMark.code) ∧
      status (.listMarks 0 513) bound = some (byte Status.badParameter.code) ∧
      status (.findNearest 0 0xFF7FFF 0) bound = some (byte Status.badParameter.code) ∧
      status (.findNearest 0 99 0) bound = some (byte Status.noSuchMark.code) ∧
      status (.findNearest 0 201 1) bound = some (byte Status.noSuchMark.code) ∧
      status (.readPassed 0) ready = some (byte Status.notBound.code) := by decide

theorem test_change_and_retire_marks :
    findNumber 1 bound.marks[(0 : Fin 16)] = some (mark 1 100) ∧
      (∀ selector ∈ [(1 : Byte), 2, 4, 8, 16],
        (selector.getLsbD 0 || selector.getLsbD 1 || selector.getLsbD 2 || selector.getLsbD 3 ||
          selector.getLsbD 4) = true ∧ (selector.getLsbD 3 && selector.getLsbD 4) = false) ∧
      ((after (.changeMark 0 1 1 0 5000 0) bound).boundMarks .t0).map (fun m => m.number) = [4095, 1] ∧
      (after (.retireMark 0 4095) bound).boundMarks .t0 = [mark 1 100] := by decide

theorem test_find_marks :
    bound.marks[(0 : Fin 16)] = [mark 1 100] ++ mark 4095 200 :: [] ∧
      bound.marks[(0 : Fin 16)] = [] ++ mark 1 100 :: [mark 4095 200] ∧
      (200 : Int) ≤ (200 : BitVec 24).toInt ∧ (100 : BitVec 24).toInt ≤ 100 ∧ 1 ≤ (1 : BitVec 16).toNat ∧
      (512 : BitVec 16).toNat ≤ 512 ∧ -32768 ≤ (0xFF8000 : BitVec 24).toInt ∧
      statusSent (after (.findMark 0 4095) bound) = some 0 ∧
      (bodySent (after (.findByTag 0 7 2) bound)).length = 15 ∧
      (bodySent (after (.findNearest 0 200 0) bound)).take 3 = [0x1F, 0xFE, 0x01] ∧
      (bodySent (after (.findNearest 0 100 1) bound)).take 3 = [0, 2, 0] ∧
      (bodySent (after (.listMarks 0 1) bound)).take 2 = [0, 2] ∧ bodySent (after (.readPassed 0) bound) = [0] :=
  by decide

theorem test_capture_requests :
    FilterTime.us80.code = (3 : Byte).toNat ∧ (1023 : BitVec 16).toNat ≤ 1023 ∧ 1023 < (1024 : BitVec 16).toNat ∧
      3 < (4 : Byte).toNat ∧ (ready.tr .t0).cap.filter.since = none ∧
      bodySent (after (.readCapture 0) ready) = [0, 80, 0, 80, 2, 0, 0, 0] ∧
      ((after (.setCaptureParameters 0 1023 0 3) ready).tr .t0).capture.lead = 1023 ∧
      ((after (.setCaptureParameters 0 0 1023 0) (runningOrder (.advance 5) .readLeg .forward)).tr .t0).capture.lag = 1023 ∧
      bodySent (after (.readCapture 0) (bound |> withWindow (window (some 98) true))) =
        [0, 80, 0, 80, 2, 0, 1, 0, 0, 1, 0, 0, 20, 0, 0, 180, 4, 0, 0, 98] := by decide

theorem test_filter_time_while_timed :
    let timed := { ready |> on fun x => { x with cap := { x.cap with
      filter := { x.cap.filter with raw := .gap, level := .block, since := some 30 } } } with clock := 50 }
    let set := fun code => ((after (.setCaptureParameters 0 80 80 code) timed).tr .t0).cap.filter
    timed.lineReady ∧ (timed.tr .t0).cap.filter.since = some 30 ∧ (timed.tr .t0).running = none ∧
      set 1 = { time := .us20, raw := .gap, level := .gap, since := none } ∧
      set 2 = { time := .us40, raw := .gap, level := .block, since := some 30 } := by
  unfold State.lineReady
  decide

/-- The same change held long enough in a READ leg gives a gap start, as the expiry of the filter does. -/
theorem test_filter_time_gives_a_gap_start :
    let timed := { runningOrder (.spaceF 2) .readLeg .forward |> on fun x => { x with cap := { x.cap with
      filter := { x.cap.filter with raw := .gap, level := .block, since := some 30 } } } with clock := 50 }
    ((after (.setCaptureParameters 0 80 80 1) timed).tr .t0).running.map (fun p => p.2.count) = some 1 := by decide

/-! ### Orders -/

theorem test_queue_order_starts :
    (ready.tr .t0).sequencer.online = true ∧ (ready.tr .t0).orders.list = [] ∧
      (ready.tr .t0).cap.seg.cond = .atRest ∧ (ready.tr .t0).cap.eotPos = none ∧ ready.boundIdx .t0 = none ∧
      1 ≤ (1 : BitVec 24).toNat ∧ (65535 : BitVec 24).toNat ≤ 65535 ∧
      bodySent (after (.queueOrder 0 4 0 65535) ready) = [7, 1] := by decide

/-- Seven records that wait to be read. -/
def unread : List Record := List.replicate 7
  { tag := 9, kind := .rewind, status := .complete, count := 0, finalPos := none, markNumber := none }

/-- T0 with those records in its list. -/
def withRecords (s : State) : State := s |> on fun x => { x with orders := { x.orders with list := unread.map .record } }

theorem test_start_ready : ready.startReady .t0 [] ∧ bound.startReady .t0 [] ∧ (withRecords bound).startReady .t0 unread :=
  ⟨⟨⟨rfl, rfl, rfl⟩, rfl, rfl, rfl, by decide, rfl⟩, ⟨⟨rfl, rfl, rfl⟩, rfl, rfl, rfl, by decide, rfl⟩,
    ⟨⟨rfl, rfl, rfl⟩, rfl, rfl, rfl, by decide, rfl⟩⟩

theorem test_orders_start_behind_records :
    bodySent (after (.queueOrder 0 4 0 1) (withRecords ready)) = [0, 1] ∧
      bodySent (after (.queueOrder 0 4 3 150) (withRecords ready)) = [0, 2] ∧
      ((after (.queueOrder 0 4 6 0) (withRecords ready)).tr .t0).orders.list.take 7 = unread.map .record := by decide

/-- T0 READY online at a position, past an EOT position or before it, on volume A with some marks. -/
def startingAt (p : Int) (eot : Option Int) (marks : List Mark) : State :=
  { bound with marks := bound.marks.set 0 marks } |> on fun x =>
    { x with cap := { x.cap with counter := p, eotPos := eot } }

theorem test_orders_end_at_their_start :
    let status := fun (kind : Byte) (arg : BitVec 24) s =>
      match ((after (.queueOrder 0 4 kind arg) s).tr .t0).orders.list with
      | [.record r] => some r.status
      | _ => none
    let lost := startingAt 0 none [] |> on fun x => { x with cap := { x.cap with conf := .lost } }
    status 0 1 (startingAt 30000 (some 0) []) = some .runout ∧ status 2 1 (startingAt 30000 (some 0) []) = some .runout ∧
      status 0 1 (startingAt 180 none [barrier 1 100]) = some .barrier ∧
      status 2 1 (startingAt 20 none [barrier 1 100]) = some .barrier ∧ status 3 9 lost = some .noPosition ∧
      status 3 5001 (startingAt 0 none []) = some .range ∧ status 3 9 (startingAt 9 none []) = some .complete ∧
      status 3 300 (startingAt 99 none [barrier 1 100]) = some .barrier ∧ status 4 1 lost = some .noPosition ∧
      status 4 1 (startingAt 0 none []) = some .noMark ∧ status 4 1 (startingAt 0 none [mark 1 5001]) = some .range ∧
      status 4 2 (startingAt 99 none [barrier 1 100, mark 2 4000]) = some .barrier ∧
      bodySent (after (.queueOrder 0 4 3 9) (startingAt 9 none [])) = [7, 2] := by decide

/-- The motion of a running order and its phase. -/
structure Motion where
  dir : Dir
  speed : Speed
  target : Option Int
  phase : OrderPhase
deriving DecidableEq

def motion (d : Dir) (v : Speed) (target : Option Int) (p : OrderPhase) : Motion := ⟨d, v, target, p⟩

/-- The first motion of an order queued on T0. -/
def firstMotion (kind : Byte) (argument : BitVec 24) (s : State) : Option Motion :=
  let x := (after (.queueOrder 0 4 kind argument) s).tr .t0
  match x.cap.seg.dir, x.cap.seg.speed, x.running with
  | some d, some v, some (_, w) => some (motion d v x.cap.seg.stopTarget w.phase)
  | _, _, _ => none

theorem test_orders_start :
    let far := { startingAt 0 none [] with volumes := State.reset.volumes }
    firstMotion 0 1 (startingAt 29999 (some 0) []) = some (motion .forward .read (some 30000) .readLeg) ∧
      firstMotion 2 10 (startingAt 150 none []) = some (motion .forward .read (some 160) .readLeg) ∧
      firstMotion 1 1 (startingAt 150 none []) = some (motion .reverse .read (none) .readLeg) ∧
      firstMotion 3 20001 far = some (motion .forward .seek (none) .fast) ∧
      firstMotion 3 20000 far = some (motion .forward .read (some 20000) .readLeg) ∧
      firstMotion 3 0 (startingAt 20001 none []) = some (motion .reverse .seek (none) .fast) ∧
      firstMotion 3 0 (startingAt 20000 none []) = some (motion .reverse .read (some 0) .readLeg) := by decide

theorem test_searches_and_sequences_start :
    firstMotion 4 1 (startingAt 0 none [mark 1 4000]) = some (motion .forward .read (none) .readLeg) ∧
      firstMotion 4 1 (startingAt 4000 none [mark 1 4000]) = some (motion .reverse .read (some 2420) .readLeg) ∧
      firstMotion 4 1 (startingAt 2420 none [mark 1 4000]) = some (motion .forward .read (none) .search) ∧
      firstMotion 5 0 (startingAt 30000 none []) = some (motion .reverse .seek (some 1500) .sequence) ∧
      firstMotion 6 0 (startingAt 1500 none []) = some (motion .reverse .creep (none) .sequence) ∧
      ((after (.queueOrder 0 4 6 0) (startingAt 0 none [])).tr .t0).sequencer.state = .unloading .release := by decide

theorem test_turning_points :
    let w := Work.fresh 0 .fast
    let leg : Work := { w with leg := { dir := .forward, endPoint := 1651, slowDown := 151, rests := true } }
    let s := passing (.seekPos 1651) leg [] 150 |> withSegment (runs .forward .seek .orders)
    let a := passing (.advance 9) (Work.fresh 0 .readLeg) [] 150 |> withSegment
      { runs .forward .read .orders with stopTarget := some 201 }
    ((after (.capstanTachCount .t0 .forward) s).tr .t0).cap.seg.speed = some .read ∧
      ((after (.capstanTachCount .t0 .forward) s).tr .t0).cap.seg.stopTarget = some 1651 ∧
      (201 : Int) - stopDistance .standard .read = 151 ∧
      ((after (.capstanTachCount .t0 .forward) a).tr .t0).cap.seg.stopping = true ∧
      (((after (.capstanTachCount .t0 .forward) a).tr .t0).running.map fun p => p.2.reason) = some (some .complete) := by
  decide

theorem test_queue_order_waits :
    let s := runningOrder (.advance 5) .readLeg .forward
    let full := s |> on fun x => { x with orders := { x.orders with
      list := List.replicate 8 (.pending { tag := 1, kind := .rewind }) } }
    let unload := s |> on fun x => { x with orders := { x.orders with list := [.pending { tag := 1, kind := .unload }] } }
    (s.tr .t0).orders.list.any Slot.isUnload = false ∧ (s.tr .t0).orders.list.length < 8 ∧
      orderKindOf 0 1 = some (.spaceF 1) ∧ orderKindOf 7 0 = none ∧ orderKindOf 0 65536 = none ∧
      orderKindOf 1 0 = none ∧ orderKindOf 2 65535 = some (.advance 65535) ∧
      orderKindOf 3 0xFF8000 = some (.seekPos (-32768)) ∧ orderKindOf 3 0xFF7FFF = none ∧
      orderKindOf 3 0x7FFFFF = some (.seekPos 8388607) ∧ orderKindOf 4 4095 = some (.seekMark 4095) ∧
      orderKindOf 4 4096 = none ∧ orderKindOf 5 0xFFFFFF = some .rewind ∧ orderKindOf 6 0 = some .unload ∧
      8 ≤ (full.tr .t0).orders.list.length ∧ (full.tr .t0).orders.list.any Slot.isUnload = false ∧
      (unload.tr .t0).orders.list.any Slot.isUnload = true ∧ ((offline ready).tr .t0).sequencer.online = false ∧
      statusSent (after (.queueOrder 0 4 0 1) (ready |> inState .held)) = some (byte Status.held.code) ∧
      statusSent (after (.queueOrder 0 4 0 1) (ready |> inState (.loading .fill))) =
        some (byte Status.wrongState.code) ∧
      bodySent (after (.queueOrder 0 4 0 1) s) = [6, 0] := by decide

theorem test_halt :
    let s := runningOrder (.spaceF 5) .readLeg .forward
    let r := (runningOrder .unload .sequence .forward) |> inState (.unloading .release)
    (ready.tr .t0).running = none ∧ (r.tr .t0).running.isSome = true ∧
      (r.tr .t0).sequencer.state = .unloading .release ∧
      statusSent (after (.halt 0) r) = some (byte Status.wrongState.code) ∧
      (s.tr .t0).running = some ({ tag := 1, kind := .spaceF 5 }, Work.fresh 0 .readLeg) ∧
      (s.tr .t0).sequencer.state = .moving ∧ (s.tr .t0).cap.seg.cond = .running ∧
      ((after (.halt 0) s).tr .t0).running =
        some ({ tag := 1, kind := .spaceF 5 }, { Work.fresh 0 .haltSearch with halted := true }) := by decide

theorem test_slots :
    let rec_ : Record := { tag := 1, kind := .rewind, status := .complete, count := 0, finalPos := none, markNumber := none }
    let s := ready |> on fun x => { x with orders :=
      { list := [rec_, rec_].map .record ++ [.pending { tag := 2, kind := .unload }], threshold := 7 } }
    (s.tr .t0).orders.list = [rec_, rec_].map .record ++ [.pending { tag := 2, kind := .unload }] ∧
      (8 : Byte).toNat ≤ 8 ∧ 8 < (9 : Byte).toNat ∧ bodySent (after (.cancelPending 0) s) = [1] ∧
      (bodySent (after (.readCompletions 0) s)).take 2 = [7, 0] ∧
      ((after (.readCompletions 0) s).tr .t0).flags.slots = true ∧
      ((after (.setSlotThreshold 0 8) s).tr .t0).orders.threshold = 8 := by decide

theorem test_slots_rest :
    ∀ r q, [Slot.pending { tag := 2, kind := .unload }] ≠ .record r :: q := by
  intro r q h
  cases h

theorem test_distance_limits :
    let s := runningOrder (.spaceF 5) .haltSearch .forward
    (s.tr .t0).running = some ({ tag := 1, kind := .spaceF 5 }, Work.fresh 0 .haltSearch) ∧
      (s.tr .t0).cap.seg.cond = .running ∧
      ((after (.blankTapeLimit .t0) s).tr .t0).cap.seg.stopping = true ∧
      ((after (.haltGapSearchEnd .t0) s).tr .t0).cap.seg.stopping = true ∧
      ((after (.blankTapeLimit .t0) (runningOrder (.spaceR 5) .readLeg .reverse)).tr .t0).cap.seg.stopping = true ∧
      ((after (.haltGapSearchEnd .t0) (runningOrder (.spaceR 5) .haltSearch .reverse)).tr .t0).cap.seg.stopping = true := by
  decide

theorem test_no_space_under_way :
    let s := runningOrder (.advance 5) .readLeg .forward
    (∀ o w, (s.tr .t0).running = some (o, w) → ¬ ∃ n, o.kind = .spaceF n ∨ o.kind = .spaceR n) ∧
      (∀ o w, (s.tr .t0).running = some (o, w) → w.phase ≠ .haltSearch) := by
  refine ⟨fun o w h => ?_, fun o w h => ?_⟩ <;> cases h
  · rintro ⟨n, h | h⟩ <;> cases h
  · exact nofun

/-! ### The Sequencer -/

theorem test_transport_requests :
    bodySent (after (.readTransport 0) ready) = [2, 0, 0, 0xD9, 0, 5] ∧ (ready.tr .t0).running = none ∧
      ((after (.releaseTransport 0) ready).tr .t0).sequencer.online = false := by decide

theorem test_transport_reset :
    let held := ready |> inState .held
    let present := held |> on fun x => { x with supplySlot := { depth := 255, fresh := true } }
    (held.tr .t0).running = none ∧ (held.tr .t0).causePresent = false ∧ (present.tr .t0).causePresent = true ∧
      (present.tr .t0).prot.door.debounced = false ∧
      ((after (.resetPress .t0) held).tr .t0).sequencer.state = .recovering ∧
      ((after (.resetTransport 0) present).tr .t0).sequencer.state = .unloading .release ∧
      ((after (.resetPress .t0) (ready |> inState (.loading .fill))).tr .t0).sequencer.loadResult = .abandoned := by decide

/-- T0 unloaded with a reel, the converter at work. -/
def reelOn : State := { (base |> on fun x =>
  { x with prot := { x.prot with reelPresent := { raw := true, debounced := true, since := none } } }) with
    converter := { busy := some { t := .t1, reel := .supply, handed := true }, rest := [] } }

/-- T0 in a phase of a load, its timer running. -/
def loading (p : LoadPhase) (n : Nat) : State := (after (.loadPress .t0) reelOn) |> on fun x =>
  { x with sequencer := { x.sequencer with state := .loading p, revolutions := n } }

theorem test_loads :
    (reelOn.tr .t0).sequencer.state = .unloaded ∧ (reelOn.tr .t0).sequencer.online = false ∧
      (reelOn.tr .t0).prot.reelPresent.debounced = true ∧ (reelOn.tr .t0).prot.door.debounced = false ∧
      reelOn.converter.busy.isSome = true ∧ after (.loadPress .t0) base = base ∧
      (after (.loadPress .t0) { reelOn with converter := { busy := none, rest := [] } }).converter =
        { busy := some { t := .t0, reel := .supply, handed := true }, rest := [(.t0, .takeup)] } ∧
      ((loading .thread 2).tr .t0).sequencer.revolutions = 2 ∧ ((loading .thread 2).tr .t0).cap.seg.cond = .free ∧
      ((loading .thread 2).tr .t0).prot.driveEnable = true ∧
      ((after (.takeupReelRevolution .t0) (loading .thread 1)).tr .t0).sequencer.revolutions = 2 ∧
      ((after (.takeupReelRevolution .t0) (loading .thread 2)).tr .t0).sequencer.state = .loading .fill := by decide

theorem test_load_failures :
    ((loading .thread 0).tr .t0).sequencer.loadTimer.isSome = true ∧
      ((after (.threadTimeout .t0) (loading .thread 0)).tr .t0).sequencer.loadResult = .threadTimeout ∧
      ((after (.fillTimeout .t0) (loading .fill 3)).tr .t0).sequencer.loadResult = .fillTimeout ∧
      (let s := (loading .findLoadPoint 3) |> withSegment
        { runs .forward .creep .sequencer with approach := .establishing }
       (s.tr .t0).cap.seg.approach = .establishing ∧ (s.tr .t0).cap.seg.cond = .running ∧
        ((after (.loadPointSearchEnd .t0) s).tr .t0).cap.seg.stopping = true) := by decide

/-- T0 READY offline at a position. -/
def resting (p : Int) (c : Confidence) : State := (offline ready) |> on fun x =>
  { x with cap := { x.cap with counter := p, conf := c } }

theorem test_rewinds :
    ((resting 30001 .exact).tr .t0).sequencer.online = false ∧ ((resting 30001 .exact).tr .t0).cap.seg.cond = .atRest ∧
      ((after (.rewindPress .t0) (resting 30001 .exact)).tr .t0).cap.seg.speed = some .rewind ∧
      ((after (.rewindPress .t0) (resting 30000 .exact)).tr .t0).cap.seg.stopTarget = some 1500 ∧
      ((after (.rewindPress .t0) (resting 1500 .exact)).tr .t0).cap.seg.speed = some .creep ∧
      ((after (.rewindPress .t0) (resting 1500 .lost)).tr .t0).cap.seg.speed = some .seek ∧
      after (.rewindPress .t0) ready = ready := by decide

theorem test_unloads :
    let s := resting 0 .exact
    let w := (resting 900 .exact |> inState (.rewinding .fast)) |> on fun x =>
      { x with sequencer := { x.sequencer with panelMotion := true } }
    let r := after (.unloadPress .t0) s
    (s.tr .t0).supply.limiting = false ∧ (s.tr .t0).prot.driveEnable = true ∧
      (r.tr .t0).sequencer.state = .unloading .release ∧ (r.tr .t0).sequencer.quiet.isSome = true ∧
      ((after (.unloadPress .t0) w).tr .t0).sequencer.state = .unloading (.ret .fast) ∧
      ((after (.releaseQuietTimeout .t0) r).tr .t0).sequencer.state = .unloaded ∧
      (after (.releaseQuietTimeout .t0) (r |> withEntry (.mounted volumeA .t0))).shelf = [0] := by decide

theorem test_online :
    (ready.tr .t0).running = none ∧ ((after (.onlinePress .t0) ready).tr .t0).sequencer.online = false ∧
      ((after (.onlinePress .t0) (offline ready)).tr .t0).sequencer.online = true ∧
      ((after (.lampFlashToggle .t0) ready).tr .t0).sequencer.flashLit = true ∧
      (let s := runningOrder (.advance 5) .readLeg .forward
       (s.tr .t0).sequencer.online = true ∧ (s.tr .t0).running.isSome = true ∧ (s.tr .t0).releasing = false ∧
        ((after (.onlinePress .t0) s).tr .t0).cap.seg.stopping = true) := by decide

/-! ### Loops, reels, holds -/

theorem test_parameters :
    LoopParams.reset.allowed ∧ ¬ ({ LoopParams.reset with gain := 5 } : LoopParams).allowed ∧
      ResumeMode.afterHoldOff.code = (1 : Byte).toNat ∧ 5 ≤ (5 : Byte).toNat ∧ (100 : Byte).toNat ≤ 100 ∧
      (base.tr .t0).prot.driveEnable = false ∧ (base.tr .t0).supply.stall = none ∧ (base.tr .t0).takeup.stall = none ∧
      1 < (2 : Byte).toNat ∧ (4 : Byte).toNat < 5 ∧ 100 < (101 : Byte).toNat ∧
      ((after (.setDriveParameters 0 9 8 1 100) base).tr .t0).drive.stallMs = 100 ∧
      statusSent (after (.setLoopParameters 0 12 100 156 244 5 2) base) = some (byte Status.badParameter.code) := by
  unfold LoopParams.allowed
  decide

/-- T0's supply conversion in progress, its take-up next. -/
def converting (handed : Bool) : State :=
  { ready with converter := { busy := some { t := .t0, reel := .supply, handed := handed }, rest := [(.t0, .takeup)] } }

theorem test_conversions :
    let long := converting true |> on fun x => { x with supply := { x.supply with zone := .limitLong, persist := 1 } }
    ready.converter.busy = none ∧ (ready.tr .t0).loop = LoopParams.reset ∧ (ready.tr .t0).supply.mode = .zone ∧
      100 ≤ (100 : Byte).toNat ∧ (156 : Byte).toNat ≤ 156 ∧ 244 < (245 : Byte).toNat ∧
      ((after (.conversionEnd 156) (converting true)).tr .t0).supply.entered = true ∧
      ((after (.conversionEnd 7) (converting false)).tr .t0).supplySlot.depth = 7 ∧
      (long.tr .t0).supply.persist + 1 = (long.tr .t0).loop.persistence ∧
      ((after (.conversionEnd 245) long).tr .t0).prot.hold.primary = some .supplyLoopLong ∧
      ((after .poll ready |> after (.readLoops 0)).line.buffer.isSome) = true := by decide

theorem test_drive_law :
    let s := converting true |> withSegment (runs .forward .read .orders) |> inState .moving
    let filling := converting true |> inState (.loading .fill)
    let short := converting true |> on fun x => { x with supply := { x.supply with zone := .limitShort, persist := 1 } }
    let last : State := { ready with converter := { busy := some { t := .t0, reel := .supply, handed := false }, rest := [] } }
    LoopParams.reset.allowed ∧ ((after (.conversionEnd 95) s).tr .t0).supply.commanded = 70 ∧
      ((after (.conversionEnd 0) s).tr .t0).supply.commanded = 127 ∧
      ((after (.conversionEnd 161) s).tr .t0).supply.commanded = 50 ∧
      ((after (.conversionEnd 11) short).tr .t0).prot.hold.primary = some .supplyLoopShort ∧
      ((after (.conversionEnd 12) short).tr .t0).sequencer.state = .ready ∧
      ((after (.conversionEnd 128) filling).tr .t0).sequencer.state = .loading .findLoadPoint ∧
      (after (.conversionEnd 9) last).converter.busy = some { t := .t0, reel := .supply, handed := true } := by
  unfold LoopParams.allowed
  decide

/-- T0's supply output limited since time 0. -/
def limited (m : ResumeMode) : State := ready |> on fun x =>
  { x with
    drive := { x.drive with resume := m }
    supply := { x.supply with commanded := 40, limiting := true, stall := some 0 } }

theorem test_current_limiting :
    (ready.tr .t0).supply.limiting = false ∧ (ready.tr .t0).drive.level .supply ≤ (200 : Byte).toNat ∧
      ((after (.overCurrentEvent .t0 .supply 200) ready).tr .t0).supply.limiting = true ∧
      (199 : Byte).toNat < (ready.tr .t0).drive.level .supply ∧
      ((after (.reelDrivePeriodStart .t0 .supply 199) (limited .atPeriod)).tr .t0).supply.output = 40 ∧
      ((after (.holdOffExpiry .t0 .supply 199) (limited .afterHoldOff)).tr .t0).supply.output = 40 ∧
      ((after (.reelTachPulse .t0 .supply) (limited .atPeriod)).tr .t0).supply.stall = none := by decide

/-- T0 with a switch whose raw level has changed. -/
def changed (w : Switch) (raw : Bool) : State := ready |> on (Transport.modInput w fun i => { i with raw := raw, since := some 0 })

theorem test_switches :
    (ready.tr .t0).sequencer.state.tripping = true ∧ (ready.tr .t0).sequencer.state.loopsArmed = true ∧
      ((limited .atPeriod).tr .t0).supply.stall.isSome = true ∧
      ((after (.stallTimeReached .t0 .supply) (limited .atPeriod)).tr .t0).prot.hold.primary = some .supplyStall ∧
      ((after (.switchDebounceExpiry .t0 .vacuum) (changed .vacuum false)).tr .t0).prot.hold.primary = some .vacuumLoss ∧
      ((after (.switchDebounceExpiry .t0 .door) (changed .door true)).tr .t0).prot.hold.primary = some .doorOpen ∧
      ((after (.switchRawChange .t0 .door true) ready).tr .t0).prot.door.since = some 0 ∧
      ((after (.switchRawChange .t0 .door false) (changed .door true)).tr .t0).prot.door.since = none ∧
      ((changed .reelPresent false).tr .t0).prot.reelPresent.since.isSome = true ∧
      ((after (.switchDebounceExpiry .t0 .reelPresent) (changed .reelPresent false)).tr .t0).sequencer.state = .ready ∧
      (ready.tr .t0).prot.vacuum.since = none := by decide

theorem test_recovery :
    let held := ready |> inState .held
    let open_ := held |> on fun x => { x with prot := { x.prot with door := { raw := true, debounced := true, since := none } } }
    let r := after (.clearHold 0) held
    (held.tr .t0).causePresent = false ∧ (open_.tr .t0).causePresent = true ∧
      statusSent (after (.clearHold 0) open_) = some (byte Status.causePresent.code) ∧
      statusSent (after (.clearHold 0) ready) = some (byte Status.wrongState.code) ∧
      (r.tr .t0).sequencer.state = .recovering ∧ (r.tr .t0).prot.steady.isSome = true ∧
      (r.tr .t0).prot.recovery.isSome = true ∧ ((after (.recoverySteady .t0) r).tr .t0).sequencer.state = .ready ∧
      ((after (.recoveryTimeout .t0) r).tr .t0).prot.hold.failed = true ∧
      (bodySent (after (.readHoldRecord 0) held)).length = 15 := by decide

theorem test_recovery_fails :
    let r := ready |> inState .recovering |> on fun x =>
      { x with
        prot := { x.prot with recovery := some 0, vacuum := { raw := false, debounced := true, since := some 0 }
                              door := { raw := true, debounced := false, since := some 0 } }
        supply := { x.supply with stall := some 0, zone := .limitShort, persist := 1 } }
    let conv : State :=
      { r with converter := { busy := some { t := .t0, reel := .supply, handed := true }, rest := [(.t0, .takeup)] } }
    let further := fun c s => ((after c s).tr .t0).prot.hold.further
    further (.recoveryTimeout .t0) r = [.recoveryTimeout] ∧ further (.stallTimeReached .t0 .supply) r = [.supplyStall] ∧
      further (.switchDebounceExpiry .t0 .vacuum) r = [.vacuumLoss] ∧
      further (.switchDebounceExpiry .t0 .door) r = [.doorOpen] ∧
      further (.conversionEnd 0) conv = [.supplyLoopShort] := by decide

/-! ### The forms a stop, a reset or a ramp's end meets: one small state for each clause -/

/-- T0 after a command. -/
def tr0 (c : Instr) (s : State) : Transport := (after c s).tr .t0

/-- The phase and the stop reason of T0's running order after a command. -/
def phaseAfter (c : Instr) (s : State) : Option (OrderPhase × Option Completion) :=
  (tr0 c s).running.map fun p => (p.2.phase, p.2.reason)

/-- The statuses of T0's completion records after a command. -/
def statusesAfter (c : Instr) (s : State) : List Completion :=
  (tr0 c s).orders.list.filterMap fun sl => match sl with
    | .record r => some r.status
    | _ => none

/-- T0 running an order with given working values, its segment given. -/
def orderWith (k : OrderKind) (w : Work) (g : Segment) : State := (ready |> inState .moving) |> on fun x =>
  { x with
    cap := { x.cap with seg := g, lastDir := .reverse }
    orders := { x.orders with list := [.running { tag := 1, kind := k } w] } }

/-- T0 in a phase of a rewind or of a RETURN, as a panel motion, its segment given. -/
def panelIn (st : XState) (g : Segment) : State := (ready |> inState st) |> on fun x =>
  { x with
    cap := { x.cap with seg := g, lastDir := .reverse }
    sequencer := { x.sequencer with panelMotion := true } }

/-- The same for an order. -/
def sequenceIn (k : OrderKind) (st : XState) (g : Segment) : State := (panelIn st g) |> on fun x =>
  { x with
    sequencer := { x.sequencer with panelMotion := false }
    orders := { x.orders with list := [.running { tag := 1, kind := k } (Work.fresh 0 .sequence)] } }

def endingNow (s : State) : State := s |> on fun x => { x with sequencer := { x.sequencer with ending := true } }

def creeping (d : Dir) : Segment := runs d .creep .sequencer

/-- A sequencer's ramp to rest. -/
def sequencerRest (rezero : Bool) (a : Approach) : Segment := { ramps (.toRest rezero) .sequencer with approach := a }

theorem test_stops_reach_every_phase :
    let stopped : Work := { Work.fresh 0 .stopping with reason := some .complete }
    let down := ramps (.toRest false) .orders
    let search := orderWith (.spaceF 1) (Work.fresh 0 .haltSearch) (runs .forward .read .orders)
    down.driven = true ∧ (runs .reverse .seek .orders).driven = true ∧
      (∀ c ∈ [Instr.halt 0, .resetTransport 0, .resetPress .t0, .resetStation .addressed],
        phaseAfter c (orderWith (.seekPos 9) (Work.fresh 0 .fast) (runs .reverse .seek .orders)) =
          some (.stopping, some .halted) ∧
        phaseAfter c (orderWith (.seekMark 1) (Work.fresh 0 .search) (runs .forward .read .orders)) =
          some (.stopping, some .halted) ∧
        phaseAfter c (orderWith (.spaceF 1) stopped down) = some (.stopping, some .complete) ∧
        phaseAfter c (orderWith (.spaceR 1) { stopped with phase := .approach } down) = some (.approach, some .complete) ∧
        (tr0 c (sequenceIn .rewind (.rewinding .fast) (runs .reverse .rewind .sequencer))).cap.seg.stopping = true ∧
        (tr0 c (sequenceIn .unload (.unloading (.ret .settle)) (creeping .forward))).sequencer.ending = true) ∧
      phaseAfter (.halt 0) search = some (.haltSearch, none) ∧
      phaseAfter (.resetTransport 0) search = some (.stopping, some .halted) ∧
      phaseAfter (.resetStation .broadcast) search = some (.stopping, some .halted) := by decide +kernel

theorem test_panel_motions_are_ended :
    let s := panelIn (.rewinding .fast) (runs .reverse .rewind .sequencer)
    (s.tr .t0).cap.seg.driven = true ∧ (s.tr .t0).running = none ∧
      ∀ c ∈ [Instr.resetStation .addressed, .resetTransport 0, .resetPress .t0, .allStop .addressed],
        (tr0 c s).cap.seg.stopping = true ∧
          (tr0 c (panelIn (.rewinding .approach) (creeping .reverse))).sequencer.ending = true := by decide +kernel

theorem test_resets_by_the_state :
    let door := (ready |> inState .held) |> on (Transport.modInput .door fun _ => { raw := true, debounced := true, since := none })
    let flagged := fun s : State => s |> on fun x => { x with flags := { slots := true, hold := true, state := true } }
    let clear : XFlags := { slots := false, hold := false, state := false }
    let flags := fun s => (tr0 (.resetTransport 0) (flagged s)).flags
    flags ready = clear ∧ flags (ready |> inState (.loading .thread)) = clear ∧ flags (ready |> inState .held) = clear ∧
      flags (ready |> inState .recovering) = clear ∧
      flags (panelIn (.rewinding .fast) (runs .reverse .rewind .sequencer)) = clear ∧
      flags (runningOrder (.advance 5) .readLeg .forward) = clear ∧
      flags ((runningOrder .unload .sequence .forward) |> inState (.unloading .release)) = clear ∧
      flags door = { clear with hold := true } ∧
      (tr0 (.resetTransport 0) door).prot.hold.primary = some .doorOpen ∧
      (tr0 (.resetTransport 0) door).sequencer.state = .held := by decide +kernel

theorem test_load_point_in_reverse :
    let stopped : Work := { Work.fresh 0 .stopping with reason := some .complete }
    let c := Instr.markerEdge .t0 .loadPoint
    let fast := panelIn (.rewinding .fast) (runs .reverse .rewind .sequencer)
    phaseAfter c (orderWith (.seekPos 9) (Work.fresh 0 .fast) (runs .reverse .seek .orders)) =
        some (.approach, some .loadPoint) ∧
      phaseAfter c (orderWith (.seekMark 1) (Work.fresh 0 .readLeg) (runs .reverse .read .orders)) =
        some (.approach, some .loadPoint) ∧
      phaseAfter c (orderWith (.spaceR 1) stopped { ramps (.toRest false) .orders with
        cond := .ramping { dir := .reverse, goal := .toRest false, fromSpeed := 4000, toSpeed := 0, fromFeed := 60
                           toFeed := 0, low := none, high := .read, began := 0, lasts := 2500, start := none } }) =
        some (.approach, some .loadPoint) ∧
      phaseAfter c (orderWith (.spaceR 1) (Work.fresh 0 .haltSearch) (runs .reverse .read .orders)) =
        some (.approach, some .loadPoint) ∧
      (tr0 c fast).cap.seg.stopping = true ∧ (tr0 c fast).sequencer.lpStop = true ∧
      (tr0 c (endingNow fast)).cap.seg.stopping = false ∧
      (tr0 c (panelIn (.unloading (.ret .approach)) (creeping .reverse))).cap.seg.stopping = true ∧
      (tr0 c (panelIn (.rewinding .settle) (creeping .reverse))).cap.seg.stopping = false := by decide +kernel

theorem test_rewinds_go_on :
    let c := Instr.capstanRampEnd .t0
    let rest := sequencerRest false .none
    let zero := sequencerRest true .establishing
    let fast := panelIn (.rewinding .fast) rest
    (tr0 c fast).sequencer.state = .rewinding .approach ∧
      (tr0 c (fast |> on fun x => { x with sequencer := { x.sequencer with lpStop := true } })).sequencer.state =
        .rewinding .settle ∧
      (tr0 c (panelIn (.unloading (.ret .approach)) rest)).sequencer.state = .unloading (.ret .settle) ∧
      (tr0 c (endingNow fast)).sequencer.state = .ready ∧ (tr0 c (endingNow fast)).flags.state = true ∧
      statusesAfter c (endingNow (sequenceIn .rewind (.rewinding .fast) rest)) = [.halted] ∧
      statusesAfter c (sequenceIn .rewind (.rewinding .settle) zero) = [.complete] ∧
      (tr0 c (panelIn (.rewinding .settle) zero)).flags.state = true ∧
      (tr0 c (panelIn (.rewinding .settle) zero)).cap.counter = 0 ∧
      statusesAfter c (endingNow (sequenceIn .unload (.unloading (.ret .settle)) zero)) = [.halted] ∧
      (tr0 c (panelIn (.unloading (.ret .settle)) zero)).sequencer.state = .unloading .release := by decide +kernel

theorem test_ramps_end_elsewhere :
    let c := Instr.capstanRampEnd .t0
    let rest := ramps (.toRest false) .orders
    let turn := orderWith (.seekMark 1) (Work.fresh 0 .stopping) rest
    let halted := orderWith (.seekMark 1) { Work.fresh 0 .stopping with halted := true } rest
    let met : Work := { Work.fresh 0 .approach with reason := some .loadPoint }
    let zero := { ramps (.toRest true) .orders with approach := .returning }
    (tr0 c ((ready |> inState (.loading .findLoadPoint)) |> withSegment (sequencerRest false .establishing))).sequencer.loadResult =
        .noLoadPoint ∧
      (tr0 c (orderWith (.spaceR 1) (Work.fresh 0 .readLeg) { ramps .throughRest .orders with dir := some .reverse })).cap.seg.tapeDir =
        some .reverse ∧
      phaseAfter c turn = some (.search, none) ∧ statusesAfter c halted = [.halted] ∧
      (tr0 c (orderWith (.spaceR 1) met rest)).cap.seg.approach = .returning ∧
      statusesAfter c (orderWith (.spaceR 1) met zero) = [.loadPoint] ∧
      statusesAfter c (orderWith (.seekPos 9) met zero) = [.loadPoint] ∧
      phaseAfter c (orderWith (.seekMark 1) met zero) = some (.search, none) ∧
      statusesAfter c (orderWith (.seekMark 1) { met with halted := true } zero) = [.halted] := by decide +kernel

theorem test_unloads_return_and_end :
    let r := (sequenceIn .unload (.unloading .release) Segment.reset) |> on fun x =>
      { x with sequencer := { x.sequencer with quiet := some 0 } }
    (tr0 (.unloadPress .t0) (resting 900 .exact)).sequencer.state = .unloading (.ret .approach) ∧
      (tr0 (.unloadPress .t0) (resting 0 .lost)).sequencer.state = .unloading (.ret .fast) ∧
      statusesAfter (.releaseQuietTimeout .t0) r = [.complete] := by decide +kernel

theorem test_unbinds :
    let at_ := fun st => bound |> inState st
    (at_ .held |> after (.unbindVolume 0)).shelf = [0] ∧ (at_ .recovering |> after (.unbindVolume 0)).shelf = [0] ∧
      statusSent (after (.unbindVolume 0) (at_ (.rewinding .fast))) = some (byte Status.busy.code) ∧
      statusSent (after (.unbindVolume 0) (at_ (.unloading .release))) = some (byte Status.busy.code) := by decide +kernel

theorem test_retired_target :
    let w : Work := { Work.fresh 0 .search with copied := some 100, targetRetired := true }
    phaseAfter (.capstanTachCount .t0 .forward) (passing (.seekMark 1) w [] 180) =
      some (.stopping, some .markRetired) := by decide +kernel

theorem test_drive_parameters_while_driven :
    let at_ := fun (f : ReelDrive → ReelDrive) => ready |> on fun x => { x with supply := f x.supply }
    let timed := fun clock => { (at_ fun k => { k with stall := some 0 }) with clock := clock }
    let both := (timed 5000) |> on fun x => { x with takeup := { x.takeup with stall := some 0 } }
    let out := at_ fun k => { k with current := 10, commanded := 40, output := 40 }
    let held := { (limited .atPeriod) with clock := 20 } |> on fun x => { x with supply := { x.supply with stall := none } }
    let c := fun (level resume stall : Byte) => Instr.setDriveParameters 0 level 255 resume stall
    (tr0 (c 10 0 5) out).supply.limiting = true ∧ (tr0 (c 11 0 5) out).supply.output = 40 ∧
      (tr0 (c 255 1 5) held).supply.output = 40 ∧ (tr0 (c 255 0 5) held).supply.limiting = true ∧
      (tr0 (c 255 0 5) (timed 4999)).sequencer.state = .ready ∧
      (tr0 (c 255 0 5) (timed 5000)).prot.hold.primary = some .supplyStall ∧
      (tr0 (c 255 0 5) both).prot.hold.further = [.takeupStall] := by decide +kernel

theorem test_last_channel :
    let last : State := { ready with converter := { busy := some { t := .t0, reel := .takeup, handed := true }, rest := [] } }
    let held := last |> inState .held
    (after (.conversionEnd 128) last).converter.busy = some { t := .t0, reel := .supply, handed := true } ∧
      (after (.conversionEnd 128) last).converter.rest = [(.t0, .takeup)] ∧
      (tr0 (.conversionEnd 255) held).takeup.zone = .limitLong ∧
      (tr0 (.conversionEnd 255) held).sequencer.state = .held := by decide +kernel

theorem test_periods_and_levels :
    let seen := ready |> on fun x => { x with supply := { x.supply with stall := some 0, overThisPeriod := true } }
    let p := fun (current : Byte) => Instr.reelDrivePeriodStart .t0 .supply current
    (tr0 (p 0) seen).supply.stall = some 0 ∧ ((after (p 0) (after (p 0) seen)).tr .t0).supply.stall = none ∧
      (tr0 (p 200) (limited .atPeriod)).supply.limiting = true ∧ (tr0 (p 199) (limited .atPeriod)).supply.limiting = false ∧
      (tr0 (.holdOffExpiry .t0 .supply 200) (limited .afterHoldOff)).supply.output = 0 := by decide +kernel

theorem test_door_in_held :
    let s := (changed .door true) |> inState .held
    (tr0 (.switchDebounceExpiry .t0 .door) s).prot.hold.further = [.doorOpen] ∧
      (tr0 (.switchDebounceExpiry .t0 .door) s).flags.hold = false := by decide +kernel

theorem test_frame_bits :
    (Frame.wire { address := false, data := 0x41 }).bits =
      [false, true, false, false, false, false, false, true, false, false, true, true] ∧
      WireFrame.ofBits (List.replicate 12 true) = none := by decide

/-- T0 COASTING with a request of each block waiting, the order list given. -/
def coasting (st : XState) (orders sequencer : Option MotionReq) (l : List Slot) : State :=
  (ready |> inState st) |> withSegment { Segment.reset with cond := .coasting, dir := some .forward } |> on fun x =>
    { x with
      cap := { x.cap with refusedOrders := orders, refusedSequencer := sequencer, eotPos := some 10 }
      orders := { x.orders with list := l } }

theorem test_coasts_end :
    let w := Work.fresh 0 .readLeg
    let o : Order := { tag := 1, kind := .advance 5 }
    let waiting := fun p => coasting .moving (some (.run (plainRun .forward .read p))) none [.running o w]
    let stop := fun w => coasting .moving (some .stop) none [.running { tag := 1, kind := .spaceR 2 } w]
    let rewind := coasting (.rewinding .fast) none (some (.run (reverseRun .seek (some 149)))) []
    (tr0 (.coastEnd .t0) (waiting none)).cap.seg.stopTarget = some 30010 ∧
      ((tr0 (.coastEnd .t0) (waiting none)).running.map fun p => p.2.runoutTarget) = some true ∧
      (tr0 (.coastEnd .t0) (waiting (some 151))).cap.seg.stopTarget = some 151 ∧
      (tr0 (.coastEnd .t0) (waiting (some 151))).cap.seg.stopping = false ∧
      statusesAfter (.coastEnd .t0) (stop { w with phase := .stopping, reason := some .halted }) = [.halted] ∧
      (tr0 (.coastEnd .t0) ((stop { w with phase := .approach }) |> on fun x =>
        { x with cap := { x.cap with eotPos := none } })).cap.seg.approach = .returning ∧
      (tr0 (.coastEnd .t0) rewind).cap.seg.owner = some .sequencer ∧
      (tr0 (.coastEnd .t0) rewind).cap.seg.stopping = false := by decide +kernel

theorem test_free_has_a_direction :
    (tr0 (.loadPress .t0) reelOn).cap.seg.dir = some .forward ∧
      (tr0 (.unloadPress .t0) (resting 0 .exact)).cap.seg.dir = some .reverse := by decide +kernel

theorem test_raw_gaps_while_moving :
    let s := fun k => runningOrder k .readLeg .forward |> withFilter { raw := .block, level := .block, time := .us0, since := none }
    let c := Instr.rawGapLineChange .t0 .gap
    (tr0 c (s (.advance 5))).cap.lastGap = some 150 ∧
      ((tr0 c (s (.spaceF 2))).running.map fun p => p.2.count) = some 1 ∧
      phaseAfter c (s (.spaceF 1)) = some (.stopping, some .complete) ∧
      (tr0 (.rawGapLineChange .t0 .block) (s (.spaceF 1) |> withFilter
        { raw := .gap, level := .gap, time := .us0, since := none })).cap.filter.level = .block := by decide +kernel

theorem test_release_transport_halts :
    let r := (sequenceIn .unload (.unloading .release) Segment.reset)
    phaseAfter (.releaseTransport 0) (runningOrder (.advance 5) .readLeg .forward) = some (.stopping, some .halted) ∧
      (r.tr .t0).releasing = true ∧ (tr0 (.releaseTransport 0) r).sequencer.online = false ∧
      phaseAfter (.releaseTransport 0) r = some (.sequence, none) ∧
      statusSent (after (.releaseTransport 0) (offline ready)) = some 0 := by decide +kernel

/-- T0 at SEEK speed toward 9000 for an order, its leg ending there, at a position, on volume A with some marks. -/
def seeking (k : OrderKind) (marks : List Mark) (here : Int) : State :=
  passing k { Work.fresh 0 .fast with leg := { dir := .forward, endPoint := 9000, slowDown := 7500, rests := true } }
    marks here |> withSegment (runs .forward .seek .orders)

theorem test_fast_legs_are_planned_anew :
    let slow := fun c s => (tr0 c s).running.map fun p => (p.2.leg.slowDown, p.2.phase)
    let s := seeking (.seekPos 9000) [mark 1 100] 3000
    let b := seeking (.seekPos 9000) [barrier 1 5000] 3000
    (s.tr .t0).cap.seg.cond = .running ∧ s.boundIdx .t0 = some 0 ∧ (s.tr .t0).cap.counter + 1500 ≤ 9000 ∧
      slow (.setMark 0 2 1 2 4700 0) s = some (3120, .fast) ∧ slow (.setMark 0 2 1 2 4580 0) s = some (3000, .readLeg) ∧
      slow (.setMark 0 2 1 2 3000 0) s = some (7500, .fast) ∧ slow (.setMark 0 2 0 2 4700 0) s = some (7500, .fast) ∧
      slow (.changeMark 0 1 1 0 4700 0) b = some (3120, .fast) ∧ slow (.changeMark 0 1 2 0 0 0) b = some (7500, .fast) ∧
      slow (.changeMark 0 1 2 1 0 0) s = some (7500, .fast) ∧ slow (.changeMark 0 1 3 1 4500 0) s = some (2920, .readLeg) ∧
      slow (.retireMark 0 1) b = some (7500, .fast) ∧
      ((tr0 (.retireMark 0 1) (seeking (.seekMark 1) [mark 1 5000] 3000)).running.map fun p => p.2.targetRetired) =
        some true := by decide +kernel

theorem test_results_in_fill_and_recovery :
    let fill := fun depth => (converting true |> inState (.loading .fill)) |> on fun x =>
      { x with supply := { x.supply with entered := false }, takeupSlot := { x.takeupSlot with depth := depth } }
    let recover := fun since => (converting true |> inState .recovering) |> on fun x =>
      { x with prot := { x.prot with steady := since, recovery := some 0 } }
    (tr0 (.conversionEnd 244) (fill 128)).supply.commanded = 40 ∧ (tr0 (.conversionEnd 244) (fill 128)).supply.entered = false ∧
      (tr0 (.conversionEnd 243) (fill 128)).supply.entered = true ∧
      (tr0 (.conversionEnd 245) (fill 128)).sequencer.state = .loading .fill ∧
      (tr0 (.conversionEnd 128) (recover none)).prot.steady = some 0 ∧
      (tr0 (.conversionEnd 156) (recover (some 5))).prot.steady = some 5 ∧
      (tr0 (.conversionEnd 157) (recover (some 5))).prot.steady = none ∧
      (tr0 (.conversionEnd 245) (recover (some 5))).sequencer.state = .recovering := by decide +kernel

theorem test_vacuum_in_fill :
    let fill := fun depth => ((ready |> inState (.loading .fill)) |> on fun x =>
      { x with prot := { x.prot with vacuum := { raw := true, debounced := false, since := some 0 } }
               takeupSlot := { x.takeupSlot with depth := depth } })
    let c := Instr.switchDebounceExpiry .t0 .vacuum
    (tr0 c (fill 156)).sequencer.state = .loading .findLoadPoint ∧
      (tr0 c (fill 157)).sequencer.state = .loading .fill ∧ (tr0 c (fill 157)).prot.vacuum.debounced = true := by
  decide +kernel

theorem test_barriers_at_one_count :
    let s := passing (.advance 9) (Work.fresh 0 .readLeg) [barrier 3 100, barrier 5 100] 180
    ((tr0 (.capstanTachCount .t0 .forward) s).running.map fun p => p.2.barrier) = some (some 3) := by decide +kernel

/-! ### The invariants' premises -/

theorem test_conditions_met :
    (∀ t, (ready.tr t).driveSafe ∧ (ready.tr t).reelsSafe) ∧ ready.line.sound ∧
      (∀ t, (ready.tr t).cap.inRange ∧ (ready.tr t).loop.allowed ∧ (ready.tr t).orders.list.length ≤ 8) := by
  refine ⟨fun t => ?_, fun _ => rfl, fun t => ?_⟩
  · cases t
    · exact ⟨⟨nofun, nofun⟩, nofun⟩
    all_goals exact ⟨⟨nofun, fun _ => rfl⟩, fun _ => ⟨⟨rfl, rfl, rfl, rfl, rfl⟩, ⟨rfl, rfl, rfl, rfl, rfl⟩⟩⟩
  · cases t <;> (unfold Capstan.inRange LoopParams.allowed; decide)

theorem test_marks_sound : bound.marksSound ∧ (∃ r, step bound = .next r) := by
  refine ⟨⟨?_, ?_⟩, ⟨_, rfl⟩⟩
  · unfold MarksOk
    decide
  · decide

theorem test_volumes_sound : bound.volumesSound ∧ shelved.volumesSound := by
  unfold State.volumesSound
  refine ⟨⟨?_, ?_, ?_, ?_, ?_⟩, ?_, ?_, ?_, ?_, ?_⟩
  · decide
  · decide
  · decide
  · intro t
    cases t <;> decide
  · decide
  · decide
  · decide
  · decide
  · intro t
    cases t <;> decide
  · decide

theorem test_event_of_a_transport : (Instr.coastEnd .t3).transport? = some .t3 ∧ Instr.poll.transport? = none := ⟨rfl, rfl⟩

end Sys2Proof.Tests
end

