-- ==== Sys2Proof/Proofs/Fits.lean ====
section
/-! PROOF. Every step keeps the counters in range, the loop parameters allowed and at most eight slots in use: the
events of one transport by `State.Kept`, the requests handler by handler. -/

namespace Sys2Proof.Machine

open Sys2Proof

/-- The counter in its range, the loop parameters allowed, and at most eight slots in use (R1, R132, R83). -/
def Transport.Fits (x : Transport) : Prop := x.cap.inRange ∧ x.loop.allowed ∧ x.orders.list.length ≤ 8

/-- Every transport fits. -/
def State.Fits (s : State) : Prop := s.every Transport.Fits

theorem Transport.Kept.fits {x y : Transport} (k : x.Kept y) (h : x.Fits) : y.Fits :=
  ⟨k.range h.1, k.loop ▸ h.2.1, k.slots.trans h.2.2⟩

variable {t : TNum} {s r : State}

theorem State.Fits.of_x (h : s.Fits) (e : r.x = s.x) : r.Fits := by
  intro u
  unfold State.tr
  rw [e]
  exact h u

theorem State.Fits.upd (t : TNum) (f : Transport → Transport) (h : s.Fits) (k : (s.tr t).Fits → (f (s.tr t)).Fits) :
    (s.upd t f).Fits := by
  intro u
  by_cases e : u = t
  · subst e
    rw [State.tr_upd_same]
    exact k (h u)
  · rw [State.tr_upd_other _ _ _ _ e]
    exact h u

theorem State.Kept.fits (k : s.Kept t r) (h : s.Fits) : r.Fits := by
  intro u
  by_cases e : u = t
  · subst e
    exact k.own.fits (h u)
  · rw [k.others u e]
    exact h u

theorem State.Fits.forEach (f : TNum → State → State) (h : s.Fits) (k : ∀ (u : TNum) (q : State), q.Fits → (f u q).Fits) :
    (s.forEach f).Fits :=
  k _ _ (k _ _ (k _ _ (k _ _ h)))

/-! ### Requests that leave the transports as they are -/

theorem State.evict_x (i : Fin 16) (s : State) : (s.evict i).x = s.x := rfl

theorem State.makeRoom_x {room : State} {e : Option Serial} (h : s.makeRoom = some (room, e)) : room.x = s.x := by
  unfold State.makeRoom at h
  split at h
  · cases h; rfl
  · split at h
    · cases h; rfl
    · cases h

theorem State.freshEntry_x {i : Fin 16} {room : State} {e : Option Serial} (h : s.freshEntry = some (i, room, e)) :
    room.x = s.x := by
  unfold State.freshEntry at h
  split at h
  · cases h; rfl
  · split at h
    · cases h; rfl
    · cases h

theorem State.bind_x (t : TNum) (v : Volume) (s : State) : (s.bind t v).1.x = s.x := by
  unfold State.bind
  split
  · split
    · split <;> rfl
    · rfl
  · split
    case h_1 e => exact (State.freshEntry_x e :)
    case h_2 => rfl

theorem bindVolume_x (t : TNum) (serial : Serial) (generation : BitVec 16) (cls : Byte) (length : BitVec 24) (s : State) :
    (bindVolume t serial generation cls length s).1.x = s.x := by
  unfold bindVolume
  split
  · rfl
  · split
    · rfl
    · exact State.bind_x _ _ _

theorem State.shelveBound_x (t : TNum) (s : State) : (s.shelveBound t).x = s.x := by
  unfold State.shelveBound
  split
  · split <;> rfl
  · rfl

theorem unbindVolume_x (t : TNum) (s : State) : (unbindVolume t s).1.x = s.x := by
  unfold unbindVolume
  split
  · rfl
  · split
    · rfl
    · exact State.shelveBound_x _ _

theorem retireVolume_x (serial : Serial) (s : State) : (retireVolume serial s).1.x = s.x := by
  unfold retireVolume
  split
  · rfl
  · split
    · split <;> rfl
    · rfl

theorem readVolume_x (form index : Byte) (serial : Serial) (s : State) : (readVolume form index serial s).1.x = s.x := by
  unfold readVolume
  split
  · split <;> rfl
  · split
    · rfl
    · split <;> rfl
  · rfl

theorem listVolumes_x (start : Byte) (s : State) : (listVolumes start s).1.x = s.x := by
  unfold listVolumes
  split <;> rfl

/-- A mark request keeps what its handler keeps on a bound transport (R46). -/
theorem onVolume_fits (t : TNum) (f : Fin 16 → State → State × Reply) (h : s.Fits) (k : ∀ i, (f i s).1.Fits) :
    (onVolume t f s).1.Fits := by
  unfold onVolume
  split
  · exact k _
  · exact h

theorem onMark_fits (t : TNum) (number : BitVec 16) (f : Fin 16 → Mark → State → State × Reply) (h : s.Fits)
    (k : ∀ i m, (f i m s).1.Fits) : (onMark t number f s).1.Fits := by
  refine onVolume_fits t _ h fun i => ?_
  split
  · exact h
  · split
    · exact h
    · exact k _ _

theorem onTransport_fits (b : Byte) (f : TNum → State → State × Reply) (h : s.Fits) (k : ∀ t, (f t s).1.Fits) :
    (onTransport b f s).1.Fits := by
  unfold onTransport
  split
  · exact k _
  · exact h

theorem findByTag_fits (t : TNum) (tag : BitVec 32) (start : BitVec 16) (h : s.Fits) : (findByTag t tag start s).1.Fits := by
  refine onVolume_fits t _ h fun i => ?_
  split <;> exact h

theorem findNearest_fits (t : TNum) (position : BitVec 24) (side : Byte) (h : s.Fits) :
    (findNearest t position side s).1.Fits := by
  refine onVolume_fits t _ h fun i => ?_
  split
  · split <;> exact h
  · split <;> exact h
  · exact h

theorem listMarks_fits (t : TNum) (start : BitVec 16) (h : s.Fits) : (listMarks t start s).1.Fits := by
  refine onVolume_fits t _ h fun i => ?_
  split <;> exact h

/-! ### Mark and capture requests -/

theorem State.Fits.replan (h : s.Fits) : (s.replan t).Fits := (State.Kept.refl t s).replan.fits h

theorem State.Fits.pruneWatches (h : s.Fits) : (s.pruneWatches t).Fits := (State.Kept.refl t s).pruneWatches.fits h

theorem State.Fits.reportBarrier (b : Bool) (h : s.Fits) : (s.reportBarrier t b).Fits := by
  unfold State.reportBarrier
  split
  · exact h.replan
  · exact h

theorem State.Fits.capture (f : Capture → Capture) (h : s.Fits) : (s.upd t fun x => x.modCapture f).Fits :=
  h.upd t _ id

theorem setMark_fits (t : TNum) (number : BitVec 16) (bits form : Byte) (position : BitVec 24) (tag : BitVec 32)
    (h : s.Fits) : (setMark t number bits form position tag s).1.Fits := by
  refine onVolume_fits t _ h fun i => ?_
  split
  · split
    · exact h
    · split
      · exact h
      · split
        · exact h
        · rename_i room _ e
          have same : room.x = s.x := State.makeRoom_x e
          exact State.Fits.reportBarrier _ (h.of_x same)
  · exact h

theorem changeMark_fits (t : TNum) (number : BitVec 16) (selector bits : Byte) (position : BitVec 24)
    (tag : BitVec 32) (h : s.Fits) : (changeMark t number selector bits position tag s).1.Fits := by
  refine onVolume_fits t _ h fun i => ?_
  split
  · split
    · exact h
    · refine State.Fits.reportBarrier _ (State.Fits.pruneWatches ?_)
      split
      · exact State.Fits.capture _ (h.of_x rfl)
      · exact h.of_x rfl
  · exact h

theorem retireMark_fits (t : TNum) (number : BitVec 16) (h : s.Fits) : (retireMark t number s).1.Fits := by
  refine onMark_fits t _ _ h fun i m => State.Fits.reportBarrier _ (State.Fits.upd t _ (h.of_x rfl) fun k => ?_)
  exact (Transport.kept_work _ _).fits k

theorem readPassed_fits (t : TNum) (h : s.Fits) : (readPassed t s).1.Fits :=
  onVolume_fits t _ h fun _ => h.of_x rfl

theorem setCaptureParameters_fits (t : TNum) (lead lag : BitVec 16) (filter : Byte) (h : s.Fits) :
    (setCaptureParameters t lead lag filter s).1.Fits := by
  unfold setCaptureParameters
  split
  · exact h
  · split
    · exact h
    · exact ((State.Kept.refl t _).filter _).fits (State.Fits.replan (State.Fits.pruneWatches (h.capture _)))

/-! ### Order, drive and line requests -/

theorem setDefaultClass_fits (t : TNum) (cls : Byte) (h : s.Fits) : (setDefaultClass t cls s).1.Fits := by
  unfold setDefaultClass
  split
  · exact h.upd t _ id
  · exact h

/-- An order is queued only while a slot is free, so that the list grows to eight at most (R83, R86). -/
theorem queueOrder_fits (t : TNum) (tag kind : Byte) (argument : BitVec 24) (h : s.Fits) :
    (queueOrder t tag kind argument s).1.Fits := by
  unfold queueOrder
  dsimp only
  split
  · exact h
  split
  · exact h
  split
  · exact h
  split
  · exact h
  case isFalse free =>
    split
    · exact h
    · refine (State.Kept.refl t _).startNext.fits (h.upd t _ fun k => ⟨k.1, k.2.1, ?_⟩)
      have room : (s.tr t).orders.list.length < 8 := by
        unfold Transport.freeCount Config.slotCount at free
        omega
      simp only [Transport.modList_orders, List.length_append, List.length_singleton]
      omega

theorem halt_fits (t : TNum) (h : s.Fits) : (halt t s).1.Fits := by
  unfold halt
  split
  · exact h
  · exact (State.Kept.refl t s).haltOrders.fits h

theorem cancelPending_fits (t : TNum) (h : s.Fits) : (cancelPending t s).1.Fits :=
  h.upd t _ (Transport.kept_discard _).fits

theorem Transport.slotsReached_fits (n : Nat) {x : Transport} (h : x.Fits) : (x.slotsReached n).Fits := by
  unfold Transport.slotsReached
  split <;> exact h

theorem readCompletions_fits (t : TNum) (h : s.Fits) : (readCompletions t s).1.Fits :=
  h.upd t _ fun k => Transport.slotsReached_fits _ ((Transport.kept_list _ _ (by simp)).fits k)

theorem setSlotThreshold_fits (t : TNum) (threshold : Byte) (h : s.Fits) : (setSlotThreshold t threshold s).1.Fits := by
  unfold setSlotThreshold
  split
  · exact h
  · exact h.upd t _ id

theorem releaseTransport_fits (t : TNum) (h : s.Fits) : (releaseTransport t s).1.Fits := by
  unfold releaseTransport
  split
  · exact (State.Kept.refl t s).goOffline.fits h
  · exact h

theorem resetTransport_fits (t : TNum) (h : s.Fits) : (resetTransport t s).1.Fits :=
  (State.Kept.refl t s).resetTransport.fits h

theorem loopParamsOf_allowed {a b c d e f : Byte} {p : LoopParams} (h : loopParamsOf a b c d e f = some p) : p.allowed := by
  unfold loopParamsOf at h
  dsimp only at h
  split at h
  case isFalse => cases h
  case isTrue ok =>
    cases h
    obtain ⟨short, band, long, gain, gain', persistence, persistence'⟩ := ok
    exact ⟨short, band, long, by have := d.isLt; dsimp only; omega, gain, gain', persistence, persistence'⟩

theorem setLoopParameters_fits (t : TNum) (a b c d e f : Byte) (h : s.Fits) : (setLoopParameters t a b c d e f s).1.Fits := by
  unfold setLoopParameters
  split
  case h_1 ok => exact h.upd t _ fun k => ⟨k.1, loopParamsOf_allowed ok, k.2.2⟩
  case h_2 => exact h

theorem setDriveParameters_fits (t : TNum) (a b c d : Byte) (h : s.Fits) : (setDriveParameters t a b c d s).1.Fits := by
  unfold setDriveParameters
  split
  · exact h
  · refine h.upd t _ fun k => (Transport.kept_takeCauses _ _ _).fits ?_
    unfold Transport.restartStalls Transport.newDriveParams
    dsimp only
    split <;> exact k

theorem clearHold_fits (t : TNum) (h : s.Fits) : (clearHold t s).1.Fits := by
  unfold clearHold
  split
  · exact h
  · split
    · exact h
    · exact h.upd t _ (Transport.kept_recoveryBegin _ _).fits

theorem State.Fits.stopAll (h : s.Fits) : s.stopAll.Fits :=
  h.forEach _ fun u q k => (State.Kept.refl u q).allStopOne.fits k

theorem State.Fits.resetStation (h : s.Fits) : s.resetStation.Fits := by
  have dropped : (s.stopAll.forEach State.resetOrders).Fits :=
    h.stopAll.forEach _ fun u q k => (State.Kept.refl u q).resetOrders.fits k
  exact (dropped.forEach (fun u q => q.upd u fun x => { x.clearEvents with masks := XMasks.all })
    fun u q k => k.upd u _ id).of_x rfl

/-- Every request of the catalogue keeps every transport fitting. -/
theorem State.Fits.handleRequest (q : Request) (h : s.Fits) : (s.handleRequest q).1.Fits := by
  cases q with
  | poll => exact h
  | readLineStatus => exact h.of_x rfl
  | setNoticeMasks sel =>
    exact (h.forEach (fun u k => k.upd u fun x => { x with masks := masksOf (sel.x.get u) })
      fun u k j => j.upd u _ id).of_x rfl
  | readNotices => exact h
  | ackNotices sel =>
    exact (h.forEach (fun u k => k.upd u fun x => { x with flags := x.flags.ack (sel.x.get u) })
      fun u k j => j.upd u _ id).of_x rfl
  | readEviction => exact h.of_x rfl
  | allStop => exact h.stopAll
  | resetStation => exact h.resetStation
  | readPosition b => exact onTransport_fits b _ h fun _ => h
  | setDefaultClass b cls => exact onTransport_fits b _ h fun u => setDefaultClass_fits u cls h
  | bindVolume b serial generation cls length => exact onTransport_fits b _ h fun u => h.of_x (bindVolume_x ..)
  | unbindVolume b => exact onTransport_fits b _ h fun u => h.of_x (unbindVolume_x u s)
  | retireVolume serial => exact h.of_x (retireVolume_x serial s)
  | readVolume form index serial => exact h.of_x (readVolume_x form index serial s)
  | listVolumes start => exact h.of_x (listVolumes_x start s)
  | setMark b number bits form position tag => exact onTransport_fits b _ h fun u => setMark_fits u _ _ _ _ _ h
  | changeMark b number selector bits position tag =>
    exact onTransport_fits b _ h fun u => changeMark_fits u _ _ _ _ _ h
  | retireMark b number => exact onTransport_fits b _ h fun u => retireMark_fits u _ h
  | findMark b number => exact onTransport_fits b _ h fun u => onMark_fits u _ _ h fun _ _ => h
  | findByTag b tag start => exact onTransport_fits b _ h fun u => findByTag_fits u _ _ h
  | findNearest b position side => exact onTransport_fits b _ h fun u => findNearest_fits u _ _ h
  | listMarks b start => exact onTransport_fits b _ h fun u => listMarks_fits u _ h
  | readPassed b => exact onTransport_fits b _ h fun u => readPassed_fits u h
  | setCaptureParameters b lead lag filter => exact onTransport_fits b _ h fun u => setCaptureParameters_fits u _ _ _ h
  | readCapture b => exact onTransport_fits b _ h fun _ => h
  | queueOrder b tag kind argument => exact onTransport_fits b _ h fun u => queueOrder_fits u _ _ _ h
  | halt b => exact onTransport_fits b _ h fun u => halt_fits u h
  | cancelPending b => exact onTransport_fits b _ h fun u => cancelPending_fits u h
  | readCompletions b => exact onTransport_fits b _ h fun u => readCompletions_fits u h
  | setSlotThreshold b threshold => exact onTransport_fits b _ h fun u => setSlotThreshold_fits u _ h
  | readTransport b => exact onTransport_fits b _ h fun _ => h
  | releaseTransport b => exact onTransport_fits b _ h fun u => releaseTransport_fits u h
  | resetTransport b => exact onTransport_fits b _ h fun u => resetTransport_fits u h
  | setLoopParameters b limitShort bandLow bandHigh limitLong gain persistence =>
    exact onTransport_fits b _ h fun u => setLoopParameters_fits u _ _ _ _ _ _ h
  | setDriveParameters b supplyLevel takeupLevel resume stallTime =>
    exact onTransport_fits b _ h fun u => setDriveParameters_fits u _ _ _ _ h
  | readLoops b => exact onTransport_fits b _ h fun u => h.upd u _ id
  | clearHold b => exact onTransport_fits b _ h fun u => clearHold_fits u h
  | readHoldRecord b => exact onTransport_fits b _ h fun _ => h

/-! ### The line -/

theorem State.respond_x (kind : SelKind) (p : Reply) (s : State) : (s.respond kind p).x = s.x := by
  unfold State.respond
  split <;> rfl

theorem State.Fits.execute (b : Buffered) (h : s.Fits) : (s.execute b).Fits := by
  have handled : (s.handleMessage b.message).1.Fits := by
    unfold State.handleMessage
    split
    · exact h.handleRequest _
    · exact h
    · exact h
  exact handled.of_x (State.respond_x _ _ _)

theorem State.Fits.takeRequest (h : s.Fits) : s.takeRequest.Fits := by
  unfold State.takeRequest
  split
  · split
    · exact State.Fits.execute _ (h.of_x rfl)
    · exact h
  · exact h

theorem State.Fits.submit (b : Buffered) (h : s.Fits) : (s.submit b).Fits := by
  unfold State.submit
  split
  · exact h
  · split
    · exact h.of_x rfl
    · exact State.Fits.takeRequest (h.of_x rfl)

theorem State.Fits.dataFrame (data : Byte) (h : s.Fits) : (s.dataFrame data).Fits := by
  have ended : ∀ (k : SelKind) (got : List Byte), (s.messageEnd k got).Fits := by
    intro k got
    unfold State.messageEnd
    dsimp only
    split
    · exact State.Fits.submit _ (h.of_x rfl)
    · exact h.of_x rfl
  unfold State.dataFrame
  split
  · exact h
  · exact h
  · split <;> exact h.of_x rfl
  · split
    · exact ended _ _
    · exact h.of_x rfl

theorem State.frameError_x (p f : Bool) (s : State) : (s.frameError p f).x = s.x := by
  unfold State.frameError
  split <;> rfl

theorem State.frameGap_x (s : State) : s.frameGap.x = s.x := by
  unfold State.frameGap
  split <;> rfl

theorem State.Fits.transmitEnd (h : s.Fits) : s.transmitEnd.Fits := by
  unfold State.transmitEnd
  split
  · exact h
  · exact State.Fits.takeRequest (h.of_x rfl)

/-! ### Events -/

theorem Transport.reset_fits : Transport.reset.Fits := by
  refine ⟨?_, ?_, Nat.zero_le 8⟩
  · show (-32768 : Int) ≤ 0 ∧ (0 : Int) ≤ 8388607
    omega
  · show LoopParams.reset.allowed
    unfold LoopParams.allowed
    decide

theorem State.powerOn_fits (pins : PowerPins) (s : State) : (s.powerOn pins).Fits := by
  intro u
  have start : (s.powerOn pins).tr u = transportAt (pins.x.get u) := by cases u <;> rfl
  rw [start]
  exact Transport.reset_fits

theorem State.joinScan_x (s : State) : s.joinScan.x = s.x := by
  unfold State.joinScan
  split <;> rfl

theorem State.Fits.load (t : TNum) (h : s.Fits) : (s.load t).Fits := by
  unfold State.load
  split
  · exact (h.upd t _ (Transport.kept_beginLoad _ _).fits).of_x (State.joinScan_x _)
  · exact h

theorem Transport.enterUnloaded_fits (now : Nat) {x : Transport} (h : x.Fits) : (x.enterUnloaded now).Fits := by
  have rested := ((Transport.kept_driveOff x).trans (Transport.kept_holdRest now _)).fits h
  refine ⟨?_, rested.2⟩
  show (-32768 : Int) ≤ 0 ∧ (0 : Int) ≤ 8388607
  omega

theorem State.Fits.releaseQuiet (t : TNum) (h : s.Fits) : (s.releaseQuiet t).Fits := by
  unfold State.releaseQuiet
  split
  · have entered : (s.upd t fun x => (x.enterUnloaded s.clock).makeRecord .complete).Fits :=
      h.upd t _ fun k => (Transport.kept_makeRecord _ _).fits (Transport.enterUnloaded_fits _ k)
    exact entered.of_x (State.shelveBound_x _ _)
  · exact h

theorem State.Fits.conversionEnd (depth : Nat) (h : s.Fits) : (s.conversionEnd depth).Fits := by
  unfold State.conversionEnd
  split
  · exact h
  · rename_i c _
    have written : (s.upd c.t (Transport.setSlot c.reel { depth := depth, fresh := true })).Fits :=
      h.upd c.t _ fun k => by cases c.reel <;> exact k
    have next : ∀ q : State, q.nextConversion.x = q.x := fun q => by
      unfold State.nextConversion
      split <;> rfl
    refine State.Fits.of_x ?_ (next _)
    split
    · exact ((State.Kept.refl _ _).handResult _ _).fits written
    · exact written

/-- The events of one transport keep all that `State.Kept` says, but for the two that join or leave the converter's scan
(R130). -/
theorem exec_event_kept (c : Instr) (t : TNum) (s : State) (h : c.transport? = some t) :
    (∃ r, exec c s = .next r ∧ s.Kept t r) ∨ c = .loadPress t ∨ c = .releaseQuietTimeout t := by
  have k := State.Kept.refl t s
  cases c <;> cases h
  case capstanTachCount d => exact .inl ⟨_, rfl, k.tachCount d⟩
  case capstanTachLoss =>
    refine .inl ⟨_, rfl, ?_⟩
    split
    · exact k.upd _ ((Transport.kept_loseConfidence _).trans (Transport.kept_takeCause _ _ _))
    · exact k
  case coastEnd => exact .inl ⟨_, rfl, k.coastEnd⟩
  case markerEdge m => exact .inl ⟨_, rfl, k.markerEvent m⟩
  case rawGapLineChange l => exact .inl ⟨_, rfl, k.filter _⟩
  case gapFilterExpiry => exact .inl ⟨_, rfl, k.filter _⟩
  case capstanRampEnd => exact .inl ⟨_, rfl, k.rampEnd⟩
  case blankTapeLimit => exact .inl ⟨_, rfl, k.blankStop⟩
  case haltGapSearchEnd => exact .inl ⟨_, rfl, k.haltSearchEnd⟩
  case loadPress => exact .inr (.inl rfl)
  case rewindPress => exact .inl ⟨_, rfl, k.rewindPress⟩
  case unloadPress => exact .inl ⟨_, rfl, k.unloadPress⟩
  case onlinePress => exact .inl ⟨_, rfl, k.onlinePress⟩
  case resetPress => exact .inl ⟨_, rfl, k.resetTransport⟩
  case takeupReelRevolution => exact .inl ⟨_, rfl, k.revolution⟩
  case threadTimeout => exact .inl ⟨_, rfl, k.loadTimeout _ _⟩
  case fillTimeout => exact .inl ⟨_, rfl, k.loadTimeout _ _⟩
  case loadPointSearchEnd => exact .inl ⟨_, rfl, k.searchEnd⟩
  case releaseQuietTimeout => exact .inr (.inr rfl)
  case lampFlashToggle => exact .inl ⟨_, rfl, k.seq _⟩
  case overCurrentEvent e v => exact .inl ⟨_, rfl, k.upd _ (Transport.kept_whileEnabled _ _ _ _)⟩
  case reelDrivePeriodStart e v => exact .inl ⟨_, rfl, k.upd _ (Transport.kept_whileEnabled _ _ _ _)⟩
  case holdOffExpiry e v => exact .inl ⟨_, rfl, k.upd _ (Transport.kept_whileEnabled _ _ _ _)⟩
  case stallTimeReached e => exact .inl ⟨_, rfl, k.stallTime e⟩
  case reelTachPulse e => exact .inl ⟨_, rfl, k.upd _ (Transport.kept_reelPulse _ _ _)⟩
  case switchRawChange w b => exact .inl ⟨_, rfl, k.upd _ (Transport.kept_modInput _ _ _)⟩
  case switchDebounceExpiry w => exact .inl ⟨_, rfl, k.debounce w⟩
  case recoveryTimeout =>
    refine .inl ⟨_, rfl, ?_⟩
    split
    · exact k.upd _ (Transport.kept_takeCause _ _ _)
    · exact k
  case recoverySteady =>
    refine .inl ⟨_, rfl, ?_⟩
    split
    · exact k.upd _ (Transport.kept_recoverySteady _)
    · exact k

/-- An event of one transport keeps every transport fitting. -/
theorem exec_event_fits (c : Instr) (t : TNum) (e : c.transport? = some t) (x : exec c s = .next r) (h : s.Fits) :
    r.Fits := by
  rcases exec_event_kept c t s e with ⟨q, x', k⟩ | rfl | rfl
  · rw [x'] at x
    cases x
    exact k.fits h
  · cases x
    exact h.load t
  · cases x
    exact h.releaseQuiet t

/-- A command that belongs to no single transport keeps every transport fitting: power-on, the frames, the end of a
conversion, and every request, which reaches the request buffer. -/
theorem exec_common_fits (c : Instr) (e : c.transport? = none) (x : exec c s = .next r) (h : s.Fits) : r.Fits := by
  cases c <;> cases e <;> cases x
  case powerOn pins => exact State.powerOn_fits pins s
  case addressFrame data => exact h.of_x rfl
  case dataFrame data => exact h.dataFrame data
  case frameError p f =>
    split
    · exact h.of_x (State.frameError_x p f s)
    · exact h
  case frameGapTimeout => exact h.of_x (State.frameGap_x s)
  case transmitEnd => exact h.transmitEnd
  case conversionEnd depth => exact h.conversionEnd _
  all_goals exact h.submit _

theorem exec_fits (c : Instr) (x : exec c s = .next r) (h : s.Fits) : r.Fits := by
  cases e : c.transport? with
  | none => exact exec_common_fits c e x h
  | some t => exact exec_event_fits c t e x h

/-- Settles O55: an idle step leaves the transports as they are, and every command keeps them fitting. -/
theorem stepsKeepCountersParametersAndSlots : Obligations.StepsKeepCountersParametersAndSlots := by
  intro s r h x
  have fits : s.Fits := h
  unfold step at x
  split at x
  · exact exec_fits _ x (fits.of_x rfl)
  · cases x
    exact fits.of_x rfl

end Sys2Proof.Machine
end

