-- ==== Sys2Proof/Proofs/Reset.lean ====
section
/-! PROOF. The reset state's values, the at-speed line, and the frame of an event of one transport. -/

namespace Sys2Proof.Machine

open Sys2Proof

theorem State.reset_tr (t : TNum) : State.reset.tr t = Transport.reset := by
  cases t <;> rfl

theorem State.reset_volumes (i : Fin 16) : State.reset.volumes[i] = .free := Vector.getElem_replicate _

theorem State.reset_marks (i : Fin 16) : State.reset.marks[i] = [] := Vector.getElem_replicate _

theorem ReelDrive.reset_cut : ReelDrive.reset.cut := ⟨rfl, rfl, rfl, rfl, rfl⟩

/-- Settles O2: each value stands in `Transport.reset` and `State.reset`. -/
theorem resetLeavesThePowerOnValues : Obligations.ResetLeavesThePowerOnValues := by
  unfold Obligations.ResetLeavesThePowerOnValues
  refine ⟨rfl, fun t => ?_, fun i => ⟨State.reset_volumes i, State.reset_marks i⟩, rfl, rfl, rfl, rfl, rfl, rfl, rfl, rfl⟩
  rw [State.reset_tr]
  refine ⟨⟨rfl, rfl, rfl, rfl, rfl, rfl, rfl, rfl⟩, ⟨rfl, rfl, rfl, rfl, rfl⟩, ⟨rfl, rfl, rfl, rfl, rfl, rfl⟩, rfl, rfl,
    fun e => ?_, ⟨rfl, rfl, rfl, rfl⟩, rfl, rfl⟩
  cases e <;> exact ⟨ReelDrive.reset_cut, rfl, rfl, rfl, rfl⟩

/-- Settles O20: only RUNNING looks at the speed. -/
theorem atSpeedWhileRunningAtReadSpeed : Obligations.AtSpeedWhileRunningAtReadSpeed := by
  intro g
  unfold Segment.atSpeed
  cases g.cond <;> simp

theorem Transport.reset_safe : Transport.reset.driveSafe ∧ Transport.reset.reelsSafe :=
  ⟨⟨fun _ => rfl, fun _ => rfl⟩, fun _ => ⟨ReelDrive.reset_cut, ReelDrive.reset_cut⟩⟩

theorem State.reset_marksSound : State.reset.marksSound := by
  refine ⟨fun i => ?_, by decide⟩
  rw [State.reset_marks]
  exact MarksOk.nil

/-- With every entry FREE nothing is shelved, no entry has a serial, and none is on a transport. -/
theorem State.reset_volumesSound : State.reset.volumesSound := by
  refine ⟨List.nodup_nil, fun i => ?_, fun i _ h _ => ?_, fun t i _ h _ => ?_, fun i _ => State.reset_marks i⟩
  · rw [State.reset_volumes]
    exact ⟨nofun, nofun⟩
  · rw [State.serialOf, State.reset_volumes] at h
    cases h
  · rw [State.reset_volumes] at h
    cases h

/-- Settles O59. -/
theorem resetMeetsTheConditions : Obligations.ResetMeetsTheConditions := by
  refine ⟨fun t => ?_, fun _ => rfl, State.reset_marksSound, State.reset_volumesSound⟩
  rw [State.reset_tr]
  obtain ⟨range, allowed, slots⟩ := Transport.reset_fits
  exact ⟨range, Transport.reset_safe, allowed, slots⟩

/-! ### The frame of an event -/

/-- What every event of transport `t` leaves alone, the two that touch the converter's scan and the table included. -/
structure State.Apart (t : TNum) (s r : State) : Prop where
  others : ∀ u, u ≠ t → r.tr u = s.tr u
  masks : (r.tr t).masks = (s.tr t).masks
  line : r.line = s.line
  ctl : r.ctl = s.ctl
  ctlMasks : r.ctlMasks = s.ctlMasks
  eviction : r.eviction = s.eviction
  pending : r.pending = s.pending
  clock : r.clock = s.clock
  elsewhere : ∀ i : Fin 16, s.boundIdx t ≠ some i → r.marks[i] = s.marks[i]

variable {t : TNum} {s r : State}

theorem State.Kept.apart (k : s.Kept t r) : s.Apart t r :=
  ⟨k.others, k.own.masks, k.line, k.ctl, k.ctlMasks, k.eviction, k.pending, k.clock, k.elsewhere⟩

/-- The LOAD press, where it also wakes the converter (R111, R130). -/
theorem State.load_apart (t : TNum) (s : State) : s.Apart t (s.load t) := by
  have begun := ((State.Kept.refl t s).upd _ (Transport.kept_beginLoad s.clock _)).apart
  unfold State.load State.joinScan
  split
  · split
    · exact ⟨begun.others, begun.masks, begun.line, begun.ctl, begun.ctlMasks, begun.eviction, begun.pending, begun.clock,
        begun.elsewhere⟩
    · exact begun
  · exact (State.Kept.refl t s).apart

theorem Transport.enterUnloaded_masks (now : Nat) (x : Transport) : (x.enterUnloaded now).masks = x.masks :=
  ((Transport.kept_driveOff x).trans (Transport.kept_holdRest now _)).masks

/-- Shelving the bound entry touches the table and the shelf alone (R36). -/
theorem State.shelveBound_apart (t : TNum) (s : State) : s.Apart t (s.shelveBound t) := by
  unfold State.shelveBound
  split
  · split <;> exact ⟨fun _ _ => rfl, rfl, rfl, rfl, rfl, rfl, rfl, rfl, fun _ _ => rfl⟩
  · exact (State.Kept.refl t s).apart

/-- The quiet take-up reel, where it ends an unload (R119, R36, R130). -/
theorem State.releaseQuiet_apart (t : TNum) (s : State) : s.Apart t (s.releaseQuiet t) := by
  unfold State.releaseQuiet
  split
  · have a := State.shelveBound_apart t (s.upd t fun x => (x.enterUnloaded s.clock).makeRecord .complete)
    have masks : ((s.upd t fun x => (x.enterUnloaded s.clock).makeRecord .complete).tr t).masks = (s.tr t).masks := by
      rw [State.tr_upd_same]
      exact Transport.enterUnloaded_masks _ _
    exact ⟨fun u n => (a.others u n).trans (State.tr_upd_other _ _ _ _ n), a.masks.trans masks, a.line, a.ctl, a.ctlMasks,
      a.eviction, a.pending, a.clock, a.elsewhere⟩
  · exact (State.Kept.refl t s).apart

/-- Settles O53: all but two events keep what `State.Kept` says, and the two are taken one by one. -/
theorem eventsStayOnTheirTransport : Obligations.EventsStayOnTheirTransport := by
  intro c t s e
  have apart : ∃ r, exec c s = .next r ∧ s.Apart t r := by
    rcases exec_event_kept c t s e with ⟨r, x, k⟩ | rfl | rfl
    · exact ⟨r, x, k.apart⟩
    · exact ⟨_, rfl, State.load_apart t s⟩
    · exact ⟨_, rfl, State.releaseQuiet_apart t s⟩
  obtain ⟨r, x, a⟩ := apart
  exact ⟨r, x, a.others, a.masks, a.line, a.ctl, a.ctlMasks, a.eviction, a.pending, a.clock, a.elsewhere⟩

end Sys2Proof.Machine
end

