-- ==== Sys2Proof/Proofs/Filter.lean ====
section
/-! PROOF. The position requests, the gap-line filter, and the requests of the Capture Unit. -/

namespace Sys2Proof.Machine

open Sys2Proof

/-! ### Changes of one transport -/

/-- A change of a transport is told by what it makes of that transport. -/
theorem State.upd_congr {t : TNum} {f g : Transport → Transport} {s : State} (h : f (s.tr t) = g (s.tr t)) :
    s.upd t f = s.upd t g := by
  unfold State.upd
  exact congrArg (fun x => { s with x := s.x.set t x }) h

theorem replaceRunning_self {l : List Slot} {o : Order} {w : Work} (h : runningIn l = some (o, w)) :
    replaceRunning (fun k _ => .running k w) l = l := by
  induction l with
  | nil => rfl
  | cons a l ih =>
    cases a with
    | running k v => cases h; rfl
    | pending k => exact congrArg _ (ih h)
    | record k => exact congrArg _ (ih h)

/-- Working values put back change nothing. -/
theorem Transport.modWork_self {x : Transport} {o : Order} {w : Work} (h : x.running = some (o, w)) :
    x.modWork (fun _ _ => w) = x := by
  unfold Transport.modWork Transport.modList
  rw [replaceRunning_self h]

theorem State.boundMarks_unbound {t : TNum} {s : State} (h : s.boundIdx t = none) : s.boundMarks t = [] := by
  unfold State.boundMarks
  rw [h]

/-! ### READ POSITION, SET DEFAULT CLASS (R19, R20) -/

theorem inertiaOf_code {c : Inertia} {b : Byte} (h : c.code = b.toNat) : inertiaOf b = some c := by
  unfold inertiaOf
  rw [← h]
  cases c <;> rfl

theorem inertiaOf_none {b : Byte} (h : 2 < b.toNat) : inertiaOf b = none := by
  unfold inertiaOf
  split <;> first | rfl | omega

/-- Settles O19. -/
theorem positionIsReadAndTheClassSet : Obligations.PositionIsReadAndTheClassSet := by
  intro t cls s ready
  refine ⟨?_, fun c code => ?_, fun code => ?_⟩
  · exact exec_ready (.readPosition (transportByte t)) s s ⟨.done, _⟩ ready (onTransport_byte t _ s) rfl
  · refine exec_ready (.setDefaultClass (transportByte t) cls) s _ ⟨.done, []⟩ ready
      ((onTransport_byte t _ s).trans ?_) rfl
    rw [setDefaultClass, inertiaOf_code code]
    rfl
  · refine exec_ready (.setDefaultClass (transportByte t) cls) s s ⟨.badParameter, []⟩ ready
      ((onTransport_byte t _ s).trans ?_) rfl
    rw [setDefaultClass, inertiaOf_none code]
    rfl

/-! ### The filter (R6, R7) -/

section
variable {now : Nat} {l : GapLevel} {f : GapFilter}

theorem GapFilter.rawChange_same (raw : l = f.raw) : f.rawChange now l = f := if_pos raw

theorem GapFilter.rawChange_back (raw : l ≠ f.raw) (level : l = f.level) :
    f.rawChange now l = { f with raw := l, since := none } := by
  rw [GapFilter.rawChange, if_neg raw, if_pos level]

theorem GapFilter.rawChange_timed (raw : l ≠ f.raw) (level : l ≠ f.level) (time : f.time ≠ .us0) :
    f.rawChange now l = { f with raw := l, since := some now } := by
  rw [GapFilter.rawChange, if_neg raw, if_neg level, if_neg time]

theorem GapFilter.rawChange_taken (raw : l ≠ f.raw) (level : l ≠ f.level) (time : f.time = .us0) :
    f.rawChange now l = { f with raw := l, level := l, since := none } := by
  rw [GapFilter.rawChange, if_neg raw, if_neg level, if_pos time]

theorem GapFilter.expire_timed (h : f.since.isSome = true) : f.expire = { f with level := f.raw, since := none } := by
  obtain ⟨b, since⟩ := Option.isSome_iff_exists.mp h
  rw [GapFilter.expire, since]

theorem GapFilter.expire_untimed (h : f.since = none) : f.expire = f := by
  rw [GapFilter.expire, h]

end

/-- The filter of a transport replaced. -/
def Transport.withFilter (f : GapFilter) (x : Transport) : Transport := { x with cap := { x.cap with filter := f } }

/-- Nothing can make a gap start of a change of the filtered level (R7). -/
def Transport.noStart (x : Transport) : Prop :=
  x.cap.filter.level = .gap ∨ x.sequencer.state ≠ .moving ∨ x.cap.seg.cond ∈ [Condition.atRest, .coasting, .free] ∨
    (x.cap.seg.cond = .running ∧ x.cap.seg.speed ≠ some .creep ∧ x.cap.seg.speed ≠ some .read) ∨
    ∃ k, x.cap.seg.cond = .ramping k ∧ (k.low ≠ none ∨ k.high ≠ .read)

theorem Segment.not_gapReady {g : Segment}
    (h : g.cond ∈ [Condition.atRest, .coasting, .free] ∨
      (g.cond = .running ∧ g.speed ≠ some .creep ∧ g.speed ≠ some .read) ∨
      ∃ k, g.cond = .ramping k ∧ (k.low ≠ none ∨ k.high ≠ .read)) : g.gapReady = false := by
  unfold Segment.gapReady Segment.readRamp
  rcases h with h | ⟨h, creep, read⟩ | ⟨k, h, ramp⟩
  · simp only [List.mem_cons, List.not_mem_nil, or_false] at h
    rcases h with h | h | h <;> rw [h] <;> rfl
  · rw [h]
    simp [creep, read]
  · rw [h]
    rcases ramp with n | n <;> simp [n]

/-- A filter change as a change of the filter and what the new level gives. -/
theorem State.filter_eq (t : TNum) (f : GapFilter → GapFilter) (s : State) :
    s.filter t f =
      let set := s.upd t (Transport.withFilter (f (s.tr t).cap.filter))
      if (s.tr t).cap.filter.level = .block ∧ (f (s.tr t).cap.filter).level = .gap then set.gapStart t else set := by
  have set : (s.upd t fun x => { x with cap := { x.cap with filter := f x.cap.filter } }) =
      s.upd t (Transport.withFilter (f (s.tr t).cap.filter)) := State.upd_congr rfl
  unfold State.filter
  dsimp only
  rw [set, State.tr_upd_same]
  rfl

/-- A filter change that is no change from BLOCK to GAP does nothing but that change (R6). -/
theorem State.filter_same {t : TNum} {f : GapFilter → GapFilter} {g : GapFilter} {s : State}
    (h : f (s.tr t).cap.filter = g) (level : g.level = (s.tr t).cap.filter.level) :
    s.filter t f = s.upd t (Transport.withFilter g) := by
  rw [State.filter_eq, h]
  refine if_neg ?_
  rintro ⟨block, gap⟩
  exact absurd ((level.trans block).symm.trans gap) nofun

/-- A filter change that changes nothing of the filter changes nothing. -/
theorem State.filter_id {t : TNum} {f : GapFilter → GapFilter} {s : State} (h : f (s.tr t).cap.filter = (s.tr t).cap.filter) :
    s.filter t f = s :=
  (State.filter_same h rfl).trans (State.upd_id _ _ _ rfl)

/-- Where no gap start is made, a filter change does nothing else (R6, R7). -/
theorem State.filter_noStart {t : TNum} {f : GapFilter → GapFilter} {g : GapFilter} {s : State} (h : (s.tr t).noStart)
    (same : f (s.tr t).cap.filter = g) : s.filter t f = s.upd t (Transport.withFilter g) := by
  rw [State.filter_eq, same]
  dsimp only
  split
  case isFalse => rfl
  case isTrue change =>
    unfold State.gapStart
    dsimp only
    rw [State.tr_upd_same, if_neg]
    rintro ⟨moving, ready⟩
    rcases h with gap | state | speed
    · exact absurd (gap.symm.trans change.1) nofun
    · exact state moving
    · exact absurd ((Segment.not_gapReady speed).symm.trans ready) nofun

theorem State.filter_filter (t : TNum) (f : GapFilter → GapFilter) (s : State) :
    ((s.filter t f).tr t).cap.filter = f (s.tr t).cap.filter := by
  have set : ((s.upd t (Transport.withFilter (f (s.tr t).cap.filter))).tr t).cap.filter = f (s.tr t).cap.filter := by
    rw [State.tr_upd_same]
    rfl
  rw [State.filter_eq]
  dsimp only
  split
  · rw [State.filter_gapStart, set]
  · exact set

/-- Two filter changes of states that differ in the filter alone do the same if they begin at one level and give one
filter. -/
theorem State.filter_withFilter {t : TNum} {f g : GapFilter → GapFilter} {k : GapFilter} {s : State}
    (level : k.level = (s.tr t).cap.filter.level) (same : g k = f (s.tr t).cap.filter) :
    (s.upd t (Transport.withFilter k)).filter t g = s.filter t f := by
  have old : ((s.upd t (Transport.withFilter k)).tr t).cap.filter = k := by
    rw [State.tr_upd_same]
    rfl
  have set : (s.upd t (Transport.withFilter k)).upd t (Transport.withFilter (g k)) =
      s.upd t (Transport.withFilter (f (s.tr t).cap.filter)) := by
    rw [State.upd_upd, same]
    rfl
  rw [State.filter_eq, State.filter_eq, old, set, level, same]

/-! ### A gap start under an ADVANCE -/

theorem Work.counts_advance {o : Order} {d : Nat} (k : o.kind = .advance d) (dir : Dir) (w : Work) :
    w.counts dir o.kind = false := by
  rw [k]
  rfl

/-- A gap start does nothing to an order that is no SPACE and no SEEK_MARK, where no barrier stops it (R91, R92, R99). -/
theorem State.gapOrders_advance {t : TNum} {s : State} {o : Order} {w : Work} {n : Nat} (dir : Dir) (p : Int)
    (run : (s.tr t).running = some (o, w)) (k : o.kind = .advance n) : s.gapOrders t dir p none = s := by
  have verdict : (s.tr t).gapVerdict dir p o.kind w = .nothing := by
    rw [k]
    rfl
  unfold State.gapOrders
  rw [run]
  simp only [Work.counts_advance k, Bool.false_eq_true, if_false, verdict]
  exact State.upd_id _ _ _ (Transport.modWork_self run)

/-- With no mark in reach a forward gap start takes no candidate and meets no barrier. -/
theorem State.gapEvent_unbound {t : TNum} {s : State} (p : Int) (h : s.boundIdx t = none) :
    s.gapEvent t .forward p =
      (s.upd t fun x => { x with cap := { x.cap with lastGap := some p } }).gapOrders t .forward p none := by
  have marks := State.boundMarks_unbound h
  have marks' : (s.upd t fun x => { x with cap := { x.cap with lastGap := some p } }).boundMarks t = [] :=
    State.boundMarks_unbound h
  have offered : ∀ q : State, q.boundMarks t = [] → q.offerGap t p = q := by
    intro q none
    unfold State.offerGap
    rw [none]
    refine State.upd_id _ _ _ ?_
    simp [Transport.modCapture, findNumber]
  have noted : ∀ q : State, q.boundMarks t = [] → q.noteGapSeen t p = q := by
    intro q none
    unfold State.noteGapSeen
    rw [none]
    refine State.upd_id _ _ _ ?_
    simp [Transport.modCapture]
  have barrier : s.barrierAtGap t p = none := by
    unfold State.barrierAtGap
    rw [marks]
    rfl
  unfold State.gapEvent
  simp only [barrier]
  rw [offered _ marks', noted _ marks']

/-- The gap start that an ADVANCE on an unbound transport sees only sets the last-gap position, in forward motion (R8, R91). -/
theorem State.gapEvent_advance {t : TNum} {s : State} {o : Order} {w : Work} {n : Nat} (dir : Dir) (p : Int)
    (unbound : s.boundIdx t = none) (run : (s.tr t).running = some (o, w)) (k : o.kind = .advance n) :
    s.gapEvent t dir p =
      s.upd t fun x => { x with cap := { x.cap with lastGap := if dir = .forward then some p else x.cap.lastGap } } := by
  cases dir with
  | reverse => exact (State.gapOrders_advance .reverse p run k).trans (State.upd_id _ _ _ rfl).symm
  | forward =>
    rw [State.gapEvent_unbound p unbound]
    exact State.gapOrders_advance .forward p (by rw [State.tr_upd_same]; exact run) k

/-- The filter takes GAP at once, and an ADVANCE on an unbound transport goes on (R6 to R8). -/
theorem State.filter_advance {t : TNum} {f : GapFilter → GapFilter} {g : GapFilter} {s : State} {o : Order} {w : Work}
    {n : Nat} (same : f (s.tr t).cap.filter = g) (block : (s.tr t).cap.filter.level = .block) (gap : g.level = .gap)
    (unbound : s.boundIdx t = none) (run : (s.tr t).running = some (o, w)) (k : o.kind = .advance n)
    (moving : (s.tr t).sequencer.state = .moving) (ready : (s.tr t).cap.seg.gapReady = true) :
    s.filter t f = s.upd t fun x => { x with cap := { x.cap with
      filter := g
      lastGap := if x.cap.lastDir = .forward then some x.cap.counter else x.cap.lastGap } } := by
  have run' : ((s.upd t (Transport.withFilter g)).tr t).running = some (o, w) := by
    rw [State.tr_upd_same]
    exact run
  have tr : (s.upd t (Transport.withFilter g)).tr t = (s.tr t).withFilter g := State.tr_upd_same _ _ _
  rw [State.filter_eq, same]
  refine (if_pos ⟨block, gap⟩).trans ?_
  unfold State.gapStart
  dsimp only
  rw [if_pos (by rw [tr]; exact ⟨moving, ready⟩), State.gapEvent_advance _ _ (s := s.upd t _) unbound run' k, tr,
    State.upd_upd]
  exact State.upd_congr rfl

/-- Settles O25. -/
theorem theGapFilterTimesChanges : Obligations.TheGapFilterTimesChanges := by
  intro t l s
  refine ⟨fun raw => ?_, fun raw level => ?_, fun raw level time => ?_, fun quiet raw level time => ?_, fun quiet timed => ?_,
    fun untimed => ?_, fun raw level time => ?_⟩
  · exact congrArg _ (State.filter_id (GapFilter.rawChange_same raw))
  · exact congrArg _ (State.filter_same (GapFilter.rawChange_back raw level) rfl)
  · exact congrArg _ (State.filter_same (GapFilter.rawChange_timed raw level time) rfl)
  · exact congrArg _ (State.filter_noStart quiet (GapFilter.rawChange_taken raw level time))
  · exact congrArg _ (State.filter_noStart quiet (GapFilter.expire_timed timed))
  · exact congrArg _ (State.filter_id (GapFilter.expire_untimed untimed))
  · have taken : GapFilter.rawChange s.clock .gap (s.tr t).cap.filter =
        { (s.tr t).cap.filter with raw := .gap, level := .gap, since := none } :=
      GapFilter.rawChange_taken (by rw [raw]; nofun) (by rw [level]; nofun) time
    refine ⟨congrArg _ (State.filter_withFilter (k := { (s.tr t).cap.filter with raw := .gap, since := some s.clock }) rfl
      taken.symm).symm, fun tag d w run unbound moving cond speed => ?_⟩
    have ready : (s.tr t).cap.seg.gapReady = true := by
      simp [Segment.gapReady, cond, speed]
    exact congrArg _ ((State.filter_advance taken level rfl unbound run rfl moving ready).trans (State.upd_congr rfl))

/-! ### SET CAPTURE PARAMETERS, READ CAPTURE (R81, R82) -/

theorem filterOf_code {f : FilterTime} {b : Byte} (h : f.code = b.toNat) : filterOf b = some f := by
  unfold filterOf
  rw [← h]
  cases f <;> rfl

theorem filterOf_none {b : Byte} (h : 3 < b.toNat) : filterOf b = none := by
  unfold filterOf
  split <;> first | rfl | omega

/-- No order is at SEEK speed and no barrier is watched, so that new parameters touch no order (R80, R90). -/
def Transport.unplanned (x : Transport) : Prop := ∀ o w, x.running = some (o, w) → w.phase ≠ .fast ∧ x.capture.watch = []

theorem State.pruneWatches_unplanned {t : TNum} {s : State} (h : (s.tr t).unplanned) : s.pruneWatches t = s := by
  unfold State.pruneWatches
  split
  · rfl
  · rename_i p e
    refine State.upd_id _ _ _ ?_
    have none := (h p.1 p.2 e).2
    unfold Transport.modCapture
    dsimp only
    rw [none, List.filter_nil, ← none]

theorem State.replan_unplanned {t : TNum} {s : State} (h : (s.tr t).unplanned) : s.replan t = s := by
  unfold State.replan
  split
  · rename_i o w e
    exact if_neg fun k => (h o w e).1 k.1
  · rfl

/-- The transport with a new lead and lag. -/
def Transport.withBounds (lead lag : Nat) (x : Transport) : Transport :=
  { x with capture := { x.capture with lead := lead, lag := lag } }

theorem setCaptureParameters_eq {t : TNum} {lead lag : BitVec 16} {filter : Byte} {s : State} {time : FilterTime}
    (code : time.code = filter.toNat) (hl : lead.toNat ≤ 1023) (hg : lag.toNat ≤ 1023) (h : (s.tr t).unplanned) :
    setCaptureParameters t lead lag filter s =
      ((s.upd t (Transport.withBounds lead.toNat lag.toNat)).filter t (GapFilter.setTime s.clock time), ⟨.done, []⟩) := by
  have h' : ((s.upd t (Transport.withBounds lead.toNat lag.toNat)).tr t).unplanned := by
    rw [State.tr_upd_same]
    exact h
  unfold setCaptureParameters
  rw [filterOf_code code]
  dsimp only
  rw [if_neg (by unfold Config.maxWindow; omega)]
  show ((((s.upd t (Transport.withBounds lead.toNat lag.toNat)).pruneWatches t).replan t).filter t _, _) = _
  rw [State.pruneWatches_unplanned h', State.replan_unplanned h']

theorem setCaptureParameters_refused {t : TNum} {lead lag : BitVec 16} {filter : Byte} {s : State}
    (h : 3 < filter.toNat ∨ 1023 < lead.toNat ∨ 1023 < lag.toNat) :
    setCaptureParameters t lead lag filter s = (s, ⟨.badParameter, []⟩) := by
  unfold setCaptureParameters
  split
  · rfl
  · rename_i e
    have code : ¬ 3 < filter.toNat := fun k => by rw [filterOf_none k] at e; cases e
    exact if_pos (by unfold Config.maxWindow; omega)

theorem GapFilter.setTime_untimed {f : GapFilter} (now : Nat) (time : FilterTime) (h : f.since = none) :
    f.setTime now time = { f with time := time } := by
  rw [GapFilter.setTime, h]

theorem GapFilter.setTime_early {f : GapFilter} {now since : Nat} {time : FilterTime} (h : f.since = some since)
    (early : now - since < time.us) : f.setTime now time = { f with time := time } := by
  rw [GapFilter.setTime, h]
  exact if_neg (by omega)

theorem GapFilter.setTime_held {f : GapFilter} {now since : Nat} {time : FilterTime} (h : f.since = some since)
    (held : time.us ≤ now - since) : f.setTime now time = { f with time := time, level := f.raw, since := none } := by
  rw [GapFilter.setTime, h]
  exact if_pos held

theorem State.windowMarks_all (t : TNum) (s : State) :
    ((s.windowMarks t fun _ => true).filterMap fun n => (s.tr t).capture.windowOf n) =
      (s.boundMarks t).filterMap fun m => (s.tr t).capture.windowOf m.number := by
  unfold State.windowMarks
  rw [List.filterMap_filterMap]
  refine congrArg (fun f => List.filterMap f (s.boundMarks t)) (funext fun m => ?_)
  cases e : (s.tr t).capture.windowOf m.number <;> simp [e]

theorem byte_bitAt_zero (p : Prop) [Decidable p] : byte (bitAt 0 (decide p)) = if p then 1 else 0 := by
  by_cases h : p <;> simp [h, bitAt, byte]

/-- Settles O36: new parameters touch no order, so that the filter alone is left to judge. -/
theorem captureParametersAreSetAndRead : Obligations.CaptureParametersAreSetAndRead := by
  intro t lead lag filter s ready
  have handled := onTransport_byte t (fun n => setCaptureParameters n lead lag filter) s
  have answered : ∀ q : State, setCaptureParameters t lead lag filter s = (q, ⟨.done, []⟩) → q.line = s.line →
      exec (.setCaptureParameters (transportByte t) lead lag filter) s = .next (q.sending .done []) := fun q e l =>
    exec_ready (.setCaptureParameters (transportByte t) lead lag filter) s q ⟨.done, []⟩ ready (handled.trans e) (by rw [l])
  let bounded := s.upd t (Transport.withBounds lead.toNat lag.toNat)
  have tr : bounded.tr t = (s.tr t).withBounds lead.toNat lag.toNat := State.tr_upd_same _ _ _
  have same : (bounded.tr t).cap.filter = (s.tr t).cap.filter := by
    rw [tr]
    rfl
  have level : (s.tr t).cap.filter.level = (bounded.tr t).cap.filter.level := congrArg _ same.symm
  refine ⟨fun time code hl hg untimed h => ?_, fun time since code hl hg timed h => ⟨fun early => ?_, fun held => ?_⟩,
    fun bad => ?_, ?_⟩
  · refine answered _ ((setCaptureParameters_eq code hl hg h).trans (congrArg (·, _) ?_)) rfl
    refine (State.filter_same ((congrArg _ same).trans (GapFilter.setTime_untimed _ time untimed)) level).trans ?_
    rw [State.upd_upd]
    rfl
  · have early' : s.clock - since < time.us := by cases time <;> exact early
    refine answered _ ((setCaptureParameters_eq code hl hg h).trans (congrArg (·, _) ?_)) rfl
    refine (State.filter_same ((congrArg _ same).trans (GapFilter.setTime_early timed early')) level).trans ?_
    rw [State.upd_upd]
    rfl
  · have held' : time.us ≤ s.clock - since := by cases time <;> exact held
    have judged := (congrArg (GapFilter.setTime s.clock time) same).trans (GapFilter.setTime_held timed held')
    have expired : { (s.tr t).cap.filter with time := time }.expire =
        { (s.tr t).cap.filter with time := time, level := (s.tr t).cap.filter.raw, since := none } :=
      GapFilter.expire_timed (by rw [timed]; rfl)
    refine ⟨bounded.filter t (GapFilter.setTime s.clock time), ?_, ?_, ?_, fun quiet => ?_⟩
    · refine congrArg Host.Outcome.next (Eq.trans ?_ (State.filter_withFilter (k := { (s.tr t).cap.filter with time := time }) level
        (expired.trans judged.symm)))
      rw [State.upd_upd]
      rfl
    · exact answered _ (setCaptureParameters_eq code hl hg h) ((State.Kept.refl t bounded).filter _).line
    · rw [State.filter_filter, judged]
    · refine (State.filter_noStart (by rw [tr]; exact quiet) judged).trans ?_
      rw [State.upd_upd]
      rfl
  · exact exec_ready (.setCaptureParameters (transportByte t) lead lag filter) s s ⟨.badParameter, []⟩ ready
      (handled.trans (setCaptureParameters_refused bad)) rfl
  · refine (exec_ready (.readCapture (transportByte t)) s s ⟨.done, _⟩ ready (onTransport_byte t _ s) rfl).trans ?_
    rw [State.windowMarks_all, byte_bitAt_zero]
    refine congrArg (fun bytes => Host.Outcome.next (s.sending .done (_ ++ List.flatMap bytes _)))
      (funext fun v => ?_)
    rcases v with ⟨n, low, high, role, candidate, fixed⟩
    cases role <;> cases fixed <;> cases candidate <;> rfl

end Sys2Proof.Machine
end

