-- ==== Sys2Proof/Proofs/Counts.lean ====
section
/-! PROOF. What a tachometer count does, watch by watch, and a count on a READY transport. -/

namespace Sys2Proof.Machine

open Sys2Proof

/-! ### The counter (R1, R8) -/

/-- A count inside the range of the counter. -/
def Transport.counted (d : Dir) (x : Transport) : Transport :=
  { x with cap := { x.cap with
      counter := match d with
        | .forward => x.cap.counter + 1
        | .reverse => x.cap.counter - 1
      lastDir := d
      lastGap := match d with
        | .forward => x.cap.lastGap
        | .reverse => none } }

theorem Transport.count_inRange {x : Transport} (d : Dir) (low : d = .reverse → -32768 < x.cap.counter)
    (high : d = .forward → x.cap.counter < 8388607) : x.count d = x.counted d := by
  cases d
  · exact if_pos (high rfl)
  · exact if_pos (low rfl)

theorem Transport.counted_moves (d : Dir) (x : Transport) : (x.counted d).cap.counter ≠ x.cap.counter := by
  cases d <;> simp only [Transport.counted] <;> omega

/-- Where a count passes a mark in direction `d`: at the counter value that is the higher of the two (R75). -/
def passedAt (here : Int) : Dir → Int
  | .forward => here + 1
  | .reverse => here

/-- The watches of the orders and of the Sequencer at a count. -/
def State.laterWatches (t : TNum) (d : Dir) (now : Nat) (s : State) : State :=
  (((((s.distanceWatch t d).slowWatch t).searchWatch t).upd t (Transport.decelWatch now)).findWatch t d).rewindWatch t

theorem State.tachCount_eq (t : TNum) (d : Dir) (s : State) :
    s.tachCount t d =
      let passed := (s.countAt t d).passages t d (s.tr t).cap.counter
      let moved := ((s.countAt t d).tr t).cap.counter ≠ (s.tr t).cap.counter
      State.laterWatches t d s.clock (if d = .forward ∧ moved then passed.forwardWatches t else passed) := by
  unfold State.tachCount
  simp only [decide_eq_true_eq]
  rfl

/-! ### Barriers that do not apply (R76) -/

/-- No mark of the bound volume is a barrier that applies to the running order. -/
def State.unbarred (t : TNum) (s : State) : Prop := ∀ m ∈ s.boundMarks t, (s.tr t).applies m = false

theorem Transport.applies_idle {x : Transport} (h : x.running = none) (m : Mark) : x.applies m = false := by
  unfold Transport.applies Transport.wouldApply
  rw [h]
  rfl

theorem Transport.applies_point {x : Transport} {m : Mark} (h : m.kind = .point) : x.applies m = false := by
  unfold Transport.applies Transport.wouldApply Transport.barredFrom
  rw [h]
  cases x.running <;> simp

theorem State.unbarred_of_idle {t : TNum} {s : State} (h : (s.tr t).running = none) : s.unbarred t :=
  fun m _ => Transport.applies_idle h m

theorem State.noBarriers.unbarred {t : TNum} {s : State} (h : s.noBarriers t) : s.unbarred t :=
  fun m k => Transport.applies_point (h m k)

section
variable {t : TNum} {s : State}

/-- The barriers whose low bound a count at reading speed meets (R78). -/
def State.met (t : TNum) (s : State) : List Mark :=
  (s.boundMarks t).filter fun m => (s.tr t).applies m && ((s.tr t).rangeOf m).1 == (s.tr t).cap.counter

theorem State.watchLow_unmet (h : s.met t = []) : s.watchLow t = s := by
  unfold State.watchLow
  dsimp only
  split
  · refine State.upd_id _ _ _ ?_
    unfold State.met at h
    rw [h]
    simp [Transport.modCapture]
  · rfl

theorem State.unbarred.lowBounds (h : s.unbarred t) : s.lowBounds t = s := by
  have fast : s.barrierTooFast t = none := by
    unfold State.barrierTooFast
    dsimp only
    split
    · rw [List.find?_eq_none.mpr fun m k => by simp [h m k]]
      rfl
    · rfl
  unfold State.lowBounds
  rw [fast]
  exact State.watchLow_unmet (List.filter_eq_nil_iff.mpr fun m k => by simp [h m k])

theorem State.unbarred.barriersPassed (h : s.unbarred t) : s.barriersPassed t = [] :=
  List.filterMap_eq_nil_iff.mpr fun m k => by simp [h m k]

theorem State.highBounds_nil : s.highBounds t [] = s :=
  State.upd_id _ _ _ (by simp [Transport.modCapture])

/-! ### Windows that open and close at a count (R64, R66) -/

/-- The windows that open at a forward count. -/
def State.opened (t : TNum) (s : State) : List Window :=
  if (s.tr t).sequencer.state = .moving ∧ (s.tr t).cap.seg.readingForward = true then
    ((s.boundMarks t).filter fun m => m.pos - (s.tr t).capture.lead == (s.tr t).cap.counter &&
      (m.trusted (s.tr t).cap.conf && ((s.tr t).capture.windowOf m.number).isNone)).map fun m =>
        { number := m.number, low := m.pos - (s.tr t).capture.lead, high := m.pos + (s.tr t).capture.lag
          role := (s.tr t).capture.roleOf m, candidate := none, fixed := false }
  else []

/-- The Capture Unit with further windows open. -/
def Capture.withOpened (l : List Window) (c : Capture) : Capture := { c with windows := c.windows ++ l }

theorem Capture.openAll (l : List Mark) (c : Capture) :
    l.foldl Capture.openWindow c = c.withOpened (l.map fun m =>
      { number := m.number, low := m.pos - c.lead, high := m.pos + c.lag, role := c.roleOf m, candidate := none
        fixed := false }) := by
  induction l generalizing c with
  | nil => simp [Capture.withOpened]
  | cons m l ih =>
    rw [List.foldl_cons, ih]
    simp only [Capture.withOpened, Capture.openWindow, List.map_cons, List.append_assoc, List.singleton_append]
    rfl

theorem State.openings_eq (t : TNum) (s : State) :
    s.openings t = s.upd t (Transport.modCapture (Capture.withOpened (s.opened t))) := by
  unfold State.openings State.opened
  dsimp only
  split
  · refine State.upd_congr ?_
    rw [Capture.openAll]
    rfl
  · exact (State.upd_id _ _ _ (by simp [Transport.modCapture, Capture.withOpened])).symm

theorem State.openings_none (h : s.opened t = []) : s.openings t = s := by
  rw [State.openings_eq, h]
  exact State.upd_id _ _ _ (by simp [Transport.modCapture, Capture.withOpened])

/-- A window closes no earlier than the count after that which opened it. -/
theorem State.opened_high {v : Window} (h : v ∈ s.opened t) : (s.tr t).cap.counter ≤ v.high := by
  unfold State.opened at h
  split at h
  · obtain ⟨m, k, rfl⟩ := List.mem_map.mp h
    have low := (List.mem_filter.mp k).2
    simp only [Bool.and_eq_true, beq_iff_eq] at low
    dsimp only
    omega
  · cases h

theorem Capture.windowOf_mem {c : Capture} {n : Nat} {v : Window} (h : c.windowOf n = some v) : v ∈ c.windows :=
  List.mem_of_find?_eq_some h

theorem State.closings_none (h : ∀ v ∈ (s.tr t).capture.windows, (s.tr t).cap.counter ≤ v.high) : s.closings t = s := by
  have none : s.windowMarks t (fun w => decide (w.high < (s.tr t).cap.counter)) = [] := by
    refine List.filterMap_eq_nil_iff.mpr fun m _ => ?_
    cases e : (s.tr t).capture.windowOf m.number with
    | none => rfl
    | some v =>
      have k := h v (Capture.windowOf_mem e)
      exact if_neg (by simpa using k)
  unfold State.closings
  rw [none]
  rfl

/-- The windows that open at a count do not close at it. -/
theorem State.closings_opened (shut : (s.tr t).capture.windows = []) : (s.openings t).closings t = s.openings t := by
  refine State.closings_none fun v h => ?_
  rw [State.openings_eq, State.tr_upd_same] at h ⊢
  exact State.opened_high (s := s) (by simpa [Transport.modCapture, Capture.withOpened, shut] using h)

/-- No search of a SEEK_MARK is in progress (R99). -/
def Transport.noSearch (x : Transport) : Prop :=
  ∀ o w n, x.running = some (o, w) → o.kind = .seekMark n → w.phase ≠ .search

theorem Transport.noSearch_idle {x : Transport} (h : x.running = none) : x.noSearch := by
  intro o w n run
  rw [h] at run
  cases run

theorem Transport.noSearch.searchHigh {x : Transport} (h : x.noSearch) : x.searchHigh = none := by
  unfold Transport.searchHigh
  split
  · rename_i o w run
    split
    · rename_i n c kind _
      exact if_neg (h o w n run kind)
    · rfl
  · rfl

/-- Where no barrier applies and no search is in progress, a forward count only opens and closes windows. -/
theorem State.unbarred.forwardWatches (bars : s.unbarred t) (search : (s.tr t).noSearch) :
    s.forwardWatches t = (s.openings t).closings t := by
  have search' : ((s.openings t).tr t).searchHigh = none := by
    rw [State.openings_eq, State.tr_upd_same]
    exact Transport.noSearch.searchHigh search
  have passed : (s.openings t).barriersPassed t = [] := by
    rw [State.openings_eq]
    refine State.unbarred.barriersPassed fun m h => ?_
    rw [State.tr_upd_same]
    exact bars m h
  unfold State.forwardWatches
  dsimp only
  rw [bars.lowBounds, passed, search', State.highBounds_nil]
  rfl

end

/-! ### The later watches of a transport without an order -/

section
variable {t : TNum} {s : State}

theorem State.distanceWatch_idle (d : Dir) (h : (s.tr t).running = none) : s.distanceWatch t d = s := by
  have counted : (s.upd t fun x => x.modWork (Work.travel d)) = s := State.upd_id _ _ _ (Transport.modWork_none _ _ h)
  unfold State.distanceWatch
  dsimp only
  rw [counted, h]

theorem State.slowWatch_idle (h : (s.tr t).running = none) : s.slowWatch t = s := by
  unfold State.slowWatch
  rw [h]

theorem State.searchWatch_idle (h : (s.tr t).running = none) : s.searchWatch t = s := by
  unfold State.searchWatch
  rw [h]

theorem Transport.decelWatch_untargeted {x : Transport} {now : Nat} (h : x.cap.seg.stopTarget = none) :
    x.decelWatch now = x := by
  refine if_neg ?_
  unfold Segment.mustSlow Segment.slowPoint
  rw [h]
  simp

theorem State.findWatch_else (d : Dir) (h : (s.tr t).sequencer.state ≠ .loading .findLoadPoint) : s.findWatch t d = s :=
  if_neg fun k => h k.1

theorem State.rewindWatch_else (h : (s.tr t).sequencer.state.rewindPhase? = none) : s.rewindWatch t = s := by
  refine if_neg fun k => ?_
  have fast := k.1
  rw [h] at fast
  cases fast

theorem State.laterWatches_idle (d : Dir) (now : Nat) (idle : (s.tr t).running = none)
    (stand : (s.tr t).cap.seg.stopTarget = none) (state : (s.tr t).sequencer.state = .ready) :
    s.laterWatches t d now = s := by
  unfold State.laterWatches
  rw [State.distanceWatch_idle d idle, State.slowWatch_idle idle, State.searchWatch_idle idle,
    State.upd_id _ _ _ (Transport.decelWatch_untargeted stand), State.findWatch_else d (by rw [state]; nofun),
    State.rewindWatch_else (by rw [state]; rfl)]

theorem State.opened_idle (h : (s.tr t).sequencer.state ≠ .moving) : s.opened t = [] := if_neg fun k => h k.1

end

/-! ### Passages (R75) -/

/-- The passed flags of a mark list after a count. -/
def passedMarks (d : Dir) (p : Int) (l : List Mark) : List Mark :=
  l.map fun m => if m.pos = p ∧ m.mode.admits d then { m with passed := true } else m

/-- A count with its passages. -/
theorem State.passages_counted {t : TNum} {d : Dir} {s : State} {i : Fin 16} (bound : s.boundIdx t = some i)
    (conf : (s.tr t).cap.conf ≠ .lost) :
    (s.upd t (Transport.counted d)).passages t d (s.tr t).cap.counter =
      (s.upd t (Transport.counted d)).setMarks i (passedMarks d (passedAt (s.tr t).cap.counter d) s.marks[i]) := by
  have moves : ¬((s.tr t).cap.conf = .lost ∨ ((s.tr t).counted d).cap.counter = (s.tr t).cap.counter) :=
    not_or.mpr ⟨conf, Transport.counted_moves d _⟩
  have bound' : (s.upd t (Transport.counted d)).boundIdx t = some i := bound
  unfold State.passages
  dsimp only
  rw [State.tr_upd_same, if_neg (by exact moves)]
  cases d <;> simp only [State.passAt, State.modBoundMarks, bound'] <;> rfl

/-- A count inside the range, past what the passages do. -/
theorem State.tachCount_counted {t : TNum} {d : Dir} {s : State} {i : Fin 16} (bound : s.boundIdx t = some i)
    (conf : (s.tr t).cap.conf ≠ .lost) (low : d = .reverse → -32768 < (s.tr t).cap.counter)
    (high : d = .forward → (s.tr t).cap.counter < 8388607) :
    s.tachCount t d =
      let passed := (s.upd t (Transport.counted d)).setMarks i
        (passedMarks d (passedAt (s.tr t).cap.counter d) s.marks[i])
      State.laterWatches t d s.clock (if d = .forward then passed.forwardWatches t else passed) := by
  have counted : s.countAt t d = s.upd t (Transport.counted d) := State.upd_congr (Transport.count_inRange d low high)
  rw [State.tachCount_eq]
  dsimp only
  rw [counted, State.passages_counted bound conf, State.tr_upd_same]
  simp only [ne_eq, Transport.counted_moves d (s.tr t), not_false_eq_true, and_true]

/-- Settles O22: without an order, a window and a watch, all that is left of a count is the counter and the passages. -/
theorem countsOnAReadyTransportPassMarks : Obligations.CountsOnAReadyTransportPassMarks := by
  intro t d s i state idle windows watch stand bound low high conf
  have tr : ((s.upd t (Transport.counted d)).tr t) = (s.tr t).counted d := State.tr_upd_same _ _ _
  have quiet : ∀ l, State.forwardWatches t ((s.upd t (Transport.counted d)).setMarks i l) =
      (s.upd t (Transport.counted d)).setMarks i l := fun l => by
    let q := (s.upd t (Transport.counted d)).setMarks i l
    have same : q.tr t = (s.tr t).counted d := tr
    have opens : q.openings t = q := State.openings_none (State.opened_idle (by rw [same]; exact state ▸ nofun))
    have idle' : (q.tr t).running = none := by rw [same]; exact idle
    calc q.forwardWatches t = (q.openings t).closings t :=
          (State.unbarred_of_idle idle').forwardWatches (Transport.noSearch_idle idle')
      _ = q.openings t := State.closings_opened (by rw [same]; exact windows)
      _ = q := opens
  refine congrArg Host.Outcome.next ?_
  rw [State.tachCount_counted bound conf (fun _ => low) (fun _ => high)]
  dsimp only
  rw [quiet, ite_self, State.laterWatches_idle d s.clock (by exact tr ▸ idle) (by exact tr ▸ stand)
    (by exact tr ▸ state)]
  cases d <;> rfl

end Sys2Proof.Machine
end

