-- ==== Sys2Proof/Proofs/CountsMoving.lean ====
section
/-! PROOF. Counts of a transport that carries an order: the counter, the windows, the barriers and the searches. -/

namespace Sys2Proof.Machine

open Sys2Proof

/-! ### The position after a count -/

theorem State.Still.laterWatches {t : TNum} {s r : State} (d : Dir) (now : Nat) (h : s.Still t r) :
    s.Still t (r.laterWatches t d now) :=
  (((h.distanceWatch d).slowWatch.searchWatch.upd _ (Transport.still_decelWatch _ _)).findWatch d).rewindWatch

/-- The counter, the last direction and the last-gap position of `x` stand in `y`, and a LOST confidence stays LOST. -/
structure Transport.Placed (x y : Transport) : Prop where
  counter : y.cap.counter = x.cap.counter
  lastDir : y.cap.lastDir = x.cap.lastDir
  lastGap : y.cap.lastGap = x.cap.lastGap
  lost : x.cap.conf = .lost → y.cap.conf = .lost

theorem Transport.Still.placed {x y : Transport} (h : x.Still y) : x.Placed y :=
  ⟨h.counter, h.lastDir, h.lastGap, fun k => h.conf.elim (fun e => e.trans k) id⟩

theorem Transport.Placed.trans {x y z : Transport} (h : x.Placed y) (k : y.Placed z) : x.Placed z :=
  ⟨k.counter.trans h.counter, k.lastDir.trans h.lastDir, k.lastGap.trans h.lastGap, fun e => k.lost (h.lost e)⟩

theorem State.passages_tr (t : TNum) (d : Dir) (old : Int) (s : State) : (s.passages t d old).tr t = s.tr t := by
  unfold State.passages
  dsimp only
  split
  · rfl
  · split <;> exact State.tr_modBoundMarks _ _ _

theorem State.forwardWatches_placed {t : TNum} {s : State} (shut : (s.tr t).capture.windows = []) :
    (s.tr t).Placed ((s.forwardWatches t).tr t) := by
  have low : s.Still t (s.lowBounds t) := (State.Still.refl t s).lowBounds
  have shut' : ((s.lowBounds t).tr t).capture.windows = [] := low.windows.elim (fun e => e.trans shut) id
  have opens : ((s.lowBounds t).tr t).Placed (((s.lowBounds t).openings t).tr t) := by
    rw [State.openings_eq, State.tr_upd_same]
    exact ⟨rfl, rfl, rfl, id⟩
  unfold State.forwardWatches
  dsimp only
  rw [State.closings_opened shut']
  refine low.placed.trans (opens.trans (Transport.Still.placed ?_))
  exact (State.Still.refl t _).highBounds _ |>.searchPassWatch _ _

/-- Whatever a count makes happen, the counter stands where the count has put it. -/
theorem State.tachCount_placed {t : TNum} {d : Dir} {s : State} (shut : d = .reverse ∨ (s.tr t).capture.windows = []) :
    ((s.tr t).count d).Placed ((s.tachCount t d).tr t) := by
  have counted : ((s.countAt t d).passages t d (s.tr t).cap.counter).tr t = (s.tr t).count d := by
    rw [State.passages_tr, State.countAt, State.tr_upd_same]
  have later : ∀ q : State, ((s.tr t).count d).Placed (q.tr t) →
      ((s.tr t).count d).Placed ((q.laterWatches t d s.clock).tr t) := fun q h =>
    h.trans ((State.Still.refl t q).laterWatches d s.clock).placed
  rw [State.tachCount_eq]
  dsimp only
  split
  case isFalse => exact later _ (by rw [counted]; exact ⟨rfl, rfl, rfl, id⟩)
  case isTrue forward =>
    obtain ⟨rfl, -⟩ := forward
    refine later _ ?_
    rw [← counted]
    refine State.forwardWatches_placed ?_
    rw [counted]
    have none : (s.tr t).capture.windows = [] := shut.elim nofun id
    unfold Transport.count
    dsimp only
    split
    · exact none
    · rfl

/-- The count itself (R1, R2, R8). -/
theorem Transport.count_spec (d : Dir) (x : Transport) :
    (x.count d).cap.lastDir = d ∧
      (d = .forward → (x.count d).cap.counter = if x.cap.counter < 8388607 then x.cap.counter + 1 else x.cap.counter) ∧
      (d = .reverse → (x.count d).cap.lastGap = none ∧ (x.count d).cap.counter =
        if -32768 < x.cap.counter then x.cap.counter - 1 else x.cap.counter) ∧
      (d = .forward ∧ 8388607 ≤ x.cap.counter ∨ d = .reverse ∧ x.cap.counter ≤ -32768 → (x.count d).cap.conf = .lost) := by
  have high : Config.posMax = 8388607 := rfl
  have low : Config.posMin = -32768 := rfl
  cases d <;> unfold Transport.count <;> dsimp only
  · split <;> rename_i k
    · exact ⟨rfl, fun _ => (if_pos (by omega)).symm, nofun, fun e => e.elim (fun h => by omega) nofun⟩
    · exact ⟨rfl, fun _ => (if_neg (by omega)).symm, nofun, fun _ => rfl⟩
  · split <;> rename_i k
    · exact ⟨rfl, nofun, fun _ => ⟨rfl, (if_pos (by omega)).symm⟩, fun e => e.elim nofun fun h => by omega⟩
    · exact ⟨rfl, nofun, fun _ => ⟨rfl, (if_neg (by omega)).symm⟩, fun _ => rfl⟩

theorem tachCount_moves (t : TNum) (d : Dir) (s : State) (shut : d = .reverse ∨ (s.tr t).capture.windows = []) :
    ∃ r, exec (.capstanTachCount t d) s = .next r ∧ (r.tr t).cap.lastDir = d ∧
      (d = .forward → (r.tr t).cap.counter =
        if (s.tr t).cap.counter < 8388607 then (s.tr t).cap.counter + 1 else (s.tr t).cap.counter) ∧
      (d = .reverse → (r.tr t).cap.lastGap = none ∧ (r.tr t).cap.counter =
        if -32768 < (s.tr t).cap.counter then (s.tr t).cap.counter - 1 else (s.tr t).cap.counter) ∧
      (d = .forward ∧ 8388607 ≤ (s.tr t).cap.counter ∨ d = .reverse ∧ (s.tr t).cap.counter ≤ -32768 →
        (r.tr t).cap.conf = .lost) := by
  have placed := State.tachCount_placed shut
  obtain ⟨dir, forward, reverse, ends⟩ := (s.tr t).count_spec d
  exact ⟨s.tachCount t d, rfl, placed.lastDir.trans dir, fun e => placed.counter.trans (forward e),
    fun e => ⟨placed.lastGap.trans (reverse e).1, placed.counter.trans (reverse e).2⟩, fun e => placed.lost (ends e)⟩

/-! ### The later watches of a transport whose capstan is driven for an order -/

/-- Transport `y` is transport `x` driven still, with the same position, windows and watches. -/
structure Transport.Underway (x y : Transport) : Prop where
  driven : y.cap.seg.driven = true
  sequencer : y.sequencer = x.sequencer
  capture : y.capture = x.capture
  counter : y.cap.counter = x.cap.counter
  conf : y.cap.conf = x.cap.conf
  lastGap : y.cap.lastGap = x.cap.lastGap
  eotPos : y.cap.eotPos = x.cap.eotPos

theorem Transport.Underway.refl {x : Transport} (h : x.cap.seg.driven = true) : x.Underway x :=
  ⟨h, rfl, rfl, rfl, rfl, rfl, rfl⟩

theorem Transport.Underway.trans {x y z : Transport} (h : x.Underway y) (k : y.Underway z) : x.Underway z :=
  ⟨k.driven, k.sequencer.trans h.sequencer, k.capture.trans h.capture, k.counter.trans h.counter, k.conf.trans h.conf,
    k.lastGap.trans h.lastGap, k.eotPos.trans h.eotPos⟩

/-- Nothing but transport `t` has changed from `s` to `r`, and that is driven still. -/
def State.Underway (t : TNum) (s r : State) : Prop := r = s.upd t (fun _ => r.tr t) ∧ (s.tr t).Underway (r.tr t)

section
variable {t : TNum} {s r : State}

theorem State.Underway.refl (h : (s.tr t).cap.seg.driven = true) : s.Underway t s :=
  ⟨(State.upd_id _ _ _ rfl).symm, Transport.Underway.refl h⟩

theorem State.Underway.upd (f : Transport → Transport) (h : s.Underway t r) (k : (r.tr t).Underway (f (r.tr t))) :
    s.Underway t (r.upd t f) := by
  obtain ⟨only, kept⟩ := h
  refine ⟨?_, ?_⟩
  · rw [State.tr_upd_same]
    calc r.upd t f = r.upd t (fun _ => f (r.tr t)) := State.upd_congr rfl
      _ = (s.upd t (fun _ => r.tr t)).upd t (fun _ => f (r.tr t)) := by rw [← only]
      _ = s.upd t (fun _ => f (r.tr t)) := State.upd_upd _ _ _ _
  · rw [State.tr_upd_same]
    exact kept.trans k

theorem Transport.underway_work (f : Order → Work → Work) {x : Transport} (h : x.cap.seg.driven = true) :
    x.Underway (x.modWork f) := ⟨h, rfl, rfl, rfl, rfl, rfl, rfl⟩

theorem Transport.underway_stopDriven (now : Nat) (o : Owner) (x : Transport) : x.Underway (x.stopDriven now o) := by
  cases o <;> exact ⟨rfl, rfl, rfl, rfl, rfl, rfl, rfl⟩

theorem Transport.underway_decelWatch (now : Nat) {x : Transport} (h : x.cap.seg.driven = true) :
    x.Underway (x.decelWatch now) := by
  have ramped : x.Underway { x with cap := { x.cap with seg := x.cap.seg.rampDown now (.toRest false) } } :=
    ⟨rfl, rfl, rfl, rfl, rfl, rfl, rfl⟩
  unfold Transport.decelWatch
  split
  · dsimp only
    split
    · exact ramped.trans (Transport.underway_work _ rfl)
    · exact ramped
  · exact Transport.Underway.refl h

theorem Segment.driven_takeRun (now : Nat) (c : Inertia) (counter : Int) (o : Owner) (q : RunReq) {g : Segment}
    (h : g.driven = true) : (g.takeRun now c counter o q).driven = true := by
  unfold Segment.takeRun
  cases e : g.cond with
  | running =>
    have kept : (g.request o q).driven = true := h
    dsimp only
    repeat' split
    all_goals first | exact kept | rfl
  | ramping k =>
    dsimp only
    repeat' split
    all_goals rfl
  | atRest => rfl
  | coasting => simp [Segment.driven, e] at h
  | free => simp [Segment.driven, e] at h

theorem Segment.driven_cases {g : Segment} (h : g.driven = true) : g.cond = .running ∨ ∃ k, g.cond = .ramping k := by
  cases e : g.cond with
  | running => exact .inl rfl
  | ramping k => exact .inr ⟨k, rfl⟩
  | atRest => simp [Segment.driven, e] at h
  | coasting => simp [Segment.driven, e] at h
  | free => simp [Segment.driven, e] at h

theorem Segment.undriven_of_driven {g : Segment} (h : g.driven = true) : g.undriven = false := by
  simp [Segment.undriven, h]

/-- A RUN request that is taken. -/
theorem Transport.run_eq (now : Nat) (c : Inertia) (o : Owner) (q : RunReq) {x : Transport}
    (h : x.cap.seg.undriven = false) :
    x.run now c o q = Transport.decelWatch now
      { x with
        cap := { x.cap.accept o with seg := x.cap.seg.takeRun now c x.cap.counter o q }
        capture :=
          if x.cap.seg.atSpeed && (x.cap.seg.dir == some q.dir && q.speed == .seek) then x.capture.abandonAll
          else x.capture } := by
  unfold Transport.run
  cases e : x.cap.seg.cond with
  | coasting => simp [Segment.undriven, Segment.moving, Segment.driven, e] at h
  | free => simp [Segment.undriven, Segment.moving, Segment.driven, e] at h
  | atRest => rfl
  | running => rfl
  | ramping k => rfl

theorem Transport.underway_run (now : Nat) (c : Inertia) (o : Owner) (q : RunReq) {x : Transport}
    (h : x.cap.seg.driven = true) (slow : q.speed ≠ .seek) : x.Underway (x.run now c o q) := by
  rw [Transport.run_eq now c o q (Segment.undriven_of_driven h)]
  have g := Segment.driven_takeRun now c x.cap.counter o q h
  refine Transport.Underway.trans ?_ (Transport.underway_decelWatch now (by exact g))
  have kept : (q.speed == Speed.seek) = false := by simpa using slow
  rw [kept, Bool.and_false, Bool.and_false]
  cases o <;> exact ⟨g, rfl, rfl, rfl, rfl, rfl, rfl⟩

theorem State.stop_driven (o : Owner) (h : (s.tr t).cap.seg.driven = true) :
    s.stop t o = s.upd t (Transport.stopDriven s.clock o) := by
  unfold State.stop
  rcases Segment.driven_cases h with e | ⟨k, e⟩ <;> rw [e]

/-- A stop of the running order whose capstan is driven. -/
theorem State.stopOrder_driven (c : Completion) (b : Option Nat) (h : (s.tr t).cap.seg.driven = true) :
    s.stopOrder t c b = s.upd t fun x =>
      (x.modWork fun _ w => { w with phase := .stopping, reason := some c, barrier := b }).stopDriven s.clock .orders := by
  unfold State.stopOrder
  rw [State.stop_driven _ (by rw [State.tr_upd_same]; exact h), State.upd_upd]
  rfl

theorem State.Underway.work (f : Order → Work → Work) (h : s.Underway t r) :
    s.Underway t (r.upd t fun x => x.modWork f) := h.upd _ (Transport.underway_work _ h.2.driven)

theorem State.Underway.stopOrder (c : Completion) (b : Option Nat) (h : s.Underway t r) :
    s.Underway t (r.stopOrder t c b) := by
  rw [State.stopOrder_driven _ _ h.2.driven]
  exact h.upd _ ((Transport.underway_work _ h.2.driven).trans (Transport.underway_stopDriven _ _ _))

theorem State.Underway.orderRun (q : RunReq) (slow : q.speed ≠ .seek) (h : s.Underway t r) :
    s.Underway t (r.orderRun t q) := by
  have taken : ¬ (r.tr t).cap.seg.undriven = true := by simp [Segment.undriven_of_driven h.2.driven]
  unfold State.orderRun
  rw [if_neg taken]
  exact (h.work _).upd _ (Transport.underway_run _ _ _ _ (h.work _).2.driven slow)

theorem State.Underway.distanceWatch (d : Dir) (h : s.Underway t r) : s.Underway t (r.distanceWatch t d) := by
  unfold State.distanceWatch State.blankStop State.haltSearchEnd
  dsimp only
  repeat' split
  all_goals first | exact (h.work _).stopOrder _ _ | exact h.work _

theorem State.Underway.slowWatch (h : s.Underway t r) : s.Underway t (r.slowWatch t) := by
  unfold State.slowWatch State.readLeg
  repeat' split
  all_goals first | exact (h.work _).orderRun _ nofun | exact h

theorem State.Underway.searchWatch (h : s.Underway t r) : s.Underway t (r.searchWatch t) := by
  unfold State.searchWatch
  repeat' split
  all_goals first | exact h.work _ | exact h

/-- The later watches of a count leave the windows, the marks and the position of a MOVING transport. -/
theorem State.laterWatches_underway (d : Dir) (now : Nat) (h : s.Underway t r)
    (state : (r.tr t).sequencer.state = .moving) : s.Underway t (r.laterWatches t d now) := by
  have orders : r.Underway t ((((r.distanceWatch t d).slowWatch t).searchWatch t).upd t (Transport.decelWatch now)) := by
    have watched := ((State.Underway.refl h.2.driven).distanceWatch d).slowWatch.searchWatch
    exact watched.upd _ (Transport.underway_decelWatch now watched.2.driven)
  have moving := (congrArg Sequencer.state orders.2.sequencer).trans state
  unfold State.laterWatches
  rw [State.findWatch_else d (by rw [moving]; nofun), State.rewindWatch_else (by rw [moving]; rfl)]
  rw [orders.1]
  refine h.upd _ orders.2

/-- The later watches only count the travel of an order that has begun its stop. -/
theorem State.laterWatches_stopping (d : Dir) (now : Nat) {o : Order} {w : Work} (run : (s.tr t).running = some (o, w))
    (phase : w.phase = .stopping) (stand : (s.tr t).cap.seg.stopTarget = none)
    (state : (s.tr t).sequencer.state = .moving) :
    s.laterWatches t d now = s.upd t fun x => x.modWork (Work.travel d) := by
  have run' : ((s.upd t fun x => x.modWork (Work.travel d)).tr t).running = some (o, w.travel d o) := by
    rw [State.tr_upd_same, Transport.modWork_running]
    exact congrArg _ run
  have phase' : (w.travel d o).phase = .stopping := phase
  have distance : s.distanceWatch t d = s.upd t fun x => x.modWork (Work.travel d) := by
    unfold State.distanceWatch
    dsimp only
    rw [run']
    dsimp only
    rw [if_neg (by simp [phase', OrderPhase.underWay]), if_neg (by simp [phase'])]
  have slow : (s.upd t fun x => x.modWork (Work.travel d)).slowWatch t = s.upd t fun x => x.modWork (Work.travel d) := by
    unfold State.slowWatch Work.mustSlow
    rw [run']
    simp [phase']
  have search : (s.upd t fun x => x.modWork (Work.travel d)).searchWatch t = s.upd t fun x => x.modWork (Work.travel d) := by
    unfold State.searchWatch
    rw [run']
    dsimp only
    split
    · exact if_neg (by simp [phase'])
    · rfl
  have travelled : (s.upd t fun x => x.modWork (Work.travel d)).tr t = (s.tr t).modWork (Work.travel d) :=
    State.tr_upd_same _ _ _
  unfold State.laterWatches
  rw [distance, slow, search, State.upd_id _ _ _ (Transport.decelWatch_untargeted (by rw [travelled]; exact stand)),
    State.findWatch_else d (by rw [travelled]; exact state ▸ nofun),
    State.rewindWatch_else (by rw [travelled]; exact state ▸ rfl)]

end

end Sys2Proof.Machine
end

