-- ==== Sys2Proof/Proofs/CountsWindows.lean ====
section
/-! PROOF. The windows that open and the window that closes at a count. -/

namespace Sys2Proof.Machine

open Sys2Proof

/-! ### The marks of the bound volume -/

section
variable {t : TNum} {s : State} {i : Fin 16}

theorem State.boundMarks_of (bound : s.boundIdx t = some i) : s.boundMarks t = s.marks[i] := by
  unfold State.boundMarks
  rw [bound]

theorem State.boundMarks_setMarks (bound : s.boundIdx t = some i) (l : List Mark) : (s.setMarks i l).boundMarks t = l := by
  rw [State.boundMarks_of (show (s.setMarks i l).boundIdx t = some i from bound), State.marks_setMarks, if_pos rfl]

theorem State.setMarks_self : s.setMarks i s.marks[i] = s := by
  unfold State.setMarks
  rw [show s.marks.set i s.marks[i] = s.marks from Vector.set_getElem_self _]

theorem State.modBoundMarks_of (bound : s.boundIdx t = some i) (f : List Mark → List Mark) :
    s.modBoundMarks t f = s.setMarks i (f s.marks[i]) := by
  unfold State.modBoundMarks
  rw [bound]

/-! ### A count of a MOVING transport -/

/-- The state after a forward count inside the range of the counter, and the passages of that count. -/
def State.countedOn (t : TNum) (i : Fin 16) (s : State) : State :=
  (s.upd t (Transport.counted .forward)).setMarks i (passedMarks .forward ((s.tr t).cap.counter + 1) s.marks[i])

theorem State.countedOn_tr : (s.countedOn t i).tr t = (s.tr t).counted .forward := State.tr_upd_same _ _ _

theorem State.countedOn_boundMarks (bound : s.boundIdx t = some i) :
    (s.countedOn t i).boundMarks t = passedMarks .forward ((s.tr t).cap.counter + 1) s.marks[i] :=
  State.boundMarks_setMarks (s := s.upd t (Transport.counted .forward)) bound _

theorem exec_count (bound : s.boundIdx t = some i) (conf : (s.tr t).cap.conf ≠ .lost) (high : (s.tr t).cap.counter < 8388607) :
    exec (.capstanTachCount t .forward) s =
      .next (((s.countedOn t i).forwardWatches t).laterWatches t .forward s.clock) := by
  refine congrArg Host.Outcome.next ((State.tachCount_counted (d := .forward) bound conf nofun fun _ => high).trans ?_)
  rfl

theorem passedMarks_none {d : Dir} {p : Int} {l : List Mark} (h : ∀ m ∈ l, m.pos ≠ p) : passedMarks d p l = l := by
  unfold passedMarks
  conv_rhs => rw [← List.map_id l]
  exact List.map_congr_left fun m k => if_neg fun e => h m k e.1

/-- A count that passes no mark. -/
theorem State.countedOn_unpassed (h : ∀ m ∈ s.marks[i], m.pos ≠ (s.tr t).cap.counter + 1) :
    s.countedOn t i = s.upd t (Transport.counted .forward) := by
  unfold State.countedOn
  rw [passedMarks_none h]
  exact State.setMarks_self (s := s.upd t (Transport.counted .forward))

/-- A mark with its passed flag as a count leaves it. -/
def Mark.passedBy (d : Dir) (p : Int) (m : Mark) : Mark := if m.pos = p ∧ m.mode.admits d then { m with passed := true } else m

theorem passedMarks_eq (d : Dir) (p : Int) (l : List Mark) : passedMarks d p l = l.map (Mark.passedBy d p) := rfl

section
variable {d : Dir} {p : Int} {m : Mark}

@[simp] theorem Mark.passedBy_number : (m.passedBy d p).number = m.number := by
  unfold Mark.passedBy
  split <;> rfl

@[simp] theorem Mark.passedBy_pos : (m.passedBy d p).pos = m.pos := by
  unfold Mark.passedBy
  split <;> rfl

@[simp] theorem Mark.passedBy_kind : (m.passedBy d p).kind = m.kind := by
  unfold Mark.passedBy
  split <;> rfl

@[simp] theorem Mark.passedBy_state : (m.passedBy d p).state = m.state := by
  unfold Mark.passedBy
  split <;> rfl

end

theorem State.countedOn_noBarriers (bound : s.boundIdx t = some i) (h : s.noBarriers t) : (s.countedOn t i).noBarriers t := by
  intro m k
  rw [State.countedOn_boundMarks bound, passedMarks_eq] at k
  obtain ⟨q, e, rfl⟩ := List.mem_map.mp k
  rw [← State.boundMarks_of bound] at e
  exact Mark.passedBy_kind.trans (h q e)

/-- The order of a transport is no SEEK_MARK, so that it searches nothing. -/
theorem Transport.noSearch_else {x : Transport} (h : ∀ o w n, x.running = some (o, w) → o.kind ≠ .seekMark n) : x.noSearch :=
  fun o w n run kind => absurd kind (h o w n run)

/-- Where no barrier applies and no search is in progress, a count opens and closes windows, and the later watches leave
what they have made of the marks, the windows and the position. -/
theorem exec_count_unbarred (bound : s.boundIdx t = some i) (conf : (s.tr t).cap.conf ≠ .lost)
    (high : (s.tr t).cap.counter < 8388607) (bars : s.noBarriers t) (search : (s.tr t).noSearch) {q : State}
    (watched : ((s.countedOn t i).openings t).closings t = q) (driven : (q.tr t).cap.seg.driven = true)
    (state : (q.tr t).sequencer.state = .moving) :
    ∃ r, exec (.capstanTachCount t .forward) s = .next r ∧ q.Underway t r := by
  have opens : (s.countedOn t i).forwardWatches t = q :=
    ((State.countedOn_noBarriers bound bars).unbarred.forwardWatches (by rw [State.countedOn_tr]; exact search)).trans
      watched
  refine ⟨_, exec_count bound conf high, ?_⟩
  rw [opens]
  exact State.laterWatches_underway .forward s.clock (State.Underway.refl driven) state

/-! ### Windows that open -/

theorem Segment.driven_running {g : Segment} (h : g.cond = .running) : g.driven = true := by
  unfold Segment.driven
  rw [h]

theorem Segment.readingForward_running {g : Segment} (cond : g.cond = .running) (dir : g.dir = some .forward)
    (speed : g.speed = some .read) : g.readingForward = true := by
  simp [Segment.readingForward, Segment.tapeDir, Segment.atSpeed, cond, dir, speed]

/-- The windows that a count at READ speed opens in an empty set. -/
theorem State.opened_countedOn (bound : s.boundIdx t = some i) (state : (s.tr t).sequencer.state = .moving)
    (conf : (s.tr t).cap.conf ≠ .lost)
    (reading : (s.tr t).cap.seg.readingForward = true) (shut : (s.tr t).capture.windows = []) :
    (s.countedOn t i).opened t =
      (s.marks[i].filter fun m => m.pos - (s.tr t).capture.lead == (s.tr t).cap.counter + 1 &&
        ((s.tr t).cap.conf == .exact || m.state == .verified)).map fun m =>
          { number := m.number, low := m.pos - (s.tr t).capture.lead, high := m.pos + (s.tr t).capture.lag
            role := if (s.tr t).capture.target = some { number := m.number, pos := m.pos } then .target else .ordinary
            candidate := none, fixed := false } := by
  have taken : ((s.countedOn t i).tr t).sequencer.state = .moving ∧
      ((s.countedOn t i).tr t).cap.seg.readingForward = true := by
    rw [State.countedOn_tr]
    exact ⟨state, reading⟩
  have none : ∀ n, (s.tr t).capture.windowOf n = none := fun n => by
    unfold Capture.windowOf
    rw [shut]
    rfl
  unfold State.opened
  rw [if_pos taken, State.countedOn_tr, State.countedOn_boundMarks bound, passedMarks_eq, List.filter_map, List.map_map]
  refine congr (congrArg List.map (funext fun m => ?_)) (congrArg (List.filter · _) (funext fun m => ?_))
  · simp [Transport.counted, Capture.roleOf]
  · cases e : (s.tr t).cap.conf
    · simp [none, Mark.trusted, Transport.counted, e]
    · simp [none, Mark.trusted, Transport.counted, e]
    · exact absurd e conf

theorem count_opens (bound : s.boundIdx t = some i) (state : (s.tr t).sequencer.state = .moving)
    (high : (s.tr t).cap.counter < 8388607) (conf : (s.tr t).cap.conf ≠ .lost) (cond : (s.tr t).cap.seg.cond = .running)
    (bars : s.noBarriers t)
    (search : (s.tr t).noSearch) (shut : (s.tr t).capture.windows = []) :
    ∃ r, exec (.capstanTachCount t .forward) s = .next r ∧ (r.tr t).capture.windows = (s.countedOn t i).opened t := by
  have shut' : ((s.countedOn t i).tr t).capture.windows = [] := by rw [State.countedOn_tr]; exact shut
  have tr : (((s.countedOn t i).openings t).tr t) =
      ((s.tr t).counted .forward).modCapture (Capture.withOpened ((s.countedOn t i).opened t)) := by
    rw [State.openings_eq, State.tr_upd_same, State.countedOn_tr]
  obtain ⟨r, e, k⟩ := exec_count_unbarred bound conf high bars search (State.closings_opened shut')
    (by rw [tr]; exact Segment.driven_running cond) (by rw [tr]; exact state)
  refine ⟨r, e, ?_⟩
  rw [k.2.capture, tr]
  exact congrArg (· ++ _) shut

/-! ### A window that closes (R66, R67, R70) -/

theorem Capture.windowOf_none_iff {c : Capture} {n : Nat} : c.windowOf n = none ↔ ∀ w ∈ c.windows, w.number ≠ n := by
  unfold Capture.windowOf
  rw [List.find?_eq_none]
  simp

theorem Capture.windowOf_dropWindow (n : Nat) (c : Capture) : (c.dropWindow n).windowOf n = none := by
  rw [Capture.windowOf_none_iff]
  intro w h
  have := (List.mem_filter.mp h).2
  simpa using this

theorem Capture.windowOf_shift {c : Capture} {n : Nat} (amount : Int) (h : c.windowOf n = none) :
    (c.shift amount).windowOf n = none := by
  rw [Capture.windowOf_none_iff] at h ⊢
  intro w k
  obtain ⟨v, m, rfl⟩ := List.mem_map.mp k
  have := h v m
  cases v.candidate with
  | none => exact this
  | some p =>
    dsimp only
    split <;> exact this

theorem Transport.correct_capture (amount : Int) (x : Transport) :
    (x.correct amount).capture = x.capture ∨ (x.correct amount).capture = x.capture.abandonAll := by
  unfold Transport.correct
  dsimp only
  repeat' split
  all_goals first | exact .inl rfl | exact .inr rfl

theorem Transport.correct_seg {x : Transport} (amount : Int) (h : x.cap.seg.cond = .running) :
    (x.correct amount).cap.seg = x.cap.seg := by
  unfold Transport.correct Segment.shiftStart
  rw [h]
  dsimp only
  repeat' split
  all_goals rfl

theorem Transport.correct_sequencer (amount : Int) (x : Transport) : (x.correct amount).sequencer = x.sequencer := by
  unfold Transport.correct
  dsimp only
  repeat' split
  all_goals rfl

/-- An evaluation leaves a RUNNING segment and the Sequencer. -/
theorem State.evaluate_motion (w : Window) (h : (s.tr t).cap.seg.cond = .running) :
    ((s.evaluate t w).tr t).cap.seg = (s.tr t).cap.seg ∧ ((s.evaluate t w).tr t).sequencer = (s.tr t).sequencer := by
  unfold State.evaluate State.doubt State.verify
  split
  · exact ⟨rfl, rfl⟩
  · rw [State.tr_modBoundMarks]; exact ⟨rfl, rfl⟩
  · split
    · rw [State.tr_upd_same]
      exact ⟨Transport.correct_seg _ h, Transport.correct_sequencer _ _⟩
    · split
      · rw [State.tr_modBoundMarks]; exact ⟨rfl, rfl⟩
      · exact ⟨rfl, rfl⟩

theorem State.evaluate_shut {n : Nat} (w : Window) (h : (s.tr t).capture.windowOf n = none) :
    ((s.evaluate t w).tr t).capture.windowOf n = none := by
  unfold State.evaluate State.doubt State.verify
  split
  · exact h
  · rw [State.tr_modBoundMarks]; exact h
  · split
    · rw [State.tr_upd_same]
      refine Capture.windowOf_shift _ ?_
      rcases (s.tr t).correct_capture (Mark.pos _ - _) with e | e <;> rw [e]
      · exact h
      · rfl
    · split
      · rw [State.tr_modBoundMarks]; exact h
      · exact h

theorem State.closeWindow_shut (n : Nat) : ((s.closeWindow t n).tr t).capture.windowOf n = none := by
  unfold State.closeWindow
  split
  · refine State.evaluate_shut _ ?_
    rw [State.tr_upd_same]
    exact Capture.windowOf_dropWindow n _
  · assumption

theorem State.closeWindow_closed {n : Nat} (h : (s.tr t).capture.windowOf n = none) : s.closeWindow t n = s := by
  unfold State.closeWindow
  rw [h]

/-- A window closes once, however often its mark's number stands in the list. -/
theorem State.closeWindow_again {n : Nat} {l : List Nat} (h : ∀ k ∈ l, k = n) :
    l.foldl (State.closeWindow t) (s.closeWindow t n) = s.closeWindow t n := by
  induction l with
  | nil => rfl
  | cons k l ih =>
    have e : k = n := h k List.mem_cons_self
    rw [List.foldl_cons, e, State.closeWindow_closed (State.closeWindow_shut n)]
    exact ih fun j m => h j (List.mem_cons_of_mem _ m)

/-- Only the window of mark `n` closes at a count. -/
theorem State.closings_one {v : Window} {m : Mark} (mark : findNumber v.number (s.boundMarks t) = some m)
    (window : (s.tr t).capture.windowOf v.number = some v) (passed : v.high < (s.tr t).cap.counter)
    (only : ∀ w ∈ (s.tr t).capture.windows, w.high < (s.tr t).cap.counter → w = v) :
    s.closings t = s.closeWindow t v.number := by
  have all : ∀ k ∈ s.windowMarks t (fun w => decide (w.high < (s.tr t).cap.counter)), k = v.number := by
    intro k h
    obtain ⟨m, -, e⟩ := List.mem_filterMap.mp h
    split at e
    · rename_i w found
      split at e
      · rename_i late
        have number : w.number = m.number := by simpa using List.find?_some found
        cases e
        rw [← number, only w (Capture.windowOf_mem found) (by simpa using late)]
      · cases e
    · cases e
  have some : v.number ∈ s.windowMarks t (fun w => decide (w.high < (s.tr t).cap.counter)) := by
    refine List.mem_filterMap.mpr ⟨m, List.mem_of_find?_eq_some mark, ?_⟩
    rw [findNumber_number mark, window]
    simp [passed]
  unfold State.closings
  cases e : s.windowMarks t (fun w => decide (w.high < (s.tr t).cap.counter)) with
  | nil => rw [e] at some; cases some
  | cons k l =>
    rw [e] at all
    rw [List.foldl_cons, all k List.mem_cons_self]
    exact State.closeWindow_again fun j h => all j (List.mem_cons_of_mem _ h)

/-- A drift correction that keeps the counter in its range (R17). -/
theorem Transport.correct_inRange {x : Transport} {amount : Int} (conf : x.cap.conf ≠ .lost)
    (low : -32768 ≤ x.cap.counter + amount) (high : x.cap.counter + amount ≤ 8388607) :
    x.correct amount = { x with cap := { x.cap with
      lastGap := x.cap.lastGap.map (· + amount)
      eotPos := x.cap.eotPos.map (· + amount)
      seg := x.cap.seg.shiftStart amount
      counter := x.cap.counter + amount
      conf := .exact } } := by
  have low' : ¬ x.cap.counter + amount < Config.posMin := by unfold Config.posMin; omega
  have high' : ¬ Config.posMax < x.cap.counter + amount := by unfold Config.posMax; omega
  unfold Transport.correct
  dsimp only
  rw [if_neg conf, if_neg low', if_neg high']

theorem Segment.shiftStart_running {g : Segment} (h : g.cond = .running) (amount : Int) : g.shiftStart amount = g := by
  unfold Segment.shiftStart
  rw [h]

theorem State.Underway.marks {r : State} (h : s.Underway t r) : r.marks = s.marks := by
  rw [h.1]
  rfl

/-- The marks of a list after the doubt update of one of them. -/
theorem doubt_marks (n : Nat) (l : List Mark) :
    updateNumber n (fun m => { m with state := .doubtful }) l =
      l.map fun m => if m.number = n then { m with state := .doubtful } else m := by
  simp [updateNumber]

section
variable {w : Window} {m : Mark}

theorem State.evaluate_unseen (mark : findNumber w.number (s.boundMarks t) = some m) (h : w.candidate = none) :
    s.evaluate t w = s.doubt t w.number := by
  unfold State.evaluate
  rw [mark, h]

theorem State.evaluate_verified {gap : Int} (mark : findNumber w.number (s.boundMarks t) = some m)
    (h : w.candidate = some gap) (k : m.state = .verified) :
    s.evaluate t w = s.upd t fun x => (x.correct (m.pos - gap)).modCapture (Capture.shift (m.pos - gap)) := by
  unfold State.evaluate
  rw [mark, h]
  exact if_pos k

theorem State.evaluate_else {gap : Int} (mark : findNumber w.number (s.boundMarks t) = some m)
    (h : w.candidate = some gap) (k : m.state ≠ .verified) :
    s.evaluate t w = if (s.tr t).cap.conf = .exact then s.verify t w.number gap else s := by
  unfold State.evaluate
  rw [mark, h]
  exact if_neg k

theorem moveNumber_some {n : Nat} {l : List Mark} (f : Mark → Mark) (h : findNumber n l = some m) :
    moveNumber n f l = insertMark (f m) (removeNumber n l) := by
  unfold moveNumber
  rw [h]

end

/-- A count that passes the high bound of the one open window evaluates its mark with the counter just counted, `y` being
the transport without that window. -/
theorem count_evaluates {v : Window} {m : Mark} (bound : s.boundIdx t = some i) (state : (s.tr t).sequencer.state = .moving)
    (high : (s.tr t).cap.counter < 8388607) (conf : (s.tr t).cap.conf ≠ .lost) (cond : (s.tr t).cap.seg.cond = .running)
    (bars : s.noBarriers t) (search : (s.tr t).noSearch) (unpassed : ∀ m ∈ s.marks[i], m.pos ≠ (s.tr t).cap.counter + 1)
    (window : (s.tr t).capture.windows = [v]) (last : v.high = (s.tr t).cap.counter)
    (mark : findNumber v.number s.marks[i] = some m) :
    ∃ r y, exec (.capstanTachCount t .forward) s = .next r ∧ (r.tr t).capture.windowOf v.number = none ∧
      y.cap = ((s.tr t).counted .forward).cap ∧ State.Underway t ((s.upd t fun _ => y).evaluate t v) r := by
  let counted := s.upd t (Transport.counted .forward)
  have tr : (counted.openings t).tr t = ((s.tr t).counted .forward).modCapture (Capture.withOpened (counted.opened t)) := by
    rw [State.openings_eq, State.tr_upd_same, State.tr_upd_same]
  have windows : ((counted.openings t).tr t).capture.windows = v :: counted.opened t := by
    rw [tr]
    exact congrArg (· ++ _) window
  have marks : (counted.openings t).boundMarks t = s.marks[i] := by
    rw [State.openings_eq]
    exact State.boundMarks_of bound
  have found : ((counted.openings t).tr t).capture.windowOf v.number = some v := by
    unfold Capture.windowOf
    rw [windows]
    exact List.find?_cons_of_pos (by simp)
  have counter : ((counted.openings t).tr t).cap.counter = (s.tr t).cap.counter + 1 := by
    rw [tr]
    rfl
  have counter' : (counted.tr t).cap.counter = (s.tr t).cap.counter + 1 := by
    rw [State.tr_upd_same]
    rfl
  have closing : (counted.openings t).closings t = (counted.openings t).closeWindow t v.number := by
    refine State.closings_one (by rw [marks]; exact mark) found (by omega) fun w k late => ?_
    rw [windows] at k
    rcases List.mem_cons.mp k with e | k
    · exact e
    · have := State.opened_high k
      omega
  let y := ((s.tr t).counted .forward).modCapture
    fun c => (c.withOpened (counted.opened t)).dropWindow v.number
  have dropped : (s.upd t fun _ => y).tr t = y := State.tr_upd_same _ _ _
  have watched : (counted.openings t).closeWindow t v.number = (s.upd t fun _ => y).evaluate t v := by
    unfold State.closeWindow
    rw [found, State.openings_eq, State.upd_upd, State.upd_upd]
    rfl
  obtain ⟨seg, seq⟩ := State.evaluate_motion (t := t) (s := s.upd t fun _ => y) v (by rw [dropped]; exact cond)
  rw [dropped] at seg seq
  obtain ⟨r, ran, k⟩ := exec_count_unbarred bound conf high bars search
    (by rw [State.countedOn_unpassed unpassed]; exact closing.trans watched)
    ((congrArg Segment.driven seg).trans (Segment.driven_running cond)) ((congrArg Sequencer.state seq).trans state)
  refine ⟨r, y, ran, ?_, rfl, k⟩
  rw [k.2.capture, ← watched]
  exact State.closeWindow_shut _

theorem count_closes {v : Window} {m : Mark} (bound : s.boundIdx t = some i) (state : (s.tr t).sequencer.state = .moving)
    (high : (s.tr t).cap.counter < 8388607) (conf : (s.tr t).cap.conf ≠ .lost) (cond : (s.tr t).cap.seg.cond = .running)
    (bars : s.noBarriers t) (search : (s.tr t).noSearch) (unpassed : ∀ m ∈ s.marks[i], m.pos ≠ (s.tr t).cap.counter + 1)
    (window : (s.tr t).capture.windows = [v]) (last : v.high = (s.tr t).cap.counter)
    (mark : findNumber v.number s.marks[i] = some m) :
    ∃ r, exec (.capstanTachCount t .forward) s = .next r ∧ (r.tr t).capture.windowOf v.number = none ∧
      (v.candidate = none →
        r.marks = s.marks.set i (s.marks[i].map fun m => if m.number = v.number then { m with state := .doubtful } else m) ∧
          (r.tr t).cap.counter = (s.tr t).cap.counter + 1 ∧ (r.tr t).cap.conf = (s.tr t).cap.conf) ∧
      ∀ gap, v.candidate = some gap →
        (m.state = .verified → -32768 ≤ (s.tr t).cap.counter + 1 + (m.pos - gap) →
          (s.tr t).cap.counter + 1 + (m.pos - gap) ≤ 8388607 →
          r.marks = s.marks ∧ (r.tr t).cap.counter = (s.tr t).cap.counter + 1 + (m.pos - gap) ∧
            (r.tr t).cap.conf = .exact ∧ (r.tr t).cap.lastGap = (s.tr t).cap.lastGap.map (· + (m.pos - gap)) ∧
            (r.tr t).cap.eotPos = (s.tr t).cap.eotPos.map (· + (m.pos - gap))) ∧
        (m.state ≠ .verified → (r.tr t).cap.counter = (s.tr t).cap.counter + 1 ∧
          (r.tr t).cap.conf = (s.tr t).cap.conf ∧
          r.marks = if (s.tr t).cap.conf = .exact then
              s.marks.set i (insertMark { m with state := .verified, pos := gap } (removeNumber v.number s.marks[i]))
            else s.marks) := by
  obtain ⟨r, y, ran, gone, cap, k⟩ := count_evaluates bound state high conf cond bars search unpassed window last mark
  refine ⟨r, ran, gone, ?_⟩
  have tr : (s.upd t fun _ => y).tr t = y := State.tr_upd_same _ _ _
  have bound' : (s.upd t fun _ => y).boundIdx t = some i := bound
  have mark' : findNumber v.number ((s.upd t fun _ => y).boundMarks t) = some m := by
    rw [State.boundMarks_of bound']
    exact mark
  refine ⟨fun unseen => ?_, fun gap seen => ⟨fun verified least most => ?_, fun unverified => ?_⟩⟩
  · rw [State.evaluate_unseen mark' unseen, State.doubt, State.modBoundMarks_of bound'] at k
    refine ⟨?_, ?_, ?_⟩
    · rw [k.marks, doubt_marks]
      rfl
    · rw [k.2.counter, State.tr_setMarks, tr, cap]
      rfl
    · rw [k.2.conf, State.tr_setMarks, tr, cap]
      rfl
  · have corrected := Transport.correct_inRange (x := y) (amount := m.pos - gap) (by rw [cap]; exact conf)
      (by rw [cap]; exact least) (by rw [cap]; exact most)
    rw [State.evaluate_verified mark' seen verified] at k
    have kept := k.2
    rw [State.tr_upd_same, tr, corrected, cap] at kept
    exact ⟨k.marks, kept.counter, kept.conf, kept.lastGap, kept.eotPos⟩
  · rw [State.evaluate_else mark' seen unverified, tr, cap] at k
    by_cases exact : (s.tr t).cap.conf = .exact
    · rw [if_pos (by exact exact), State.verify, State.modBoundMarks_of bound'] at k
      have kept := k.2
      rw [State.tr_setMarks, tr] at kept
      refine ⟨kept.counter.trans (by rw [cap]; rfl), kept.conf.trans (by rw [cap]; rfl), ?_⟩
      rw [k.marks, if_pos exact]
      exact congrArg (s.marks.set i ·) (moveNumber_some _ mark)
    · rw [if_neg (by exact exact)] at k
      have kept := k.2
      rw [tr] at kept
      refine ⟨kept.counter.trans (by rw [cap]; rfl), kept.conf.trans (by rw [cap]; rfl), ?_⟩
      rw [k.marks, if_neg exact]
      rfl

end

end Sys2Proof.Machine
end

