-- ==== Sys2Proof/Proofs/CountsStop.lean ====
section
/-! PROOF. The barriers and the ends of a search that stop an order at a count. -/

namespace Sys2Proof.Machine

open Sys2Proof

/-! ### An order that has begun its stop -/

/-- The stop of the running order of a driven transport. -/
def Transport.stopped (now : Nat) (c : Completion) (b : Option Nat) (x : Transport) : Transport :=
  (x.modWork fun _ w => { w with phase := .stopping, reason := some c, barrier := b }).stopDriven now .orders

/-- The working values of an order after a forward count, its stop aside (R85, R92). -/
def Work.onward (o : Order) (w : Work) : Work :=
  { w with
    net := w.net + 1
    blank := match o.kind with
      | .spaceF _ => w.blank + 1
      | _ => w.blank }

theorem Work.travel_stopping (o : Order) (w : Work) (c : Completion) (b : Option Nat) :
    Work.travel .forward o { w with phase := .stopping, reason := some c, barrier := b } =
      { w.onward o with phase := .stopping, reason := some c, barrier := b } := by
  rcases o with ⟨tag, kind⟩
  cases kind <;> simp [Work.travel, Work.onward, OrderKind.inDir, OrderKind.space?]

theorem Segment.stopsFor_rampDown (now : Nat) (o : Owner) (g : Segment) :
    g.stopsFor o { g.rampDown now (.toRest false) with stopTarget := none, approach := .none, owner := some o } :=
  ⟨⟨_, rfl, rfl, rfl⟩, rfl, rfl, rfl, rfl, rfl, rfl⟩

theorem Transport.stopped_running {now : Nat} {c : Completion} {b : Option Nat} {x : Transport} {o : Order} {w : Work}
    (run : x.running = some (o, w)) :
    (x.stopped now c b).running = some (o, { w with phase := .stopping, reason := some c, barrier := b }) := by
  have h := Transport.modWork_running x fun _ w => { w with phase := .stopping, reason := some c, barrier := b }
  rw [run] at h
  exact h

section
variable {t : TNum} {s : State} {o : Order} {w : Work}

/-- Transport `t` carries an order that has begun its stop, of a motion that began as `g`. -/
structure State.Stops (t : TNum) (g : Segment) (o : Order) (w : Work) (c : Completion) (b : Option Nat) (s : State) :
    Prop where
  seg : g.stopsFor .orders (s.tr t).cap.seg
  running : (s.tr t).running = some (o, { w with phase := .stopping, reason := some c, barrier := b })
  state : (s.tr t).sequencer.state = .moving

variable {g : Segment} {c : Completion} {b : Option Nat}

theorem State.Stops.upd (f : Transport → Transport) (h : s.Stops t g o w c b) (seg : (f (s.tr t)).cap.seg = (s.tr t).cap.seg)
    (run : (f (s.tr t)).running = (s.tr t).running) (seq : (f (s.tr t)).sequencer = (s.tr t).sequencer) :
    (s.upd t f).Stops t g o w c b := by
  constructor <;> rw [State.tr_upd_same]
  · rw [seg]; exact h.seg
  · rw [run]; exact h.running
  · rw [seq]; exact h.state

theorem State.stopOrder_stops {d : Completion} {k : Option Nat} (run : (s.tr t).running = some (o, w))
    (state : (s.tr t).sequencer.state = .moving) (driven : (s.tr t).cap.seg.driven = true) :
    (s.stopOrder t d k).Stops t (s.tr t).cap.seg o w d k := by
  rw [State.stopOrder_driven _ _ driven]
  constructor <;> rw [State.tr_upd_same]
  · exact Segment.stopsFor_rampDown _ _ _
  · exact Transport.stopped_running run
  · exact state

theorem State.stopOrder_marks {d : Completion} {k : Option Nat} (driven : (s.tr t).cap.seg.driven = true) :
    (s.stopOrder t d k).marks = s.marks := by
  rw [State.stopOrder_driven _ _ driven]
  rfl

theorem State.doubtAll_tr (l : List PassedBarrier) (s : State) :
    (l.foldl (fun acc p => if p.doubts then acc.doubt t p.number else acc) s).tr t = s.tr t := by
  induction l generalizing s with
  | nil => rfl
  | cons p l ih =>
    rw [List.foldl_cons, ih]
    split
    · exact State.tr_modBoundMarks _ _ _
    · rfl

theorem State.endWatches_tr (l : List PassedBarrier) (s : State) :
    (s.endWatches t l).tr t = (s.tr t).modCapture fun c =>
      { c with watch := c.watch.filter fun b => !(l.any fun p => p.number == b.number) } := by
  unfold State.endWatches
  rw [State.doubtAll_tr, State.tr_upd_same]

/-- A barrier passed is nothing to an order that has begun its stop (R91). -/
theorem State.Stops.barrierStop (n : Nat) (h : s.Stops t g o w c b) : s.barrierStop t n = s := by
  unfold State.barrierStop
  rw [h.running]
  rfl

theorem State.Stops.endWatches (l : List PassedBarrier) (h : s.Stops t g o w c b) : (s.endWatches t l).Stops t g o w c b := by
  constructor <;> rw [State.endWatches_tr]
  · exact h.seg
  · exact h.running
  · exact h.state

theorem State.Stops.highBounds (l : List PassedBarrier) (h : s.Stops t g o w c b) : (s.highBounds t l).Stops t g o w c b := by
  unfold State.highBounds
  dsimp only
  split
  · rw [(h.endWatches l).barrierStop]
    exact h.endWatches l
  · exact h.endWatches l

theorem State.Stops.searchPassWatch (e : Option SearchEnd) (counter : Int) (h : s.Stops t g o w c b) :
    s.searchPassWatch t e counter = s := by
  unfold State.searchPassWatch State.searchPassed
  rw [h.running]
  split
  · split
    · exact if_pos nofun
    · rfl
  · rfl

theorem State.Stops.noSearch (h : s.Stops t g o w c b) : (s.tr t).noSearch := by
  intro k v n run _
  rw [h.running] at run
  cases run
  nofun

/-- The later watches of a count leave the stop, and count the travel. -/
theorem State.Stops.laterWatches {now : Nat} {x : Transport} (h : s.Stops t x.cap.seg o w c b) :
    x.stopsOrder o (w.onward o) c b ((s.laterWatches t .forward now).tr t) ∧
      (s.laterWatches t .forward now).marks = s.marks := by
  rw [State.laterWatches_stopping .forward now h.running rfl h.seg.2.1 h.state]
  refine ⟨⟨?_, ?_⟩, rfl⟩ <;> rw [State.tr_upd_same]
  · exact h.seg
  · rw [Transport.modWork_running, h.running, Option.map_some, Work.travel_stopping]

/-! ### The first barrier ahead (R76) -/

theorem OrderKind.barred_of {kind : OrderKind}
    (h : match kind with
      | .spaceF _ => True
      | .advance _ => True
      | .seekPos _ => True
      | .seekMark _ => True
      | _ => False) : kind.barred = true := by
  cases kind <;> first | rfl | exact h.elim

/-- The first barrier of the volume of a transport in forward motion applies to its order. -/
theorem State.firstBarrier.applies {m : Mark} (h : s.firstBarrier t o w m) (run : (s.tr t).running = some (o, w))
    (phase : w.phase ≠ .approach) (cond : (s.tr t).cap.seg.cond = .running) (dir : (s.tr t).cap.seg.dir = some .forward) :
    (s.tr t).applies m = true := by
  obtain ⟨-, kind, conf, ahead, barred⟩ := h
  unfold Transport.applies Transport.wouldApply Transport.barredFrom
  rw [run]
  simp [phase, kind, conf, ahead, OrderKind.barred_of barred, Segment.moving, Segment.tapeDir, cond, dir]

/-- What a barrier alone can meet is found in the first one. -/
theorem State.firstBarrier.find {m : Mark} (h : s.firstBarrier t o w m) {f : Mark → Bool}
    (points : ∀ k : Mark, k.kind = .point → f k = false) (here : f m = true) : (s.boundMarks t).find? f = some m := by
  obtain ⟨⟨before, after, marks, first⟩, -⟩ := h
  have none : before.find? f = none := List.find?_eq_none.mpr fun k e => by simp [points k (first k e)]
  rw [marks, List.find?_append, none, List.find?_cons_of_pos here]
  rfl

theorem Transport.rangeOf_shut {x : Transport} (shut : x.capture.windows = []) (m : Mark) :
    x.rangeOf m = (m.pos - x.capture.lead, m.pos + x.capture.lag) := by
  unfold Transport.rangeOf Capture.windowOf
  rw [shut]
  rfl

/-- The phases in which an order can be stopped. -/
theorem OrderPhase.underWay_of {p : OrderPhase} (h : p ∈ [OrderPhase.fast, .readLeg, .search, .haltSearch]) :
    p.underWay = true ∧ p ≠ .approach := by
  simp only [List.mem_cons, List.not_mem_nil, or_false] at h
  rcases h with rfl | rfl | rfl | rfl <;> exact ⟨rfl, nofun⟩

variable {i : Fin 16}

theorem State.firstBarrier.countedOn {m : Mark} (h : s.firstBarrier t o w m) (bound : s.boundIdx t = some i) :
    (s.countedOn t i).firstBarrier t o w (m.passedBy .forward ((s.tr t).cap.counter + 1)) := by
  obtain ⟨⟨before, after, marks, first⟩, kind, conf, ahead, barred⟩ := h
  rw [State.boundMarks_of bound] at marks
  let flag := Mark.passedBy .forward ((s.tr t).cap.counter + 1)
  refine ⟨⟨before.map flag, after.map flag, ?_, ?_⟩, Mark.passedBy_kind.trans kind, ?_, ?_, barred⟩
  · rw [State.countedOn_boundMarks bound, passedMarks_eq, marks, List.map_append, List.map_cons]
  · intro k e
    obtain ⟨p, q, rfl⟩ := List.mem_map.mp e
    exact Mark.passedBy_kind.trans (first p q)
  · rw [State.countedOn_tr]
    exact conf
  · rw [State.countedOn_tr, Mark.passedBy_pos]
    exact ahead

/-! ### A barrier met too fast (R78) -/

/-- A barrier met at SEEK speed stops the order, whatever else the count passes. -/
theorem count_stops_at_low {m : Mark} (bound : s.boundIdx t = some i) (state : (s.tr t).sequencer.state = .moving)
    (high : (s.tr t).cap.counter < 8388607) (conf : (s.tr t).cap.conf ≠ .lost) (cond : (s.tr t).cap.seg.cond = .running)
    (dir : (s.tr t).cap.seg.dir = some .forward) (run : (s.tr t).running = some (o, w)) (first : s.firstBarrier t o w m)
    (shut : (s.tr t).capture.windows = []) (phase : w.phase ∈ [OrderPhase.fast, .readLeg, .search, .haltSearch])
    (speed : (s.tr t).cap.seg.speed = some .seek) (low : m.pos - (s.tr t).capture.lead = (s.tr t).cap.counter + 1) :
    ∃ r, exec (.capstanTachCount t .forward) s = .next r ∧
      (s.tr t).stopsOrder o (w.onward o) .barrier (some m.number) (r.tr t) := by
  obtain ⟨underWay, approach⟩ := OrderPhase.underWay_of phase
  let p := s.countedOn t i
  have tr : p.tr t = (s.tr t).counted .forward := State.countedOn_tr
  have first' := first.countedOn bound
  have applies := first'.applies (by rw [tr]; exact run) approach (by rw [tr]; exact cond) (by rw [tr]; exact dir)
  have driven : (p.tr t).cap.seg.driven = true := by rw [tr]; exact Segment.driven_running cond
  have met : p.barrierTooFast t = some m.number := by
    have seeking : (p.tr t).cap.seg.seekingForward = true := by
      rw [tr]
      simp [Transport.counted, Segment.seekingForward, Segment.tapeDir, cond, dir, speed]
    unfold State.barrierTooFast
    dsimp only
    rw [if_pos seeking, first'.find (fun k point => by rw [Transport.applies_point point]; rfl) ?_]
    · exact congrArg some Mark.passedBy_number
    · rw [applies, tr, Transport.rangeOf_shut (by exact shut), Mark.passedBy_pos]
      simp [Transport.counted, low]
  have lowBounds : p.lowBounds t = p.stopOrder t .barrier (some m.number) := by
    unfold State.lowBounds State.barrierStop
    rw [met, show (p.tr t).running = some (o, w) by rw [tr]; exact run]
    exact if_pos underWay
  have stops : (p.stopOrder t .barrier (some m.number)).Stops t (s.tr t).cap.seg o w .barrier (some m.number) := by
    have h := State.stopOrder_stops (t := t) (s := p) (d := .barrier) (k := some m.number) (by rw [tr]; exact run)
      (by rw [tr]; exact state) driven
    rw [tr] at h
    exact h
  have ramp : ((p.stopOrder t .barrier (some m.number)).tr t).cap.seg.readingForward = false := by
    rw [State.stopOrder_driven _ _ driven, State.tr_upd_same]
    simp [Transport.stopDriven, Transport.modWork, Transport.modList, Segment.rampDown, Segment.readingForward,
      Segment.atSpeed, Segment.readRamp, Segment.speedReached, tr, Transport.counted, cond, speed, endMm]
  have shut' : ((p.stopOrder t .barrier (some m.number)).tr t).capture.windows = [] := by
    rw [State.stopOrder_driven _ _ driven, State.tr_upd_same, tr]
    exact shut
  have opened : (p.stopOrder t .barrier (some m.number)).opened t = [] := if_neg (by rw [ramp]; simp)
  refine ⟨_, exec_count bound conf high, ?_⟩
  unfold State.forwardWatches
  dsimp only
  rw [show s.countedOn t i = p from rfl, lowBounds, State.openings_none opened,
    State.closings_none (by rw [shut']; nofun), (stops.highBounds _).searchPassWatch]
  exact (stops.highBounds _).laterWatches.1

/-! ### A barrier passed (R78, R74) -/

/-- The doubt update leaves nothing for a second one to do. -/
theorem doubt_again (n : Nat) (l : List Mark) :
    updateNumber n (fun m => { m with state := .doubtful }) (updateNumber n (fun m => { m with state := .doubtful }) l) =
      updateNumber n (fun m => { m with state := .doubtful }) l := by
  unfold updateNumber
  rw [List.map_map]
  refine List.map_congr_left fun m _ => ?_
  by_cases h : m.number = n <;> simp [h]

theorem State.doubtAll_marks {l : List PassedBarrier} {n : Nat} (bound : s.boundIdx t = some i)
    (h : ∀ p ∈ l, p.doubts = true → p.number = n) :
    (l.foldl (fun acc p => if p.doubts then acc.doubt t p.number else acc) s).marks =
      if l.any (fun p => p.doubts) then
        s.marks.set i (updateNumber n (fun m => { m with state := .doubtful }) s.marks[i]) else s.marks := by
  induction l generalizing s with
  | nil => rfl
  | cons p l ih =>
    have rest : ∀ q ∈ l, q.doubts = true → q.number = n := fun q k => h q (List.mem_cons_of_mem _ k)
    rw [List.foldl_cons, List.any_cons]
    cases e : p.doubts
    · exact ih bound rest
    · have doubted : s.doubt t p.number = s.setMarks i (updateNumber n (fun m => { m with state := .doubtful }) s.marks[i]) := by
        rw [h p List.mem_cons_self e]
        exact State.modBoundMarks_of bound _
      rw [if_pos rfl, doubted, ih (show State.boundIdx t (s.setMarks i _) = some i from bound) rest, State.marks_setMarks,
        if_pos rfl, doubt_again, State.setMarks_marks]
      simp

theorem filterMap_first {α β : Type} {f : α → Option β} {l before after : List α} {a : α} {b : β}
    (h : l = before ++ a :: after) (none : ∀ k ∈ before, f k = .none) (one : f a = some b) :
    l.filterMap f = b :: after.filterMap f := by
  rw [h, List.filterMap_append, List.filterMap_eq_nil_iff.mpr none, List.filterMap_cons_some one]
  rfl

/-- The first barrier, passed at READ speed, stops the order; it is doubted where it was under watch, and nothing else is. -/
theorem State.firstBarrier.passed {m : Mark} (first : s.firstBarrier t o w m) (applies : (s.tr t).applies m = true)
    (shut : (s.tr t).capture.windows = []) (high : m.pos + (s.tr t).capture.lag + 1 = (s.tr t).cap.counter)
    (watch : (s.tr t).capture.watch = [] ∨
      (s.tr t).capture.watch = [{ number := m.number, pos := m.pos, searched := true, gapSeen := false }]) :
    ∃ l, s.barriersPassed t =
        { number := m.number, stops := true, doubts := decide ((s.tr t).capture.watch ≠ []) } :: l ∧
      ∀ p ∈ l, p.doubts = true → p.number = m.number ∧ (s.tr t).capture.watch ≠ [] := by
  obtain ⟨⟨before, after, marks, points⟩, -⟩ := first
  have unseen : ∀ k : Mark, (s.tr t).capture.windowOf k.number = none := fun k => by
    unfold Capture.windowOf
    rw [shut]
    rfl
  refine ⟨_, filterMap_first marks (fun k e => by simp [Transport.applies_point (points k e)]) ?_, ?_⟩
  · rcases watch with e | e <;> simp [applies, Transport.rangeOf_shut shut, high, unseen, e]
  · intro p k doubts
    obtain ⟨q, -, e⟩ := List.mem_filterMap.mp k
    dsimp only at e
    split at e
    case isFalse => cases e
    cases e
    rcases watch with empty | one
    · simp [empty] at doubts
    · refine ⟨?_, by rw [one]; nofun⟩
      simp only [one] at doubts
      by_contra other
      have apart : (m.number == q.number) = false := by simpa using fun h : m.number = q.number => other h.symm
      simp [apart] at doubts

/-- Where no mark has its low bound at the counter, nothing opens. -/
theorem State.opened_none (h : ∀ m ∈ s.boundMarks t, m.pos - (s.tr t).capture.lead ≠ (s.tr t).cap.counter) :
    s.opened t = [] := by
  unfold State.opened
  split
  · rw [List.filter_eq_nil_iff.mpr fun m k => by simp [h m k]]
    rfl
  · rfl

/-- Where no mark has its low bound at the counter, no barrier is met. -/
theorem State.met_none (shut : (s.tr t).capture.windows = [])
    (h : ∀ m ∈ s.boundMarks t, m.pos - (s.tr t).capture.lead ≠ (s.tr t).cap.counter) : s.met t = [] :=
  List.filter_eq_nil_iff.mpr fun m k => by simp [Transport.rangeOf_shut shut, h m k]

/-- A count that passes no mark and meets no low bound: the bounds above and the search alone are left to watch. -/
theorem exec_count_unmet (bound : s.boundIdx t = some i) (high : (s.tr t).cap.counter < 8388607)
    (conf : (s.tr t).cap.conf ≠ .lost) (shut : (s.tr t).capture.windows = [])
    (unopened : ∀ m ∈ s.marks[i], m.pos - (s.tr t).capture.lead ≠ (s.tr t).cap.counter + 1)
    (unpassed : ∀ m ∈ s.marks[i], m.pos ≠ (s.tr t).cap.counter + 1)
    (low : (s.upd t (Transport.counted .forward)).lowBounds t = s.upd t (Transport.counted .forward)) :
    let p := s.upd t (Transport.counted .forward)
    exec (.capstanTachCount t .forward) s =
      .next (((p.highBounds t (p.barriersPassed t)).searchPassWatch t (p.tr t).searchHigh
        (p.tr t).cap.counter).laterWatches t .forward s.clock) := by
  intro p
  have tr : p.tr t = (s.tr t).counted .forward := State.tr_upd_same _ _ _
  have unopened' : ∀ m ∈ p.boundMarks t, m.pos - (p.tr t).capture.lead ≠ (p.tr t).cap.counter := by
    rw [State.boundMarks_of (s := p) bound, tr]
    exact unopened
  refine (exec_count bound conf high).trans (congrArg (fun q => Host.Outcome.next (State.laterWatches t .forward s.clock q)) ?_)
  unfold State.forwardWatches
  dsimp only
  rw [State.countedOn_unpassed unpassed, low, State.openings_none (State.opened_none unopened'),
    State.closings_none (by rw [tr]; exact fun v k => absurd (shut ▸ k) List.not_mem_nil)]

theorem State.lowBounds_unmet (slow : (s.tr t).cap.seg.seekingForward = false) (unmet : s.met t = []) : s.lowBounds t = s := by
  unfold State.lowBounds State.barrierTooFast
  dsimp only
  rw [slow]
  exact State.watchLow_unmet unmet

theorem State.highBounds_stops {l : List PassedBarrier} {b : PassedBarrier} (run : (s.tr t).running = some (o, w))
    (underWay : w.phase.underWay = true) (first : l.find? (fun b => b.stops) = some b) :
    s.highBounds t l = (s.endWatches t l).stopOrder t .barrier (some b.number) := by
  have run' : ((s.endWatches t l).tr t).running = some (o, w) := by
    rw [State.endWatches_tr]
    exact run
  unfold State.highBounds State.barrierStop
  dsimp only
  rw [first]
  dsimp only
  rw [run']
  exact if_pos underWay

/-- The marks after some watches have ended, where mark `n` alone can be doubted. -/
theorem State.endWatches_marks {l : List PassedBarrier} {n : Nat} (bound : s.boundIdx t = some i)
    (h : ∀ p ∈ l, p.doubts = true → p.number = n) :
    (s.endWatches t l).marks = if l.any (fun p => p.doubts) then
      s.marks.set i (s.marks[i].map fun k => if k.number = n then { k with state := .doubtful } else k) else s.marks := by
  rw [← doubt_marks]
  exact State.doubtAll_marks (s := s.upd t _) bound h

/-- A barrier passed at READ speed stops the order, and is doubted where it was under watch. -/
theorem count_stops_at_high {m : Mark} (bound : s.boundIdx t = some i) (state : (s.tr t).sequencer.state = .moving)
    (high : (s.tr t).cap.counter < 8388607) (conf : (s.tr t).cap.conf ≠ .lost) (cond : (s.tr t).cap.seg.cond = .running)
    (dir : (s.tr t).cap.seg.dir = some .forward) (run : (s.tr t).running = some (o, w)) (first : s.firstBarrier t o w m)
    (shut : (s.tr t).capture.windows = []) (phase : w.phase ∈ [OrderPhase.fast, .readLeg, .search, .haltSearch])
    (speed : (s.tr t).cap.seg.speed = some .read) (last : m.pos + (s.tr t).capture.lag = (s.tr t).cap.counter)
    (unopened : ∀ m ∈ s.marks[i], m.pos - (s.tr t).capture.lead ≠ (s.tr t).cap.counter + 1)
    (unpassed : ∀ m ∈ s.marks[i], m.pos ≠ (s.tr t).cap.counter + 1)
    (watch : (s.tr t).capture.watch = [] ∨
      (s.tr t).capture.watch = [{ number := m.number, pos := m.pos, searched := true, gapSeen := false }]) :
    ∃ r, exec (.capstanTachCount t .forward) s = .next r ∧
      (s.tr t).stopsOrder o (w.onward o) .barrier (some m.number) (r.tr t) ∧
      r.marks = if (s.tr t).capture.watch = [] then s.marks else
        s.marks.set i (s.marks[i].map fun k => if k.number = m.number then { k with state := .doubtful } else k) := by
  obtain ⟨underWay, approach⟩ := OrderPhase.underWay_of phase
  let p := s.upd t (Transport.counted .forward)
  have tr : p.tr t = (s.tr t).counted .forward := State.tr_upd_same _ _ _
  have shut' : (p.tr t).capture.windows = [] := by rw [tr]; exact shut
  have run' : (p.tr t).running = some (o, w) := by rw [tr]; exact run
  have first' : p.firstBarrier t o w m := by
    obtain ⟨marks, kind, conf, ahead, barred⟩ := first
    refine ⟨marks, kind, ?_, ?_, barred⟩ <;> rw [tr] <;> assumption
  have applies := first'.applies run' approach (by rw [tr]; exact cond) (by rw [tr]; exact dir)
  have low : p.lowBounds t = p := by
    refine State.lowBounds_unmet ?_ (State.met_none shut' ?_)
    · rw [tr]
      simp [Transport.counted, Segment.seekingForward, cond, speed]
    · rw [State.boundMarks_of (s := p) bound, tr]
      exact unopened
  have watch_eq : (p.tr t).capture.watch = (s.tr t).capture.watch := by rw [tr]; rfl
  obtain ⟨l, passed, others⟩ := first'.passed applies shut'
    (by rw [tr]; exact congrArg (· + 1) last) (by rw [watch_eq]; exact watch)
  rw [watch_eq] at passed others
  let told := p.endWatches t (p.barriersPassed t)
  have told_tr : told.tr t = _ := State.endWatches_tr _ _
  have driven : (told.tr t).cap.seg.driven = true := by rw [told_tr, tr]; exact Segment.driven_running cond
  have stops := State.stopOrder_stops (t := t) (s := told) (d := .barrier) (k := some m.number)
    (by rw [told_tr]; exact run') (by rw [told_tr, tr]; exact state) driven
  rw [told_tr, tr] at stops
  have later := State.Stops.laterWatches (x := s.tr t) (now := s.clock) stops
  have numbers : ∀ q ∈ p.barriersPassed t, q.doubts = true → q.number = m.number := by
    rw [passed]
    intro q k doubts
    rcases List.mem_cons.mp k with rfl | k
    · rfl
    · exact (others q k doubts).1
  have doubts : (p.barriersPassed t).any (fun q => q.doubts) = decide ((s.tr t).capture.watch ≠ []) := by
    rw [passed, List.any_cons]
    cases e : l.any (fun q => q.doubts)
    · exact Bool.or_false _
    · obtain ⟨q, k, doubts⟩ := List.any_eq_true.mp e
      simp [(others q k doubts).2]
  have marks := State.endWatches_marks (s := p) (t := t) bound numbers
  rw [doubts] at marks
  refine ⟨_, exec_count_unmet bound high conf shut unopened unpassed low, ?_⟩
  rw [State.highBounds_stops run' underWay (by rw [passed, List.find?_cons_of_pos rfl]), stops.searchPassWatch]
  refine ⟨later.1, later.2.trans ((State.stopOrder_marks driven).trans (marks.trans ?_))⟩
  by_cases e : (s.tr t).capture.watch = []
  · rw [if_pos e, if_neg (by simp [e])]
    rfl
  · rw [if_neg e, if_pos (by simp [e])]
    rfl

/-! ### A search that ends (R99, R74) -/

/-- The state in which the end of a search has told of its mark: a target not retired, and still at `copied`, is doubted. -/
def State.searchTold (t : TNum) (n : Nat) (copied : Int) (retired : Bool) (s : State) : State :=
  if retired = false ∧ ∃ m, findNumber n (s.boundMarks t) = some m ∧ m.pos = copied then s.doubt t n else s

theorem State.searchTold_tr {n : Nat} {copied : Int} {b : Bool} : (s.searchTold t n copied b).tr t = s.tr t := by
  unfold State.searchTold
  split
  · exact State.tr_modBoundMarks _ _ _
  · rfl

theorem State.searchTold_retired {n : Nat} {copied : Int} : s.searchTold t n copied true = s := if_neg nofun

/-- The end of a search whose mark has no window. -/
theorem State.searchPassed_eq {n : Nat} {copied high : Int} (run : (s.tr t).running = some (o, w)) (phase : w.phase = .search) :
    s.searchPassed t { number := n, copied := copied, high := high, window := false } =
      (s.searchTold t n copied w.targetRetired).stopOrder t
        (if w.targetRetired then .markRetired else .markNotFound) none := by
  unfold State.searchPassed
  rw [run]
  dsimp only
  rw [if_neg (by simp [phase])]
  unfold State.searchTold
  cases w.targetRetired
  · cases findNumber n (s.boundMarks t) <;> simp
  · rfl

theorem State.searchTold_marks {n : Nat} {copied : Int} {m : Mark} (bound : s.boundIdx t = some i)
    (mark : findNumber n s.marks[i] = some m) :
    (s.searchTold t n copied false).marks = if m.pos = copied then
      s.marks.set i (s.marks[i].map fun k => if k.number = n then { k with state := .doubtful } else k) else s.marks := by
  unfold State.searchTold
  rw [State.boundMarks_of bound, mark]
  by_cases kept : m.pos = copied
  · rw [if_pos kept, if_pos ⟨rfl, m, rfl, kept⟩, State.doubt, State.modBoundMarks_of bound, doubt_marks]
    rfl
  · rw [if_neg kept, if_neg (by simp [kept])]

/-- A search whose range a count passes stops the order, and an unseen target still in its place is doubted. -/
theorem count_ends_search {tag : Byte} {n : Nat} {copied : Int} (bound : s.boundIdx t = some i)
    (state : (s.tr t).sequencer.state = .moving) (high : (s.tr t).cap.counter < 8388607) (conf : (s.tr t).cap.conf ≠ .lost)
    (cond : (s.tr t).cap.seg.cond = .running) (run : (s.tr t).running = some ({ tag := tag, kind := .seekMark n }, w))
    (phase : w.phase = .search) (target : w.copied = some copied)
    (last : copied + (s.tr t).capture.lag = (s.tr t).cap.counter) (bars : s.noBarriers t)
    (shut : (s.tr t).capture.windows = [])
    (unopened : ∀ m ∈ s.marks[i], m.pos - (s.tr t).capture.lead ≠ (s.tr t).cap.counter + 1)
    (unpassed : ∀ m ∈ s.marks[i], m.pos ≠ (s.tr t).cap.counter + 1) :
    ∃ r, exec (.capstanTachCount t .forward) s = .next r ∧
      (s.tr t).stopsOrder { tag := tag, kind := .seekMark n } { w with net := w.net + 1 }
        (if w.targetRetired then .markRetired else .markNotFound) none (r.tr t) ∧
      (w.targetRetired = true → r.marks = s.marks) ∧
      ∀ m, w.targetRetired = false → findNumber n s.marks[i] = some m →
        r.marks = if m.pos = copied then
          s.marks.set i (s.marks[i].map fun k => if k.number = n then { k with state := .doubtful } else k)
        else s.marks := by
  let p := s.upd t (Transport.counted .forward)
  have tr : p.tr t = (s.tr t).counted .forward := State.tr_upd_same _ _ _
  have run' : (p.tr t).running = some ({ tag := tag, kind := .seekMark n }, w) := by rw [tr]; exact run
  have unbarred : p.unbarred t := State.noBarriers.unbarred (show ∀ m ∈ s.boundMarks t, _ from bars)
  have search : (p.tr t).searchHigh =
      some { number := n, copied := copied, high := copied + (s.tr t).capture.lag, window := false } := by
    have unseen : (s.tr t).capture.windowOf n = none := by
      unfold Capture.windowOf
      rw [shut]
      rfl
    unfold Transport.searchHigh Transport.searchRange
    rw [run']
    dsimp only
    rw [target, tr]
    dsimp only [Transport.counted]
    rw [if_pos phase, unseen]
    rfl
  have below : copied + (s.tr t).capture.lag < (p.tr t).cap.counter := by
    rw [tr, last]
    exact Int.lt_succ _
  let told := p.searchTold t n copied w.targetRetired
  have told_tr : told.tr t = (s.tr t).counted .forward := State.searchTold_tr.trans tr
  have driven : (told.tr t).cap.seg.driven = true := by rw [told_tr]; exact Segment.driven_running cond
  have stops := State.stopOrder_stops (t := t) (s := told) (d := if w.targetRetired then .markRetired else .markNotFound)
    (k := none) (by rw [told_tr]; exact run) (by rw [told_tr]; exact state) driven
  rw [told_tr] at stops
  have later := State.Stops.laterWatches (x := s.tr t) (now := s.clock) stops
  have marks := later.2.trans (State.stopOrder_marks driven)
  refine ⟨_, exec_count_unmet bound high conf shut unopened unpassed unbarred.lowBounds, ?_⟩
  rw [unbarred.barriersPassed, State.highBounds_nil, search]
  unfold State.searchPassWatch
  dsimp only
  rw [if_pos below, State.searchPassed_eq run' phase]
  refine ⟨later.1, fun retired => marks.trans ?_, fun m kept mark => marks.trans ?_⟩
  · dsimp only [told]
    rw [retired, State.searchTold_retired]
    rfl
  · dsimp only [told]
    rw [kept]
    exact State.searchTold_marks (s := p) bound mark

end

/-- Settles O21: what a count does to the counter whatever the transport carries, and what it does at the bounds of windows,
barriers and searches. -/
theorem countsMoveTheCounter : Obligations.CountsMoveTheCounter := by
  refine ⟨tachCount_moves, fun t s i => ?_⟩
  intro x here g marks bound state high conf cond dir unpassed unopened doubted other
  refine ⟨fun bars speed shut => ?_, fun v m bars unpassed window last mark => ?_,
    fun o w m run first shut phase => ⟨fun speed low => ?_, fun speed last unopened unpassed watch => ?_⟩,
    fun tag n w c run phase copied last bars shut unopened unpassed => ?_⟩
  · obtain ⟨r, ran, windows⟩ := count_opens bound state high conf cond bars.1 (Transport.noSearch_else bars.2) shut
    refine ⟨r, ran, windows.trans ?_⟩
    exact State.opened_countedOn bound state conf (Segment.readingForward_running cond dir speed) shut
  · exact count_closes bound state high conf cond bars.1 (Transport.noSearch_else bars.2) unpassed window last mark
  · exact count_stops_at_low bound state high conf cond dir run first shut phase speed low
  · exact count_stops_at_high bound state high conf cond dir run first shut phase speed last unopened unpassed watch
  · exact count_ends_search bound state high conf cond run phase copied last bars shut unopened unpassed

end Sys2Proof.Machine
end

