-- ==== Sys2Proof/Proofs/Gaps.lean ====
section
/-! PROOF. What a gap start makes of the last-gap position, the windows and the running order. -/

namespace Sys2Proof.Machine

open Sys2Proof

/-- A change of transport `t` alone leaves everything outside it. -/
theorem State.sameOutside_upd (t : TNum) (f : Transport → Transport) (s : State) : s.sameOutside t (s.upd t f) :=
  ⟨rfl, rfl, rfl, rfl, rfl, rfl, rfl, rfl, rfl, rfl, fun _ h => State.tr_upd_other _ _ _ _ h⟩

section
variable {t : TNum} {s r : State} {o : Order} {w : Work} {d : Dir} {p : Int}

theorem State.Underway.sameOutside (h : s.Underway t r) : s.sameOutside t r := by
  rw [h.1]
  exact State.sameOutside_upd _ _ _

theorem State.Underway.sameOutside_upd {f : Transport → Transport} (h : (s.upd t f).Underway t r) : s.sameOutside t r := by
  rw [h.1, State.upd_upd]
  exact State.sameOutside_upd _ _ _

/-! ### The running order at a gap start (R91 to R94, R99) -/

/-- The working values of the running order after a gap start, a stop aside (R92). -/
def Work.gapped (d : Dir) (o : Order) (w : Work) : Work := if w.counts d o.kind then w.countGap else w

/-- The state in which the running order has taken a gap start and not yet stopped. -/
def State.gapCounted (t : TNum) (d : Dir) (o : Order) (w : Work) (s : State) : State :=
  s.upd t fun x => x.modWork fun _ _ => w.gapped d o

theorem State.gapCounted_running (run : (s.tr t).running = some (o, w)) :
    ((s.gapCounted t d o w).tr t).running = some (o, w.gapped d o) := by
  rw [State.gapCounted, State.tr_upd_same, Transport.modWork_running, run]
  rfl

theorem State.gapOrders_idle {b : Option Nat} (run : (s.tr t).running = none) : s.gapOrders t d p b = s := by
  unfold State.gapOrders
  rw [run]

theorem State.gapOrders_search {b : Option Nat} {c : Completion} (run : (s.tr t).running = some (o, w))
    (verdict : (s.tr t).gapVerdict d p o.kind (w.gapped d o) = .searchStop c) :
    s.gapOrders t d p b = (s.gapCounted t d o w).stopOrder t c none := by
  unfold State.gapOrders
  rw [run]
  unfold Work.gapped at verdict
  simp only [verdict]
  rfl

theorem State.gapOrders_stop {c : Completion} (run : (s.tr t).running = some (o, w))
    (verdict : (s.tr t).gapVerdict d p o.kind (w.gapped d o) = .stop c) :
    s.gapOrders t d p none = (s.gapCounted t d o w).stopOrder t c none := by
  unfold State.gapOrders
  rw [run]
  unfold Work.gapped at verdict
  simp only [verdict]
  rfl

theorem State.gapOrders_nothing (run : (s.tr t).running = some (o, w))
    (verdict : (s.tr t).gapVerdict d p o.kind (w.gapped d o) = .nothing) :
    s.gapOrders t d p none = s.gapCounted t d o w := by
  unfold State.gapOrders
  rw [run]
  unfold Work.gapped at verdict
  simp only [verdict]
  rfl

theorem State.gapOrders_barrier {n : Nat} (run : (s.tr t).running = some (o, w))
    (verdict : ∀ c, (s.tr t).gapVerdict d p o.kind (w.gapped d o) ≠ .searchStop c) :
    s.gapOrders t d p (some n) = (s.gapCounted t d o w).barrierStop t n := by
  unfold State.gapOrders
  rw [run]
  unfold Work.gapped at verdict
  cases e : (s.tr t).gapVerdict d p o.kind (if w.counts d o.kind then w.countGap else w) with
  | searchStop c => exact absurd e (verdict c)
  | stop c => simp only [e]; rfl
  | nothing => simp only [e]; rfl

theorem State.Underway.barrierStop (n : Nat) (h : s.Underway t r) : s.Underway t (r.barrierStop t n) := by
  unfold State.barrierStop
  repeat' split
  all_goals first | exact h.stopOrder _ _ | exact h

theorem State.Underway.gapOrders (b : Option Nat) (h : s.Underway t r) : s.Underway t (r.gapOrders t d p b) := by
  unfold State.gapOrders
  split
  · exact h
  · dsimp only
    split
    · exact (h.work _).stopOrder _ _
    · exact (h.work _).barrierStop _
    · exact (h.work _).stopOrder _ _
    · exact h.work _

/-- The kind and the count of a SPACE order of direction `d`. -/
def OrderKind.spaces (n : Nat) (d : Dir) (kind : OrderKind) : Prop :=
  (kind = .spaceF n ∧ d = .forward) ∨ (kind = .spaceR n ∧ d = .reverse)

theorem Work.gapped_space {n : Nat} (space : o.kind.spaces n d) (phase : w.phase = .readLeg ∨ w.phase = .haltSearch) :
    w.gapped d o = w.countGap := by
  refine if_pos ?_
  unfold Work.counts
  rcases space with ⟨kind, rfl⟩ | ⟨kind, rfl⟩ <;> rw [kind] <;> rcases phase with e | e <;> rw [e] <;> rfl

/-- What a gap start makes of a SPACE order that counts it. -/
theorem Transport.gapVerdict_space {n : Nat} {x : Transport} (space : o.kind.spaces n d)
    (phase : w.phase = .readLeg ∨ w.phase = .haltSearch) :
    x.gapVerdict d p o.kind w.countGap =
      if d = .forward ∧ x.cap.eotPos.isSome = true then .stop .endOfTape
      else if w.count + 1 = n then .stop .complete
      else if w.phase = .haltSearch then .stop .halted
      else .nothing := by
  have counts : w.countGap.counts d o.kind = true := by
    unfold Work.counts Work.countGap
    rcases space with ⟨kind, rfl⟩ | ⟨kind, rfl⟩ <;> rw [kind] <;> rcases phase with e | e <;> rw [e] <;> rfl
  unfold Transport.gapVerdict
  rcases space with ⟨kind, rfl⟩ | ⟨kind, rfl⟩ <;> rw [kind] at counts ⊢ <;> dsimp only <;> rw [if_pos counts]
  · simp only [true_and]
    rfl
  · simp only [reduceCtorEq, false_and, if_false]
    rfl

/-- Only a search stops at a gap start as one. -/
theorem Transport.search_of_gapVerdict {x : Transport} {kind : OrderKind} {c : Completion}
    (h : x.gapVerdict d p kind w = .searchStop c) : w.phase = .search := by
  unfold Transport.gapVerdict at h
  cases kind with
  | seekMark n =>
    dsimp only at h
    split at h
    · split at h
      · rename_i k
        exact k.1
      · cases h
    · cases h
  | spaceF n =>
    dsimp only at h
    (repeat' split at h) <;> cases h
  | spaceR n =>
    dsimp only at h
    (repeat' split at h) <;> cases h
  | _ => cases h

/-- The stop of the order that has taken a gap start. -/
theorem State.gapCounted_stops {c : Completion} {b : Option Nat} (run : (s.tr t).running = some (o, w))
    (state : (s.tr t).sequencer.state = .moving) (driven : (s.tr t).cap.seg.driven = true) :
    ((s.gapCounted t d o w).stopOrder t c b).Stops t (s.tr t).cap.seg o (w.gapped d o) c b := by
  have tr : (s.gapCounted t d o w).tr t = (s.tr t).modWork fun _ _ => w.gapped d o := State.tr_upd_same _ _ _
  have h := State.stopOrder_stops (d := c) (k := b) (State.gapCounted_running run) (by rw [tr]; exact state)
    (by rw [tr]; exact driven)
  rw [tr] at h
  exact h

theorem State.Stops.stopsOrder {x : Transport} {c : Completion} {b : Option Nat} (h : s.Stops t x.cap.seg o w c b) :
    x.stopsOrder o w c b (s.tr t) := ⟨h.seg, h.running⟩

/-- A SPACE order at a gap start of its direction, where no barrier stops it (R92 to R94, R101, R102); `x` is the transport
before the gap start, with the same motion. -/
theorem State.gapOrders_space {n : Nat} {x : Transport} (seg : (s.tr t).cap.seg = x.cap.seg)
    (eot : (s.tr t).cap.eotPos = x.cap.eotPos) (run : (s.tr t).running = some (o, w)) (space : o.kind.spaces n d)
    (phase : w.phase = .readLeg ∨ w.phase = .haltSearch) (state : (s.tr t).sequencer.state = .moving)
    (driven : x.cap.seg.driven = true) :
    let r := s.gapOrders t d p none
    let tape := d = .forward ∧ x.cap.eotPos.isSome = true
    let stops := fun reason : Completion => x.stopsOrder o w.countGap reason none (r.tr t)
    s.Underway t r ∧ (tape → stops .endOfTape) ∧ (¬ tape → w.count + 1 = n → stops .complete) ∧
      (¬ tape → w.count + 1 ≠ n → w.phase = .haltSearch → stops .halted) ∧
      (¬ tape → w.count + 1 ≠ n → w.phase = .readLeg →
        (r.tr t).running = some (o, w.countGap) ∧ (r.tr t).cap.seg = x.cap.seg) := by
  rw [← seg] at driven
  have gapped := Work.gapped_space space phase
  have verdict := Transport.gapVerdict_space (x := s.tr t) (p := p) space phase
  rw [eot] at verdict
  have stops : ∀ c, (s.tr t).gapVerdict d p o.kind w.countGap = .stop c →
      x.stopsOrder o w.countGap c none ((s.gapOrders t d p none).tr t) := fun c e => by
    rw [State.gapOrders_stop run (by rw [gapped]; exact e), ← gapped]
    have h := State.gapCounted_stops (d := d) (c := c) (b := none) run state driven
    rw [seg] at h
    exact h.stopsOrder
  refine ⟨(State.Underway.refl driven).gapOrders none, fun tape => ?_, fun tape count => ?_, fun tape count halt => ?_,
    fun tape count leg => ?_⟩
  · exact stops _ (by rw [verdict, if_pos tape])
  · exact stops _ (by rw [verdict, if_neg tape, if_pos count])
  · exact stops _ (by rw [verdict, if_neg tape, if_neg count, if_pos halt])
  · rw [State.gapOrders_nothing run (by rw [gapped, verdict, if_neg tape, if_neg count, if_neg (by rw [leg]; nofun)]),
      State.gapCounted_running run, gapped, State.gapCounted, State.tr_upd_same]
    exact ⟨rfl, seg⟩

/-! ### The capture unit at a gap start (R65, R77) -/

/-- The windows of a transport after a forward gap start at `p`. -/
def offeredWindows (marks : List Mark) (p : Int) (l : List Window) : List Window :=
  l.map fun w =>
    match findNumber w.number marks with
    | some m => w.offer p m.pos
    | none => w

/-- A transport that has seen a forward gap start at `p`. -/
def Transport.sawGap (p : Int) (windows : List Window) (watch : List BarrierWatch) (x : Transport) : Transport :=
  { x with
    cap := { x.cap with lastGap := some p }
    capture := { x.capture with windows := windows, watch := watch } }

/-- A forward gap start sets the last-gap position, offers its position to the windows, and is judged by the order. -/
theorem State.gapEvent_forward (t : TNum) (p : Int) (s : State) :
    ∃ watch, s.gapEvent t .forward p =
      let judged := (s.upd t (Transport.sawGap p (offeredWindows (s.boundMarks t) p (s.tr t).capture.windows)
        watch)).gapOrders t .forward p (s.barrierAtGap t p)
      (s.barrierAtGap t p).elim judged fun n => judged.fixBarrier t n p := by
  let seen := ((s.upd t fun x => { x with cap := { x.cap with lastGap := some p } }).offerGap t p).noteGapSeen t p
  refine ⟨(seen.tr t).capture.watch, ?_⟩
  have same : seen = s.upd t (Transport.sawGap p (offeredWindows (s.boundMarks t) p (s.tr t).capture.windows)
      (seen.tr t).capture.watch) := by
    dsimp only [seen]
    unfold State.noteGapSeen State.offerGap
    dsimp only
    simp only [State.upd_upd, State.tr_upd_same]
    exact State.upd_congr rfl
  unfold State.gapEvent
  dsimp only
  rw [← same]
  cases s.barrierAtGap t p <;> rfl

theorem State.unbarred.barrierAtGap (h : s.unbarred t) : s.barrierAtGap t p = none := by
  unfold State.barrierAtGap
  dsimp only
  rw [List.find?_eq_none.mpr fun m k => by simp [h m k]]
  rfl

theorem State.gapEvent_unbarred (h : s.unbarred t) :
    ∃ watch, s.gapEvent t .forward p =
      (s.upd t (Transport.sawGap p (offeredWindows (s.boundMarks t) p (s.tr t).capture.windows)
        watch)).gapOrders t .forward p none := by
  obtain ⟨watch, e⟩ := State.gapEvent_forward t p s
  rw [h.barrierAtGap] at e
  exact ⟨watch, e⟩

/-! ### The expiry of the filter at a gap start -/

theorem exec_gapExpiry (state : (s.tr t).sequencer.state = .moving) (level : (s.tr t).cap.filter.level = .block)
    (raw : (s.tr t).cap.filter.raw = .gap) (timed : (s.tr t).cap.filter.since.isSome = true)
    (ready : (s.tr t).cap.seg.gapReady = true) :
    exec (.gapFilterExpiry t) s = .next
      ((s.upd t (Transport.withFilter { (s.tr t).cap.filter with level := .gap, since := none })).gapEvent t
        (s.tr t).cap.lastDir (s.tr t).cap.counter) := by
  have expired : (s.tr t).cap.filter.expire = { (s.tr t).cap.filter with level := .gap, since := none } := by
    rw [GapFilter.expire_timed timed]
    exact congrArg (fun l => { (s.tr t).cap.filter with level := l, since := none }) raw
  have tr : (s.upd t (Transport.withFilter { (s.tr t).cap.filter with level := .gap, since := none })).tr t =
    (s.tr t).withFilter { (s.tr t).cap.filter with level := .gap, since := none } := State.tr_upd_same _ _ _
  refine congrArg Host.Outcome.next ?_
  rw [State.filter_eq, expired]
  dsimp only
  rw [if_pos ⟨level, rfl⟩, State.gapStart, tr]
  exact if_pos ⟨state, ready⟩

/-- A gap start taken on a transport whose capstan runs at READ speed. -/
structure Transport.GapDue (x : Transport) : Prop where
  state : x.sequencer.state = .moving
  level : x.cap.filter.level = .block
  raw : x.cap.filter.raw = .gap
  timed : x.cap.filter.since.isSome = true
  cond : x.cap.seg.cond = .running
  speed : x.cap.seg.speed = some .read
  dir : x.cap.seg.dir = some x.cap.lastDir

theorem Transport.GapDue.driven {x : Transport} (h : x.GapDue) : x.cap.seg.driven = true := Segment.driven_running h.cond

theorem Transport.GapDue.gapReady {x : Transport} (h : x.GapDue) : x.cap.seg.gapReady = true := by
  simp [Segment.gapReady, h.cond, h.speed]

/-- The transport as the running order finds it at a gap start at `p`. -/
def Transport.atGap (marks : List Mark) (p : Int) (watch : List BarrierWatch) (x : Transport) : Transport :=
  (x.withFilter { x.cap.filter with level := .gap, since := none }).sawGap p
    (offeredWindows marks p x.capture.windows) watch

/-- A gap start in reverse is judged by the running order alone. -/
theorem gapExpiry_reverse (due : (s.tr t).GapDue) (dir : (s.tr t).cap.lastDir = .reverse) :
    exec (.gapFilterExpiry t) s = .next
      ((s.upd t (Transport.withFilter { (s.tr t).cap.filter with level := .gap, since := none })).gapOrders t .reverse
        (s.tr t).cap.counter none) := by
  rw [exec_gapExpiry due.state due.level due.raw due.timed due.gapReady, dir]
  rfl

/-- A forward gap start that no barrier meets. -/
theorem gapExpiry_forward (due : (s.tr t).GapDue) (dir : (s.tr t).cap.lastDir = .forward) (bars : s.noBarriers t) :
    ∃ watch, exec (.gapFilterExpiry t) s = .next
      ((s.upd t (Transport.atGap (s.boundMarks t) (s.tr t).cap.counter watch)).gapOrders t .forward
        (s.tr t).cap.counter none) := by
  let q := s.upd t (Transport.withFilter { (s.tr t).cap.filter with level := .gap, since := none })
  have unbarred : q.unbarred t := State.noBarriers.unbarred (show ∀ m ∈ s.boundMarks t, _ from bars)
  have tr : q.tr t = (s.tr t).withFilter { (s.tr t).cap.filter with level := .gap, since := none } := State.tr_upd_same _ _ _
  obtain ⟨watch, e⟩ := State.gapEvent_unbarred (p := (s.tr t).cap.counter) unbarred
  refine ⟨watch, ?_⟩
  rw [exec_gapExpiry due.state due.level due.raw due.timed due.gapReady, dir]
  refine congrArg Host.Outcome.next (e.trans ?_)
  rw [tr, State.upd_upd]
  exact congrArg (State.gapOrders t _ _ _) (State.upd_congr rfl)

/-- A gap start that the range of a barrier holds. -/
theorem gapExpiry_barrier {m : Mark} (due : (s.tr t).GapDue) (dir : (s.tr t).cap.lastDir = .forward)
    (here : s.barrierAtGap t (s.tr t).cap.counter = some m.number) :
    ∃ watch, exec (.gapFilterExpiry t) s = .next
      (((s.upd t (Transport.atGap (s.boundMarks t) (s.tr t).cap.counter watch)).gapOrders t .forward
        (s.tr t).cap.counter (some m.number)).fixBarrier t m.number (s.tr t).cap.counter) := by
  let q := s.upd t (Transport.withFilter { (s.tr t).cap.filter with level := .gap, since := none })
  have tr : q.tr t = (s.tr t).withFilter { (s.tr t).cap.filter with level := .gap, since := none } := State.tr_upd_same _ _ _
  have here' : q.barrierAtGap t (s.tr t).cap.counter = some m.number := by
    rw [← here]
    unfold State.barrierAtGap
    rw [tr]
    rfl
  obtain ⟨watch, e⟩ := State.gapEvent_forward t (s.tr t).cap.counter q
  refine ⟨watch, ?_⟩
  rw [exec_gapExpiry due.state due.level due.raw due.timed due.gapReady, dir]
  rw [here'] at e
  refine congrArg Host.Outcome.next (e.trans ?_)
  dsimp only
  rw [tr, State.upd_upd]
  exact congrArg (fun k => State.fixBarrier t _ _ (State.gapOrders t _ _ _ k)) (State.upd_congr rfl)

/-! ### A SPACE order (R92 to R94, R101, R102) -/

/-- What a gap start makes of a SPACE order that it finds under way. -/
theorem gapExpiry_space {n : Nat} (due : (s.tr t).GapDue) (run : (s.tr t).running = some (o, w))
    (phase : w.phase = .readLeg ∨ w.phase = .haltSearch)
    (space : (o.kind = .spaceF n ∧ (s.tr t).cap.lastDir = .forward ∧ s.noBarriers t) ∨
      (o.kind = .spaceR n ∧ (s.tr t).cap.lastDir = .reverse)) :
    let x := s.tr t
    let counted := { w with count := w.count + 1, blank := 0 }
    let tape := x.cap.lastDir = .forward ∧ x.cap.eotPos.isSome = true
    let stops := fun (reason : Completion) (r : State) => x.stopsOrder o counted reason none (r.tr t)
    ∃ r, exec (.gapFilterExpiry t) s = .next r ∧ s.sameOutside t r ∧ (r.tr t).cap.counter = x.cap.counter ∧
      (r.tr t).cap.lastGap = (if x.cap.lastDir = .forward then some x.cap.counter else x.cap.lastGap) ∧
      (tape → stops .endOfTape r) ∧ (¬ tape → w.count + 1 = n → stops .complete r) ∧
      (¬ tape → w.count + 1 ≠ n → w.phase = .haltSearch → stops .halted r) ∧
      (¬ tape → w.count + 1 ≠ n → w.phase = .readLeg →
        (r.tr t).running = some (o, counted) ∧ (r.tr t).cap.seg = x.cap.seg) := by
  rcases space with ⟨kind, dir, bars⟩ | ⟨kind, dir⟩
  · obtain ⟨watch, ran⟩ := gapExpiry_forward due dir bars
    rw [← dir] at ran
    have tr : (s.upd t (Transport.atGap (s.boundMarks t) (s.tr t).cap.counter watch)).tr t =
      (s.tr t).atGap (s.boundMarks t) (s.tr t).cap.counter watch := State.tr_upd_same _ _ _
    obtain ⟨k, verdict⟩ := State.gapOrders_space (x := s.tr t) (d := (s.tr t).cap.lastDir) (n := n) (p := (s.tr t).cap.counter)
      (congrArg (fun y => y.cap.seg) tr) (congrArg (fun y => y.cap.eotPos) tr)
      ((congrArg Transport.running tr).trans run) (.inl ⟨kind, dir⟩) phase
      ((congrArg (fun y => y.sequencer.state) tr).trans due.state) due.driven
    have kept := k.2
    rw [tr] at kept
    exact ⟨_, ran, k.sameOutside_upd, kept.counter, kept.lastGap.trans (if_pos dir).symm, verdict⟩
  · have tr : (s.upd t (Transport.withFilter { (s.tr t).cap.filter with level := .gap, since := none })).tr t =
      (s.tr t).withFilter { (s.tr t).cap.filter with level := .gap, since := none } := State.tr_upd_same _ _ _
    obtain ⟨k, verdict⟩ := State.gapOrders_space (x := s.tr t) (d := (s.tr t).cap.lastDir) (n := n) (p := (s.tr t).cap.counter)
      (congrArg (fun y => y.cap.seg) tr) (congrArg (fun y => y.cap.eotPos) tr)
      ((congrArg Transport.running tr).trans run) (.inr ⟨kind, dir⟩) phase
      ((congrArg (fun y => y.sequencer.state) tr).trans due.state) due.driven
    have kept := k.2
    rw [tr] at kept
    have ran := gapExpiry_reverse due dir
    rw [← dir] at ran
    exact ⟨_, ran, k.sameOutside_upd, kept.counter,
      kept.lastGap.trans (if_neg (by rw [dir]; nofun)).symm, verdict⟩

/-! ### Windows, barriers and searches at a gap start (R65, R72, R77, R99) -/

/-- Every window takes the gap start that it is offered (R65, R72). -/
theorem gapExpiry_windows (due : (s.tr t).GapDue) (dir : (s.tr t).cap.lastDir = .forward) (bars : s.noBarriers t) :
    ∃ r, exec (.gapFilterExpiry t) s = .next r ∧
      (r.tr t).capture.windows = offeredWindows (s.boundMarks t) (s.tr t).cap.counter (s.tr t).capture.windows := by
  obtain ⟨watch, ran⟩ := gapExpiry_forward due dir bars
  have tr : (s.upd t (Transport.atGap (s.boundMarks t) (s.tr t).cap.counter watch)).tr t =
    (s.tr t).atGap (s.boundMarks t) (s.tr t).cap.counter watch := State.tr_upd_same _ _ _
  have k := (State.Underway.refl ((congrArg (fun y => y.cap.seg.driven) tr).trans due.driven)).gapOrders
    (d := .forward) (p := (s.tr t).cap.counter) none
  refine ⟨_, ran, ?_⟩
  rw [k.2.capture, tr]
  rfl

theorem Window.offer_eq (p pos : Int) (v : Window) :
    v.offer p pos =
      if v.low ≤ p ∧ p ≤ v.high ∧ v.fixed = false then
        if v.role = .target then { v with candidate := some p, fixed := true }
        else
          match v.candidate with
          | some k => if (p - pos).natAbs < (k - pos).natAbs then { v with candidate := some p } else v
          | none => { v with candidate := some p }
      else v := by
  rcases v with ⟨n, low, high, role, candidate, fixed⟩
  cases fixed <;> cases candidate <;> simp [Window.offer]

/-- A window after a gap start in its range: it is as it was but for its candidate. -/
theorem Window.offer_cases (p pos : Int) (v : Window) :
    v.offer p pos = v ∨ (∃ fixed, v.offer p pos = { v with candidate := some p, fixed := fixed }) := by
  rw [Window.offer_eq]
  repeat' split
  all_goals first | exact .inl rfl | exact .inr ⟨_, rfl⟩

/-- What an offer leaves of a window: its mark, its bounds and its role. -/
theorem offered_cases (marks : List Mark) (p : Int) (v : Window) :
    let f := (fun w : Window => match findNumber w.number marks with
      | some m => w.offer p m.pos
      | none => w)
    f v = v ∨ ∃ fixed, f v = { v with candidate := some p, fixed := fixed } := by
  dsimp only
  split
  · exact Window.offer_cases _ _ _
  · exact .inl rfl

theorem find_map_number {f : Window → Window} (same : ∀ v, (f v).number = v.number) (n : Nat) (l : List Window) :
    (l.map f).find? (fun v => v.number == n) = (l.find? fun v => v.number == n).map f := by
  rw [List.find?_map]
  exact congrArg (Option.map f) (congrArg (List.find? · l) (funext fun v => by simp [same]))

theorem offeredWindows_find (marks : List Mark) (p : Int) (n : Nat) (l : List Window) {v : Window}
    (h : l.find? (fun v => v.number == n) = some v) :
    ∃ u, (offeredWindows marks p l).find? (fun v => v.number == n) = some u ∧
      (u = v ∨ ∃ fixed, u = { v with candidate := some p, fixed := fixed }) := by
  refine ⟨_, ?_, offered_cases marks p v⟩
  unfold offeredWindows
  rw [find_map_number fun v => by rcases offered_cases marks p v with e | ⟨_, e⟩ <;> exact (congrArg Window.number e).trans rfl, h]
  rfl

/-- A barrier whose range holds a forward gap start stops the order, and its window is fixed there. -/
theorem gapExpiry_stops {m : Mark} {low high : Int} (due : (s.tr t).GapDue) (dir : (s.tr t).cap.lastDir = .forward)
    (run : (s.tr t).running = some (o, w)) (phase : w.phase = .readLeg) (first : s.firstBarrier t o w m)
    (bounds : (s.tr t).boundsOf m low high) (least : low ≤ (s.tr t).cap.counter) (most : (s.tr t).cap.counter ≤ high) :
    ∃ r, exec (.gapFilterExpiry t) s = .next r ∧ s.sameOutside t r ∧
      (s.tr t).stopsOrder o (w.gapped .forward o) .barrier (some m.number) (r.tr t) ∧
      ∀ v, (s.tr t).capture.windowOf m.number = some v → v.fixed = false →
        (r.tr t).capture.windowOf m.number =
          some { v with role := .barrier, candidate := some (s.tr t).cap.counter, fixed := true } := by
  have range : ((s.tr t).rangeOf m).1 = low ∧ ((s.tr t).rangeOf m).2 = high := by
    unfold Transport.boundsOf at bounds
    unfold Transport.rangeOf
    cases e : (s.tr t).capture.windowOf m.number <;> rw [e] at bounds <;> exact ⟨bounds.1.symm, bounds.2.symm⟩
  have applies := first.applies run (by rw [phase]; nofun) due.cond (due.dir.trans (congrArg some dir))
  have here : s.barrierAtGap t (s.tr t).cap.counter = some m.number := by
    unfold State.barrierAtGap
    dsimp only
    rw [first.find (fun k point => by rw [Transport.applies_point point]; rfl) (by
      rw [applies, range.1, range.2]
      simp [least, most])]
    rfl
  obtain ⟨watch, ran⟩ := gapExpiry_barrier due dir here
  let q := s.upd t (Transport.atGap (s.boundMarks t) (s.tr t).cap.counter watch)
  have tr : q.tr t = (s.tr t).atGap (s.boundMarks t) (s.tr t).cap.counter watch := State.tr_upd_same _ _ _
  have run' : (q.tr t).running = some (o, w) := (congrArg Transport.running tr).trans run
  have driven : (q.tr t).cap.seg.driven = true := (congrArg (fun y => y.cap.seg.driven) tr).trans due.driven
  have state : (q.tr t).sequencer.state = .moving := (congrArg (fun y => y.sequencer.state) tr).trans due.state
  have gapped : (w.gapped .forward o).phase = .readLeg := by
    unfold Work.gapped
    split <;> exact phase
  have judged : q.gapOrders t .forward (s.tr t).cap.counter (some m.number) =
      (q.gapCounted t .forward o w).stopOrder t .barrier (some m.number) := by
    rw [State.gapOrders_barrier run' fun c e => ?_]
    · unfold State.barrierStop
      rw [State.gapCounted_running run']
      exact if_pos (by rw [gapped]; rfl)
    · exact absurd (gapped.symm.trans (Transport.search_of_gapVerdict e)) nofun
  have stops := State.gapCounted_stops (d := .forward) (c := .barrier) (b := some m.number) run' state driven
  have k := (State.Underway.refl driven).gapOrders (d := .forward) (p := (s.tr t).cap.counter) (some m.number)
  rw [judged] at ran k
  have seg : (q.tr t).cap.seg = (s.tr t).cap.seg := congrArg (fun y => y.cap.seg) tr
  rw [seg] at stops
  refine ⟨_, ran, ?_, ?_, fun v window loose => ?_⟩
  · rw [State.fixBarrier, k.1, State.upd_upd, State.upd_upd]
    exact State.sameOutside_upd _ _ _
  · exact (stops.upd _ rfl rfl rfl).stopsOrder
  · obtain ⟨u, found, cases⟩ := offeredWindows_find (s.boundMarks t) (s.tr t).cap.counter m.number _ window
    have windows : (((q.gapCounted t .forward o w).stopOrder t .barrier (some m.number)).tr t).capture.windows =
        offeredWindows (s.boundMarks t) (s.tr t).cap.counter (s.tr t).capture.windows := by
      rw [k.2.capture, tr]
      rfl
    have number : u.number = m.number := by simpa using List.find?_some found
    rw [State.fixBarrier, State.tr_upd_same]
    unfold Capture.windowOf Transport.modCapture Capture.modWindow
    dsimp only
    rw [windows, find_map_number fun v => ?_, found]
    · rw [Option.map_some, if_pos (by simp [number])]
      unfold Window.fixAt
      rcases cases with rfl | ⟨fixed, rfl⟩
      · simp [loose]
      · simp
    · split
      · unfold Window.fixAt
        split <;> rfl
      · rfl

/-- A search takes the gap start in its range for its target's (R99). -/
theorem gapExpiry_finds {tag : Byte} {n : Nat} {c low high : Int} (due : (s.tr t).GapDue)
    (dir : (s.tr t).cap.lastDir = .forward) (run : (s.tr t).running = some ({ tag := tag, kind := .seekMark n }, w))
    (phase : w.phase = .search) (copied : w.copied = some c) (bars : s.noBarriers t)
    (range : (∃ v, (s.tr t).capture.windowOf n = some v ∧ v.role = .target ∧ low = v.low ∧ high = v.high) ∨
      ((∀ v, (s.tr t).capture.windowOf n = some v → v.role ≠ .target) ∧ low = c - (s.tr t).capture.lead ∧
        high = c + (s.tr t).capture.lag))
    (least : low ≤ (s.tr t).cap.counter) (most : (s.tr t).cap.counter ≤ high) :
    ∃ r, exec (.gapFilterExpiry t) s = .next r ∧ s.sameOutside t r ∧
      (s.tr t).stopsOrder { tag := tag, kind := .seekMark n } w (if w.targetRetired then .markRetired else .complete) none
        (r.tr t) := by
  obtain ⟨watch, ran⟩ := gapExpiry_forward due dir bars
  let q := s.upd t (Transport.atGap (s.boundMarks t) (s.tr t).cap.counter watch)
  have tr : q.tr t = (s.tr t).atGap (s.boundMarks t) (s.tr t).cap.counter watch := State.tr_upd_same _ _ _
  have run' : (q.tr t).running = some ({ tag := tag, kind := .seekMark n }, w) := (congrArg Transport.running tr).trans run
  have driven : (q.tr t).cap.seg.driven = true := (congrArg (fun y => y.cap.seg.driven) tr).trans due.driven
  have state : (q.tr t).sequencer.state = .moving := (congrArg (fun y => y.sequencer.state) tr).trans due.state
  have searched : (q.tr t).searchRange n c = (low, high) := by
    have windowOf : (q.tr t).capture.windowOf n = (offeredWindows (s.boundMarks t) (s.tr t).cap.counter
        (s.tr t).capture.windows).find? fun v => v.number == n := by
      rw [tr]
      rfl
    have bounds : (q.tr t).capture.lead = (s.tr t).capture.lead ∧ (q.tr t).capture.lag = (s.tr t).capture.lag := by
      rw [tr]
      exact ⟨rfl, rfl⟩
    unfold Transport.searchRange
    rw [windowOf, bounds.1, bounds.2]
    cases e : (s.tr t).capture.windowOf n with
    | none =>
      have none : (offeredWindows (s.boundMarks t) (s.tr t).cap.counter (s.tr t).capture.windows).find?
          (fun v => v.number == n) = none := by
        unfold offeredWindows
        rw [find_map_number fun v => by
          rcases offered_cases (s.boundMarks t) (s.tr t).cap.counter v with e | ⟨_, e⟩ <;>
            exact (congrArg Window.number e).trans rfl]
        rw [show List.find? _ _ = none from e]
        rfl
      rw [none]
      rcases range with ⟨v, h, _⟩ | ⟨_, rfl, rfl⟩
      · rw [e] at h
        cases h
      · rfl
    | some v =>
      obtain ⟨u, found, cases⟩ := offeredWindows_find (s.boundMarks t) (s.tr t).cap.counter n _ e
      have same : u.role = v.role ∧ u.low = v.low ∧ u.high = v.high := by
        rcases cases with rfl | ⟨fixed, rfl⟩ <;> exact ⟨rfl, rfl, rfl⟩
      rw [found]
      dsimp only
      rw [same.1, same.2.1, same.2.2]
      rcases range with ⟨k, h, role, rfl, rfl⟩ | ⟨other, rfl, rfl⟩
      · rw [e] at h
        cases h
        exact if_pos role
      · exact if_neg (other v e)
  have verdict : (q.tr t).gapVerdict .forward (s.tr t).cap.counter (.seekMark n) w = .searchStop w.arrival := by
    unfold Transport.gapVerdict
    dsimp only
    rw [copied]
    dsimp only
    rw [searched]
    exact if_pos ⟨phase, rfl, least, most⟩
  have stops := State.gapCounted_stops (d := .forward) (c := w.arrival) (b := none) run' state driven
  have judged := State.gapOrders_search (b := none) run' verdict
  have k := (State.Underway.refl driven).gapOrders (d := .forward) (p := (s.tr t).cap.counter) none
  rw [← judged, congrArg (fun y => y.cap.seg) tr] at stops
  exact ⟨_, ran, k.sameOutside_upd, stops.stopsOrder⟩

end

/-- Settles O26. -/
theorem spaceForwardCountsGapStarts : Obligations.SpaceForwardCountsGapStarts := by
  refine ⟨fun t s tag n w => ?_, fun t s => ?_⟩
  · intro o c state level raw timed cond speed dir lastDir eot unbound run phase
    have due : (s.tr t).GapDue := ⟨state, level, raw, timed, cond, speed, dir.trans (congrArg some lastDir.symm)⟩
    have bars : s.noBarriers t := by
      intro m k
      rw [State.boundMarks_unbound unbound] at k
      cases k
    have tape : ¬((s.tr t).cap.lastDir = .forward ∧ (s.tr t).cap.eotPos.isSome = true) := by
      rw [eot]
      nofun
    obtain ⟨r, ran, outside, counter, lastGap, -, complete, -, goesOn⟩ :=
      gapExpiry_space due run (.inl phase) (.inl ⟨rfl, lastDir, bars⟩)
    have filtered : (r.tr t).cap.filter.level = .gap := by
      have e := State.filter_filter t GapFilter.expire s
      rw [show s.filter t GapFilter.expire = r from Host.Outcome.next.inj ran, GapFilter.expire_timed timed, raw] at e
      rw [e]
    refine ⟨r, ran, outside, lastGap.trans (if_pos lastDir), counter, filtered, fun count => goesOn tape count phase,
      fun count => ?_⟩
    obtain ⟨seg, stops⟩ := complete tape count
    exact ⟨count ▸ stops, seg⟩
  · intro x p state level raw timed cond speed dir
    have due : (s.tr t).GapDue := ⟨state, level, raw, timed, cond, speed, dir⟩
    refine ⟨fun o n w run phase space => gapExpiry_space due run phase space, fun lastDir bars => ?_,
      fun o w m low high lastDir run phase first bounds least most => ?_,
      fun tag n w c low high lastDir run phase copied bars range least most =>
        gapExpiry_finds due lastDir run phase copied bars range least most⟩
    · obtain ⟨r, ran, windows⟩ := gapExpiry_windows due lastDir bars
      refine ⟨r, ran, windows.trans (List.map_congr_left fun v _ => ?_)⟩
      cases findNumber v.number (s.boundMarks t) with
      | none => rfl
      | some m => exact Window.offer_eq _ _ _
    · obtain ⟨r, ran, outside, stops, window⟩ := gapExpiry_stops due lastDir run phase first bounds least most
      refine ⟨r, ran, outside, ?_, window⟩
      have gapped : w.gapped .forward o = match o.kind with
          | .spaceF _ => { w with count := w.count + 1, blank := 0 }
          | _ => w := by
        obtain ⟨tag, kind⟩ := o
        cases kind with
        | spaceF n => exact Work.gapped_space (n := n) (.inl ⟨rfl, rfl⟩) (.inl phase)
        | _ => rfl
      rw [gapped] at stops
      exact stops

end Sys2Proof.Machine
end

