-- ==== Sys2Proof/Proofs/Markers.lean ====
section
/-! PROOF. RUN requests that meet no stop point, and the marker events. -/

namespace Sys2Proof.Machine

open Sys2Proof

/-! ### RUN requests (R11, R13) -/

theorem stopDistance_pos (c : Inertia) (v : Speed) : 0 < stopDistance c v := by
  cases c <;> cases v <;> decide

theorem stopDistance_le (c : Inertia) (v : Speed) : stopDistance c v ≤ 768 := by
  cases c <;> cases v <;> decide

/-- The stop target of a RUN request, if it has one, lies ahead of the counter. -/
def RunReq.ahead (counter : Int) (q : RunReq) : Prop :=
  ∀ p, q.target = some p → match q.dir with
    | .forward => counter < p
    | .reverse => p < counter

/-- The segment that a RUN request of block `o` begins from rest. -/
def Segment.started (now : Nat) (c : Inertia) (counter : Int) (o : Owner) (q : RunReq) (g : Segment) : Segment :=
  (g.startFromRest now c counter q).request o q

theorem Segment.started_startsFor (now : Nat) (c : Inertia) (counter : Int) (o : Owner) (q : RunReq) (g : Segment) :
    (g.started now c counter o q).startsFor o c q :=
  ⟨⟨_, rfl, rfl, rfl, rfl, rfl, rfl⟩, rfl, rfl, rfl, rfl, rfl, rfl⟩

/-- A start from rest toward a target ahead begins no ramp down at once (R13). -/
theorem Segment.started_goesOn {now : Nat} {c : Inertia} {counter : Int} {o : Owner} {q : RunReq} {g : Segment}
    (h : q.ahead counter) : (g.started now c counter o q).mustSlow counter = false := by
  unfold Segment.mustSlow Segment.slowPoint Segment.started Segment.request Segment.startFromRest
  dsimp only
  cases target : q.target with
  | none => rfl
  | some p =>
    have far := h p target
    have d := stopDistance_pos c q.speed
    cases dir : q.dir <;> rw [dir] at far <;> simp only [Option.bind_some, turnPoint] <;> split <;>
      simp only [Option.getD_some, Option.getD_none, decide_eq_false_iff_not] <;> omega

/-- A change of the Capstan Unit's segment for a request of block `o` that is taken. -/
def Transport.takes (o : Owner) (g : Segment) (x : Transport) : Transport :=
  { x with cap := { x.cap.accept o with seg := g } }

theorem Segment.mustSlow_takes {o : Owner} {g : Segment} {x : Transport} (h : g.mustSlow x.cap.counter = false) (now : Nat) :
    (x.takes o g).decelWatch now = x.takes o g := by
  cases o <;> exact if_neg (by simpa [Transport.takes, Capstan.accept] using h)

/-- A RUN request from rest toward a target ahead (R11). -/
theorem Transport.run_atRest {now : Nat} {c : Inertia} {o : Owner} {q : RunReq} {x : Transport}
    (h : x.cap.seg.cond = .atRest) (ahead : q.ahead x.cap.counter) :
    x.run now c o q = x.takes o (x.cap.seg.started now c x.cap.counter o q) := by
  have slow : x.cap.seg.atSpeed = false := by
    unfold Segment.atSpeed
    rw [h]
  have taken : x.cap.seg.takeRun now c x.cap.counter o q = x.cap.seg.started now c x.cap.counter o q := by
    unfold Segment.takeRun
    rw [h]
    rfl
  rw [Transport.run_eq now c o q (by simp [Segment.undriven, Segment.moving, h]), taken, slow]
  exact Segment.mustSlow_takes (Segment.started_goesOn ahead) now

/-- A RUN request of the speed and the direction that the capstan has, toward a target that is not near, changes the request
alone (R11). -/
theorem Transport.run_same {now : Nat} {c : Inertia} {o : Owner} {q : RunReq} {x : Transport} (cond : x.cap.seg.cond = .running)
    (dir : x.cap.seg.dir = some q.dir) (speed : x.cap.seg.speed = some q.speed)
    (far : (x.cap.seg.request o q).mustSlow x.cap.counter = false) :
    x.run now c o q = x.takes o (x.cap.seg.request o q) := by
  have taken : x.cap.seg.takeRun now c x.cap.counter o q = x.cap.seg.request o q := by
    unfold Segment.takeRun
    rw [cond, dir, speed]
    simp
  have kept : (x.cap.seg.atSpeed && (x.cap.seg.dir == some q.dir && q.speed == Speed.seek)) = false := by
    unfold Segment.atSpeed
    rw [cond, speed]
    cases q.speed <;> simp
  rw [Transport.run_eq now c o q (by simp [Segment.undriven, Segment.driven, cond]), taken, kept]
  exact Segment.mustSlow_takes far now

section
variable {t : TNum} {s : State}

theorem State.chosenClass_upd {f : Transport → Transport} (h : (f (s.tr t)).cap.defaultClass = (s.tr t).cap.defaultClass) :
    (s.upd t f).chosenClass t = s.chosenClass t := by
  unfold State.chosenClass
  rw [State.tr_upd_same, h]
  rfl

/-- A RUN request of the Order Slots that is taken (R89). -/
theorem State.orderRun_eq (q : RunReq) (h : (s.tr t).cap.seg.undriven = false) :
    s.orderRun t q =
      let limit := (s.tr t).runoutLimit q.dir q.target
      s.upd t fun x => (x.modWork fun _ w => { w with runoutTarget := limit.2 }).run s.clock (s.chosenClass t) .orders
        { q with target := limit.1 } := by
  unfold State.orderRun State.run
  rw [if_neg (by simp [h])]
  dsimp only
  rw [State.upd_upd, State.chosenClass_upd rfl]
  rfl

/-! ### The EOT marker (R5, R89) -/

theorem Transport.runoutLimit_above {x : Transport} {r : Int} {target : Option Int} (runout : x.cap.runout = some r)
    (above : target = none ∨ ∃ p, target = some p ∧ r < p) : x.runoutLimit .forward target = (some r, true) := by
  unfold Transport.runoutLimit
  rw [runout]
  rcases above with rfl | ⟨p, rfl, lower⟩
  · rfl
  · exact if_pos lower

/-- The EOT position set where the counter stands. -/
def Transport.pastMarker (x : Transport) : Transport := { x with cap := { x.cap with eotPos := some x.cap.counter } }

theorem State.eotOrders_idle (h : (s.tr t).running = none) : s.eotOrders t = s := by
  unfold State.eotOrders
  dsimp only
  rw [h]

/-- A segment has no stop target, or one above `r`. -/
def Segment.targetAbove (r : Int) (g : Segment) : Bool :=
  match g.stopTarget with
  | some p => decide (r < p)
  | none => true

theorem State.eotOrders_eq {o : Order} {w : Work} {r : Int} {v : Speed} (run : (s.tr t).running = some (o, w))
    (runout : (s.tr t).cap.runout = some r) (speed : (s.tr t).cap.seg.speed = some v) :
    s.eotOrders t =
      if w.phase ≠ .stopping ∧ (s.tr t).cap.seg.stopping = false ∧ (s.tr t).cap.seg.tapeDir = some .forward ∧
          (s.tr t).cap.seg.owner = some .orders ∧ (s.tr t).cap.seg.targetAbove r = true then
        s.orderRun t { dir := .forward, speed := v, target := (s.tr t).cap.seg.stopTarget
                       approach := (s.tr t).cap.seg.approach }
      else s := by
  unfold State.eotOrders
  dsimp only
  rw [run, runout, speed]
  unfold Segment.targetAbove
  cases (s.tr t).cap.seg.stopTarget <;> rfl

/-- The forward EOT passage of an order that has no stop target below the runout position. -/
theorem State.eotForward_above {o : Order} {w : Work} {v : Speed} (run : (s.tr t).running = some (o, w))
    (phase : w.phase ≠ .stopping) (cond : (s.tr t).cap.seg.cond = .running) (dir : (s.tr t).cap.seg.dir = some .forward)
    (owner : (s.tr t).cap.seg.owner = some .orders) (speed : (s.tr t).cap.seg.speed = some v)
    (above : (s.tr t).cap.seg.stopTarget = none ∨
      ∃ p, (s.tr t).cap.seg.stopTarget = some p ∧ (s.tr t).cap.counter + 30000 < p) :
    s.eotForward t = s.upd t fun x =>
      ((x.pastMarker).modWork fun _ w => { w with runoutTarget := true }).takes .orders
        { x.cap.seg with stopTarget := some (x.cap.counter + 30000) } := by
  let q := s.upd t Transport.pastMarker
  have tr : q.tr t = (s.tr t).pastMarker := State.tr_upd_same _ _ _
  have runout : (q.tr t).cap.runout = some ((s.tr t).cap.counter + 30000) := by
    rw [tr]
    rfl
  have run' : (q.tr t).running = some (o, w) := (congrArg Transport.running tr).trans run
  have seg : (q.tr t).cap.seg = (s.tr t).cap.seg := congrArg (fun y => y.cap.seg) tr
  have limit := Transport.runoutLimit_above runout above
  have above' : (s.tr t).cap.seg.targetAbove ((s.tr t).cap.counter + 30000) = true := by
    unfold Segment.targetAbove
    rcases above with e | ⟨p, e, lower⟩ <;> rw [e]
    simpa using lower
  have request : (s.tr t).cap.seg.request .orders
      { dir := .forward, speed := v, target := some ((s.tr t).cap.counter + 30000), approach := (s.tr t).cap.seg.approach } =
        { (s.tr t).cap.seg with stopTarget := some ((s.tr t).cap.counter + 30000) } := by
    unfold Segment.request
    dsimp only
    rw [← dir, ← speed, ← owner]
  have far : ({ (s.tr t).cap.seg with stopTarget := some ((s.tr t).cap.counter + 30000) } : Segment).mustSlow
      (s.tr t).cap.counter = false := by
    have d := stopDistance_le (s.tr t).cap.seg.cls v
    unfold Segment.mustSlow Segment.slowPoint
    rw [dir, speed]
    dsimp only
    rw [cond]
    dsimp only
    simp only [decide_eq_false_iff_not]
    omega
  calc s.eotForward t = q.eotOrders t := rfl
    _ = q.orderRun t { dir := .forward, speed := v, target := (s.tr t).cap.seg.stopTarget
                       approach := (s.tr t).cap.seg.approach } := by
      rw [State.eotOrders_eq run' runout (by rw [seg]; exact speed), seg]
      exact if_pos ⟨phase, by simp [Segment.stopping, cond], by simp [Segment.tapeDir, cond, dir], owner, above'⟩
    _ = _ := by
      rw [State.orderRun_eq _ (by rw [seg]; simp [Segment.undriven, Segment.driven, cond])]
      dsimp only
      rw [limit, State.upd_upd]
      refine State.upd_congr ?_
      dsimp only
      rw [Transport.run_same (x := (s.tr t).pastMarker.modWork fun _ w => { w with runoutTarget := true })
        (by exact cond) (by exact dir) (by exact speed) (by exact request ▸ far)]
      exact congrArg (fun g => Transport.takes .orders g _) request

theorem State.eotForward_below {o : Order} {w : Work} {v : Speed} {p : Int} (run : (s.tr t).running = some (o, w))
    (speed : (s.tr t).cap.seg.speed = some v) (target : (s.tr t).cap.seg.stopTarget = some p)
    (below : p ≤ (s.tr t).cap.counter + 30000) : s.eotForward t = s.upd t Transport.pastMarker := by
  have tr : (s.upd t Transport.pastMarker).tr t = (s.tr t).pastMarker := State.tr_upd_same _ _ _
  refine (State.eotOrders_eq (s := s.upd t Transport.pastMarker) (o := o) (w := w) (v := v)
    (r := (s.tr t).cap.counter + 30000) (by rw [tr]; exact run) (by rw [tr]; rfl) (by rw [tr]; exact speed)).trans ?_
  refine if_neg fun k => ?_
  have above := k.2.2.2.2
  rw [tr] at above
  unfold Segment.targetAbove at above
  rw [show ((s.tr t).pastMarker).cap.seg.stopTarget = some p from target] at above
  simp only [decide_eq_true_eq] at above
  omega

/-! ### The load point (R3, R4, R95, R115 to R117) -/

/-- The leader flag of a transport. -/
def Transport.withLeader (b : Bool) (x : Transport) : Transport := x.modSeq fun q => { q with leader := b }

theorem State.loadPointForward_eq (s : State) :
    s.loadPointForward t = s.upd t fun x =>
      if x.cap.seg.approaching then (x.withLeader false).stopForRezero s.clock else x.withLeader false := rfl

/-- The load point means nothing to a transport without an order that can meet it. -/
theorem State.loadPointOrders_else (h : ∀ o w, (s.tr t).running = some (o, w) → o.kind.meetsLoadPoint = false) :
    s.loadPointOrders t = s := by
  unfold State.loadPointOrders
  split
  · rename_i o w run
    exact if_neg (by simp [h o w run])
  · rfl

theorem State.loadPointSequencer_else (h : (s.tr t).sequencer.state.rewindPhase? = none) : s.loadPointSequencer t = s := by
  unfold State.loadPointSequencer
  dsimp only
  rw [h]

theorem State.loadPointOrders_meets {o : Order} {w : Work} (run : (s.tr t).running = some (o, w))
    (kind : o.kind.meetsLoadPoint = true) (phase : w.phase ≠ .approach) (dir : (s.tr t).cap.seg.tapeDir = some .reverse)
    (driven : (s.tr t).cap.seg.driven = true) :
    s.loadPointOrders t = s.upd t fun x =>
      let marked := x.modWork fun _ k => { k with phase := .approach, reason := some .loadPoint, barrier := none }
      if w.phase.underWay then marked.stopDriven s.clock .orders else marked := by
  unfold State.loadPointOrders
  rw [run]
  dsimp only
  rw [if_pos ⟨kind, phase, dir⟩]
  cases w.phase.underWay
  · rfl
  · refine (State.stop_driven .orders (by rw [State.tr_upd_same]; exact driven)).trans ?_
    rw [State.upd_upd]
    rfl

theorem Segment.stopsFor_stopDriven (now : Nat) (o : Owner) (x : Transport) :
    x.cap.seg.stopsFor o (x.stopDriven now o).cap.seg := Segment.stopsFor_rampDown _ _ _

/-! ### The marker events, by direction (R3 to R5) -/

theorem exec_eot_forward (dir : (s.tr t).cap.lastDir = .forward) :
    exec (.markerEdge t .eot) s = .next (s.eotForward t) := by
  refine congrArg Host.Outcome.next ?_
  unfold State.markerEvent
  rw [dir]

theorem exec_eot_reverse (dir : (s.tr t).cap.lastDir = .reverse) :
    exec (.markerEdge t .eot) s = .next (s.eotReverse t) := by
  refine congrArg Host.Outcome.next ?_
  unfold State.markerEvent
  rw [dir]

theorem exec_loadPoint_forward (dir : (s.tr t).cap.lastDir = .forward) :
    exec (.markerEdge t .loadPoint) s = .next (s.loadPointForward t) := by
  refine congrArg Host.Outcome.next ?_
  unfold State.markerEvent
  rw [dir]

/-- The state in which the leader flag has been set. -/
def State.atLeader (t : TNum) (s : State) : State := s.upd t (Transport.withLeader true)

theorem State.atLeader_tr : (s.atLeader t).tr t = (s.tr t).withLeader true := State.tr_upd_same _ _ _

theorem exec_loadPoint_reverse (dir : (s.tr t).cap.lastDir = .reverse) :
    exec (.markerEdge t .loadPoint) s = .next (((s.atLeader t).loadPointOrders t).loadPointSequencer t) := by
  refine congrArg Host.Outcome.next ?_
  unfold State.markerEvent
  rw [dir]
  rfl

/-- The load point met by a transport without an order, and outside a rewind. -/
theorem exec_loadPoint_idle (dir : (s.tr t).cap.lastDir = .reverse) (state : (s.tr t).sequencer.state = .ready)
    (idle : (s.tr t).running = none) : exec (.markerEdge t .loadPoint) s = .next (s.atLeader t) := by
  have orders : (s.atLeader t).loadPointOrders t = s.atLeader t := State.loadPointOrders_else fun o w run => by
    rw [State.atLeader_tr] at run
    exact absurd (idle.symm.trans run) nofun
  rw [exec_loadPoint_reverse dir, orders]
  refine congrArg Host.Outcome.next (State.loadPointSequencer_else ?_)
  rw [State.atLeader_tr]
  exact state ▸ rfl

/-- The load point met by a moving order: a stop begins, unless one has begun, and the approach follows (R95). -/
theorem exec_loadPoint_meets {o : Order} {w : Work} (dir : (s.tr t).cap.lastDir = .reverse)
    (state : (s.tr t).sequencer.state = .moving) (run : (s.tr t).running = some (o, w))
    (kind : (∃ n, o.kind = .spaceR n) ∨ (∃ p, o.kind = .seekPos p) ∨ ∃ m, o.kind = .seekMark m)
    (driven : (s.tr t).cap.seg.driven = true) (tape : (s.tr t).cap.seg.tapeDir = some .reverse)
    (phase : w.phase ∈ [OrderPhase.fast, .readLeg, .search, .haltSearch, .stopping]) :
    ∃ r, exec (.markerEdge t .loadPoint) s = .next r ∧ s.sameOutside t r ∧ (r.tr t).sequencer.leader = true ∧
      (r.tr t).running = some (o, { w with phase := .approach, reason := some .loadPoint, barrier := none }) ∧
      (w.phase ≠ .stopping → (s.tr t).cap.seg.stopsFor .orders (r.tr t).cap.seg) ∧
      (w.phase = .stopping → (r.tr t).cap = (s.tr t).cap) := by
  have meets : o.kind.meetsLoadPoint = true := by
    rcases kind with ⟨n, e⟩ | ⟨p, e⟩ | ⟨m, e⟩ <;> rw [e] <;> rfl
  have apart : w.phase ≠ .approach := by
    intro e
    rw [e] at phase
    simp at phase
  have orders := State.loadPointOrders_meets (t := t) (s := s.atLeader t) (by rw [State.atLeader_tr]; exact run) meets apart
    (by rw [State.atLeader_tr]; exact tape) (by rw [State.atLeader_tr]; exact driven)
  have same : ((s.atLeader t).loadPointOrders t).loadPointSequencer t = (s.atLeader t).loadPointOrders t := by
    refine State.loadPointSequencer_else ?_
    rw [orders, State.tr_upd_same, State.atLeader_tr]
    dsimp only
    split <;> exact state ▸ rfl
  have running := Transport.modWork_running ((s.tr t).withLeader true)
    fun _ k => { k with phase := .approach, reason := some .loadPoint, barrier := none }
  rw [show ((s.tr t).withLeader true).running = some (o, w) from run] at running
  refine ⟨_, exec_loadPoint_reverse dir, ?_⟩
  rw [same, orders, State.atLeader, State.upd_upd]
  refine ⟨State.sameOutside_upd _ _ _, ?_⟩
  rw [State.tr_upd_same]
  dsimp only
  split
  · rename_i underWay
    refine ⟨rfl, running, fun _ => Segment.stopsFor_stopDriven _ _ _, fun e => ?_⟩
    rw [e] at underWay
    cases underWay
  · rename_i stopping
    refine ⟨rfl, running, fun n => absurd (OrderPhase.underWay_of ?_).1 stopping, fun _ => rfl⟩
    simpa [n] using phase

/-! ### The load point of a rewind (R115 to R117) -/

section
variable {p : RewindPhase} (dir : (s.tr t).cap.lastDir = .reverse) (phase : (s.tr t).sequencer.state.rewindPhase? = some p)
  (kinds : ∀ o w, (s.tr t).running = some (o, w) → o.kind = .rewind ∨ o.kind = .unload)
include dir phase kinds

/-- The load point met in a rewind is for the Sequencer alone. -/
theorem exec_loadPoint_rewind : exec (.markerEdge t .loadPoint) s = .next ((s.atLeader t).loadPointSequencer t) ∧
    ((s.atLeader t).tr t).sequencer.state.rewindPhase? = some p := by
  have orders : (s.atLeader t).loadPointOrders t = s.atLeader t := State.loadPointOrders_else fun o w run => by
    rw [State.atLeader_tr] at run
    rcases kinds o w run with e | e <;> rw [e] <;> rfl
  refine ⟨?_, ?_⟩
  · rw [exec_loadPoint_reverse dir, orders]
  · rw [State.atLeader_tr]
    exact phase

/-- The phases in which a rewind goes on at the load point. -/
theorem exec_loadPoint_goesOn (on : p = .settle ∨ p = .fast ∧ (s.tr t).sequencer.ending = true) :
    exec (.markerEdge t .loadPoint) s = .next (s.atLeader t) := by
  obtain ⟨ran, phase⟩ := exec_loadPoint_rewind dir phase kinds
  refine ran.trans (congrArg Host.Outcome.next ?_)
  unfold State.loadPointSequencer
  dsimp only
  rw [phase]
  rcases on with rfl | ⟨rfl, ending⟩
  · rfl
  · exact if_pos (by rw [State.atLeader_tr]; exact ending)

/-- The phases in which a rewind stops at the load point, `b` telling whether the fast phase ends here. -/
theorem exec_loadPoint_stops {b : Bool} (driven : (s.tr t).cap.seg.driven = true)
    (on : p = .fast ∧ (s.tr t).sequencer.ending = false ∧ b = true ∨ p = .approach ∧ b = (s.tr t).sequencer.lpStop) :
    ∃ r, exec (.markerEdge t .loadPoint) s = .next r ∧ s.sameOutside t r ∧
      (r.tr t).sequencer = { (s.tr t).sequencer with leader := true, lpStop := b } ∧
      (s.tr t).cap.seg.stopsFor .sequencer (r.tr t).cap.seg ∧ (r.tr t).orders = (s.tr t).orders := by
  obtain ⟨ran, phase⟩ := exec_loadPoint_rewind dir phase kinds
  have driven' : ((s.atLeader t).tr t).cap.seg.driven = true := by
    rw [State.atLeader_tr]
    exact driven
  refine ⟨_, ran, ?_⟩
  unfold State.loadPointSequencer
  dsimp only
  rw [phase]
  rcases on with ⟨rfl, going, rfl⟩ | ⟨rfl, rfl⟩
  · have going' : ((s.atLeader t).tr t).sequencer.ending = false := by
      rw [State.atLeader_tr]
      exact going
    dsimp only
    rw [if_neg (by simp [going']), State.stop_driven _ (by rw [State.tr_upd_same]; exact driven'), State.atLeader,
      State.upd_upd, State.upd_upd, State.tr_upd_same]
    exact ⟨State.sameOutside_upd _ _ _, rfl, Segment.stopsFor_stopDriven _ _ _, rfl⟩
  · dsimp only
    rw [State.stop_driven _ driven', State.atLeader, State.upd_upd, State.tr_upd_same]
    exact ⟨State.sameOutside_upd _ _ _, rfl, Segment.stopsFor_stopDriven _ _ _, rfl⟩

end

end

/-- Settles O24. -/
theorem markerEdges : Obligations.MarkerEdges := by
  intro t s
  refine ⟨fun dir idle => ?_, fun o w v dir run phase cond tape owner speed => ⟨fun above => ?_, fun p target below => ?_⟩,
    exec_eot_reverse, fun dir approach => ?_, fun dir approach cond => ?_, exec_loadPoint_idle,
    fun o w => exec_loadPoint_meets, fun p dir phase kinds driven => ?_⟩
  · rw [exec_eot_forward dir]
    exact congrArg Host.Outcome.next (State.eotOrders_idle (by rw [State.tr_upd_same]; exact idle))
  · refine ⟨_, exec_eot_forward dir, ?_⟩
    rw [State.eotForward_above run phase cond tape owner speed above]
    refine ⟨State.sameOutside_upd _ _ _, ?_⟩
    rw [State.tr_upd_same]
    refine ⟨rfl, rfl, ?_, rfl, rfl⟩
    exact (Transport.modWork_running (s.tr t).pastMarker fun _ w => { w with runoutTarget := true }).trans
      (congrArg (Option.map _) run)
  · rw [exec_eot_forward dir]
    exact congrArg Host.Outcome.next (State.eotForward_below run speed target below)
  · rw [exec_loadPoint_forward dir]
    refine congrArg Host.Outcome.next (State.upd_congr ?_)
    exact if_neg (by simp [Segment.approaching, Transport.modSeq, approach])
  · refine ⟨_, exec_loadPoint_forward dir, ?_⟩
    rw [State.loadPointForward_eq]
    refine ⟨State.sameOutside_upd _ _ _, ?_⟩
    rw [State.tr_upd_same, if_pos (by simp [Segment.approaching, approach, cond])]
    exact ⟨rfl, rfl, rfl, _, rfl, rfl, rfl⟩
  · exact ⟨fun fast going => exec_loadPoint_stops dir phase kinds driven (.inl ⟨fast, going, rfl⟩),
      fun fast ending => exec_loadPoint_goesOn dir phase kinds (.inr ⟨fast, ending⟩),
      fun approach => exec_loadPoint_stops dir phase kinds driven (.inr ⟨approach, rfl⟩),
      fun settle => exec_loadPoint_goesOn dir phase kinds (.inl settle)⟩

end Sys2Proof.Machine
end

