-- ==== Sys2Proof/Proofs/Rest.lean ====
section
/-! PROOF. What a transport does at rest, and the ends of its ramps. -/

namespace Sys2Proof.Machine

open Sys2Proof

/-! ### The end of an order (R85, R88) -/

theorem oldestPending_none {l : List Slot} (h : ∀ o, Slot.pending o ∉ l) : oldestPending l = none := by
  induction l with
  | nil => rfl
  | cons a l ih =>
    have rest := ih fun o k => h o (List.mem_cons_of_mem _ k)
    cases a with
    | pending o => exact absurd List.mem_cons_self (h o)
    | running o w => exact rest
    | record k => exact rest

/-- The record that an order leaves, as the report shows it (R85). -/
theorem completionRecord_eq (o : Order) (w : Work) (status : Completion) (counter : Int) :
    completionRecord o w status counter = .record (o.ended w status counter) := by
  obtain ⟨tag, kind⟩ := o
  unfold completionRecord Order.ended
  refine congrArg Slot.record (Record.mk.injEq .. ▸ ⟨rfl, rfl, rfl, ?_, rfl, ?_⟩)
  · cases kind <;> rfl
  · cases status <;> cases kind <;> rfl

section
variable {t : TNum} {s : State} {o : Order} {w : Work}

theorem State.startPending_none (n : Nat) (h : oldestPending (s.tr t).orders.list = none) : s.startPending t n = s := by
  cases n with
  | zero => rfl
  | succ n =>
    unfold State.startPending
    dsimp only
    split
    · rw [h]
    · rfl

theorem Transport.running_single {x : Transport} (list : x.orders.list = [.running o w]) : x.running = some (o, w) := by
  unfold Transport.running
  rw [list]
  rfl

/-- A transport whose order has ended with `status`. -/
def Transport.orderDone (status : Completion) (x : Transport) : Transport := (x.makeRecord status).setState .ready

theorem Transport.orderDone_list (status : Completion) {x : Transport} {l : List Slot}
    (list : x.orders.list = .running o w :: l) :
    (x.orderDone status).orders.list = .record (o.ended w status x.cap.counter) :: l := by
  show replaceRunning _ x.orders.list = _
  rw [list]
  rfl

/-- The only order of a transport ends (R88). -/
theorem State.orderEnd_single (status : Completion) (list : (s.tr t).orders.list = [.running o w]) :
    s.orderEnd t status .ready = s.upd t (Transport.orderDone status) := by
  refine State.startPending_none _ ?_
  rw [State.tr_upd_same]
  exact (congrArg oldestPending (Transport.orderDone_list status list)).trans rfl

/-! ### RUN requests of an order at rest (R89) -/

theorem Transport.runoutLimit_none {x : Transport} (d : Dir) (target : Option Int) (h : x.cap.eotPos = none) :
    x.runoutLimit d target = (target, false) := by
  unfold Transport.runoutLimit Capstan.runout
  rw [h]
  cases d <;> rfl

theorem Transport.runoutLimit_reverse (x : Transport) (target : Option Int) : x.runoutLimit .reverse target = (target, false) := rfl

/-- A transport at rest whose order begins a motion, `b` telling whether its stop target is the runout position. -/
def Transport.setsOff (now : Nat) (c : Inertia) (q : RunReq) (b : Bool) (x : Transport) : Transport :=
  (x.modWork fun _ w => { w with runoutTarget := b }).takes .orders (x.cap.seg.started now c x.cap.counter .orders q)

theorem State.orderRun_atRest {q : RunReq} {target : Option Int} {b : Bool} (cond : (s.tr t).cap.seg.cond = .atRest)
    (limit : (s.tr t).runoutLimit q.dir q.target = (target, b)) (ahead : { q with target := target }.ahead (s.tr t).cap.counter) :
    s.orderRun t q =
      s.upd t (Transport.setsOff s.clock (s.chosenClass t) { q with target := target } b) := by
  rw [State.orderRun_eq q (by simp [Segment.undriven, Segment.moving, cond])]
  dsimp only
  rw [limit]
  refine State.upd_congr ?_
  exact Transport.run_atRest (x := (s.tr t).modWork fun _ w => { w with runoutTarget := b }) cond ahead

theorem RunReq.ahead_none {counter : Int} {q : RunReq} (h : q.target = none) : q.ahead counter := by
  intro p e
  rw [h] at e
  cases e

theorem Transport.setsOff_list (now : Nat) (c : Inertia) (q : RunReq) (b : Bool) {x : Transport}
    (list : x.orders.list = [.running o w]) :
    (x.setsOff now c q b).orders.list = [.running o { w with runoutTarget := b }] := by
  show replaceRunning _ x.orders.list = _
  rw [list]
  rfl

/-! ### The at-rest event at the Order Slots (R88, R95, R98) -/

theorem State.ordersAtRest_stopped {status : Completion} (rezero : Bool) (run : (s.tr t).running = some (o, w))
    (phase : w.phase = .stopping) (reason : w.reason = some status) :
    s.ordersAtRest t rezero = s.orderEnd t status .ready := by
  unfold State.ordersAtRest
  rw [run]
  dsimp only
  rw [phase, reason]

theorem State.ordersAtRest_turns {m : Nat} (rezero : Bool) (run : (s.tr t).running = some (o, w)) (phase : w.phase = .stopping)
    (reason : w.reason = none) (kind : o.kind = .seekMark m) :
    s.ordersAtRest t rezero = if w.halted then s.orderEnd t .halted .ready else s.beginSearch t := by
  unfold State.ordersAtRest
  rw [run]
  dsimp only
  rw [phase, reason, kind]

theorem State.ordersAtRest_approach (rezero : Bool) (run : (s.tr t).running = some (o, w)) (phase : w.phase = .approach) :
    s.ordersAtRest t rezero = s.approachAtRest t o w rezero := by
  unfold State.ordersAtRest
  rw [run]
  dsimp only
  rw [phase]

/-- The state in which a transport at rest with one order and without the EOT marker has begun a forward motion. -/
theorem State.orderRun_single {q : RunReq} (cond : (s.tr t).cap.seg.cond = .atRest) (eot : (s.tr t).cap.eotPos = none)
    (target : q.target = none) :
    s.orderRun t q = s.upd t (Transport.setsOff s.clock (s.chosenClass t) q false) := by
  have h := State.orderRun_atRest (t := t) (s := s) (q := q) cond (Transport.runoutLimit_none _ _ eot) (RunReq.ahead_none target)
  exact h

/-- The search that a SEEK_MARK begins from rest (R98). -/
theorem State.beginSearch_atRest (cond : (s.tr t).cap.seg.cond = .atRest) (eot : (s.tr t).cap.eotPos = none) :
    s.beginSearch t = s.upd t fun x => Transport.setsOff s.clock (s.chosenClass t) (plainRun .forward .read none) false
      (x.modWork fun _ w => { w with phase := .search, reason := none }) := by
  unfold State.beginSearch
  rw [State.orderRun_single (by rw [State.tr_upd_same]; exact cond) (by rw [State.tr_upd_same]; exact eot) rfl,
    State.upd_upd, State.chosenClass_upd rfl]
  rfl

/-! ### Coming to rest (R4, R12, R71) -/

/-- A transport that has come to rest, its windows aside. -/
def Transport.comesToRest (rezero : Bool) (x : Transport) : Transport :=
  let c := if rezero then x.cap.rezero x.cap.seg.approach else x.cap
  { x with cap := { c with seg := c.seg.rested } }

/-- A transport whose windows and watches are abandoned. -/
def Transport.abandoned (x : Transport) : Transport := x.modCapture Capture.abandonAll

theorem State.windowsAtRest_shut (h : (s.tr t).capture.windows = []) : s.windowsAtRest t = s.upd t Transport.abandoned := by
  have none : s.windowMarks t (fun w => w.fixed) = [] := by
    unfold State.windowMarks Capture.windowOf
    rw [h]
    exact List.filterMap_eq_nil_iff.mpr fun _ _ => rfl
  unfold State.windowsAtRest
  rw [none]
  rfl

/-- The state of a transport at rest, before its owner takes the event. -/
def State.still (t : TNum) (rezero : Bool) (s : State) : State := (s.windowsAtRest t).upd t (Transport.comesToRest rezero)

theorem State.comeToRest_owned {b : Owner} (rezero : Bool) (h : (s.tr t).cap.seg.owner = some b) :
    s.comeToRest t rezero = (s.still t rezero).atRestEvent t b rezero := by
  unfold State.comeToRest
  dsimp only
  rw [h]
  rfl

theorem State.still_shut (rezero : Bool) (h : (s.tr t).capture.windows = []) :
    s.still t rezero = s.upd t fun x => (x.abandoned).comesToRest rezero := by
  unfold State.still
  rw [State.windowsAtRest_shut h, State.upd_upd]

theorem Transport.comesToRest_seg (rezero : Bool) (x : Transport) :
    (x.comesToRest rezero).cap.seg = x.cap.seg.rested := by
  unfold Transport.comesToRest Capstan.rezero
  cases rezero
  · rfl
  · dsimp only
    cases x.cap.seg.approach <;> rfl

theorem exec_rampEnd_rest {k : Ramp} {rezero : Bool} {b : Owner} (ramp : (s.tr t).cap.seg.cond = .ramping k)
    (goal : k.goal = .toRest rezero) (owner : (s.tr t).cap.seg.owner = some b) :
    exec (.capstanRampEnd t) s = .next ((s.still t rezero).atRestEvent t b rezero) := by
  refine congrArg Host.Outcome.next ?_
  unfold State.rampEnd
  rw [ramp]
  dsimp only
  rw [goal]
  exact State.comeToRest_owned rezero owner

/-! ### The load at rest (R113, R114) -/

theorem rampEnd_loads {k : Ramp} (ramp : (s.tr t).cap.seg.cond = .ramping k) (goal : k.goal = .toRest true)
    (approach : (s.tr t).cap.seg.approach = .establishing) (owner : (s.tr t).cap.seg.owner = some .sequencer)
    (state : (s.tr t).sequencer.state = .loading .findLoadPoint) (shut : (s.tr t).capture.windows = []) :
    ∃ r, exec (.capstanRampEnd t) s = .next r ∧ s.sameOutside t r ∧ (r.tr t).sequencer.state = .ready ∧
      (r.tr t).sequencer.loadResult = .complete ∧ (r.tr t).flags = { (s.tr t).flags with state := true } ∧
      (r.tr t).cap.counter = 0 ∧ (r.tr t).cap.conf = .exact ∧ (r.tr t).cap.lastGap = none ∧
      (r.tr t).cap.eotPos = none ∧ (r.tr t).cap.seg.cond = .atRest ∧ (r.tr t).orders = (s.tr t).orders := by
  refine ⟨_, exec_rampEnd_rest ramp goal owner, ?_⟩
  have state' : ((s.still t true).tr t).sequencer.state = .loading .findLoadPoint := by
    rw [State.still_shut _ shut, State.tr_upd_same]
    exact state
  have approach' : (s.tr t).abandoned.cap.seg.approach = .establishing := approach
  unfold State.atRestEvent State.sequencerAtRest
  dsimp only
  rw [state']
  dsimp only
  rw [if_pos rfl, State.still_shut _ shut, State.upd_upd]
  refine ⟨State.sameOutside_upd _ _ _, ?_⟩
  rw [State.tr_upd_same]
  unfold Transport.comesToRest Capstan.rezero
  rw [approach']
  exact ⟨rfl, rfl, rfl, rfl, rfl, rfl, rfl, rfl, rfl⟩

theorem rampEnd_loadFails {k : Ramp} (ramp : (s.tr t).cap.seg.cond = .ramping k) (goal : k.goal = .toRest false)
    (owner : (s.tr t).cap.seg.owner = some .sequencer) (state : (s.tr t).sequencer.state = .loading .findLoadPoint)
    (shut : (s.tr t).capture.windows = []) :
    ∃ r, exec (.capstanRampEnd t) s = .next r ∧ s.sameOutside t r ∧
      (r.tr t).sequencer = { (s.tr t).sequencer with
        state := .unloading .release, loadResult := .noLoadPoint, loadTimer := none, panelMotion := true
        valveOpen := false, quiet := some s.clock, ending := false, lpStop := false } ∧
      (r.tr t).flags = { (s.tr t).flags with state := true } ∧ (r.tr t).cap.seg.cond = .free ∧
      (r.tr t).cap.conf = .lost := by
  refine ⟨_, exec_rampEnd_rest ramp goal owner, ?_⟩
  have state' : ((s.still t false).tr t).sequencer.state = .loading .findLoadPoint := by
    rw [State.still_shut _ shut, State.tr_upd_same]
    exact state
  unfold State.atRestEvent State.sequencerAtRest
  dsimp only
  rw [state']
  dsimp only
  rw [if_neg nofun, State.still_shut _ shut, State.loadFail, State.beginRelease, State.upd_upd, State.upd_upd]
  refine ⟨State.sameOutside_upd _ _ _, ?_⟩
  rw [State.tr_upd_same]
  exact ⟨rfl, rfl, rfl, rfl⟩

/-! ### A change through rest (R11) -/

theorem rampEnd_throughRest {k : Ramp} {b : Owner} {d : Dir} {v : Speed} (ramp : (s.tr t).cap.seg.cond = .ramping k)
    (goal : k.goal = .throughRest) (owner : (s.tr t).cap.seg.owner = some b) (dir : (s.tr t).cap.seg.dir = some d)
    (speed : (s.tr t).cap.seg.speed = some v) (stand : (s.tr t).cap.seg.stopTarget = none)
    (shut : (s.tr t).capture.windows = []) :
    ∃ r, exec (.capstanRampEnd t) s = .next r ∧ s.sameOutside t r ∧
      (r.tr t).cap.seg.startsFor b (s.chosenClass t)
        { dir := d, speed := v, target := none, approach := (s.tr t).cap.seg.approach } ∧
      (r.tr t).orders = (s.tr t).orders ∧ (r.tr t).sequencer = (s.tr t).sequencer ∧
      (r.tr t).cap.counter = (s.tr t).cap.counter := by
  have ran : exec (.capstanRampEnd t) s = .next (s.throughRest t) := by
    refine congrArg Host.Outcome.next ?_
    unfold State.rampEnd
    rw [ramp]
    dsimp only
    rw [goal]
  have through : s.throughRest t = s.upd t fun x => { x.abandoned with cap := { x.cap with
      seg := x.cap.seg.startFromRest s.clock (s.chosenClass t) x.cap.counter
        { dir := d, speed := v, target := none, approach := x.cap.seg.approach } } } := by
    unfold State.throughRest
    dsimp only
    rw [State.windowsAtRest_shut shut, State.upd_upd, State.chosenClass_upd rfl]
    refine State.upd_congr ?_
    refine (Transport.decelWatch_untargeted (by exact stand)).trans ?_
    show ({ (s.tr t).abandoned with cap := { (s.tr t).cap with
      seg := (s.tr t).cap.seg.startFromRest s.clock (s.chosenClass t) (s.tr t).cap.counter
        { dir := (s.tr t).cap.seg.dir.getD .forward, speed := (s.tr t).cap.seg.speed.getD .creep
          target := (s.tr t).cap.seg.stopTarget, approach := (s.tr t).cap.seg.approach } } } : Transport) = _
    rw [dir, speed, stand]
    rfl
  refine ⟨_, ran, ?_⟩
  rw [through]
  refine ⟨State.sameOutside_upd _ _ _, ?_⟩
  rw [State.tr_upd_same]
  exact ⟨⟨⟨_, rfl, rfl, rfl, rfl, rfl, rfl⟩, dir, speed, stand, rfl, owner, rfl⟩, rfl, rfl, rfl⟩

end

end Sys2Proof.Machine
end

