-- ==== Sys2Proof/Proofs/RampEnds.lean ====
section
/-! PROOF. The ends of ramps that hand the at-rest event to the Order Slots. -/

namespace Sys2Proof.Machine

open Sys2Proof

section
variable {t : TNum} {s : State} {o : Order} {w : Work} {k : Ramp} {rezero : Bool}

/-! ### An order whose capstan comes to rest -/

theorem Transport.comesToRest_counter (rezero : Bool) (x : Transport) :
    (x.comesToRest rezero).cap.counter = if rezero then 0 else x.cap.counter := by
  unfold Transport.comesToRest Capstan.rezero
  cases rezero
  · rfl
  · dsimp only
    cases x.cap.seg.approach <;> rfl

/-- Only the rezero of an establishing approach touches the confidence and the EOT position (R4). -/
theorem Transport.comesToRest_kept {x : Transport} (h : rezero = false ∨ x.cap.seg.approach = .returning) :
    (x.comesToRest rezero).cap.conf = x.cap.conf ∧ (x.comesToRest rezero).cap.eotPos = x.cap.eotPos ∧
      (x.comesToRest rezero).cap.defaultClass = x.cap.defaultClass := by
  unfold Transport.comesToRest Capstan.rezero
  rcases h with rfl | h
  · exact ⟨rfl, rfl, rfl⟩
  · dsimp only
    rw [h]
    cases rezero <;> exact ⟨rfl, rfl, rfl⟩

theorem State.still_list (shut : (s.tr t).capture.windows = []) (list : (s.tr t).orders.list = [.running o w]) :
    ((s.still t rezero).tr t).orders.list = [.running o w] := by
  rw [State.still_shut _ shut, State.tr_upd_same]
  exact list

theorem State.still_rests (shut : (s.tr t).capture.windows = []) :
    ((s.still t rezero).tr t).cap.seg.cond = .atRest := by
  rw [State.still_shut _ shut, State.tr_upd_same, Transport.comesToRest_seg]
  rfl

/-- The position of a transport that has come to rest. -/
theorem State.still_position (shut : (s.tr t).capture.windows = [])
    (h : rezero = false ∨ (s.tr t).cap.seg.approach = .returning) :
    ((s.still t rezero).tr t).cap.counter = (if rezero then 0 else (s.tr t).cap.counter) ∧
      ((s.still t rezero).tr t).cap.conf = (s.tr t).cap.conf ∧
      ((s.still t rezero).tr t).cap.eotPos = (s.tr t).cap.eotPos ∧
      (s.still t rezero).chosenClass t = s.chosenClass t := by
  have kept := Transport.comesToRest_kept (x := (s.tr t).abandoned) h
  rw [State.still_shut _ shut, State.chosenClass_upd kept.2.2, State.tr_upd_same, Transport.comesToRest_counter]
  exact ⟨rfl, kept.1, kept.2.1, rfl⟩

/-- An order that ends where its capstan comes to rest. -/
theorem rampEnd_orderEnds {status : Completion} (ramp : (s.tr t).cap.seg.cond = .ramping k) (goal : k.goal = .toRest rezero)
    (owner : (s.tr t).cap.seg.owner = some .orders) (shut : (s.tr t).capture.windows = [])
    (list : (s.tr t).orders.list = [.running o w]) (h : rezero = false ∨ (s.tr t).cap.seg.approach = .returning)
    (event : (s.still t rezero).ordersAtRest t rezero = (s.still t rezero).orderEnd t status .ready) :
    ∃ r, exec (.capstanRampEnd t) s = .next r ∧ s.sameOutside t r ∧ (r.tr t).sequencer.state = .ready ∧
      (r.tr t).cap.counter = (if rezero then 0 else (s.tr t).cap.counter) ∧ (r.tr t).cap.conf = (s.tr t).cap.conf ∧
      (r.tr t).cap.seg.cond = .atRest ∧
      (r.tr t).orders.list = [.record (o.ended w status (if rezero then 0 else (s.tr t).cap.counter))] := by
  obtain ⟨counter, conf, -, -⟩ := State.still_position shut h
  have rests := State.still_rests (rezero := rezero) shut
  have list' := State.still_list (rezero := rezero) shut list
  refine ⟨_, (exec_rampEnd_rest ramp goal owner).trans (congrArg _ (event.trans (State.orderEnd_single status list'))), ?_⟩
  refine ⟨?_, ?_⟩
  · rw [State.still_shut _ shut, State.upd_upd]
    exact State.sameOutside_upd _ _ _
  · rw [State.tr_upd_same, Transport.orderDone_list status list', counter]
    exact ⟨rfl, counter, conf, rests, rfl⟩

/-- An order that goes on from where its capstan comes to rest. -/
theorem rampEnd_orderRuns {q : RunReq} {f : Order → Work → Work} (ramp : (s.tr t).cap.seg.cond = .ramping k)
    (goal : k.goal = .toRest rezero) (owner : (s.tr t).cap.seg.owner = some .orders)
    (shut : (s.tr t).capture.windows = []) (list : (s.tr t).orders.list = [.running o w])
    (h : rezero = false ∨ (s.tr t).cap.seg.approach = .returning)
    (event : (s.still t rezero).ordersAtRest t rezero = (s.still t rezero).upd t fun x =>
      (x.modWork f).setsOff (s.still t rezero).clock ((s.still t rezero).chosenClass t) q false) :
    ∃ r, exec (.capstanRampEnd t) s = .next r ∧ s.sameOutside t r ∧ (r.tr t).sequencer = (s.tr t).sequencer ∧
      (r.tr t).cap.counter = (if rezero then 0 else (s.tr t).cap.counter) ∧ (r.tr t).cap.conf = (s.tr t).cap.conf ∧
      (r.tr t).orders.list = [.running o { f o w with runoutTarget := false }] ∧
      (r.tr t).cap.seg.startsFor .orders (s.chosenClass t) q := by
  obtain ⟨counter, conf, -, cls⟩ := State.still_position shut h
  have list' := State.still_list (rezero := rezero) shut list
  have seq : ((s.still t rezero).tr t).sequencer = (s.tr t).sequencer := by
    rw [State.still_shut _ shut, State.tr_upd_same]
    rfl
  rw [cls] at event
  refine ⟨_, (exec_rampEnd_rest ramp goal owner).trans (congrArg _ event), ?_, ?_⟩
  · rw [State.still_shut _ shut, State.upd_upd]
    exact State.sameOutside_upd _ _ _
  · rw [State.tr_upd_same]
    refine ⟨seq, counter, conf, ?_, Segment.started_startsFor _ _ _ _ _ _⟩
    refine Transport.setsOff_list (o := o) (w := f o w) _ _ _ _ ?_
    show replaceRunning _ ((s.still t rezero).tr t).orders.list = _
    rw [list']
    rfl

/-- A SEEK_MARK at rest goes on to its search. -/
theorem State.still_searches (shut : (s.tr t).capture.windows = []) (eot : (s.tr t).cap.eotPos = none)
    (h : rezero = false ∨ (s.tr t).cap.seg.approach = .returning) :
    (s.still t rezero).beginSearch t = (s.still t rezero).upd t fun x =>
      (x.modWork fun _ w => { w with phase := .search, reason := none }).setsOff (s.still t rezero).clock
        ((s.still t rezero).chosenClass t) (plainRun .forward .read none) false :=
  State.beginSearch_atRest (State.still_rests shut) ((State.still_position shut h).2.2.1.trans eot)

/-- The returning approach of an order that has met the load point (R95). -/
theorem State.still_returns (shut : (s.tr t).capture.windows = []) (list : (s.tr t).orders.list = [.running o w])
    (eot : (s.tr t).cap.eotPos = none) (h : rezero = false ∨ (s.tr t).cap.seg.approach = .returning) :
    (s.still t rezero).orderRun t returning = (s.still t rezero).upd t fun x =>
      (x.modWork fun _ _ => w).setsOff (s.still t rezero).clock ((s.still t rezero).chosenClass t) returning false := by
  have run := Transport.running_single (State.still_list (rezero := rezero) shut list)
  rw [State.orderRun_single (q := returning) (State.still_rests shut)
    ((State.still_position shut h).2.2.1.trans eot) rfl]
  exact State.upd_congr (congrArg (Transport.setsOff _ _ _ _) (Transport.modWork_self run).symm)

/-! ### The windows at rest (R71, R73) -/

theorem State.windowsAtRest_loose (h : ∀ v ∈ (s.tr t).capture.windows, v.fixed = false) :
    s.windowsAtRest t = s.upd t Transport.abandoned := by
  have none : s.windowMarks t (fun w => w.fixed) = [] := by
    refine List.filterMap_eq_nil_iff.mpr fun m _ => ?_
    cases e : (s.tr t).capture.windowOf m.number with
    | none => rfl
    | some v => simp [h v (Capture.windowOf_mem e)]
  unfold State.windowsAtRest
  rw [none]
  rfl

/-- The one window of a transport, fixed, is evaluated at rest, however often its mark's number stands in the list. -/
theorem State.windowsAtRest_fixed {v : Window} {m : Mark} (mark : findNumber v.number (s.boundMarks t) = some m)
    (window : (s.tr t).capture.windows = [v]) (fixed : v.fixed = true) :
    s.windowsAtRest t =
      ((s.upd t fun x => x.modCapture (Capture.dropWindow v.number)).evaluate t v).upd t Transport.abandoned := by
  have windowOf : ∀ n, (s.tr t).capture.windowOf n = if v.number = n then some v else none := fun n => by
    unfold Capture.windowOf
    rw [window]
    by_cases e : v.number = n <;> simp [e]
  have all : ∀ n ∈ s.windowMarks t (fun w => w.fixed), n = v.number := by
    intro n h
    obtain ⟨k, -, e⟩ := List.mem_filterMap.mp h
    rw [windowOf] at e
    split at e
    · rename_i u same
      split at same
      · rename_i number
        cases same
        rw [if_pos fixed] at e
        cases e
        exact number.symm
      · cases same
    · cases e
  have some : v.number ∈ s.windowMarks t (fun w => w.fixed) := by
    refine List.mem_filterMap.mpr ⟨m, List.mem_of_find?_eq_some mark, ?_⟩
    rw [findNumber_number mark, windowOf, if_pos rfl]
    simp [fixed]
  have closed : s.closeWindow t v.number = (s.upd t fun x => x.modCapture (Capture.dropWindow v.number)).evaluate t v := by
    unfold State.closeWindow
    rw [windowOf, if_pos rfl]
  have first : s.closeFixed t v.number = s.closeWindow t v.number := by
    unfold State.closeFixed
    rw [windowOf, if_pos rfl]
    exact if_pos fixed
  have again : ∀ l : List Nat, (∀ n ∈ l, n = v.number) →
      l.foldl (State.closeFixed t) (s.closeWindow t v.number) = s.closeWindow t v.number := fun l => by
    induction l with
    | nil => exact fun _ => rfl
    | cons n l ih =>
      intro h
      have idle : (s.closeWindow t v.number).closeFixed t v.number = s.closeWindow t v.number := by
        unfold State.closeFixed
        rw [State.closeWindow_shut]
      rw [List.foldl_cons, h n List.mem_cons_self, idle]
      exact ih fun j k => h j (List.mem_cons_of_mem _ k)
  unfold State.windowsAtRest
  cases e : s.windowMarks t (fun w => w.fixed) with
  | nil => rw [e] at some; cases some
  | cons n l =>
    rw [e] at all
    rw [List.foldl_cons, all n List.mem_cons_self, first, again l fun j h => all j (List.mem_cons_of_mem _ h), closed]
    rfl

theorem Transport.correct_orders (amount : Int) (x : Transport) : (x.correct amount).orders = x.orders := by
  unfold Transport.correct
  dsimp only
  repeat' split
  all_goals rfl

theorem State.evaluate_orders (v : Window) : ((s.evaluate t v).tr t).orders = (s.tr t).orders := by
  unfold State.evaluate State.doubt State.verify
  split
  · rfl
  · rw [State.tr_modBoundMarks]
  · split
    · rw [State.tr_upd_same]
      exact Transport.correct_orders _ _
    · split
      · rw [State.tr_modBoundMarks]
      · rfl

/-- An order stopped at rest ends where the evaluation of its one window has put the counter. -/
theorem rampEnd_evaluates {v : Window} {m : Mark} {i : Fin 16} {status : Completion}
    (ramp : (s.tr t).cap.seg.cond = .ramping k) (goal : k.goal = .toRest false)
    (owner : (s.tr t).cap.seg.owner = some .orders) (phase : w.phase = .stopping) (reason : w.reason = some status)
    (list : (s.tr t).orders.list = [.running o w]) (bound : s.boundIdx t = some i) (window : (s.tr t).capture.windows = [v])
    (mark : findNumber v.number s.marks[i] = some m) :
    ∃ r, exec (.capstanRampEnd t) s = .next r ∧ (r.tr t).sequencer.state = .ready ∧
      (r.tr t).orders.list = [completionRecord o w status (r.tr t).cap.counter] ∧ (r.tr t).cap.seg.cond = .atRest ∧
      (r.tr t).capture.windows = [] ∧ r.marks = (s.windowsAtRest t).marks ∧
      (r.tr t).cap.counter = ((s.windowsAtRest t).tr t).cap.counter ∧
      (r.tr t).cap.conf = ((s.windowsAtRest t).tr t).cap.conf := by
  have mark' : findNumber v.number (s.boundMarks t) = some m := by rw [State.boundMarks_of bound]; exact mark
  have kept : ((s.windowsAtRest t).tr t).orders.list = [.running o w] ∧
      ((s.windowsAtRest t).tr t).capture.windows = [] := by
    cases fixed : v.fixed
    · rw [State.windowsAtRest_loose fun u k => by rw [window] at k; exact List.mem_singleton.mp k ▸ fixed,
        State.tr_upd_same]
      exact ⟨list, rfl⟩
    · rw [State.windowsAtRest_fixed mark' window fixed, State.tr_upd_same]
      refine ⟨?_, rfl⟩
      refine (congrArg OrderSlots.list (State.evaluate_orders (t := t)
        (s := s.upd t fun x => x.modCapture (Capture.dropWindow v.number)) v)).trans ?_
      rw [State.tr_upd_same]
      exact list
  have list' : ((s.still t false).tr t).orders.list = [.running o w] := by
    rw [State.still, State.tr_upd_same]
    exact kept.1
  have event : (s.still t false).ordersAtRest t false = (s.windowsAtRest t).upd t fun x =>
      (x.comesToRest false).orderDone status := by
    rw [State.ordersAtRest_stopped _ (Transport.running_single list') phase reason, State.orderEnd_single status list',
      State.still, State.upd_upd]
  refine ⟨_, (exec_rampEnd_rest ramp goal owner).trans (congrArg Host.Outcome.next event), ?_⟩
  rw [State.tr_upd_same]
  refine ⟨rfl, ?_, rfl, kept.2, rfl, rfl, rfl⟩
  rw [completionRecord_eq]
  exact Transport.orderDone_list (x := ((s.windowsAtRest t).tr t).comesToRest false) status kept.1

/-- What the evaluation of the one window at rest makes of its mark and of the counter (R73, R17). -/
theorem State.windowsAtRest_evaluates {v : Window} {m : Mark} {i : Fin 16} (bound : s.boundIdx t = some i)
    (window : (s.tr t).capture.windows = [v]) (mark : findNumber v.number s.marks[i] = some m) :
    let r := s.windowsAtRest t
    let c := (s.tr t).cap
    (v.fixed = false → r.marks = s.marks ∧ (r.tr t).cap.counter = c.counter ∧ (r.tr t).cap.conf = c.conf) ∧
      ∀ gap, v.fixed = true → v.candidate = some gap →
        (m.state = .verified → c.conf ≠ .lost → -32768 ≤ c.counter + (m.pos - gap) →
          c.counter + (m.pos - gap) ≤ 8388607 →
          r.marks = s.marks ∧ (r.tr t).cap.counter = c.counter + (m.pos - gap) ∧ (r.tr t).cap.conf = .exact) ∧
        (m.state ≠ .verified → (r.tr t).cap.counter = c.counter ∧ (r.tr t).cap.conf = c.conf ∧
          r.marks = if c.conf = .exact then s.marks.set i
            (insertMark { m with state := .verified, pos := gap } (removeNumber v.number s.marks[i]))
          else s.marks) := by
  let q := s.upd t fun x => x.modCapture (Capture.dropWindow v.number)
  have tr : q.tr t = (s.tr t).modCapture (Capture.dropWindow v.number) := State.tr_upd_same _ _ _
  have bound' : q.boundIdx t = some i := bound
  have mark' : findNumber v.number (q.boundMarks t) = some m := by rw [State.boundMarks_of bound']; exact mark
  refine ⟨fun loose => ?_, fun gap fixed seen => ?_⟩
  · rw [State.windowsAtRest_loose fun u k => by rw [window] at k; exact List.mem_singleton.mp k ▸ loose,
      State.tr_upd_same]
    exact ⟨rfl, rfl, rfl⟩
  · rw [State.windowsAtRest_fixed (by rw [State.boundMarks_of bound]; exact mark) window fixed, State.tr_upd_same]
    refine ⟨fun verified conf least most => ?_, fun unverified => ?_⟩
    · rw [show (s.upd t fun x => x.modCapture (Capture.dropWindow v.number)) = q from rfl,
        State.evaluate_verified mark' seen verified, State.tr_upd_same, tr,
        Transport.correct_inRange (x := (s.tr t).modCapture _) conf least most]
      exact ⟨rfl, rfl, rfl⟩
    · rw [show (s.upd t fun x => x.modCapture (Capture.dropWindow v.number)) = q from rfl,
        State.evaluate_else mark' seen unverified, tr]
      by_cases exact : (s.tr t).cap.conf = .exact
      · rw [if_pos (by exact exact), State.verify, State.modBoundMarks_of bound', State.tr_setMarks, tr, if_pos exact]
        exact ⟨rfl, rfl, congrArg (s.marks.set i ·) (moveNumber_some _ mark)⟩
      · rw [if_neg (by exact exact), tr, if_neg exact]
        exact ⟨rfl, rfl, rfl⟩

/-! ### The next pending order (R87) -/

theorem State.startPending_waits {n : Nat}
    (h : ¬((s.tr t).sequencer.state = .ready ∧ (s.tr t).sequencer.online = true ∧ (s.tr t).running = none)) :
    s.startPending t n = s := by
  cases n with
  | zero => rfl
  | succ n => exact if_neg h

theorem State.startPending_launches {n : Nat} (state : (s.tr t).sequencer.state = .ready)
    (online : (s.tr t).sequencer.online = true) (idle : (s.tr t).running = none)
    (oldest : oldestPending (s.tr t).orders.list = some o) (check : s.startCheck t o.kind = none) :
    s.startPending t (n + 1) = s.launch t o.kind := by
  unfold State.startPending
  dsimp only
  rw [if_pos ⟨state, online, idle⟩, oldest]
  dsimp only
  rw [check]

/-- A transport whose oldest pending order has become the running one (R87). -/
def Transport.launched (kind : OrderKind) (x : Transport) : Transport :=
  x.modList (replaceOldest fun o => .running o (Work.fresh x.cap.counter kind.firstPhase))

theorem State.launch_spaceR (n : Nat) (cond : (s.tr t).cap.seg.cond = .atRest) :
    s.launch t (.spaceR n) = s.upd t fun x => ((x.launched (.spaceR n)).setState .moving).setsOff s.clock
      (s.chosenClass t) (plainRun .reverse .read none) false := by
  unfold State.launch State.beginPlan
  dsimp only
  rw [State.upd_upd, State.orderRun_atRest (b := false) (target := none) (by rw [State.tr_upd_same]; exact cond)
    (Transport.runoutLimit_reverse _ _) (RunReq.ahead_none rfl), State.upd_upd, State.chosenClass_upd rfl]
  rfl

theorem State.startPending_ends {n : Nat} {status : Completion} {barrier : Option Nat}
    (state : (s.tr t).sequencer.state = .ready) (online : (s.tr t).sequencer.online = true)
    (idle : (s.tr t).running = none) (oldest : oldestPending (s.tr t).orders.list = some o)
    (check : s.startCheck t o.kind = some (status, barrier)) :
    s.startPending t (n + 1) = State.startPending t n
      (s.upd t (Transport.modList
        (replaceOldest fun k => .record (k.endedAtStart status barrier (s.tr t).cap.counter)))) := by
  rw [State.startPending]
  rw [if_pos ⟨state, online, idle⟩, oldest]
  dsimp only
  rw [check]

/-- A SPACE_R pending behind an order that ends starts, if the transport is online (R88, R94). -/
theorem rampEnd_startsNext {tag : Byte} {n : Nat} {status : Completion} (ramp : (s.tr t).cap.seg.cond = .ramping k)
    (goal : k.goal = .toRest false) (owner : (s.tr t).cap.seg.owner = some .orders) (phase : w.phase = .stopping)
    (reason : w.reason = some status) (shut : (s.tr t).capture.windows = [])
    (list : (s.tr t).orders.list = [.running o w, .pending { tag := tag, kind := .spaceR n }]) :
    let record := completionRecord o w status (s.tr t).cap.counter
    ∃ r, exec (.capstanRampEnd t) s = .next r ∧ s.sameOutside t r ∧
      ((s.tr t).sequencer.online = false → (r.tr t).sequencer.state = .ready ∧
        (r.tr t).orders.list = [record, .pending { tag := tag, kind := .spaceR n }]) ∧
      ((s.tr t).sequencer.online = true → (r.tr t).sequencer.state = .moving ∧
        (∃ k, (r.tr t).orders.list = [record, .running { tag := tag, kind := .spaceR n } k] ∧
          k.start = (s.tr t).cap.counter ∧ k.count = 0 ∧ k.phase = .readLeg ∧ k.reason = none) ∧
        (r.tr t).cap.seg.startsFor .orders (s.chosenClass t)
          { dir := .reverse, speed := .read, target := none, approach := .none }) := by
  let y := ((s.tr t).abandoned.comesToRest false).orderDone status
  let q := s.upd t fun _ => y
  have tr : q.tr t = y := State.tr_upd_same _ _ _
  have list' : (q.tr t).orders.list =
      [completionRecord o w status (s.tr t).cap.counter, .pending { tag := tag, kind := .spaceR n }] := by
    rw [tr, completionRecord_eq]
    exact Transport.orderDone_list (x := (s.tr t).abandoned.comesToRest false) status list
  have record := completionRecord_eq o w status (s.tr t).cap.counter
  have idle : (q.tr t).running = none := by
    unfold Transport.running
    rw [list', record]
    rfl
  have oldest : oldestPending (q.tr t).orders.list = some { tag := tag, kind := .spaceR n } := by
    rw [list', record]
    rfl
  have ran : exec (.capstanRampEnd t) s = .next (q.startPending t 2) := by
    have run : ((s.still t false).tr t).running = some (o, w) := by
      rw [State.still_shut _ shut, State.tr_upd_same]
      unfold Transport.running
      rw [show ((s.tr t).abandoned.comesToRest false).orders.list = _ from list]
      rfl
    refine (exec_rampEnd_rest ramp goal owner).trans (congrArg Host.Outcome.next ?_)
    refine (State.ordersAtRest_stopped _ run phase reason).trans ?_
    have ended : (s.still t false).upd t (fun x => (x.makeRecord status).setState .ready) = q := by
      rw [State.still_shut _ shut, State.upd_upd]
      exact State.upd_congr rfl
    rw [State.orderEnd, ended, State.startNext, list']
    rfl
  refine ⟨_, ran, ?_⟩
  cases online : (s.tr t).sequencer.online
  · have waits : q.startPending t 2 = q := State.startPending_waits fun h => by
      have on : (s.tr t).sequencer.online = true := by
        have e := h.2.1
        rw [tr] at e
        exact e
      rw [online] at on
      cases on
    rw [waits]
    exact ⟨State.sameOutside_upd _ _ _, fun _ => ⟨by rw [tr]; rfl, list'⟩, nofun⟩
  · have starts : q.startPending t 2 = s.upd t fun _ => ((y.launched (.spaceR n)).setState .moving).setsOff s.clock
        (s.chosenClass t) (plainRun .reverse .read none) false := by
      rw [State.startPending_launches (by rw [tr]; rfl) (by rw [tr]; exact online) idle oldest rfl,
        State.launch_spaceR n (by rw [tr]; rfl), State.upd_upd, State.chosenClass_upd rfl]
      rfl
    rw [tr] at list'
    rw [starts, State.tr_upd_same]
    refine ⟨State.sameOutside_upd _ _ _, nofun, fun _ => ⟨rfl,
      ⟨{ Work.fresh (s.tr t).cap.counter .readLeg with runoutTarget := false }, ?_, rfl, rfl, rfl, rfl⟩,
      Segment.started_startsFor _ _ _ _ _ _⟩⟩
    show replaceRunning _ (replaceOldest _ y.orders.list) = _
    rw [list', record]
    rfl

end

/-- Settles O27. -/
theorem rampsEnd : Obligations.RampsEnd := by
  intro t s
  refine ⟨fun k ramp goal => ?_, fun steady => ?_, fun k ramp goal approach owner state shut =>
    rampEnd_loads ramp goal approach owner state shut, fun k ramp goal owner state shut =>
    rampEnd_loadFails ramp goal owner state shut, fun k o d v ramp goal owner dir speed stand shut =>
    rampEnd_throughRest ramp goal owner dir speed stand shut, fun k rezero o w ramp goal owner state eot shut list => ?_,
    fun k o w status ramp goal owner state phase reason => ⟨fun list => ⟨fun shut => ?_, fun i v m bound window mark => ?_⟩,
      fun tag n shut list => rampEnd_startsNext ramp goal owner phase reason shut list⟩⟩
  · refine congrArg Host.Outcome.next ?_
    unfold State.rampEnd
    rw [ramp]
    dsimp only
    rw [goal]
  · refine congrArg Host.Outcome.next ?_
    unfold State.rampEnd
    split
    · rename_i k e
      exact absurd e (steady k)
    · rfl
  · intro counter ended runs search
    have run := fun b => Transport.running_single (State.still_list (rezero := b) shut list)
    have ends : ∀ status, status = .halted ∨ status = .loadPoint → (∃ n, o.kind = .spaceR n) ∨ (∃ p, o.kind = .seekPos p) ∨
        (∃ m, o.kind = .seekMark m) → (rezero = false ∨ (s.tr t).cap.seg.approach = .returning) →
        (s.still t rezero).ordersAtRest t rezero = (s.still t rezero).orderEnd t status .ready → ended status := by
      intro status done kinds h event
      obtain ⟨r, ran, outside, state, counter, conf, rests, ended⟩ := rampEnd_orderEnds ramp goal owner shut list h event
      refine ⟨r, ran, outside, state, counter, conf, rests, ended.trans (congrArg (fun k => [Slot.record k]) ?_)⟩
      obtain ⟨tag, kind⟩ := o
      rcases kinds with ⟨n, e⟩ | ⟨p, e⟩ | ⟨m, e⟩ <;> cases e <;> rcases done with rfl | rfl <;> rfl
    have searches : ∀ h : rezero = false ∨ (s.tr t).cap.seg.approach = .returning,
        (s.still t rezero).ordersAtRest t rezero = (s.still t rezero).beginSearch t → runs .read .none search := fun h event =>
      rampEnd_orderRuns ramp goal owner shut list h (event.trans (State.still_searches shut eot h))
    refine ⟨fun m kind rest phase reason => ?_, fun rest phase ahead => ?_, fun rest phase approach => ?_⟩
    · have event := State.ordersAtRest_turns rezero (run rezero) phase reason kind
      refine ⟨fun going => searches (.inl rest) (event.trans (if_neg (by simp [going]))), fun halted => ?_⟩
      exact ends .halted (.inl rfl) (.inr (.inr ⟨m, kind⟩)) (.inl rest) (event.trans (if_pos halted))
    · have event := State.ordersAtRest_approach rezero (run rezero) phase
      rw [State.approachAtRest, if_neg (by simp [rest]), if_neg (by simp [ahead])] at event
      obtain ⟨r, ran, outside, seq, at_, conf, goes, starts⟩ := rampEnd_orderRuns ramp goal owner shut list (.inl rest)
        (event.trans (State.still_returns shut list eot (.inl rest)))
      refine ⟨r, ran, outside, seq, at_, conf, ?_, starts⟩
      rw [goes, ← ahead]
    · have event := State.ordersAtRest_approach rezero (run rezero) phase
      rw [State.approachAtRest, if_pos rest] at event
      refine ⟨fun kinds => ?_, fun m kind => ⟨fun going => ?_, fun halted => ?_⟩⟩
      · refine ends .loadPoint (.inr rfl) (kinds.elim .inl fun k => .inr (.inl k)) (.inr approach) (event.trans ?_)
        rcases kinds with ⟨n, e⟩ | ⟨p, e⟩ <;> rw [e]
      · refine searches (.inr approach) (event.trans ?_)
        rw [kind]
        exact if_neg (by simp [going])
      · refine ends .halted (.inl rfl) (.inr (.inr ⟨m, kind⟩)) (.inr approach) (event.trans ?_)
        rw [kind]
        exact if_pos halted
  · obtain ⟨r, ran, outside, state, counter, conf, rests, ended⟩ := rampEnd_orderEnds (status := status) ramp goal owner shut
      list (.inl rfl) (State.ordersAtRest_stopped _ (Transport.running_single (State.still_list shut list)) phase reason)
    exact ⟨r, ran, outside, state, ended.trans (congrArg (fun k => [k]) (completionRecord_eq _ _ _ _).symm), rests, counter,
      conf⟩
  · obtain ⟨r, ran, state, list, rests, windows, marks, counter, conf⟩ :=
      rampEnd_evaluates ramp goal owner phase reason list bound window mark
    have judged := State.windowsAtRest_evaluates bound window mark
    dsimp only at judged
    rw [← marks, ← counter, ← conf] at judged
    exact ⟨r, ran, state, list, rests, windows, judged⟩

end Sys2Proof.Machine
end

