-- ==== Sys2Proof/Proofs/Coasts.lean ====
section
/-! PROOF. The hold entry, the tachometer loss, and the end of a coast. -/

namespace Sys2Proof.Machine

open Sys2Proof

/-! ### The hold entry (R149) -/

theorem Transport.takeCause_tripping {now : Nat} {cause : Cause} {x : Transport} (h : x.sequencer.state.tripping = true) :
    x.takeCause now cause = x.holdEntry now cause := by
  unfold Transport.takeCause
  cases e : x.sequencer.state <;> rw [e] at h <;> first | rfl | cases h

theorem Transport.takeCause_held {now : Nat} {cause : Cause} {x : Transport} (h : x.sequencer.state = .held) :
    x.takeCause now cause = { x with prot := x.prot.withFurther cause } := by
  unfold Transport.takeCause
  rw [h]
  rfl

/-- The order list after a hold entry (R105, R103). -/
theorem Transport.faulted (x : Transport) : (x.makeRecord .fault).discard.orders.list = faultedList x.cap.counter x.orders.list := by
  have ended : (fun (o : Order) (w : Work) => Slot.record (o.ended w .fault x.cap.counter)) = fun o w => .record
      { tag := o.tag, kind := o.kind, status := .fault
        count := match o.kind with
          | .spaceF _ => w.count
          | .spaceR _ => w.count
          | .advance _ => (min 65535 (max 0 w.net)).toNat
          | _ => 0
        finalPos := some x.cap.counter
        markNumber := match o.kind with
          | .seekMark m => some m
          | _ => none } := by
    funext ⟨tag, kind⟩ w
    cases kind <;> rfl
  show List.map _ (replaceRunning (fun (o : Order) (w : Work) => Slot.record (o.ended w .fault x.cap.counter)) _) = _
  rw [ended]
  refine List.map_congr_left fun sl _ => ?_
  cases sl with
  | pending o =>
    obtain ⟨tag, kind⟩ := o
    cases kind <;> rfl
  | running o w => rfl
  | record k => rfl

theorem Sequencer.holdEntry_eq (q : Sequencer) :
    q.holdEntry = { q with
      state := .held, panelMotion := false, loadTimer := none, quiet := none, ending := false, lpStop := false
      loadResult := match q.state with
        | .loading _ => .interrupted
        | _ => q.loadResult } := by
  unfold Sequencer.holdEntry Sequencer.resultAfterHold
  cases q.state <;> rfl

theorem Capstan.holdEntry_conf (c : Capstan) :
    c.holdEntry.conf = if c.seg.moving = true ∧ c.conf = .exact then .coasted else c.conf := by
  unfold Capstan.holdEntry
  simp

/-- A hold entry of a transport that differs from `x` in its reels and its Protection Unit alone (R149). -/
theorem Transport.holdEntry_heldBy (now : Nat) {cause : Cause} (x : Transport) (a b : ReelDrive) (p : Protection)
    (h : cause ≠ .capstanTachLoss) :
    x.heldBy cause (Transport.holdEntry now cause { x with supply := a, takeup := b, prot := p }) := by
  refine ⟨Sequencer.holdEntry_eq _, rfl, ReelDrive.off_cut _, ReelDrive.off_cut _, rfl, rfl, rfl, rfl, rfl, ?_, rfl, ?_, rfl,
    rfl, rfl, rfl⟩
  · rw [if_neg h]
    exact Capstan.holdEntry_conf x.cap
  · exact congrArg (fun l => { x.orders with list := l }) x.faulted

/-- The hold entry of a tachometer loss, which makes the confidence LOST (R15, R149). -/
theorem Transport.holdEntry_tachLoss (now : Nat) (x : Transport) :
    x.heldBy .capstanTachLoss (x.loseConfidence.holdEntry now .capstanTachLoss) := by
  refine ⟨Sequencer.holdEntry_eq _, rfl, ReelDrive.off_cut _, ReelDrive.off_cut _, rfl, rfl, rfl, rfl, rfl, ?_, rfl, ?_, rfl,
    rfl, rfl, rfl⟩
  · exact (Capstan.holdEntry_conf x.loseConfidence.cap).trans (if_neg fun k => absurd k.2 nofun)
  · exact congrArg (fun l => { x.orders with list := l }) x.loseConfidence.faulted

/-! ### Causes at the moment of a hold entry (R147, R151) -/

/-- What may still be handed at the moment of a hold entry. -/
theorem Transport.heldNow_iff (now : Nat) (armed : HoldMoment → Bool) (x : Transport) :
    x.heldNow now armed ↔ ((x.lateHold now).map armed).getD false = true := by
  unfold Transport.heldNow Transport.lateHold
  by_cases held : x.sequencer.state = .held
  · rw [if_pos held]
    cases e : x.prot.moment with
    | none => simp
    | some m =>
      by_cases clock : m.clock = now <;> simp [held, Option.filter, clock]
  · rw [if_neg held]
    simp [held]

theorem Transport.lateTach_iff (now : Nat) (x : Transport) : x.lateTach now = true ↔ x.heldNow now fun m => m.tach :=
  (Transport.heldNow_iff now _ x).symm

section
variable {t : TNum} {s : State} {o : Order} {w : Work}

theorem exec_tachLoss (h : (s.tr t).cap.seg.driven = true ∨ (s.tr t).heldNow s.clock fun m => m.tach) :
    exec (.capstanTachLoss t) s = .next (s.upd t fun x => x.loseConfidence.takeCause s.clock .capstanTachLoss) := by
  refine congrArg Host.Outcome.next (if_pos ?_)
  rw [← Transport.lateTach_iff] at h
  simpa using h

/-! ### The end of a coast (R16) -/

theorem Capstan.accept_orders {c : Capstan} (h : c.refusedOrders = none) : c.accept .orders = c := by
  unfold Capstan.accept
  rw [← h]

theorem Capstan.accept_sequencer {c : Capstan} (h : c.refusedSequencer = none) : c.accept .sequencer = c := by
  unfold Capstan.accept
  rw [← h]

/-- A transport whose coast has ended. -/
def Transport.coasted (x : Transport) : Transport := { x with cap := { x.cap with seg := x.cap.seg.rested } }

theorem State.retryOrders_none (h : (s.tr t).cap.refusedOrders = none) : s.retryOrders t = s := by
  have clear : (s.upd t fun x => { x with cap := x.cap.accept .orders }) = s :=
    State.upd_id _ _ _ (by rw [Capstan.accept_orders h])
  unfold State.retryOrders
  dsimp only
  rw [clear, h]

theorem State.retrySequencer_none (h : (s.tr t).cap.refusedSequencer = none) : s.retrySequencer t = s := by
  have clear : (s.upd t fun x => { x with cap := x.cap.accept .sequencer }) = s :=
    State.upd_id _ _ _ (by rw [Capstan.accept_sequencer h])
  unfold State.retrySequencer
  dsimp only
  rw [clear, h]
  split <;> rfl

/-- A transport at rest with nothing of the Order Slots waiting. -/
def Transport.accepts (o : Owner) (x : Transport) : Transport := { x with cap := x.cap.accept o }

theorem State.retryOrders_run {q : RunReq} (run : (s.tr t).running = some (o, w))
    (waits : (s.tr t).cap.refusedOrders = some (.run q)) :
    s.retryOrders t = (s.upd t (Transport.accepts .orders)).orderRun t q := by
  unfold State.retryOrders
  dsimp only
  rw [waits, run]
  rfl

theorem State.retryOrders_stop (run : (s.tr t).running = some (o, w)) (waits : (s.tr t).cap.refusedOrders = some .stop) :
    s.retryOrders t = (s.upd t (Transport.accepts .orders)).stop t .orders := by
  unfold State.retryOrders
  dsimp only
  rw [waits, run]
  rfl

theorem State.retrySequencer_run {q : RunReq} (driven : (s.tr t).sequencer.state.driven = true)
    (waits : (s.tr t).cap.refusedSequencer = some (.run q)) :
    s.retrySequencer t = (s.upd t (Transport.accepts .sequencer)).run t .sequencer q := by
  unfold State.retrySequencer
  dsimp only
  rw [if_pos driven, waits]
  rfl

/-- A STOP at rest hands the at-rest event at once (R12). -/
theorem State.stop_atRest (b : Owner) (h : (s.tr t).cap.seg.cond = .atRest) :
    s.stop t b = (s.upd t (Transport.accepts b)).atRestEvent t b false := by
  unfold State.stop
  rw [h]
  rfl

theorem exec_coastEnd (cond : (s.tr t).cap.seg.cond = .coasting) :
    exec (.coastEnd t) s = .next (((s.upd t Transport.coasted).retryOrders t).retrySequencer t) := by
  refine congrArg Host.Outcome.next ?_
  unfold State.coastEnd
  rw [cond]
  rfl

/-- The stop target of a RUN of an order under the runout position in force (R89). -/
theorem Transport.runoutLimit_eq (d : Dir) (target : Option Int) (x : Transport) :
    ∃ b, x.runoutLimit d target =
      (match d, x.cap.eotPos.map (fun e => e + 30000), target with
        | .forward, some e, none => some e
        | .forward, some e, some p => some (min e p)
        | _, _, p => p, b) ∧
      (b = true ↔ d = .forward ∧ ∃ e, x.cap.eotPos.map (fun e => e + 30000) = some e ∧ ∀ p, target = some p → e < p) := by
  unfold Transport.runoutLimit Capstan.runout
  cases d with
  | reverse => exact ⟨false, rfl, by simp⟩
  | forward =>
    cases x.cap.eotPos with
    | none => exact ⟨false, rfl, by simp⟩
    | some e =>
      cases target with
      | none => exact ⟨true, rfl, by simp⟩
      | some p =>
        by_cases h : e + 30000 < p
        · exact ⟨true, by simp [Config.eotRunout, h, Int.min_eq_left (Int.le_of_lt h)], by simp [h]⟩
        · exact ⟨false, by simp [Config.eotRunout, h, Int.min_eq_right (Int.not_lt.mp h)], by simp [h]⟩

/-- A RUN of an order that waits for the end of a coast is made again from rest. -/
theorem coastEnd_runs {q : RunReq} {target : Option Int} {b : Bool} (cond : (s.tr t).cap.seg.cond = .coasting)
    (run : (s.tr t).running = some (o, w)) (waits : (s.tr t).cap.refusedOrders = some (.run q))
    (alone : (s.tr t).cap.refusedSequencer = none) (limit : (s.tr t).runoutLimit q.dir q.target = (target, b))
    (ahead : { q with target := target }.ahead (s.tr t).cap.counter) :
    exec (.coastEnd t) s = .next (s.upd t fun x => ((x.coasted).accepts .orders).setsOff s.clock (s.chosenClass t)
      { q with target := target } b) := by
  have tr : (s.upd t Transport.coasted).tr t = (s.tr t).coasted := State.tr_upd_same _ _ _
  have orders : (s.upd t Transport.coasted).retryOrders t = s.upd t fun x =>
      ((x.coasted).accepts .orders).setsOff s.clock (s.chosenClass t) { q with target := target } b := by
    rw [State.retryOrders_run (by rw [tr]; exact run) (by rw [tr]; exact waits), State.upd_upd,
      State.orderRun_atRest (target := target) (b := b) (by rw [State.tr_upd_same]; rfl) (by rw [State.tr_upd_same]; exact limit)
        (by rw [State.tr_upd_same]; exact ahead), State.upd_upd, State.chosenClass_upd rfl]
    rfl
  rw [exec_coastEnd cond, orders, State.retrySequencer_none]
  rw [State.tr_upd_same]
  exact alone

/-- A STOP of an order that waits for the end of a coast hands the at-rest event. -/
theorem coastEnd_stops {f : Transport → Transport} (cond : (s.tr t).cap.seg.cond = .coasting)
    (run : (s.tr t).running = some (o, w)) (waits : (s.tr t).cap.refusedOrders = some .stop)
    (event : (s.upd t fun x => ((x.coasted).accepts .orders).accepts .orders).ordersAtRest t false = s.upd t f)
    (alone : (f (s.tr t)).cap.refusedSequencer = none) : exec (.coastEnd t) s = .next (s.upd t f) := by
  have tr : (s.upd t Transport.coasted).tr t = (s.tr t).coasted := State.tr_upd_same _ _ _
  have orders : (s.upd t Transport.coasted).retryOrders t = s.upd t f := by
    rw [State.retryOrders_stop (by rw [tr]; exact run) (by rw [tr]; exact waits), State.upd_upd,
      State.stop_atRest _ (by rw [State.tr_upd_same]; rfl), State.upd_upd]
    exact event
  rw [exec_coastEnd cond, orders, State.retrySequencer_none (by rw [State.tr_upd_same]; exact alone)]

/-- A RUN of the Sequencer that waits for the end of a coast is made again from rest. -/
theorem coastEnd_sequence {q : RunReq} (cond : (s.tr t).cap.seg.cond = .coasting) (idle : (s.tr t).cap.refusedOrders = none)
    (waits : (s.tr t).cap.refusedSequencer = some (.run q)) (driven : (s.tr t).sequencer.state.driven = true)
    (ahead : q.ahead (s.tr t).cap.counter) :
    exec (.coastEnd t) s = .next (s.upd t fun x => ((x.coasted).accepts .sequencer).takes .sequencer
      (x.cap.seg.rested.started s.clock (s.chosenClass t) x.cap.counter .sequencer q)) := by
  have tr : (s.upd t Transport.coasted).tr t = (s.tr t).coasted := State.tr_upd_same _ _ _
  have cls : State.chosenClass t ((s.upd t Transport.coasted).upd t (Transport.accepts .sequencer)) = s.chosenClass t :=
    (State.chosenClass_upd rfl).trans (State.chosenClass_upd rfl)
  rw [exec_coastEnd cond, State.retryOrders_none (by rw [tr]; exact idle),
    State.retrySequencer_run (by rw [tr]; exact driven) (by rw [tr]; exact waits), State.run, cls, State.upd_upd,
    State.upd_upd]
  refine congrArg Host.Outcome.next (State.upd_congr ?_)
  exact Transport.run_atRest (x := ((s.tr t).coasted).accepts .sequencer) rfl ahead

/-- A request of block `b` has been begun in `y` from rest, and nothing waits any more (R11). -/
def State.begins (t : TNum) (b : Owner) (q : RunReq) (y : Transport) (s : State) : Prop :=
  y.cap.seg.startsFor b (s.chosenClass t) q ∧ y.cap.refusedOrders = none ∧ y.cap.refusedSequencer = none ∧
    y.cap.counter = (s.tr t).cap.counter ∧ y.cap.conf = (s.tr t).cap.conf ∧ y.sequencer = (s.tr t).sequencer

theorem State.begins_setsOff {q : RunReq} {b : Bool} {x : Transport} (alone : x.cap.refusedSequencer = none)
    (counter : x.cap.counter = (s.tr t).cap.counter) (conf : x.cap.conf = (s.tr t).cap.conf)
    (seq : x.sequencer = (s.tr t).sequencer) :
    s.begins t .orders q (x.setsOff s.clock (s.chosenClass t) q b) := by
  have seg : (x.setsOff s.clock (s.chosenClass t) q b).cap.seg =
      x.cap.seg.started s.clock (s.chosenClass t) x.cap.counter .orders q := rfl
  refine ⟨?_, rfl, alone, counter, conf, seq⟩
  rw [seg]
  exact Segment.started_startsFor _ _ _ _ _ _

theorem State.begins_sequence {q : RunReq} {x : Transport} {counter : Int} {g : Segment}
    (idle : x.cap.refusedOrders = none) (at_ : x.cap.counter = (s.tr t).cap.counter)
    (conf : x.cap.conf = (s.tr t).cap.conf) (seq : x.sequencer = (s.tr t).sequencer) :
    s.begins t .sequencer q (x.takes .sequencer (g.started s.clock (s.chosenClass t) counter .sequencer q)) := by
  have seg : (x.takes .sequencer (g.started s.clock (s.chosenClass t) counter .sequencer q)).cap.seg =
      g.started s.clock (s.chosenClass t) counter .sequencer q := rfl
  refine ⟨?_, idle, rfl, at_, conf, seq⟩
  rw [seg]
  exact Segment.started_startsFor _ _ _ _ _ _

/-- The RUN of an order made again, with the working values that it leaves (R89). -/
theorem coastEnd_orderRuns {q : RunReq} {target : Option Int} {b : Bool} (cond : (s.tr t).cap.seg.cond = .coasting)
    (run : (s.tr t).running = some (o, w)) (waits : (s.tr t).cap.refusedOrders = some (.run q))
    (alone : (s.tr t).cap.refusedSequencer = none) (limit : (s.tr t).runoutLimit q.dir q.target = (target, b))
    (ahead : { q with target := target }.ahead (s.tr t).cap.counter) :
    ∃ r, exec (.coastEnd t) s = .next r ∧ s.sameOutside t r ∧
      s.begins t .orders { q with target := target } (r.tr t) ∧ (r.tr t).running = some (o, { w with runoutTarget := b }) := by
  refine ⟨_, coastEnd_runs cond run waits alone limit ahead, State.sameOutside_upd _ _ _, ?_⟩
  rw [State.tr_upd_same]
  exact ⟨State.begins_setsOff (x := ((s.tr t).coasted).accepts .orders) alone rfl rfl rfl,
    (Transport.modWork_running (((s.tr t).coasted).accepts .orders) fun _ w => { w with runoutTarget := b }).trans
      (congrArg (Option.map _) run)⟩

/-- The STOP of an order made again at rest ends the order (R88). -/
theorem coastEnd_orderEnds {status : Completion} (cond : (s.tr t).cap.seg.cond = .coasting)
    (list : (s.tr t).orders.list = [.running o w]) (waits : (s.tr t).cap.refusedOrders = some .stop)
    (alone : (s.tr t).cap.refusedSequencer = none) (phase : w.phase = .stopping) (reason : w.reason = some status) :
    ∃ r, exec (.coastEnd t) s = .next r ∧ s.sameOutside t r ∧ (r.tr t).sequencer.state = .ready ∧
      (r.tr t).cap.seg.cond = .atRest ∧ (r.tr t).cap.counter = (s.tr t).cap.counter ∧
      (r.tr t).cap.conf = (s.tr t).cap.conf ∧
      (r.tr t).orders.list = [completionRecord o w status (s.tr t).cap.counter] := by
  let q := s.upd t fun x => ((x.coasted).accepts .orders).accepts .orders
  have list' : (q.tr t).orders.list = [.running o w] := by
    rw [State.tr_upd_same]
    exact list
  have event : q.ordersAtRest t false = s.upd t fun x =>
      Transport.orderDone status (((x.coasted).accepts .orders).accepts .orders) := by
    rw [State.ordersAtRest_stopped _ (Transport.running_single list') phase reason, State.orderEnd_single _ list',
      State.upd_upd]
  refine ⟨_, coastEnd_stops cond (Transport.running_single list) waits event alone, State.sameOutside_upd _ _ _, ?_⟩
  rw [State.tr_upd_same, completionRecord_eq]
  exact ⟨rfl, rfl, rfl, rfl,
    Transport.orderDone_list (x := ((s.tr t).coasted.accepts .orders).accepts .orders) status list⟩

/-- The STOP of an order that met the load point, made again at rest, begins its returning approach (R95). -/
theorem coastEnd_orderReturns (cond : (s.tr t).cap.seg.cond = .coasting) (list : (s.tr t).orders.list = [.running o w])
    (waits : (s.tr t).cap.refusedOrders = some .stop) (alone : (s.tr t).cap.refusedSequencer = none)
    (phase : w.phase = .approach) (limit : w.runoutTarget = false) (eot : (s.tr t).cap.eotPos = none) :
    ∃ r, exec (.coastEnd t) s = .next r ∧ s.sameOutside t r ∧ s.begins t .orders returning (r.tr t) ∧
      (r.tr t).orders = (s.tr t).orders := by
  let q := s.upd t fun x => ((x.coasted).accepts .orders).accepts .orders
  have tr : q.tr t = ((s.tr t).coasted.accepts .orders).accepts .orders := State.tr_upd_same _ _ _
  have event : q.ordersAtRest t false = s.upd t fun x =>
      (((x.coasted).accepts .orders).accepts .orders).setsOff s.clock (s.chosenClass t) returning false := by
    rw [State.ordersAtRest_approach _ (Transport.running_single (by rw [tr]; exact list)) phase,
      State.approachAtRest, if_neg nofun, if_neg (by simp [limit]),
      State.orderRun_single (by rw [tr]; rfl) (by rw [tr]; exact eot) rfl, State.upd_upd, State.chosenClass_upd rfl]
    rfl
  refine ⟨_, coastEnd_stops cond (Transport.running_single list) waits event alone, State.sameOutside_upd _ _ _, ?_⟩
  rw [State.tr_upd_same]
  refine ⟨State.begins_setsOff (x := ((s.tr t).coasted.accepts .orders).accepts .orders) alone rfl rfl rfl, ?_⟩
  have same := Transport.setsOff_list (x := ((s.tr t).coasted.accepts .orders).accepts .orders) s.clock
    (s.chosenClass t) returning false list
  have list' : [Slot.running o { w with runoutTarget := false }] = (s.tr t).orders.list := by rw [list, ← limit]
  exact congrArg (fun l => { (s.tr t).orders with list := l }) (same.trans list')

/-- The RUN of the Sequencer made again. -/
theorem coastEnd_sequenceRuns {q : RunReq} (cond : (s.tr t).cap.seg.cond = .coasting)
    (idle : (s.tr t).cap.refusedOrders = none) (waits : (s.tr t).cap.refusedSequencer = some (.run q))
    (driven : (s.tr t).sequencer.state.driven = true) (ahead : q.ahead (s.tr t).cap.counter) :
    ∃ r, exec (.coastEnd t) s = .next r ∧ s.sameOutside t r ∧ s.begins t .sequencer q (r.tr t) ∧
      (r.tr t).orders = (s.tr t).orders := by
  refine ⟨_, coastEnd_sequence cond idle waits driven ahead, State.sameOutside_upd _ _ _, ?_⟩
  rw [State.tr_upd_same]
  exact ⟨State.begins_sequence (x := ((s.tr t).coasted).accepts .sequencer) idle rfl rfl rfl, rfl⟩

theorem XState.driven_of_sequence {q : XState} (h : q.rewindPhase?.isSome = true ∨ q = .loading .findLoadPoint) :
    q.driven = true := by
  rcases h with phase | rfl
  · cases q with
    | rewinding p => rfl
    | unloading u => cases u <;> simp [XState.rewindPhase?, XState.driven] at phase ⊢
    | _ => simp [XState.rewindPhase?] at phase
  · rfl

end

/-- Settles O23. -/
theorem tachLossHoldsAndCoastsEnd : Obligations.TachLossHoldsAndCoastsEnd := by
  intro t s late
  refine ⟨fun driven tripping => ?_, fun held => ?_, fun idle free => ?_, fun cond orders seq => ?_, fun other => ?_,
    fun cond => ?_⟩
  · refine ⟨_, exec_tachLoss (.inl driven), State.sameOutside_upd _ _ _, ?_⟩
    rw [State.tr_upd_same, Transport.takeCause_tripping (by exact tripping)]
    have h := Transport.holdEntry_tachLoss s.clock (s.tr t)
    exact ⟨h, h.2.2.2.2.2.2.2.2.2.1⟩
  · rw [exec_tachLoss (.inr held)]
    refine congrArg Host.Outcome.next (State.upd_congr ?_)
    exact Transport.takeCause_held (x := (s.tr t).loseConfidence) held.1
  · refine congrArg Host.Outcome.next (if_neg ?_)
    have tach : ¬ (s.tr t).lateTach s.clock = true := fun k => free ((Transport.lateTach_iff _ _).mp k)
    simp [idle, tach]
  · have tr : (s.upd t Transport.coasted).tr t = (s.tr t).coasted := State.tr_upd_same _ _ _
    rw [exec_coastEnd cond, State.retryOrders_none (by rw [tr]; exact orders),
      State.retrySequencer_none (by rw [tr]; exact seq)]
    rfl
  · refine congrArg Host.Outcome.next ?_
    unfold State.coastEnd
    split
    · contradiction
    · rfl
  · intro c ahead starts meets
    refine ⟨fun o w q run waits alone => ?_, fun o w list waits alone => ⟨fun status phase reason =>
      coastEnd_orderEnds cond list waits alone phase reason, fun phase limit eot =>
      coastEnd_orderReturns cond list waits alone phase limit eot⟩, fun q idle waits far sequence => ?_⟩
    · intro runout bounded made far
      obtain ⟨b, limit, runs⟩ := Transport.runoutLimit_eq q.dir q.target (s.tr t)
      obtain ⟨r, ran, outside, begins, running⟩ := coastEnd_orderRuns (target := made.target) cond run waits alone limit far
      refine ⟨r, ran, outside, begins, fun k => ?_, fun k => ?_⟩
      · exact running.trans (by rw [runs.mpr k])
      · exact running.trans (by rw [Bool.eq_false_iff.mpr fun e => k (runs.mp e)])
    · exact coastEnd_sequenceRuns cond idle waits (XState.driven_of_sequence sequence) far

end Sys2Proof.Machine
end

