-- ==== Sys2Proof/Proofs/Switches.lean ====
section
/-! PROOF. The stalls, the debounced switches, and the table of armed causes. -/

namespace Sys2Proof.Machine

open Sys2Proof

section
variable {t : TNum} {s : State}

/-! ### Stalls (R140, R149, R151) -/

theorem stallCause_eq (e : Reel) : stallCause e = if e = .supply then .supplyStall else .takeupStall := by
  cases e <;> rfl

/-- A change of one reel is a change of the reels alone. -/
theorem Transport.modReel_eq (e : Reel) (f : ReelDrive → ReelDrive) (x : Transport) :
    ∃ a b, x.modReel e f = { x with supply := a, takeup := b } := by
  cases e <;> exact ⟨_, _, rfl⟩

theorem Transport.lateStall_iff (now : Nat) (e : Reel) (x : Transport) :
    x.lateStall now e = true ↔ x.heldNow now fun m => if e = .supply then m.supplyStall else m.takeupStall := by
  rw [Transport.heldNow_iff]
  unfold Transport.lateStall
  cases x.lateHold now <;> cases e <;> simp

theorem stallTime_holds (e : Reel) (tripping : (s.tr t).sequencer.state.tripping = true)
    (enabled : (s.tr t).prot.driveEnable = true) (timed : ((s.tr t).reel e).stall.isSome = true) :
    ∃ r, exec (.stallTimeReached t e) s = .next r ∧ s.sameOutside t r ∧
      (s.tr t).heldBy (if e = .supply then .supplyStall else .takeupStall) (r.tr t) := by
  refine ⟨_, congrArg Host.Outcome.next (if_pos (by simp [enabled, timed])), State.sameOutside_upd _ _ _, ?_⟩
  obtain ⟨a, b, reels⟩ := (s.tr t).modReel_eq e (ReelDrive.restartStall s.clock)
  rw [State.tr_upd_same, reels, Transport.takeCause_tripping (by exact tripping), ← stallCause_eq]
  exact Transport.holdEntry_heldBy _ _ a b _ (by cases e <;> nofun)

theorem stallTime_untimed (e : Reel) (untimed : ¬((s.tr t).prot.driveEnable = true ∧ ((s.tr t).reel e).stall.isSome = true)) :
    exec (.stallTimeReached t e) s =
      .next (if (s.tr t).lateStall s.clock e then s.upd t fun x => x.takeCause s.clock (stallCause e) else s) :=
  congrArg Host.Outcome.next (if_neg (by simpa using untimed))

/-! ### Switches (R148) -/

theorem SwitchInput.expire_timed {i : SwitchInput} (h : i.since.isSome = true) :
    i.expire = { raw := i.raw, debounced := i.raw, since := none } := by
  obtain ⟨b, since⟩ := Option.isSome_iff_exists.mp h
  rw [SwitchInput.expire, since]

/-- A switch that has expired. -/
def Transport.switched (w : Switch) (x : Transport) : Transport :=
  x.modInput w fun i => { raw := i.raw, debounced := i.raw, since := none }

theorem Transport.modInput_expire {w : Switch} {x : Transport} (h : (x.prot.input w).since.isSome = true) :
    x.modInput w SwitchInput.expire = x.switched w := by
  cases w <;> simp only [Transport.switched, Transport.modInput] <;> rw [SwitchInput.expire_timed (by exact h)]

/-- What the expiry of a switch hands to its transport. -/
theorem State.debounce_eq {w : Switch} (h : ((s.tr t).prot.input w).since.isSome = true) :
    s.debounce t w =
      let set := s.upd t fun x => (x.switched w).takeCause? s.clock ((x.switched w).switchCause w)
      if w = .vacuum then set.fillCheck t else set := by
  have set : (s.upd t fun x =>
      let y := x.modInput w SwitchInput.expire
      y.takeCause? s.clock (y.switchCause w)) =
      s.upd t fun x => (x.switched w).takeCause? s.clock ((x.switched w).switchCause w) := by
    refine State.upd_congr ?_
    dsimp only
    rw [Transport.modInput_expire h]
  unfold State.debounce
  rw [if_pos h]
  dsimp only
  rw [set]
  cases w <;> rfl

theorem State.fillCheck_else (h : (s.tr t).sequencer.state ≠ .loading .fill) : s.fillCheck t = s := if_neg fun k => h k.1

/-- A switch that hands a cause to a transport that it holds. -/
theorem debounce_holds {w : Switch} {cause : Cause} (tripping : (s.tr t).sequencer.state.tripping = true)
    (timed : ((s.tr t).prot.input w).since.isSome = true)
    (handed : ((s.tr t).switched w).switchCause w = some cause) (other : cause ≠ .capstanTachLoss) :
    ∃ r, exec (.switchDebounceExpiry t w) s = .next r ∧ s.sameOutside t r ∧ (s.tr t).heldBy cause (r.tr t) ∧
      (r.tr t).prot.input w = ((s.tr t).switched w).prot.input w := by
  have switched : ((s.tr t).switched w).takeCause? s.clock (((s.tr t).switched w).switchCause w) =
      ((s.tr t).switched w).holdEntry s.clock cause := by
    rw [handed]
    exact Transport.takeCause_tripping (by cases w <;> exact tripping)
  have debounced : s.debounce t w = s.upd t fun x => (x.switched w).holdEntry s.clock cause := by
    rw [State.debounce_eq timed]
    dsimp only
    rw [State.upd_congr (g := fun x => (x.switched w).holdEntry s.clock cause) switched, State.fillCheck_else, ite_self]
    rw [State.tr_upd_same]
    nofun
  refine ⟨_, congrArg Host.Outcome.next debounced, State.sameOutside_upd _ _ _, ?_⟩
  rw [State.tr_upd_same]
  cases w <;> exact ⟨Transport.holdEntry_heldBy _ _ _ _ _ other, rfl⟩

/-- A switch that hands no cause. -/
theorem debounce_hands_none {w : Switch} (timed : ((s.tr t).prot.input w).since.isSome = true)
    (quiet : ((s.tr t).switched w).switchCause w = none) :
    s.debounce t w = if w = .vacuum then (s.upd t (Transport.switched w)).fillCheck t else s.upd t (Transport.switched w) := by
  rw [State.debounce_eq timed]
  dsimp only
  rw [State.upd_congr (g := Transport.switched w) (by rw [quiet]; rfl)]

/-! ### The end of FILL (R113) -/

theorem LoopParams.zoneOf_center {p : LoopParams} (h : p.allowed) (d : Nat) :
    p.zoneOf d = .center ↔ p.bandLow ≤ d ∧ d ≤ p.bandHigh := by
  obtain ⟨low, band, high, -⟩ := h
  unfold LoopParams.zoneOf
  repeat' split
  all_goals simp only [reduceCtorEq, false_iff, true_iff]
  all_goals omega

theorem Transport.inBand_iff {x : Transport} (h : x.loop.allowed) :
    x.inBand = true ↔
      ∀ depth ∈ [x.supplySlot.depth, x.takeupSlot.depth], x.loop.bandLow ≤ depth ∧ depth ≤ x.loop.bandHigh := by
  unfold Transport.inBand Transport.latestZone
  rw [Bool.and_eq_true, beq_iff_eq, beq_iff_eq, LoopParams.zoneOf_center h, LoopParams.zoneOf_center h]
  simp [Transport.slotOf]

/-- FILL ends at rest: the load-point search begins (R113). -/
theorem State.fillCheck_ends (state : (s.tr t).sequencer.state = .loading .fill) (band : (s.tr t).inBand = true)
    (vacuum : (s.tr t).prot.vacuum.debounced = true) (cond : (s.tr t).cap.seg.cond = .atRest) :
    s.fillCheck t = s.upd t fun x =>
      Transport.takes .sequencer (x.cap.seg.started s.clock (s.chosenClass t) x.cap.counter .sequencer establish)
        ((x.setState (.loading .findLoadPoint)).modSeq fun q => { q with loadTimer := none, searchCount := 0 }) := by
  unfold State.fillCheck State.run
  dsimp only
  rw [if_pos ⟨state, band, vacuum⟩, State.upd_upd, State.chosenClass_upd rfl]
  refine State.upd_congr ?_
  exact Transport.run_atRest (x := ((s.tr t).setState (.loading .findLoadPoint)).modSeq _) cond (RunReq.ahead_none rfl)

/-- A vacuum that comes in FILL hands no cause. -/
theorem debounce_vacuumComes (timed : (s.tr t).prot.vacuum.since.isSome = true) (raw : (s.tr t).prot.vacuum.raw = true) :
    s.debounce t .vacuum = (s.upd t (Transport.switched .vacuum)).fillCheck t := by
  rw [debounce_hands_none (w := .vacuum) timed (if_pos raw)]
  rfl

theorem switched_vacuum (raw : (s.tr t).prot.vacuum.raw = true) :
    s.upd t (Transport.switched .vacuum) =
      s.upd t (Transport.modInput .vacuum fun _ => { raw := true, debounced := true, since := none }) := by
  refine State.upd_congr ?_
  unfold Transport.switched Transport.modInput
  dsimp only
  rw [raw]

/-- A vacuum that comes in FILL ends it where both loops lie in the band (R113). -/
theorem vacuumComes_ends (state : (s.tr t).sequencer.state = .loading .fill)
    (timed : (s.tr t).prot.vacuum.since.isSome = true) (raw : (s.tr t).prot.vacuum.raw = true)
    (band : (s.tr t).inBand = true) (cond : (s.tr t).cap.seg.cond = .atRest) :
    ∃ r, exec (.switchDebounceExpiry t .vacuum) s = .next r ∧ s.sameOutside t r ∧
      (r.tr t).prot = ((s.upd t (Transport.switched .vacuum)).tr t).prot ∧
      (r.tr t).sequencer = { (s.tr t).sequencer with
        state := .loading .findLoadPoint, loadTimer := none, searchCount := 0 } ∧
      (r.tr t).cap.seg.startsFor .sequencer (s.chosenClass t) establish := by
  have tr : (s.upd t (Transport.switched .vacuum)).tr t = (s.tr t).switched .vacuum := State.tr_upd_same _ _ _
  have ended := State.fillCheck_ends (t := t) (s := s.upd t (Transport.switched .vacuum)) (by rw [tr]; exact state)
    (by rw [tr]; exact band) (by rw [tr]; exact raw) (by rw [tr]; exact cond)
  rw [State.chosenClass_upd rfl] at ended
  refine ⟨_, congrArg Host.Outcome.next ((debounce_vacuumComes timed raw).trans ended), ?_, ?_⟩
  · rw [State.upd_upd]
    exact State.sameOutside_upd _ _ _
  · rw [State.tr_upd_same, tr]
    exact ⟨rfl, rfl, Segment.started_startsFor _ _ _ _ _ _⟩

theorem vacuumComes_waits (state : (s.tr t).sequencer.state = .loading .fill ∧ (s.tr t).inBand = false ∨
      (s.tr t).sequencer.state ≠ .loading .fill)
    (timed : (s.tr t).prot.vacuum.since.isSome = true) (raw : (s.tr t).prot.vacuum.raw = true) :
    s.debounce t .vacuum = s.upd t (Transport.switched .vacuum) := by
  have tr : (s.upd t (Transport.switched .vacuum)).tr t = (s.tr t).switched .vacuum := State.tr_upd_same _ _ _
  rw [debounce_vacuumComes timed raw]
  refine if_neg fun k => ?_
  rw [tr] at k
  rcases state with ⟨_, out⟩ | other
  · exact absurd (out.symm.trans k.2.1) nofun
  · exact other k.1

/-! ### Switches that do nothing but change (R147, R148) -/

/-- The expiry of switch `w` hands nothing and ends nothing. -/
def Transport.quietSwitch (w : Switch) (x : Transport) : Prop :=
  w = .reelPresent ∨ (w = .door ∧ (x.prot.input w).raw = false) ∨
    (w = .vacuum ∧ (x.prot.input w).raw = true ∧ x.sequencer.state ≠ .loading .fill) ∨
    (w = .vacuum ∧ (x.prot.input w).raw = false ∧ x.sequencer.state.loopsArmed = false) ∨
    (w = .door ∧ x.sequencer.state = .unloaded)

theorem debounce_quiet {w : Switch} (timed : ((s.tr t).prot.input w).since.isSome = true)
    (quiet : (s.tr t).quietSwitch w) : s.debounce t w = s.upd t (Transport.switched w) := by
  rcases quiet with rfl | ⟨rfl, raw⟩ | ⟨rfl, raw, other⟩ | ⟨rfl, raw, unarmed⟩ | ⟨rfl, state⟩
  · exact debounce_hands_none timed rfl
  · refine debounce_hands_none timed (if_neg ?_)
    rw [show ((s.tr t).switched .door).prot.door.debounced = false from raw]
    nofun
  · exact vacuumComes_waits (.inr other) timed raw
  · have none : ((s.tr t).switched .vacuum).switchCause .vacuum = none := by
      refine (if_neg ?_).trans (if_neg (by exact fun k => absurd (unarmed.symm.trans k) nofun))
      rw [show ((s.tr t).switched .vacuum).prot.vacuum.debounced = false from raw]
      nofun
    rw [debounce_hands_none timed none, if_pos rfl]
    refine if_neg fun k => ?_
    rw [State.tr_upd_same] at k
    exact absurd (raw.symm.trans k.2.2) nofun
  · refine debounce_hands_none timed ?_
    have none : (some Cause.doorOpen).filter ((s.tr t).switched .door).isArmed = none :=
      if_neg (by simp [Transport.isArmed, Transport.switched, Transport.modInput, state])
    unfold Transport.switchCause
    dsimp only
    rw [none, ite_self]

/-! ### The table of armed causes (R147) -/

theorem XState.loopsArmed_iff (q : XState) :
    q.loopsArmed = true ↔ q = .ready ∨ q = .moving ∨ (∃ p, q = .rewinding p) ∨ (∃ p, q = .unloading (.ret p)) ∨
      q = .loading .findLoadPoint ∨ q = .recovering := by
  cases q with
  | loading p => cases p <;> simp [XState.loopsArmed]
  | unloading p => cases p <;> simp [XState.loopsArmed]
  | _ => simp [XState.loopsArmed]

theorem Segment.driven_iff (g : Segment) : g.driven = true ↔ (∃ k, g.cond = .ramping k) ∨ g.cond = .running := by
  unfold Segment.driven
  cases g.cond <;> simp

end

/-- Settles O51. -/
theorem switchesAndStallsHoldTheTransport : Obligations.SwitchesAndStallsHoldTheTransport := by
  intro t w shows s
  refine ⟨fun tripping => ⟨fun e enabled timed => stallTime_holds e tripping enabled timed, fun armed timed raw => ?_,
    fun timed raw => ?_⟩, fun e => ?_, fun held timed raw => ?_, fun state timed raw allowed => ?_, ?_⟩
  · refine Exists.imp (fun r h => ?_) (debounce_holds (w := .vacuum) (cause := .vacuumLoss) tripping timed ?_ nofun)
    · obtain ⟨ran, outside, held, input⟩ := h
      exact ⟨ran, outside, held, (congrArg SwitchInput.debounced input).trans raw⟩
    · refine (if_neg ?_).trans (if_pos (by exact armed))
      rw [show ((s.tr t).switched .vacuum).prot.vacuum.debounced = false from raw]
      nofun
  · refine Exists.imp (fun r h => ?_) (debounce_holds (w := .door) (cause := .doorOpen) tripping timed ?_ nofun)
    · obtain ⟨ran, outside, held, input⟩ := h
      exact ⟨ran, outside, held, (congrArg SwitchInput.debounced input).trans raw⟩
    · refine (if_pos (by exact raw)).trans (if_pos ?_)
      have loaded : (s.tr t).sequencer.state ≠ .unloaded := fun e => by
        rw [e] at tripping
        cases tripping
      simpa [Transport.isArmed, Transport.switched, Transport.modInput] using loaded
  · intro timed late
    refine ⟨fun untimed held => ?_, fun untimed free => ?_⟩
    · rw [stallTime_untimed e untimed, if_pos ((Transport.lateStall_iff _ _ _).mpr held), stallCause_eq]
      exact congrArg Host.Outcome.next (State.upd_congr (Transport.takeCause_held held.1))
    · rw [stallTime_untimed e untimed, if_neg fun k => free ((Transport.lateStall_iff _ _ _).mp k)]
  · have handed : ((s.tr t).switched .door).switchCause .door = some .doorOpen := by
      refine (if_pos (by exact raw)).trans (if_pos ?_)
      simp [Transport.isArmed, Transport.switched, Transport.modInput, held]
    refine congrArg Host.Outcome.next ((State.debounce_eq (w := .door) timed).trans
      ((if_neg nofun).trans (State.upd_congr ?_)))
    dsimp only
    rw [handed]
    refine (Transport.takeCause_held (x := (s.tr t).switched .door) held).trans ?_
    unfold Transport.switched Transport.modInput
    dsimp only
    rw [raw]
  · intro x shown center
    have band := Transport.inBand_iff allowed
    refine ⟨fun out => ?_, fun center cond => ?_⟩
    · have out' : (s.tr t).inBand = false := Bool.eq_false_iff.mpr fun k => out (band.mp k)
      rw [show shown = _ from (switched_vacuum raw).symm]
      exact congrArg Host.Outcome.next (vacuumComes_waits (.inl ⟨state, out'⟩) timed raw)
    · rw [show shown = _ from (switched_vacuum raw).symm]
      exact vacuumComes_ends state timed raw (band.mpr center) cond
  · intro i put quiet
    have raw : ∀ k, SwitchInput.rawChange s.clock shows i = k →
        exec (.switchRawChange t w shows) s = .next (put k) := fun k e => by
      refine congrArg Host.Outcome.next (State.upd_congr ?_)
      cases w <;> simp only [Transport.modInput] <;> rw [← e] <;> rfl
    refine ⟨fun same => ?_, fun new away => ?_, fun new back => ?_, fun timed silent => ?_, fun untimed => ?_, ?_⟩
    · refine (raw i (if_pos same)).trans (congrArg Host.Outcome.next (State.upd_id _ _ _ ?_))
      cases w <;> rfl
    · exact raw _ (by rw [SwitchInput.rawChange, if_neg new, if_neg away])
    · exact raw _ (by rw [SwitchInput.rawChange, if_neg new, if_pos back])
    · refine congrArg Host.Outcome.next ((debounce_quiet timed silent).trans (State.upd_congr ?_))
      cases w <;> rfl
    · refine congrArg Host.Outcome.next (if_neg ?_)
      rw [show ((s.tr t).prot.input w).since = none from untimed]
      nofun
    · intro x q
      refine ⟨XState.loopsArmed_iff q, fun c h => ?_, fun c h => ?_, Segment.driven_iff _, ?_, rfl, rfl⟩
      · simp only [List.mem_cons, List.not_mem_nil, or_false] at h
        rcases h with rfl | rfl | rfl | rfl | rfl <;> rfl
      · simp only [List.mem_cons, List.not_mem_nil, or_false] at h
        rcases h with rfl | rfl <;> rfl
      · simp [Transport.isArmed, q]

end Sys2Proof.Machine
end

