-- ==== Sys2Proof/Proofs/OrderStarts.lean ====
section
/-! PROOF. QUEUE ORDER on a READY transport with nothing but records in its list. -/

namespace Sys2Proof.Machine

open Sys2Proof

/-! ### Lists of records (R83) -/

theorem oldestPending_records (done : List Record) (l : List Slot) :
    oldestPending (done.map .record ++ l) = oldestPending l := by
  induction done with
  | nil => rfl
  | cons k done ih => exact ih

theorem runningIn_records (done : List Record) (l : List Slot) : runningIn (done.map .record ++ l) = runningIn l := by
  induction done with
  | nil => rfl
  | cons k done ih => exact ih

theorem replaceOldest_records (f : Order → Slot) (done : List Record) (l : List Slot) :
    replaceOldest f (done.map .record ++ l) = done.map .record ++ replaceOldest f l := by
  induction done with
  | nil => rfl
  | cons k done ih => exact congrArg (Slot.record k :: ·) ih

theorem replaceRunning_records (f : Order → Work → Slot) (done : List Record) (l : List Slot) :
    replaceRunning f (done.map .record ++ l) = done.map .record ++ replaceRunning f l := by
  induction done with
  | nil => rfl
  | cons k done ih => exact congrArg (Slot.record k :: ·) ih

theorem Transport.standing_running {x : Transport} {l : List Slot} {o : Order} {w : Work}
    (list : x.orders.list = l ++ [.running o w]) : x.standing = 1 := by
  unfold Transport.standing
  rw [list, List.getLast?_concat]

theorem Transport.standing_record {x : Transport} {l : List Slot} {k : Record} (list : x.orders.list = l ++ [.record k]) :
    x.standing = 2 := by
  unfold Transport.standing
  rw [list, List.getLast?_concat]

section
variable {t : TNum} {s : State} {done : List Record}

/-! ### The answer (R86) -/

/-- A transport with the order list `l`. -/
def Transport.withList (l : List Slot) (x : Transport) : Transport := { x with orders := { x.orders with list := l } }

/-- The answer to an order that is queued, once it is known what becomes of it. -/
theorem exec_queueOrder {tag code : Byte} {argument : BitVec 24} {kind : OrderKind} {f : Transport → Transport} {n : Nat}
    {last : Slot} (ready : s.startReady t done) (named : orderKindOf code argument = some kind)
    (queued : s.enqueue t { tag := tag, kind := kind } = s.upd t f)
    (list : (f (s.tr t)).orders.list = done.map .record ++ [last]) (standing : (f (s.tr t)).standing = n) :
    exec (.queueOrder (transportByte t) tag code argument) s =
      .next ((s.upd t f).sending .done [byte (7 - done.length), byte n]) := by
  obtain ⟨line, online, state, records, room, -⟩ := ready
  have held : (s.tr t).orders.list.any Slot.isUnload = false := by
    rw [records, List.any_map]
    exact List.any_eq_false.mpr fun _ _ => nofun
  have free : (s.tr t).freeCount ≠ 0 := by
    unfold Transport.freeCount Config.slotCount
    rw [records, List.length_map]
    omega
  have left : (f (s.tr t)).freeCount = 7 - done.length := by
    unfold Transport.freeCount Config.slotCount
    rw [list, List.length_append, List.length_map, List.length_singleton]
    omega
  refine exec_ready (.queueOrder (transportByte t) tag code argument) s (s.upd t f)
    ⟨.done, [byte (7 - done.length), byte n]⟩ line ((onTransport_byte t _ s).trans ?_) rfl
  unfold queueOrder
  dsimp only
  rw [if_neg (by simp [online]), state]
  dsimp only [XState.refusesOrders]
  rw [if_neg (by simp [held]), if_neg free, named]
  dsimp only
  rw [queued, State.tr_upd_same, left, standing]
  rfl

/-! ### The start checks (R79, R87, R89) -/

theorem State.startCheck_withList (l : List Slot) (kind : OrderKind) :
    (s.upd t (Transport.withList l)).startCheck t kind = s.startCheck t kind := by
  have here : (s.upd t (Transport.withList l)).barrierCheck t = s.barrierCheck t := by
    unfold State.barrierCheck State.barrierHere
    rw [State.tr_upd_same]
    rfl
  have outside : ∀ p, (s.upd t (Transport.withList l)).outOfRange t p = s.outOfRange t p := fun p => by
    unfold State.outOfRange
    rw [State.tr_upd_same]
    rfl
  unfold State.startCheck
  simp only [here, outside, State.tr_upd_same]
  cases kind <;> rfl

/-- The oldest pending order, at the young end of a list of records, with what is done with it. -/
theorem State.enqueue_ready (o : Order) (ready : s.startReady t done) :
    s.enqueue t o = (s.upd t (Transport.withList (done.map .record ++ [.pending o]))).startPending t (done.length + 1) := by
  have list : (s.tr t).orders.list = done.map .record := ready.2.2.2.1
  have queued : s.upd t (Transport.modList fun l => l ++ [.pending o]) =
      s.upd t (Transport.withList (done.map .record ++ [.pending o])) := by
    refine State.upd_congr ?_
    unfold Transport.modList
    rw [list]
    rfl
  unfold State.enqueue State.startNext
  rw [queued, State.tr_upd_same]
  exact congrArg (State.startPending t · _) (by simp [Transport.withList])

/-- The order list of a transport whose order was ended by its start checks. -/
def endedSlots (done : List Record) (o : Order) (status : Completion) (barrier : Option Nat) (counter : Int) : List Slot :=
  done.map .record ++ [.record (o.endedAtStart status barrier counter)]

theorem State.enqueue_ends {o : Order} {status : Completion} {barrier : Option Nat} (ready : s.startReady t done)
    (check : s.startCheck t o.kind = some (status, barrier)) :
    s.enqueue t o = s.upd t (Transport.withList (endedSlots done o status barrier (s.tr t).cap.counter)) := by
  let q := s.upd t (Transport.withList (done.map .record ++ [.pending o]))
  have tr : q.tr t = (s.tr t).withList (done.map .record ++ [.pending o]) := State.tr_upd_same _ _ _
  have queue := State.enqueue_ready o ready
  obtain ⟨-, online, state, -⟩ := ready
  have ended : q.upd t (Transport.modList
      (replaceOldest fun k => .record (k.endedAtStart status barrier (q.tr t).cap.counter))) =
      s.upd t (Transport.withList (endedSlots done o status barrier (s.tr t).cap.counter)) := by
    rw [tr, State.upd_upd]
    refine State.upd_congr ?_
    exact congrArg (fun l => (s.tr t).withList l) (replaceOldest_records _ done [.pending o])
  rw [queue, State.startPending_ends (by rw [tr]; exact state) (by rw [tr]; exact online)
    (by rw [tr]; exact runningIn_records done [.pending o]) (by rw [tr]; exact oldestPending_records done [.pending o])
    ((State.startCheck_withList _ _).trans check), ended]
  refine State.startPending_none _ ?_
  rw [State.tr_upd_same]
  exact oldestPending_records done _

/-- A transport whose order runs, before its plan begins. -/
def Transport.begun (done : List Record) (o : Order) (x : Transport) : Transport :=
  x.withList (done.map .record ++ [.running o (Work.fresh x.cap.counter o.kind.firstPhase)])

theorem State.enqueue_starts {o : Order} (ready : s.startReady t done) (check : s.startCheck t o.kind = none) :
    s.enqueue t o = (s.upd t (Transport.begun done o)).beginPlan t o.kind := by
  let q := s.upd t (Transport.withList (done.map .record ++ [.pending o]))
  have tr : q.tr t = (s.tr t).withList (done.map .record ++ [.pending o]) := State.tr_upd_same _ _ _
  have queue := State.enqueue_ready o ready
  obtain ⟨-, online, state, -⟩ := ready
  have starts : q.upd t (Transport.launched o.kind) = s.upd t (Transport.begun done o) := by
    rw [State.upd_upd]
    refine State.upd_congr ?_
    exact congrArg (fun l => (s.tr t).withList l) (replaceOldest_records _ done [.pending o])
  rw [queue, State.startPending_launches (by rw [tr]; exact state) (by rw [tr]; exact online)
    (by rw [tr]; exact runningIn_records done [.pending o]) (by rw [tr]; exact oldestPending_records done [.pending o])
    ((State.startCheck_withList _ _).trans check)]
  exact congrArg (State.beginPlan t o.kind) starts

/-! ### Orders that their start checks end (R79, R89, R97, R98) -/

/-- QUEUE ORDER answers with the order ended, its record at the young end of the list. -/
def State.endsOrder (t : TNum) (done : List Record) (tag code : Byte) (argument : BitVec 24) (kind : OrderKind)
    (status : Completion) (mark : Option Nat) (s : State) : Prop :=
  exec (.queueOrder (transportByte t) tag code argument) s =
    .next (State.sending .done [byte (7 - done.length), 2] (s.upd t fun y => { y with orders := { y.orders with
      list := done.map .record ++ [.record { tag := tag, kind := kind, status := status, count := 0
                                             finalPos := some (s.tr t).cap.counter, markNumber := mark }] } }))

variable {tag code : Byte} {argument : BitVec 24} {kind : OrderKind}

theorem queueOrder_ends {status : Completion} {barrier : Option Nat} (ready : s.startReady t done)
    (named : orderKindOf code argument = some kind) (check : s.startCheck t kind = some (status, barrier)) :
    s.endsOrder t done tag code argument kind status (recordMark kind status barrier) :=
  exec_queueOrder (n := 2) (last := .record (Order.endedAtStart { tag := tag, kind := kind } status barrier (s.tr t).cap.counter))
    ready named (State.enqueue_ends (o := { tag := tag, kind := kind }) ready check) rfl
    (Transport.standing_record (l := done.map .record) rfl)

/-- The head stands in the range of `m`, the first barrier of the bound volume. -/
def State.headInside (t : TNum) (m : Mark) (s : State) : Prop :=
  (∃ before after, s.boundMarks t = before ++ m :: after ∧ ∀ k ∈ before, k.kind = .point) ∧ m.kind = .barrier ∧
    (s.tr t).cap.conf ≠ .lost ∧ ∃ low high, (s.tr t).boundsOf m low high ∧ low ≤ (s.tr t).cap.counter ∧
      (s.tr t).cap.counter ≤ high

theorem Transport.boundsOf_rangeOf {x : Transport} {m : Mark} {low high : Int} (h : x.boundsOf m low high) :
    x.rangeOf m = (low, high) := by
  unfold Transport.boundsOf at h
  unfold Transport.rangeOf
  cases e : x.capture.windowOf m.number <;> rw [e] at h <;> obtain ⟨rfl, rfl⟩ := h <;> rfl

theorem State.headInside.barrierCheck {m : Mark} (h : s.headInside t m) :
    s.barrierCheck t = some (.barrier, some m.number) := by
  obtain ⟨⟨before, after, marks, first⟩, kind, conf, low, high, bounds, above, below⟩ := h
  have inRange : (s.tr t).inRange m = true := by
    unfold Transport.inRange
    rw [Transport.boundsOf_rangeOf bounds]
    simpa using ⟨above, below⟩
  have none : (before.find? fun k => k.kind == .barrier && (s.tr t).inRange k) = none :=
    List.find?_eq_none.mpr fun k e => by simp [first k e]
  have here : s.barrierHere t = some m.number := by
    unfold State.barrierHere
    dsimp only
    rw [if_neg conf, marks, List.find?_append, none, List.find?_cons_of_pos (by simp [kind, inRange])]
    rfl
  unfold State.barrierCheck
  rw [here]

theorem State.noBarriers.barrierCheck (h : s.noBarriers t) : s.barrierCheck t = none := by
  have here : s.barrierHere t = none := by
    unfold State.barrierHere
    dsimp only
    rw [List.find?_eq_none.mpr fun m k => by simp [h m k]]
    exact ite_self _
  unfold State.barrierCheck
  rw [here]

theorem Transport.atRunout_true {x : Transport} {e : Int} (runout : x.cap.runout = some e) (h : e ≤ x.cap.counter) :
    x.atRunout = true := by
  unfold Transport.atRunout
  rw [runout]
  exact decide_eq_true h

theorem Transport.atRunout_false {x : Transport} (h : ∀ e, x.cap.runout = some e → x.cap.counter < e) :
    x.atRunout = false := by
  unfold Transport.atRunout
  cases e : x.cap.runout with
  | none => rfl
  | some r =>
    have below := h r e
    simpa using below

theorem State.outOfRange_iff (p : Int) :
    s.outOfRange t p = true ↔ p < 0 ∨ s.tapeLength t < p ∨ ∃ e, (s.tr t).cap.runout = some e ∧ e < p := by
  unfold State.outOfRange
  cases (s.tr t).cap.runout <;> simp [or_assoc]

end

end Sys2Proof.Machine
end

