-- ==== Sys2Proof/Proofs/OrderPlans.lean ====
section
/-! PROOF. The plans by which orders start from rest. -/

namespace Sys2Proof.Machine

open Sys2Proof

section
variable {t : TNum} {s : State} {done : List Record} {o : Order} {w : Work} {c : Capture}

/-! ### A transport that sets off with its order (R87, R93) -/

/-- A transport that has become MOVING with the order `o` at the young end of a list of records. -/
def Transport.onItsWay (done : List Record) (o : Order) (w : Work) (c : Capture) (x : Transport) : Transport :=
  { x.withList (done.map .record ++ [.running o w]) with
    sequencer := { x.sequencer with state := .moving }
    capture := c }

theorem Transport.onItsWay_modWork (f : Order → Work → Work) (x : Transport) :
    (x.onItsWay done o w c).modWork f = x.onItsWay done o (f o w) c :=
  congrArg (fun l => { x.withList l with sequencer := { x.sequencer with state := .moving }, capture := c })
    (replaceRunning_records _ done [.running o w])

theorem Transport.onItsWay_running (x : Transport) : (x.onItsWay done o w c).running = some (o, w) :=
  runningIn_records done [.running o w]

theorem State.begun_moving : (s.upd t (Transport.begun done o)).upd t (Transport.setState .moving) =
    s.upd t (Transport.onItsWay done o (Work.fresh (s.tr t).cap.counter o.kind.firstPhase) (s.tr t).capture) := by
  rw [State.upd_upd]
  exact State.upd_congr rfl

theorem State.onItsWay_modWork (f : Order → Work → Work) :
    (s.upd t (Transport.onItsWay done o w c)).upd t (fun x => x.modWork f) =
      s.upd t (Transport.onItsWay done o (f o w) c) := by
  rw [State.upd_upd]
  exact State.upd_congr (Transport.onItsWay_modWork f _)

/-- A transport on its way, whose capstan has begun RUN request `q` from rest. -/
def Transport.departs (now : Nat) (cls : Inertia) (done : List Record) (o : Order) (w : Work) (c : Capture) (q : RunReq)
    (x : Transport) : Transport :=
  (x.onItsWay done o w c).takes .orders (x.cap.seg.started now cls x.cap.counter .orders q)

theorem State.onItsWay_run {q : RunReq} {target : Option Int} {b : Bool} (cond : (s.tr t).cap.seg.cond = .atRest)
    (limit : (s.tr t).runoutLimit q.dir q.target = (target, b)) (ahead : { q with target := target }.ahead (s.tr t).cap.counter) :
    (s.upd t (Transport.onItsWay done o w c)).orderRun t q = s.upd t (Transport.departs s.clock (s.chosenClass t) done o
      { w with runoutTarget := b } c { q with target := target }) := by
  have tr : (s.upd t (Transport.onItsWay done o w c)).tr t = (s.tr t).onItsWay done o w c := State.tr_upd_same _ _ _
  rw [State.orderRun_atRest (target := target) (b := b) (by rw [tr]; exact cond) (by rw [tr]; exact limit)
    (by rw [tr]; exact ahead), State.upd_upd, State.chosenClass_upd rfl]
  refine State.upd_congr ?_
  exact congrArg (Transport.takes .orders _) (Transport.onItsWay_modWork _ _)

/-- A RUN request that the runout position does not bound (R89). -/
theorem State.onItsWay_runFree {q : RunReq} (cond : (s.tr t).cap.seg.cond = .atRest)
    (free : q.dir = .forward → (s.tr t).cap.eotPos = none) (ahead : q.ahead (s.tr t).cap.counter) :
    (s.upd t (Transport.onItsWay done o w c)).orderRun t q = s.upd t (Transport.departs s.clock (s.chosenClass t) done o
      { w with runoutTarget := false } c q) := by
  have limit : (s.tr t).runoutLimit q.dir q.target = (q.target, false) := by
    cases dir : q.dir
    · exact Transport.runoutLimit_none _ _ (free dir)
    · exact Transport.runoutLimit_reverse _ _
  exact State.onItsWay_run (target := q.target) cond limit ahead

/-! ### Legs (R90) -/

/-- A leg with no barrier ahead. -/
def Leg.plain (d : Dir) (p : Int) (rests : Bool) : Leg :=
  { dir := d
    endPoint := p
    slowDown := match d with
      | .forward => p - 1500
      | .reverse => p + 1500
    rests := rests }

/-- The length of a leg. -/
def legLength (d : Dir) (counter p : Int) : Int :=
  match d with
  | .forward => p - counter
  | .reverse => counter - p

theorem State.planLeg_plain {kind : OrderKind} {start p : Int} {d : Dir} {rests : Bool}
    (points : d = .forward → s.noBarriers t) : s.planLeg t kind start d p rests = Leg.plain d p rests := by
  unfold State.planLeg Leg.plain State.slowDownPoint Config.approachDistance
  cases d with
  | reverse => rfl
  | forward =>
    have none : ((s.boundMarks t).find? fun m =>
        (s.tr t).barredFrom kind start m && decide ((s.tr t).cap.counter < m.pos)) = none :=
      List.find?_eq_none.mpr fun m k => by simp [Transport.barredFrom, points rfl m k]
    dsimp only
    rw [none]

theorem Leg.plain_atSeek (d : Dir) (p counter : Int) (rests : Bool) :
    (Leg.plain d p rests).atSeek counter = decide (20000 < legLength d counter p) := by
  unfold Leg.atSeek Leg.plain legLength Config.seekThreshold Config.seekMinRun
  cases d with
  | reverse => rfl
  | forward =>
    dsimp only
    rw [← Bool.decide_and, decide_eq_decide]
    omega

theorem Leg.readRun_ahead {d : Dir} {p counter : Int} (rests : Bool) (h : 0 < legLength d counter p) :
    (Leg.plain d p rests).readRun.ahead counter := by
  unfold Leg.readRun Leg.plain plainRun
  intro q target
  cases rests with
  | false => cases target
  | true =>
    cases target
    cases d <;> unfold legLength at h <;> dsimp only at h ⊢ <;> omega

/-- A long leg begins at SEEK speed. -/
theorem State.onItsWay_fast {d : Dir} {p : Int} {rests : Bool} (cond : (s.tr t).cap.seg.cond = .atRest)
    (free : d = .forward → (s.tr t).cap.eotPos = none) (far : 20000 < legLength d (s.tr t).cap.counter p) :
    (s.upd t (Transport.onItsWay done o w c)).beginLeg t (Leg.plain d p rests) =
      s.upd t (Transport.departs s.clock (s.chosenClass t) done o
        { w with leg := Leg.plain d p rests, phase := .fast, runoutTarget := false } c (plainRun d .seek none)) := by
  have fast : (Leg.plain d p rests).atSeek ((s.upd t (Transport.onItsWay done o w c)).tr t).cap.counter = true := by
    rw [State.tr_upd_same, Leg.plain_atSeek]
    exact decide_eq_true far
  unfold State.beginLeg
  dsimp only
  rw [if_pos fast, State.onItsWay_modWork, State.onItsWay_modWork]
  exact State.onItsWay_runFree (q := plainRun d .seek none) cond free (RunReq.ahead_none rfl)

/-- A short leg begins at READ speed. -/
theorem State.onItsWay_short {d : Dir} {p : Int} {rests : Bool} (cond : (s.tr t).cap.seg.cond = .atRest)
    (free : d = .forward → (s.tr t).cap.eotPos = none) (ahead : 0 < legLength d (s.tr t).cap.counter p)
    (near : legLength d (s.tr t).cap.counter p ≤ 20000) :
    (s.upd t (Transport.onItsWay done o w c)).beginLeg t (Leg.plain d p rests) =
      s.upd t (Transport.departs s.clock (s.chosenClass t) done o
        { w with leg := Leg.plain d p rests, phase := .readLeg, runoutTarget := false } c (Leg.plain d p rests).readRun) := by
  have slow : ¬(Leg.plain d p rests).atSeek ((s.upd t (Transport.onItsWay done o w c)).tr t).cap.counter = true := by
    rw [State.tr_upd_same, Leg.plain_atSeek]
    simp only [decide_eq_true_eq, not_lt]
    exact near
  unfold State.beginLeg
  dsimp only
  rw [if_neg slow, State.onItsWay_modWork]
  unfold State.readLeg
  rw [State.tr_upd_same, Transport.onItsWay_running]
  dsimp only
  rw [State.onItsWay_modWork]
  exact State.onItsWay_runFree cond free (Leg.readRun_ahead rests ahead)

/-! ### Orders that start to move (R86, R87) -/

/-- QUEUE ORDER answers with the order running, in `phase`, its capstan begun from rest. -/
def State.startsOrder (t : TNum) (done : List Record) (tag code : Byte) (argument : BitVec 24) (kind : OrderKind)
    (phase : OrderPhase) (copied : Option Int) (d : Dir) (v : Speed) (target : Option Int) (s : State) : Prop :=
  ∃ r : State,
    exec (.queueOrder (transportByte t) tag code argument) s = .next (r.sending .done [byte (7 - done.length), 1]) ∧
    s.sameOutside t r ∧ (r.tr t).sequencer = { (s.tr t).sequencer with state := .moving } ∧
    (∃ w, (r.tr t).orders.list = done.map .record ++ [.running { tag := tag, kind := kind } w] ∧
      w.start = (s.tr t).cap.counter ∧ w.count = 0 ∧ w.blank = 0 ∧ w.phase = phase ∧ w.reason = none ∧
      w.copied = copied) ∧
    (r.tr t).cap.seg.startsFor .orders (s.chosenClass t)
      { dir := d, speed := v, target := target, approach := .none } ∧
    (∀ m q, kind = .seekMark m → copied = some q → (r.tr t).capture.target = some { number := m, pos := q }) ∧
    (r.tr t).cap.counter = (s.tr t).cap.counter ∧ (r.tr t).cap.conf = (s.tr t).cap.conf ∧
    (r.tr t).prot = (s.tr t).prot ∧ (r.tr t).flags = (s.tr t).flags

variable {tag code : Byte} {argument : BitVec 24} {kind : OrderKind}

/-- The working values of an order begun by its plan: nothing done yet. -/
def Work.planned (counter : Int) (phase : OrderPhase) (copied : Option Int) (w : Work) : Prop :=
  w.start = counter ∧ w.count = 0 ∧ w.blank = 0 ∧ w.phase = phase ∧ w.reason = none ∧ w.copied = copied

/-- An order that its start checks let pass, and whose plan is a motion. -/
theorem queueOrder_starts {phase : OrderPhase} {copied : Option Int} {q : RunReq} (ready : s.startReady t done)
    (named : orderKindOf code argument = some kind) (check : s.startCheck t kind = none)
    (plan : (s.upd t (Transport.begun done { tag := tag, kind := kind })).beginPlan t kind =
      s.upd t (Transport.departs s.clock (s.chosenClass t) done { tag := tag, kind := kind } w c q))
    (approach : q.approach = .none) (planned : w.planned (s.tr t).cap.counter phase copied)
    (sought : ∀ m p, kind = .seekMark m → copied = some p → c.target = some { number := m, pos := p }) :
    s.startsOrder t done tag code argument kind phase copied q.dir q.speed q.target := by
  obtain ⟨d, v, target, a⟩ := q
  cases approach
  refine ⟨_, exec_queueOrder (n := 1) (last := .running { tag := tag, kind := kind } w) ready named
    ((State.enqueue_starts (o := { tag := tag, kind := kind }) ready check).trans plan) rfl
    (Transport.standing_running (l := done.map .record) rfl), State.sameOutside_upd _ _ _, ?_⟩
  rw [State.tr_upd_same]
  exact ⟨rfl, ⟨w, rfl, planned⟩, Segment.started_startsFor _ _ _ _ _ _, sought, rfl, rfl, rfl, rfl⟩

/-- An order whose first motion is a leg: long at SEEK speed, short at READ speed. -/
theorem queueOrder_leg {d : Dir} {p : Int} {rests : Bool} {copied : Option Int} (ready : s.startReady t done)
    (named : orderKindOf code argument = some kind) (check : s.startCheck t kind = none)
    (plan : (s.upd t (Transport.begun done { tag := tag, kind := kind })).beginPlan t kind =
      (s.upd t (Transport.onItsWay done { tag := tag, kind := kind } w c)).beginLeg t (Leg.plain d p rests))
    (free : d = .forward → (s.tr t).cap.eotPos = none) (ahead : 0 < legLength d (s.tr t).cap.counter p)
    (planned : w.planned (s.tr t).cap.counter .readLeg copied)
    (sought : ∀ m p, kind = .seekMark m → copied = some p → c.target = some { number := m, pos := p }) :
    (20000 < legLength d (s.tr t).cap.counter p →
      s.startsOrder t done tag code argument kind .fast copied d .seek none) ∧
    (legLength d (s.tr t).cap.counter p ≤ 20000 →
      s.startsOrder t done tag code argument kind .readLeg copied d .read (if rests then some p else none)) := by
  have rest : (s.tr t).cap.seg.cond = .atRest := ready.2.2.2.2.2
  obtain ⟨start, count, blank, -, reason, copies⟩ := planned
  refine ⟨fun far => ?_, fun near => ?_⟩
  · exact queueOrder_starts (q := plainRun d .seek none) ready named check (plan.trans (State.onItsWay_fast rest free far)) rfl
      ⟨start, count, blank, rfl, reason, copies⟩ sought
  · exact queueOrder_starts (q := (Leg.plain d p rests).readRun) ready named check
      (plan.trans (State.onItsWay_short rest free ahead near)) rfl ⟨start, count, blank, rfl, reason, copies⟩ sought

end

end Sys2Proof.Machine
end

