-- ==== Sys2Proof/Proofs/OrderKinds.lean ====
section
/-! PROOF. The starts of the seven kinds of order. -/

namespace Sys2Proof.Machine

open Sys2Proof

/-! ### Kind codes (R84, R176) -/

theorem orderKindOf_count {argument : BitVec 24} (low : 1 ≤ argument.toNat) (high : argument.toNat ≤ 65535) :
    orderKindOf 0 argument = some (.spaceF argument.toNat) ∧ orderKindOf 1 argument = some (.spaceR argument.toNat) ∧
      orderKindOf 2 argument = some (.advance argument.toNat) := by
  have inCount : (decide (1 ≤ argument.toNat) && decide (argument.toNat ≤ 65535)) = true := by simp [low, high]
  exact ⟨if_pos inCount, if_pos inCount, if_pos inCount⟩

theorem orderKindOf_seekPos {argument : BitVec 24} (h : -32768 ≤ argument.toInt) :
    orderKindOf 3 argument = some (.seekPos argument.toInt) :=
  congrArg (Option.map OrderKind.seekPos) (if_pos h)

theorem orderKindOf_seekMark {argument : BitVec 24} (low : 1 ≤ argument.toNat) (high : argument.toNat ≤ 4095) :
    orderKindOf 4 argument = some (.seekMark argument.toNat) :=
  if_pos (by simp [Config.maxMarkNumber, low, high])

section
variable {t : TNum} {s : State} {done : List Record} {tag : Byte} {argument : BitVec 24}

/-! ### Spaces and advances (R89, R93, R94, R96) -/

theorem Transport.runoutLimit_forward (x : Transport) : ∃ b, x.runoutLimit .forward none = (x.cap.runout, b) := by
  unfold Transport.runoutLimit
  cases x.cap.runout with
  | none => exact ⟨_, rfl⟩
  | some e => exact ⟨_, rfl⟩

theorem Transport.runoutLimit_bounded (p : Int) (x : Transport) :
    ∃ b, x.runoutLimit .forward (some p) = (some (x.cap.runout.elim p fun e => min e p), b) := by
  unfold Transport.runoutLimit
  cases x.cap.runout with
  | none => exact ⟨_, rfl⟩
  | some e =>
    dsimp only [Option.elim]
    split
    · exact ⟨_, by rw [min_eq_left (by omega)]⟩
    · exact ⟨_, by rw [min_eq_right (by omega)]⟩

/-- An order whose plan is one RUN request. -/
theorem queueOrder_run {code : Byte} {kind : OrderKind} {d : Dir} {v : Speed} {p target : Option Int} {b : Bool}
    (ready : s.startReady t done) (named : orderKindOf code argument = some kind) (check : s.startCheck t kind = none)
    (first : kind.firstPhase = .readLeg) (unsought : ∀ m, kind ≠ .seekMark m)
    (plan : (s.upd t (Transport.begun done { tag := tag, kind := kind })).beginPlan t kind =
      ((s.upd t (Transport.begun done { tag := tag, kind := kind })).upd t (Transport.setState .moving)).orderRun t
        (plainRun d v p))
    (limit : (s.tr t).runoutLimit d p = (target, b)) (ahead : (plainRun d v target).ahead (s.tr t).cap.counter) :
    s.startsOrder t done tag code argument kind .readLeg none d v target := by
  rw [State.begun_moving] at plan
  exact queueOrder_starts (q := plainRun d v target) ready named check
    (plan.trans (State.onItsWay_run (q := plainRun d v p) ready.2.2.2.2.2 limit ahead)) rfl
    ⟨rfl, rfl, rfl, first, rfl, rfl⟩ fun m _ e => absurd e (unsought m)

/-- The start checks of a SPACE_F and of an ADVANCE below the runout position, without barriers. -/
theorem State.noBarriers.forwardCheck (points : s.noBarriers t)
    (below : ∀ e, (s.tr t).cap.runout = some e → (s.tr t).cap.counter < e) :
    (if (s.tr t).atRunout then some (Completion.runout, none) else s.barrierCheck t) = none := by
  rw [Transport.atRunout_false below, points.barrierCheck]
  rfl

theorem queueOrder_spaceF (ready : s.startReady t done) (low : 1 ≤ argument.toNat) (high : argument.toNat ≤ 65535)
    (points : s.noBarriers t) (below : ∀ e, (s.tr t).cap.runout = some e → (s.tr t).cap.counter < e) :
    s.startsOrder t done tag 0 argument (.spaceF argument.toNat) .readLeg none .forward .read (s.tr t).cap.runout := by
  obtain ⟨b, limit⟩ := (s.tr t).runoutLimit_forward
  exact queueOrder_run ready (orderKindOf_count low high).1 (points.forwardCheck below) rfl nofun rfl limit below

theorem queueOrder_spaceR (ready : s.startReady t done) (low : 1 ≤ argument.toNat) (high : argument.toNat ≤ 65535) :
    s.startsOrder t done tag 1 argument (.spaceR argument.toNat) .readLeg none .reverse .read none :=
  queueOrder_run ready (orderKindOf_count low high).2.1 rfl rfl nofun rfl (Transport.runoutLimit_reverse _ _)
    (RunReq.ahead_none rfl)

theorem queueOrder_advance (ready : s.startReady t done) (low : 1 ≤ argument.toNat) (high : argument.toNat ≤ 65535)
    (points : s.noBarriers t) (below : ∀ e, (s.tr t).cap.runout = some e → (s.tr t).cap.counter < e)
    (room : (s.tr t).cap.counter + argument.toNat ≤ 8388607) :
    s.startsOrder t done tag 2 argument (.advance argument.toNat) .readLeg none .forward .read
      (some ((s.tr t).cap.runout.elim ((s.tr t).cap.counter + argument.toNat)
        fun e => min e ((s.tr t).cap.counter + argument.toNat))) := by
  have target : min ((s.tr t).cap.counter + argument.toNat) Config.posMax = (s.tr t).cap.counter + argument.toNat :=
    min_eq_left room
  obtain ⟨b, limit⟩ := (s.tr t).runoutLimit_bounded ((s.tr t).cap.counter + argument.toNat)
  have ahead : (s.tr t).cap.counter < (s.tr t).cap.runout.elim ((s.tr t).cap.counter + argument.toNat)
      fun e => min e ((s.tr t).cap.counter + argument.toNat) := by
    cases runout : (s.tr t).cap.runout with
    | none =>
      dsimp only [Option.elim]
      omega
    | some e =>
      have beyond := below e runout
      dsimp only [Option.elim]
      omega
  refine queueOrder_run (p := some ((s.tr t).cap.counter + argument.toNat)) ready (orderKindOf_count low high).2.2
    (points.forwardCheck below) rfl nofun ?_ limit fun p e => by
      cases e
      exact ahead
  unfold State.beginPlan
  dsimp only
  rw [State.tr_upd_same]
  exact congrArg (fun p => State.orderRun t (plainRun .forward .read (some p)) _) target

/-! ### SEEK_POS (R97) -/

theorem State.begun_noBarriers {o : Order} (h : s.noBarriers t) : (s.upd t (Transport.begun done o)).noBarriers t := h

/-- The direction of a leg to `p`. -/
def legDir (counter p : Int) : Dir := if counter < p then .forward else .reverse

theorem legLength_legDir {counter p : Int} (h : counter ≠ p) : 0 < legLength (legDir counter p) counter p := by
  unfold legDir
  by_cases ahead : counter < p
  · rw [if_pos ahead]
    exact sub_pos.mpr ahead
  · rw [if_neg ahead]
    exact sub_pos.mpr (by omega)

theorem State.beginPlan_seekPos {o : Order} {p : Int} (points : (s.tr t).cap.counter < p → s.noBarriers t) :
    (s.upd t (Transport.begun done o)).beginPlan t (.seekPos p) =
      (s.upd t (Transport.onItsWay done o (Work.fresh (s.tr t).cap.counter o.kind.firstPhase) (s.tr t).capture)).beginLeg t
        (Leg.plain (legDir (s.tr t).cap.counter p) p true) := by
  unfold State.beginPlan
  dsimp only
  rw [State.begun_moving, State.planLeg_plain, State.tr_upd_same]
  · rfl
  · intro forward
    refine State.begun_noBarriers (points ?_)
    rw [State.tr_upd_same] at forward
    by_contra not
    exact absurd ((if_neg not).symm.trans forward) nofun

theorem State.seekPos_lost {p : Int} (conf : (s.tr t).cap.conf = .lost) :
    s.startCheck t (.seekPos p) = some (.noPosition, none) := if_pos conf

section
variable {p : Int} (conf : (s.tr t).cap.conf ≠ .lost)
include conf

theorem State.seekPos_range (outside : s.outOfRange t p = true) : s.startCheck t (.seekPos p) = some (.range, none) :=
  (if_neg conf).trans (if_pos outside)

theorem State.seekPos_complete (within : ¬s.outOfRange t p = true) (level : (s.tr t).cap.counter = p) :
    s.startCheck t (.seekPos p) = some (.complete, none) :=
  (if_neg conf).trans ((if_neg within).trans (if_pos level))

theorem State.seekPos_away (within : ¬s.outOfRange t p = true) (apart : (s.tr t).cap.counter ≠ p) :
    s.startCheck t (.seekPos p) = if (s.tr t).cap.counter < p then s.barrierCheck t else none :=
  (if_neg conf).trans ((if_neg within).trans (if_neg apart))

end

theorem queueOrder_seekPos {p : Int} (ready : s.startReady t done) (named : orderKindOf 3 argument = some (.seekPos p))
    (conf : (s.tr t).cap.conf ≠ .lost) (within : ¬s.outOfRange t p = true) (apart : (s.tr t).cap.counter ≠ p)
    (open' : (s.tr t).cap.counter < p → s.noBarriers t ∧ (s.tr t).cap.eotPos = none) :
    let d := legDir (s.tr t).cap.counter p
    (20000 < legLength d (s.tr t).cap.counter p → s.startsOrder t done tag 3 argument (.seekPos p) .fast none d .seek none) ∧
    (legLength d (s.tr t).cap.counter p ≤ 20000 →
      s.startsOrder t done tag 3 argument (.seekPos p) .readLeg none d .read (some p)) := by
  have forward : legDir (s.tr t).cap.counter p = .forward → (s.tr t).cap.counter < p := fun e => by
    by_contra not
    exact absurd ((if_neg not).symm.trans e) nofun
  have check : s.startCheck t (.seekPos p) = none := by
    rw [State.seekPos_away conf within apart]
    split
    · rename_i ahead
      exact (open' ahead).1.barrierCheck
    · rfl
  exact queueOrder_leg ready named check (State.beginPlan_seekPos fun ahead => (open' ahead).1)
    (fun e => (open' (forward e)).2) (legLength_legDir apart) ⟨rfl, rfl, rfl, rfl, rfl, rfl⟩ nofun

/-! ### SEEK_MARK (R98) -/

/-- The working values with which a SEEK_MARK of the mark at `p` starts. -/
def Work.seeking (counter p : Int) : Work := { Work.fresh counter .readLeg with copied := some p }

theorem State.begun_seeks {o : Order} {m : Nat} {p : Int} (kind : o.kind = .seekMark m) :
    ((s.upd t (Transport.begun done o)).upd t (Transport.setState .moving)).upd t (fun y =>
      (y.modWork fun _ w => { w with copied := some p }).modCapture fun c =>
        { c with target := some { number := m, pos := p } }) =
      s.upd t (Transport.onItsWay done o (Work.seeking (s.tr t).cap.counter p)
        { (s.tr t).capture with target := some { number := m, pos := p } }) := by
  rw [State.begun_moving, State.upd_upd]
  refine State.upd_congr ?_
  rw [Transport.onItsWay_modWork, kind]
  rfl

theorem State.seekMark_lost {m : Nat} (conf : (s.tr t).cap.conf = .lost) :
    s.startCheck t (.seekMark m) = some (.noPosition, none) := if_pos conf

theorem State.seekMark_noMark {m : Nat} (conf : (s.tr t).cap.conf ≠ .lost) (mark : findNumber m (s.boundMarks t) = none) :
    s.startCheck t (.seekMark m) = some (.noMark, none) := by
  unfold State.startCheck
  dsimp only
  rw [if_neg conf, mark]

theorem State.seekMark_range {m : Nat} {k : Mark} (conf : (s.tr t).cap.conf ≠ .lost)
    (mark : findNumber m (s.boundMarks t) = some k) (outside : s.outOfRange t k.pos = true) :
    s.startCheck t (.seekMark m) = some (.range, none) := by
  unfold State.startCheck
  dsimp only
  rw [if_neg conf, mark]
  exact if_pos outside

theorem State.startCheck_seekMark {m : Nat} {k : Mark} (conf : (s.tr t).cap.conf ≠ .lost)
    (mark : findNumber m (s.boundMarks t) = some k) (within : ¬s.outOfRange t k.pos = true) :
    s.startCheck t (.seekMark m) =
      if (s.tr t).cap.counter < (s.tr t).approachPoint k.pos then s.barrierCheck t else none := by
  unfold State.startCheck
  dsimp only
  rw [if_neg conf, mark]
  dsimp only
  rw [if_neg within]

theorem State.beginPlan_seekMark {o : Order} {m : Nat} {k : Mark} (kind : o.kind = .seekMark m)
    (mark : findNumber m (s.boundMarks t) = some k)
    (points : (s.tr t).cap.counter < (s.tr t).approachPoint k.pos → s.noBarriers t) :
    (s.upd t (Transport.begun done o)).beginPlan t (.seekMark m) =
      let here := (s.tr t).cap.counter
      let a := (s.tr t).approachPoint k.pos
      let sought := s.upd t (Transport.onItsWay done o (Work.seeking here k.pos)
        { (s.tr t).capture with target := some { number := m, pos := k.pos } })
      if here < a then sought.beginLeg t (Leg.plain .forward a false)
      else if a < here then sought.beginLeg t (Leg.plain .reverse a true)
      else sought.beginSearch t := by
  have mark' : findNumber m ((s.upd t (Transport.begun done o)).boundMarks t) = some k := mark
  unfold State.beginPlan
  dsimp only
  rw [mark']
  dsimp only
  have same : ((s.tr t).begun done o).cap = (s.tr t).cap := rfl
  have point : ((s.tr t).begun done o).approachPoint k.pos = (s.tr t).approachPoint k.pos := rfl
  rw [State.begun_seeks kind, State.tr_upd_same, same, point, State.planLeg_plain (d := .reverse) nofun]
  by_cases ahead : (s.tr t).cap.counter < (s.tr t).approachPoint k.pos
  · rw [State.planLeg_plain fun _ => State.begun_noBarriers (points ahead)]
  · simp only [if_neg ahead]

theorem queueOrder_seekMark {m : Nat} {k : Mark} (ready : s.startReady t done)
    (named : orderKindOf 4 argument = some (.seekMark m)) (conf : (s.tr t).cap.conf ≠ .lost)
    (mark : findNumber m (s.boundMarks t) = some k) (within : ¬s.outOfRange t k.pos = true) :
    let here := (s.tr t).cap.counter
    let a := (s.tr t).approachPoint k.pos
    let starts := s.startsOrder t done tag 4 argument (.seekMark m)
    (here < a → s.noBarriers t → (s.tr t).cap.eotPos = none →
      (20000 < a - here → starts .fast (some k.pos) .forward .seek none) ∧
      (a - here ≤ 20000 → starts .readLeg (some k.pos) .forward .read none)) ∧
    (a < here →
      (20000 < here - a → starts .fast (some k.pos) .reverse .seek none) ∧
      (here - a ≤ 20000 → starts .readLeg (some k.pos) .reverse .read (some a))) ∧
    (here = a → (s.tr t).cap.eotPos = none → starts .search (some k.pos) .forward .read none) := by
  intro here a starts
  have rest : (s.tr t).cap.seg.cond = .atRest := ready.2.2.2.2.2
  have sought : ∀ n p, OrderKind.seekMark m = .seekMark n → some k.pos = some p →
      ({ (s.tr t).capture with target := some { number := m, pos := k.pos } } : Capture).target =
        some { number := n, pos := p } := by
    intro n p e f
    cases e
    cases f
    rfl
  have check := State.startCheck_seekMark conf mark within
  have plan := State.beginPlan_seekMark (s := s) (done := done) (o := { tag := tag, kind := .seekMark m }) rfl mark
  refine ⟨fun ahead points eot => ?_, fun back => ?_, fun level eot => ?_⟩
  · exact queueOrder_leg ready named (check.trans ((if_pos ahead).trans points.barrierCheck))
      ((plan fun _ => points).trans (if_pos ahead)) (fun _ => eot) (sub_pos.mpr ahead) ⟨rfl, rfl, rfl, rfl, rfl, rfl⟩ sought
  · have behind : ¬here < a := by omega
    exact queueOrder_leg ready named (check.trans (if_neg behind))
      ((plan fun ahead => absurd ahead behind).trans ((if_neg behind).trans (if_pos back))) nofun (sub_pos.mpr back)
      ⟨rfl, rfl, rfl, rfl, rfl, rfl⟩ sought
  · have behind : ¬here < a := by omega
    have before : ¬a < here := by omega
    refine queueOrder_starts (q := plainRun .forward .read none)
      (w := { Work.seeking here k.pos with phase := .search, reason := none, runoutTarget := false }) ready named
      (check.trans (if_neg behind)) ?_ rfl ⟨rfl, rfl, rfl, rfl, rfl, rfl⟩ sought
    refine ((plan fun ahead => absurd ahead behind).trans ((if_neg behind).trans (if_neg before))).trans ?_
    unfold State.beginSearch
    rw [State.onItsWay_modWork]
    exact State.onItsWay_runFree rest (fun _ => eot) (RunReq.ahead_none rfl)

/-! ### REWIND and UNLOAD (R100, R116, R119) -/

variable {code : Byte} {kind : OrderKind}

/-- A transport with its order running that is about to rewind or to unload. -/
def Transport.ordered (done : List Record) (o : Order) (x : Transport) : Transport :=
  (x.begun done o).modSeq fun q => { q with panelMotion := false }

/-- A transport that has begun to rewind with its order running, in state `st`. -/
def Transport.rewinds (now : Nat) (cls : Inertia) (done : List Record) (o : Order) (st : XState) (q : RunReq) (x : Transport) :
    Transport :=
  (((x.ordered done o).setState st).modSeq fun q => { q with ending := false, lpStop := false }).takes .sequencer
    (x.cap.seg.started now cls x.cap.counter .sequencer q)

theorem Transport.rewindPlan_ahead (x : Transport) : x.rewindPlan.2.ahead x.cap.counter := by
  unfold Transport.rewindPlan
  split
  · exact RunReq.ahead_none rfl
  split
  · exact RunReq.ahead_none rfl
  split
  · exact RunReq.ahead_none rfl
  split
  · rename_i above
    intro p e
    cases e
    exact above
  · exact RunReq.ahead_none rfl

theorem State.beginRewind_ordered {o : Order} (as : RewindPhase → XState) (cond : (s.tr t).cap.seg.cond = .atRest) :
    (s.upd t (Transport.ordered done o)).beginRewind t as =
      s.upd t (Transport.rewinds s.clock (s.chosenClass t) done o (as (s.tr t).rewindPlan.1) (s.tr t).rewindPlan.2) := by
  unfold State.beginRewind State.run
  dsimp only
  rw [State.upd_upd, State.upd_upd, State.tr_upd_same, State.chosenClass_upd rfl, State.chosenClass_upd rfl]
  refine State.upd_congr ?_
  exact Transport.run_atRest (x := (((s.tr t).ordered done o).setState (as (s.tr t).rewindPlan.1)).modSeq fun q =>
    { q with ending := false, lpStop := false }) cond (s.tr t).rewindPlan_ahead

/-- QUEUE ORDER answers with the order running, the Sequencer having begun a rewind (R100, R116). -/
def State.startsRewind (t : TNum) (done : List Record) (tag code : Byte) (argument : BitVec 24) (kind : OrderKind)
    (state : RewindPhase → XState) (s : State) : Prop :=
  ∃ r : State,
    exec (.queueOrder (transportByte t) tag code argument) s = .next (r.sending .done [byte (7 - done.length), 1]) ∧
    s.sameOutside t r ∧
    (∃ w, (r.tr t).orders.list = done.map .record ++ [.running { tag := tag, kind := kind } w] ∧ w.phase = .sequence ∧
      w.reason = none) ∧
    (r.tr t).cap.counter = (s.tr t).cap.counter ∧ (r.tr t).cap.conf = (s.tr t).cap.conf ∧
    (r.tr t).sequencer.panelMotion = false ∧
    let begun := fun (phase : RewindPhase) (d : Dir) (v : Speed) (target : Option Int) (a : Approach) =>
      (r.tr t).sequencer.state = state phase ∧ (r.tr t).cap.seg.startsFor .sequencer (s.chosenClass t)
        { dir := d, speed := v, target := target, approach := a }
    if (s.tr t).sequencer.leader = true then begun .settle .forward .creep none .establishing
    else if (s.tr t).cap.conf = .lost then begun .fast .reverse .seek none .none
    else if 30000 < (s.tr t).cap.counter then begun .fast .reverse .rewind none .none
    else if 1500 < (s.tr t).cap.counter then begun .fast .reverse .seek (some 1500) .none
    else begun .approach .reverse .creep none .none

theorem queueOrder_rewinds {state : RewindPhase → XState} (ready : s.startReady t done)
    (named : orderKindOf code argument = some kind) (phase : kind.firstPhase = .sequence) (check : s.startCheck t kind = none)
    (plan : (s.upd t (Transport.begun done { tag := tag, kind := kind })).beginPlan t kind =
      (s.upd t (Transport.ordered done { tag := tag, kind := kind })).beginRewind t state) :
    s.startsRewind t done tag code argument kind state := by
  let w := Work.fresh (s.tr t).cap.counter kind.firstPhase
  have queued := (State.enqueue_starts (o := { tag := tag, kind := kind }) ready check).trans
    (plan.trans (State.beginRewind_ordered state ready.2.2.2.2.2))
  refine ⟨_, exec_queueOrder (n := 1) (last := .running { tag := tag, kind := kind } w) ready named queued rfl
    (Transport.standing_running (l := done.map .record) rfl), State.sameOutside_upd _ _ _, ?_⟩
  rw [State.tr_upd_same]
  refine ⟨⟨w, rfl, phase, rfl⟩, rfl, rfl, rfl, ?_⟩
  dsimp only
  have starts : ∀ q, (Transport.rewinds s.clock (s.chosenClass t) done { tag := tag, kind := kind }
      (state (s.tr t).rewindPlan.1) q (s.tr t)).cap.seg.startsFor .sequencer (s.chosenClass t) q := fun q =>
    Segment.started_startsFor _ _ _ _ _ _
  unfold Transport.rewindPlan at starts ⊢
  by_cases leader : (s.tr t).sequencer.leader = true
  · simp only [if_pos leader] at starts ⊢
    exact ⟨rfl, starts _⟩
  simp only [if_neg leader] at starts ⊢
  by_cases lost : (s.tr t).cap.conf = .lost
  · simp only [if_pos lost] at starts ⊢
    exact ⟨rfl, starts _⟩
  simp only [if_neg lost] at starts ⊢
  unfold Config.rewindSlowDown Config.rewindApproach at starts ⊢
  by_cases far : 30000 < (s.tr t).cap.counter
  · simp only [if_pos far] at starts ⊢
    exact ⟨rfl, starts _⟩
  simp only [if_neg far] at starts ⊢
  by_cases above : 1500 < (s.tr t).cap.counter
  · simp only [if_pos above] at starts ⊢
    exact ⟨rfl, starts _⟩
  · simp only [if_neg above] at starts ⊢
    exact ⟨rfl, starts _⟩

theorem queueOrder_rewind (ready : s.startReady t done) : s.startsRewind t done tag 5 argument .rewind .rewinding :=
  queueOrder_rewinds ready rfl rfl rfl
    (congrArg (State.beginRewind t .rewinding) (State.upd_upd t _ _ s))

theorem State.beginPlan_unload {o : Order} : (s.upd t (Transport.begun done o)).beginPlan t .unload =
    if (s.tr t).cap.seg.cond = .atRest ∧ (s.tr t).cap.counter = 0 ∧ (s.tr t).cap.conf = .exact
    then (s.upd t (Transport.ordered done o)).beginRelease t
    else (s.upd t (Transport.ordered done o)).beginRewind t fun p => .unloading (.ret p) := by
  unfold State.beginPlan State.beginUnload
  dsimp only
  rw [State.upd_upd, State.tr_upd_same]
  rfl

theorem queueOrder_returns (ready : s.startReady t done)
    (away : ¬((s.tr t).cap.counter = 0 ∧ (s.tr t).cap.conf = .exact)) :
    s.startsRewind t done tag 6 argument .unload fun phase => .unloading (.ret phase) :=
  queueOrder_rewinds ready rfl rfl rfl (State.beginPlan_unload.trans (if_neg fun h => away h.2))

theorem queueOrder_releases (ready : s.startReady t done) (home : (s.tr t).cap.counter = 0)
    (conf : (s.tr t).cap.conf = .exact) :
    ∃ r : State, exec (.queueOrder (transportByte t) tag 6 argument) s =
        .next (r.sending .done [byte (7 - done.length), 1]) ∧ s.sameOutside t r ∧
      (r.tr t).sequencer.state = .unloading .release ∧ (r.tr t).sequencer.panelMotion = false ∧
      (r.tr t).sequencer.valveOpen = false ∧ (r.tr t).sequencer.quiet = some s.clock ∧
      (r.tr t).cap.seg.cond = .free ∧ (r.tr t).cap.conf = .lost ∧
      ∃ w, (r.tr t).orders.list = done.map .record ++ [.running { tag := tag, kind := .unload } w] ∧
        w.phase = .sequence := by
  let o : Order := { tag := tag, kind := .unload }
  let w := Work.fresh (s.tr t).cap.counter .sequence
  have plan : (s.upd t (Transport.begun done o)).beginPlan t .unload = (s.upd t (Transport.ordered done o)).beginRelease t :=
    State.beginPlan_unload.trans (if_pos ⟨ready.2.2.2.2.2, home, conf⟩)
  have queued := (State.enqueue_starts (o := o) ready rfl).trans (plan.trans (State.upd_upd t _ _ s))
  refine ⟨_, exec_queueOrder (n := 1) (last := .running o w) ready rfl queued rfl
    (Transport.standing_running (l := done.map .record) rfl), State.sameOutside_upd _ _ _, ?_⟩
  rw [State.tr_upd_same]
  exact ⟨rfl, rfl, rfl, rfl, rfl, rfl, w, rfl, rfl⟩

end

end Sys2Proof.Machine
end

