-- ==== Sys2Proof/Proofs/SlowDowns.lean ====
section
/-! PROOF. The counts at which an order slows down. -/

namespace Sys2Proof.Machine

open Sys2Proof

theorem replaceRunning_twice (f g : Order → Work → Work) (l : List Slot) :
    replaceRunning (fun o w => .running o (g o w)) (replaceRunning (fun o w => .running o (f o w)) l) =
      replaceRunning (fun o w => .running o (g o (f o w))) l := by
  induction l with
  | nil => rfl
  | cons a l ih =>
    cases a with
    | running o w => rfl
    | pending o => exact congrArg (Slot.pending o :: ·) ih
    | record k => exact congrArg (Slot.record k :: ·) ih

theorem Transport.modWork_modWork (f g : Order → Work → Work) (x : Transport) :
    (x.modWork f).modWork g = x.modWork fun o w => g o (f o w) :=
  congrArg (fun l => { x with orders := { x.orders with list := l } }) (replaceRunning_twice f g x.orders.list)

section
variable {t : TNum} {d : Dir} {s : State} {o : Order} {w : Work}

/-! ### A count without barriers and windows -/

theorem State.passages_noBarriers (old : Int) (h : s.noBarriers t) : (s.passages t d old).noBarriers t := by
  have flagged : ∀ e p, (s.passAt t e p).noBarriers t := fun e p => by
    unfold State.passAt
    cases bound : s.boundIdx t with
    | none =>
      unfold State.modBoundMarks
      rw [bound]
      exact h
    | some i =>
      rw [State.modBoundMarks_of bound]
      intro m k
      rw [State.boundMarks_setMarks bound] at k
      obtain ⟨q, e, rfl⟩ := List.mem_map.mp k
      rw [← State.boundMarks_of bound] at e
      exact Mark.passedBy_kind.trans (h q e)
  unfold State.passages
  dsimp only
  split
  · exact h
  · cases d <;> exact flagged _ _

/-- Without a barrier, a window and a search, the later watches find the transport counted, with what windows there are to
open. -/
theorem State.tachCount_open (points : s.noBarriers t) (search : (s.tr t).noSearch)
    (shut : (s.tr t).capture.windows = []) (low : -32768 < (s.tr t).cap.counter) (high : (s.tr t).cap.counter < 8388607) :
    ∃ (q : State) (f : Capture → Capture), s.tachCount t d = q.laterWatches t d s.clock ∧
      q.tr t = ((s.tr t).counted d).modCapture f := by
  have counted : s.countAt t d = s.upd t (Transport.counted d) :=
    State.upd_congr (Transport.count_inRange d (fun _ => low) fun _ => high)
  let q := (s.upd t (Transport.counted d)).passages t d (s.tr t).cap.counter
  have tr : q.tr t = (s.tr t).counted d := (State.passages_tr t d _ _).trans (State.tr_upd_same _ _ _)
  have points' : q.noBarriers t := State.passages_noBarriers (s := s.upd t (Transport.counted d)) _ points
  have search' : (q.tr t).noSearch := by
    rw [tr]
    exact search
  have watched : q.forwardWatches t = q.openings t :=
    (points'.unbarred.forwardWatches search').trans (State.closings_opened (by rw [tr]; exact shut))
  rw [State.tachCount_eq, counted]
  dsimp only
  split
  · refine ⟨q.openings t, Capture.withOpened (q.opened t), congrArg (State.laterWatches t d s.clock) watched, ?_⟩
    rw [State.openings_eq, State.tr_upd_same, tr]
  · exact ⟨q, id, rfl, tr⟩

/-! ### The watches of a seek or an advance -/

/-- The working values of an order that is no SPACE after a count. -/
def Work.travelled (d : Dir) (w : Work) : Work :=
  { w with net := match d with
      | .forward => w.net + 1
      | .reverse => w.net - 1 }

theorem Work.travel_else (h : o.kind.space? = none) (w : Work) : Work.travel d o w = w.travelled d := by
  unfold Work.travel Work.travelled OrderKind.inDir
  rw [h]
  cases d
  · rfl
  · simp [Int.sub_eq_add_neg]

theorem State.distanceWatch_else (run : (s.tr t).running = some (o, w)) (kind : o.kind.space? = none)
    (phase : w.phase ≠ .haltSearch) : s.distanceWatch t d = s.upd t fun x => x.modWork (Work.travel d) := by
  have run' : ((s.upd t fun x => x.modWork (Work.travel d)).tr t).running = some (o, Work.travel d o w) := by
    rw [State.tr_upd_same, Transport.modWork_running, run]
    rfl
  have other : o.kind.inDir d = false := by
    unfold OrderKind.inDir
    rw [kind]
  unfold State.distanceWatch
  dsimp only
  rw [run']
  dsimp only
  rw [if_neg (by simp [other]), if_neg fun k => phase k.1]

theorem State.slowWatch_else (run : (s.tr t).running = some (o, w)) (phase : w.phase ≠ .fast) : s.slowWatch t = s := by
  unfold State.slowWatch
  rw [run]
  exact if_neg (by simp [Work.mustSlow, phase])

theorem State.searchWatch_else (run : (s.tr t).running = some (o, w))
    (before : ∀ m, o.kind = .seekMark m → w.leg.dir = .forward → (s.tr t).cap.counter < w.leg.endPoint) :
    s.searchWatch t = s := by
  unfold State.searchWatch
  rw [run]
  dsimp only
  split
  · rename_i m kind
    refine if_neg fun ⟨_, forward, _, reached⟩ => ?_
    have ahead := before m kind forward
    omega
  · rfl

/-! ### The slow-down point (R90) -/

/-- The stop target of a RUN request, if it has one, lies the approach distance or more ahead of the counter. -/
def RunReq.distant (counter : Int) (q : RunReq) : Prop :=
  ∀ p, q.target = some p → match q.dir with
    | .forward => counter + 1500 ≤ p
    | .reverse => p + 1500 ≤ counter

/-- The segment of a capstan that a RUN request takes from SEEK speed to READ speed (R11). -/
def Segment.slowing (now : Nat) (o : Owner) (q : RunReq) (g : Segment) : Segment :=
  (g.rampTo now (some .read, .seek) q).request o q

theorem Segment.slowing_goesOn {now : Nat} {b : Owner} {q : RunReq} {g : Segment} {counter : Int} (h : q.distant counter) :
    (g.slowing now b q).mustSlow counter = false := by
  unfold Segment.mustSlow Segment.slowPoint Segment.slowing Segment.request Segment.rampTo
  dsimp only
  cases target : q.target with
  | none => rfl
  | some p =>
    have far := h p target
    have near := stopDistance_le g.cls q.speed
    cases dir : q.dir <;> rw [dir] at far <;>
      simp only [Option.bind_none, Option.getD_none, decide_eq_false_iff_not] <;> omega

theorem Segment.takeRun_slows {now : Nat} {c : Inertia} {counter : Int} {b : Owner} {q : RunReq} {g : Segment}
    (cond : g.cond = .running) (dir : g.dir = some q.dir) (speed : g.speed = some .seek) (slower : q.speed = .read) :
    g.takeRun now c counter b q = g.slowing now b q := by
  unfold Segment.takeRun
  rw [cond, dir, speed, slower]
  simp only [beq_self_eq_true, if_true]
  rfl

theorem Transport.run_slows {now : Nat} {c : Inertia} {b : Owner} {q : RunReq} {x : Transport}
    (cond : x.cap.seg.cond = .running) (dir : x.cap.seg.dir = some q.dir) (speed : x.cap.seg.speed = some .seek)
    (slower : q.speed = .read) (far : q.distant x.cap.counter) :
    x.run now c b q = x.takes b (x.cap.seg.slowing now b q) := by
  have kept : (x.cap.seg.atSpeed && (x.cap.seg.dir == some q.dir && q.speed == Speed.seek)) = false := by
    simp [slower]
  rw [Transport.run_eq now c b q (by simp [Segment.undriven, Segment.driven, cond]),
    Segment.takeRun_slows cond dir speed slower, kept]
  exact Segment.mustSlow_takes (Segment.slowing_goesOn far) now

/-- The READ leg that follows a fast one, before EOT. -/
theorem State.readLeg_slows (run : (s.tr t).running = some (o, w)) (cond : (s.tr t).cap.seg.cond = .running)
    (dir : (s.tr t).cap.seg.dir = some w.leg.dir) (speed : (s.tr t).cap.seg.speed = some .seek)
    (eot : (s.tr t).cap.eotPos = none) (far : w.leg.readRun.distant (s.tr t).cap.counter) :
    s.readLeg t = s.upd t fun x =>
      (x.modWork fun _ k => { k with phase := .readLeg, runoutTarget := false }).takes .orders
        (x.cap.seg.slowing s.clock .orders w.leg.readRun) := by
  let q := s.upd t fun x => x.modWork fun _ k => { k with phase := .readLeg }
  have tr : q.tr t = (s.tr t).modWork fun _ k => { k with phase := .readLeg } := State.tr_upd_same _ _ _
  have limit : (q.tr t).runoutLimit w.leg.readRun.dir w.leg.readRun.target = (w.leg.readRun.target, false) :=
    Transport.runoutLimit_none _ _ (by rw [tr]; exact eot)
  have begun : s.readLeg t = q.orderRun t w.leg.readRun := by
    unfold State.readLeg
    rw [run]
  rw [begun, State.orderRun_eq _ (by rw [tr]; simp [Segment.undriven, Segment.driven, cond])]
  dsimp only
  rw [limit, State.upd_upd]
  refine State.upd_congr ?_
  rw [Transport.modWork_modWork]
  exact Transport.run_slows (x := (s.tr t).modWork fun _ k => { k with phase := .readLeg, runoutTarget := false }) cond dir
    speed rfl far

end

end Sys2Proof.Machine
end

