-- ==== Sys2Proof/Proofs/OrderProgress.lean ====
section
/-! PROOF. How orders that QUEUE ORDER has started follow their plans. -/

namespace Sys2Proof.Machine

open Sys2Proof

section
variable {t : TNum} {d : Dir} {s : State} {o : Order} {w : Work} {now : Nat}

/-! ### The later watches of a leg -/

theorem State.travelled_running (run : (s.tr t).running = some (o, w)) (kind : o.kind.space? = none) :
    ((s.upd t fun x => x.modWork (Work.travel d)).tr t).running = some (o, w.travelled d) := by
  rw [State.tr_upd_same, Transport.modWork_running, run, ← Work.travel_else kind]
  rfl

/-- The watches of the Sequencer, on a transport that an order moves. -/
theorem State.sequencerWatches_moving (state : (s.tr t).sequencer.state = .moving) :
    (s.findWatch t d).rewindWatch t = s := by
  rw [State.findWatch_else d (by rw [state]; nofun), State.rewindWatch_else (by rw [state]; rfl)]

/-- The count that brings a fast leg to its slow-down point. -/
theorem State.laterWatches_slows (run : (s.tr t).running = some (o, w)) (kind : o.kind.space? = none)
    (state : (s.tr t).sequencer.state = .moving) (phase : w.phase = .fast) (cond : (s.tr t).cap.seg.cond = .running)
    (dir : (s.tr t).cap.seg.dir = some w.leg.dir) (speed : (s.tr t).cap.seg.speed = some .seek)
    (eot : (s.tr t).cap.eotPos = none) (reached : w.leg.slowDown = (s.tr t).cap.counter)
    (far : 1500 ≤ legLength w.leg.dir (s.tr t).cap.counter w.leg.endPoint) :
    ((s.laterWatches t d now).tr t).running = some (o, { w.travelled d with phase := .readLeg, runoutTarget := false }) ∧
      ((s.laterWatches t d now).tr t).cap.seg = (s.tr t).cap.seg.slowing s.clock .orders w.leg.readRun := by
  let moved := s.upd t fun x => x.modWork (Work.travel d)
  let slowed := moved.upd t fun x =>
    (x.modWork fun _ k => { k with phase := .readLeg, runoutTarget := false }).takes .orders
      (x.cap.seg.slowing moved.clock .orders w.leg.readRun)
  have tr : moved.tr t = (s.tr t).modWork (Work.travel d) := State.tr_upd_same _ _ _
  have run' : (moved.tr t).running = some (o, w.travelled d) := State.travelled_running run kind
  have distant : w.leg.readRun.distant (s.tr t).cap.counter := by
    intro p target
    have e : p = w.leg.endPoint := by
      unfold Leg.readRun plainRun at target
      cases rests : w.leg.rests <;> simp [rests] at target
      exact target.symm
    rw [e]
    cases forward : w.leg.dir <;> rw [forward] at far <;> simp only [legLength] at far <;>
      simp only [Leg.readRun, plainRun, forward] <;> omega
  have due : (w.travelled d).mustSlow (moved.tr t).cap.counter = true := by
    rw [tr]
    unfold Work.mustSlow Work.travelled
    dsimp only [Transport.modWork_cap]
    rw [phase, reached]
    cases w.leg.dir <;> simp
  have slows : moved.slowWatch t = slowed := by
    have leg := State.readLeg_slows run' (by rw [tr]; exact cond) (by rw [tr]; exact dir) (by rw [tr]; exact speed)
      (by rw [tr]; exact eot) (by rw [tr]; exact distant)
    unfold State.slowWatch
    rw [run']
    exact (if_pos due).trans leg
  have tr' : slowed.tr t = _ := State.tr_upd_same _ _ _
  have running : (slowed.tr t).running = some (o, { w.travelled d with phase := .readLeg, runoutTarget := false }) := by
    rw [tr']
    exact (Transport.modWork_running (moved.tr t) fun _ k => { k with phase := .readLeg, runoutTarget := false }).trans
      (congrArg (Option.map _) run')
  have seg : (slowed.tr t).cap.seg = (s.tr t).cap.seg.slowing s.clock .orders w.leg.readRun := by
    rw [tr', tr]
    rfl
  have counter : (slowed.tr t).cap.counter = (s.tr t).cap.counter := by
    rw [tr', tr]
    rfl
  have searches : slowed.searchWatch t = slowed := by
    refine State.searchWatch_else running fun _ _ forward => ?_
    rw [show w.leg.dir = .forward from forward] at far
    simp only [legLength] at far
    rw [counter]
    show _ < w.leg.endPoint
    omega
  have steady : slowed.upd t (Transport.decelWatch now) = slowed := by
    refine State.upd_id _ _ _ (if_neg ?_)
    rw [seg, counter, Segment.slowing_goesOn distant]
    exact Bool.false_ne_true
  have rest : s.laterWatches t d now = slowed := by
    unfold State.laterWatches
    rw [State.distanceWatch_else run kind (by rw [phase]; nofun), slows, searches, steady]
    refine State.sequencerWatches_moving ?_
    rw [tr', tr]
    exact state
  rw [rest]
  exact ⟨running, seg⟩

/-- The count that brings an order to the stop distance before its stop target. -/
theorem State.laterWatches_stops (run : (s.tr t).running = some (o, w)) (kind : o.kind.space? = none)
    (unsought : ∀ m, o.kind ≠ .seekMark m) (state : (s.tr t).sequencer.state = .moving) (phase : w.phase = .readLeg)
    (owner : (s.tr t).cap.seg.owner = some .orders) (due : (s.tr t).cap.seg.mustSlow (s.tr t).cap.counter = true) :
    ((s.laterWatches t d now).tr t).running = some (o, Work.stopAtTarget o (w.travelled d)) ∧
      ((s.laterWatches t d now).tr t).cap.seg = (s.tr t).cap.seg.rampDown now (.toRest false) := by
  let moved := s.upd t fun x => x.modWork (Work.travel d)
  have tr : moved.tr t = (s.tr t).modWork (Work.travel d) := State.tr_upd_same _ _ _
  have run' : (moved.tr t).running = some (o, w.travelled d) := State.travelled_running run kind
  have phase' : (w.travelled d).phase ≠ .fast := by
    rw [show (w.travelled d).phase = .readLeg from phase]
    nofun
  have slows : (moved.tr t).decelWatch now = Transport.modWork Work.stopAtTarget
      { moved.tr t with cap := { (moved.tr t).cap with seg := (s.tr t).cap.seg.rampDown now (.toRest false) } } := by
    rw [tr]
    exact (if_pos due).trans (if_pos owner)
  have rest : s.laterWatches t d now = moved.upd t (Transport.decelWatch now) := by
    unfold State.laterWatches
    rw [State.distanceWatch_else run kind (by rw [phase]; nofun), State.slowWatch_else run' phase',
      State.searchWatch_else run' fun m e => absurd e (unsought m)]
    refine State.sequencerWatches_moving ?_
    rw [State.tr_upd_same, slows, tr]
    exact state
  rw [rest, State.tr_upd_same, slows]
  exact ⟨(Transport.modWork_running _ Work.stopAtTarget).trans (congrArg (Option.map _) run'), rfl⟩

/-! ### The two counts of a plan -/

/-- A MOVING transport that runs an order at a steady speed, with no barrier and no window. -/
structure State.Cruises (t : TNum) (d : Dir) (o : Order) (w : Work) (s : State) : Prop where
  run : (s.tr t).running = some (o, w)
  state : (s.tr t).sequencer.state = .moving
  cond : (s.tr t).cap.seg.cond = .running
  dir : (s.tr t).cap.seg.dir = some d
  points : s.noBarriers t
  shut : (s.tr t).capture.windows = []
  low : -32768 < (s.tr t).cap.counter
  high : (s.tr t).cap.counter < 8388607

theorem State.Cruises.noSearch (h : s.Cruises t d o w) (phase : w.phase ≠ .search) : (s.tr t).noSearch := by
  intro o' w' n run _
  rw [h.run] at run
  cases run
  exact phase

/-- A fast leg goes on at READ speed (R90). -/
theorem exec_count_slows {next : Int} (h : s.Cruises t d o w) (counted : ((s.tr t).counted d).cap.counter = next)
    (kind : o.kind.space? = none) (phase : w.phase = .fast) (speed : (s.tr t).cap.seg.speed = some .seek)
    (dir : w.leg.dir = d) (reached : w.leg.slowDown = next) (eot : (s.tr t).cap.eotPos = none)
    (far : 1500 ≤ legLength d next w.leg.endPoint) :
    ∃ r, exec (.capstanTachCount t d) s = .next r ∧
      (r.tr t).running = some (o, { w.travelled d with phase := .readLeg, runoutTarget := false }) ∧
      (r.tr t).cap.seg.dir = some d ∧ (r.tr t).cap.seg.speed = some .read ∧
      (r.tr t).cap.seg.stopTarget = (if w.leg.rests then some w.leg.endPoint else none) ∧
      ∃ k, (r.tr t).cap.seg.cond = .ramping k ∧ k.goal = .toSpeed ∧ k.fromSpeed = 8000 ∧ k.toSpeed = 4000 := by
  obtain ⟨q, f, ran, tr⟩ := State.tachCount_open (d := d) h.points (h.noSearch (by rw [phase]; nofun)) h.shut h.low h.high
  obtain ⟨run, seg⟩ := State.laterWatches_slows (s := q) (now := s.clock) (d := d) (by rw [tr]; exact h.run) kind
    (by rw [tr]; exact h.state) phase (by rw [tr]; exact h.cond) (by rw [tr, dir]; exact h.dir) (by rw [tr]; exact speed)
    (by rw [tr]; exact eot) (by rw [tr]; exact reached.trans counted.symm) (by rw [tr, dir]; exact counted ▸ far)
  refine ⟨_, congrArg Host.Outcome.next ran, run, ?_⟩
  have reached8000 : (s.tr t).cap.seg.speedReached q.clock = 8000 := by
    unfold Segment.speedReached
    rw [h.cond]
    dsimp only
    rw [speed]
    rfl
  rw [seg, tr]
  exact ⟨congrArg some dir, rfl, rfl, _, rfl, rfl, reached8000, rfl⟩

/-- Where a capstan going in direction `d` is `distance` before `target`. -/
def slowAt (d : Dir) (target distance : Int) : Int :=
  match d with
  | .forward => target - distance
  | .reverse => target + distance

/-- An order begins its stop at its stop target (R13, R89). -/
theorem exec_count_stops {next target : Int} (h : s.Cruises t d o w) (counted : ((s.tr t).counted d).cap.counter = next)
    (kind : (∃ n, o.kind = .advance n) ∨ ∃ q, o.kind = .seekPos q) (phase : w.phase = .readLeg)
    (speed : (s.tr t).cap.seg.speed = some .read) (owner : (s.tr t).cap.seg.owner = some .orders)
    (aim : (s.tr t).cap.seg.stopTarget = some target)
    (reached : next = slowAt d target (stopDistance (s.tr t).cap.seg.cls .read)) :
    ∃ r, exec (.capstanTachCount t d) s = .next r ∧
      (r.tr t).running = some (o, { w.travelled d with
        phase := .stopping, reason := some (if w.runoutTarget then .runout else .complete) }) ∧
      (r.tr t).cap.seg.stopTarget = some target ∧ (r.tr t).cap.seg.dir = some d ∧
      ∃ k, (r.tr t).cap.seg.cond = .ramping k ∧ k.goal = .toRest false ∧ k.toSpeed = 0 := by
  have space : o.kind.space? = none := by rcases kind with ⟨n, e⟩ | ⟨q, e⟩ <;> rw [e] <;> rfl
  have unsought : ∀ m, o.kind ≠ .seekMark m := by rcases kind with ⟨n, e⟩ | ⟨q, e⟩ <;> rw [e] <;> nofun
  have due : (s.tr t).cap.seg.mustSlow ((s.tr t).counted d).cap.counter = true := by
    rw [counted, reached]
    unfold Segment.mustSlow Segment.slowPoint
    rw [aim, h.dir, speed]
    dsimp only
    rw [h.cond]
    cases d <;> exact decide_eq_true (le_refl _)
  have ends : Work.stopAtTarget o (w.travelled d) = { w.travelled d with
      phase := .stopping, reason := some (if w.runoutTarget then .runout else .complete) } := by
    have apart : ¬((w.travelled d).phase = .approach ∨ (w.travelled d).phase = .sequence) := by
      rw [show (w.travelled d).phase = .readLeg from phase]
      nofun
    unfold Work.stopAtTarget
    rw [if_neg apart]
    cases runout : w.runoutTarget
    · rcases kind with ⟨n, e⟩ | ⟨q, e⟩ <;> rw [e] <;> simp [Work.travelled, runout]
    · simp [Work.travelled, runout]
  obtain ⟨q, f, ran, tr⟩ := State.tachCount_open (d := d) h.points (h.noSearch (by rw [phase]; nofun)) h.shut h.low h.high
  obtain ⟨run, seg⟩ := State.laterWatches_stops (s := q) (now := s.clock) (d := d) (by rw [tr]; exact h.run) space unsought
    (by rw [tr]; exact h.state) phase (by rw [tr]; exact owner) (by rw [tr]; exact due)
  refine ⟨_, congrArg Host.Outcome.next ran, run.trans (congrArg (fun k => some (o, k)) ends), ?_⟩
  rw [seg, tr]
  exact ⟨aim, h.dir, _, rfl, rfl, rfl⟩

end

/-- Settles O60. -/
theorem ordersStartAndFollowTheirPlans : Obligations.OrdersStartAndFollowTheirPlans := by
  refine ⟨fun t tag argument s done ready => ?_, fun t d s o w => ?_⟩
  · intro free x c here n p queue ends moves runout inCount inside outside
    have within : ∀ q, ¬outside q → ¬s.outOfRange t q = true := fun q h k => h ((State.outOfRange_iff q).mp k)
    refine ⟨fun ⟨low, high⟩ => ⟨fun e eot past => ?_, fun below => ⟨fun m barred => ?_, fun points => ?_⟩,
      queueOrder_spaceR ready low high⟩, fun least => ?_, fun low high => ?_, ?_⟩
    · have check : (if x.atRunout then some (Completion.runout, none) else s.barrierCheck t) = some (.runout, none) :=
        if_pos (Transport.atRunout_true eot past)
      obtain ⟨spaceF, -, advance⟩ := orderKindOf_count low high
      exact ⟨queueOrder_ends ready spaceF check, queueOrder_ends ready advance check⟩
    · have check : (if x.atRunout then some (Completion.runout, none) else s.barrierCheck t) =
          some (.barrier, some m.number) :=
        (if_neg (by simp [Transport.atRunout_false below])).trans (State.headInside.barrierCheck barred)
      obtain ⟨spaceF, -, advance⟩ := orderKindOf_count low high
      exact ⟨queueOrder_ends ready spaceF check, queueOrder_ends ready advance check⟩
    · refine ⟨queueOrder_spaceF ready low high points below, fun room => ?_⟩
      refine Eq.mp (congrArg (fun q => s.startsOrder t done tag 2 argument (.advance n) .readLeg none .forward .read (some q)) ?_)
        (queueOrder_advance ready low high points below room)
      show runout.elim (here + n) (fun e => min e (here + n)) = _
      generalize runout = r
      cases r <;> rfl
    · have named := orderKindOf_seekPos least
      refine ⟨fun conf => queueOrder_ends ready named (State.seekPos_lost conf), fun conf =>
        ⟨fun out => queueOrder_ends ready named (State.seekPos_range conf ((State.outOfRange_iff p).mpr out)),
        fun inR => ⟨fun level => queueOrder_ends ready named (State.seekPos_complete conf (within p inR) level),
        fun m ahead barred => ?_, fun ahead points eot => ?_, fun back => ?_⟩⟩⟩
      · exact queueOrder_ends ready named ((State.seekPos_away conf (within p inR) (ne_of_lt ahead)).trans
          ((if_pos ahead).trans (State.headInside.barrierCheck barred)))
      · have legs := queueOrder_seekPos (tag := tag) ready named conf (within p inR) (ne_of_lt ahead) fun _ => ⟨points, eot⟩
        rw [show legDir (s.tr t).cap.counter p = .forward from if_pos ahead] at legs
        exact legs
      · have legs := queueOrder_seekPos (tag := tag) ready named conf (within p inR) (ne_of_gt back) fun ahead =>
          absurd ahead (lt_asymm back)
        rw [show legDir (s.tr t).cap.counter p = .reverse from if_neg (lt_asymm back)] at legs
        exact legs
    · have named := orderKindOf_seekMark low high
      refine ⟨fun conf => queueOrder_ends ready named (State.seekMark_lost conf),
        fun conf mark => queueOrder_ends ready named (State.seekMark_noMark conf mark), fun k conf mark =>
        ⟨fun out => queueOrder_ends ready named (State.seekMark_range conf mark ((State.outOfRange_iff k.pos).mpr out)),
        fun inR => ⟨fun m ahead barred => ?_, queueOrder_seekMark ready named conf mark (within k.pos inR)⟩⟩⟩
      exact queueOrder_ends ready named ((State.startCheck_seekMark conf mark (within k.pos inR)).trans
        ((if_pos ahead).trans (State.headInside.barrierCheck barred)))
    · exact ⟨queueOrder_rewind ready, queueOrder_returns ready, queueOrder_releases ready⟩
  · intro x g next travelled run state cond dir points shut low high
    have cruises : s.Cruises t d o w := ⟨run, state, cond, dir, points, shut, low, high⟩
    have counted : ((s.tr t).counted d).cap.counter = next := by cases d <;> rfl
    refine ⟨fun kind phase speed leg reached eot _ far => ?_, fun target kind phase speed owner aim reached => ?_⟩
    · have space : o.kind.space? = none := by rcases kind with ⟨q, e⟩ | ⟨m, e⟩ <;> rw [e] <;> rfl
      refine exec_count_slows cruises counted space phase speed leg reached eot ?_
      cases d <;> simp only [legLength] <;> omega
    · exact exec_count_stops cruises counted kind phase speed owner aim (reached.trans (by cases d <;> rfl))

end Sys2Proof.Machine
end

