-- ==== Sys2Proof/Proofs/Keeping.lean ====
section
/-! PROOF. What a condition on the transports and the tables needs for every step to keep it: the induction over the line,
the queue and the events, packaged once. -/

namespace Sys2Proof.Machine

open Sys2Proof

/-- A condition that reads the transports, the table, the shelf and the marks alone, and that power-on makes true, and the
events of one transport, the end of a release and the requests keep. -/
structure Keeping (P : State → Prop) : Prop where
  reads : ∀ {s r : State}, P s → r.x = s.x → r.volumes = s.volumes → r.shelf = s.shelf → r.marks = s.marks → P r
  powerOn : ∀ (pins : PowerPins) (s : State), P (s.powerOn pins)
  event : ∀ {t : TNum} {s r : State}, s.Kept t r → P s → P r
  release : ∀ (t : TNum) (s : State), P s → P (s.releaseQuiet t)
  request : ∀ (q : Request) (s : State), P s → P (s.handleRequest q).1

variable {P : State → Prop} {s r : State}

/-! ### The line -/

/-- A change of what the condition does not read. -/
theorem Keeping.same (k : Keeping P) (h : P s) (x : r.x = s.x := by rfl) (v : r.volumes = s.volumes := by rfl)
    (l : r.shelf = s.shelf := by rfl) (m : r.marks = s.marks := by rfl) : P r :=
  k.reads h x v l m

theorem Keeping.respond (k : Keeping P) (kind : SelKind) (p : Reply) (h : P s) : P (s.respond kind p) := by
  unfold State.respond
  split
  · exact k.same h
  · exact h

theorem Keeping.execute (k : Keeping P) (b : Buffered) (h : P s) : P (s.execute b) := by
  refine k.respond _ _ ?_
  unfold State.handleMessage
  split
  · exact k.request _ _ h
  · exact h
  · exact h

theorem Keeping.takeRequest (k : Keeping P) (h : P s) : P s.takeRequest := by
  unfold State.takeRequest
  split
  · split
    · exact k.execute _ (k.same h)
    · exact h
  · exact h

theorem Keeping.submit (k : Keeping P) (b : Buffered) (h : P s) : P (s.submit b) := by
  unfold State.submit
  split
  · exact h
  · split
    · exact k.same h
    · exact k.takeRequest (k.same h)

theorem Keeping.messageEnd (k : Keeping P) (kind : SelKind) (got : List Byte) (h : P s) : P (s.messageEnd kind got) := by
  unfold State.messageEnd
  dsimp only
  split
  · exact k.submit _ (k.same h)
  · exact k.same h

theorem Keeping.dataFrame (k : Keeping P) (data : Byte) (h : P s) : P (s.dataFrame data) := by
  unfold State.dataFrame
  split
  · exact h
  · exact h
  · split <;> exact k.same h
  · split
    · exact k.messageEnd _ _ h
    · exact k.same h

theorem Keeping.frameError (k : Keeping P) (parity framing : Bool) (h : P s) : P (s.frameError parity framing) := by
  unfold State.frameError
  split <;> exact k.same h

theorem Keeping.frameGap (k : Keeping P) (h : P s) : P s.frameGap := by
  unfold State.frameGap
  split
  · exact k.same h
  · exact k.same h
  · exact h

theorem Keeping.transmitEnd (k : Keeping P) (h : P s) : P s.transmitEnd := by
  unfold State.transmitEnd
  split
  · exact h
  · exact k.takeRequest (k.same h)

/-! ### The converter -/

theorem Keeping.load (k : Keeping P) (t : TNum) (h : P s) : P (s.load t) := by
  unfold State.load State.joinScan
  split
  · have begun := k.event ((State.Kept.refl t s).upd _ (Transport.kept_beginLoad s.clock _)) h
    split
    · exact k.same begun
    · exact begun
  · exact h

theorem Keeping.nextConversion (k : Keeping P) (h : P s) : P s.nextConversion := by
  unfold State.nextConversion
  split <;> exact k.same h

/-- A result slot is none of what an event has to keep of its transport. -/
theorem State.Kept.setSlot {t : TNum} (e : Reel) (v : ResultSlot) (h : s.Kept t r) :
    s.Kept t (r.upd t (Transport.setSlot e v)) :=
  h.upd _ (by cases e <;> exact ⟨rfl, rfl, rfl, rfl, rfl, rfl, le_refl _, id, id⟩)

theorem Keeping.conversionEnd (k : Keeping P) (depth : Nat) (h : P s) : P (s.conversionEnd depth) := by
  unfold State.conversionEnd
  split
  · exact h
  · rename_i c _
    have written := (State.Kept.refl c.t s).setSlot c.reel { depth := depth, fresh := true }
    refine k.nextConversion ?_
    split
    · exact k.event (written.handResult _ _) h
    · exact k.event written h

/-! ### Commands and steps -/

theorem Keeping.exec_event (k : Keeping P) (c : Instr) (t : TNum) (e : c.transport? = some t) (x : exec c s = .next r)
    (h : P s) : P r := by
  rcases exec_event_kept c t s e with ⟨q, x', kept⟩ | rfl | rfl
  · rw [x'] at x
    cases x
    exact k.event kept h
  · cases x
    exact k.load t h
  · cases x
    exact k.release t s h

/-- A command of no single transport: power-on, the frames, the end of a conversion, and every request, which reaches the
request buffer. -/
theorem Keeping.exec_common (k : Keeping P) (c : Instr) (e : c.transport? = none) (x : exec c s = .next r) (h : P s) :
    P r := by
  cases c <;> cases e <;> cases x
  case powerOn pins => exact k.powerOn pins s
  case addressFrame data => exact k.same h
  case dataFrame data => exact k.dataFrame data h
  case frameError parity framing =>
    split
    · exact k.frameError parity framing h
    · exact h
  case frameGapTimeout => exact k.frameGap h
  case transmitEnd => exact k.transmitEnd h
  case conversionEnd depth => exact k.conversionEnd _ h
  all_goals exact k.submit _ h

theorem Keeping.exec (k : Keeping P) (c : Instr) (x : exec c s = .next r) (h : P s) : P r := by
  cases e : c.transport? with
  | none => exact k.exec_common c e x h
  | some t => exact k.exec_event c t e x h

/-- An idle step touches the clock alone, and every other one executes a command. -/
theorem Keeping.step (k : Keeping P) (x : step s = .next r) (h : P s) : P r := by
  unfold Machine.step at x
  split at x
  · exact k.exec _ x (k.same h)
  · cases x
    exact k.same h

/-! ### Requests by their operands -/

theorem onTransport_state {f : TNum → State → State × Reply} (b : Byte) (h : P s) (k : ∀ t, P (f t s).1) :
    P (onTransport b f s).1 := by
  unfold onTransport
  split
  · exact k _
  · exact h

/-- A mark request does nothing on an unbound transport (R46). -/
theorem onVolume_state {t : TNum} {f : Fin 16 → State → State × Reply} (h : P s)
    (k : ∀ i, s.boundIdx t = some i → P (f i s).1) : P (onVolume t f s).1 := by
  unfold onVolume
  split
  case h_1 i bound => exact k i bound
  case h_2 => exact h

theorem onMark_state {t : TNum} {number : BitVec 16} {f : Fin 16 → Mark → State → State × Reply} (h : P s)
    (k : ∀ i m, s.boundIdx t = some i → P (f i m s).1) : P (onMark t number f s).1 := by
  refine onVolume_state h fun i bound => ?_
  split
  · exact h
  · split
    · exact h
    · exact k _ _ bound

end Sys2Proof.Machine
end

