-- ==== Sys2Proof/Proofs/VolumesSound.lean ====
section
/-! PROOF. Every step keeps the shelf list exact, the serials and the transports of the volumes unique, and FREE entries
without marks. -/

namespace Sys2Proof.Machine

open Sys2Proof

variable {t : TNum} {s r q : State}

/-! ### Requests that leave the table as it is -/

/-- The entries and the shelf stand, and so do the marks of the FREE entries. -/
structure State.TableStays (s r : State) : Prop where
  volumes : r.volumes = s.volumes
  shelf : r.shelf = s.shelf
  free : ∀ i : Fin 16, s.volumes[i].isFree = true → r.marks[i] = s.marks[i]

theorem State.TableStays.sound (k : s.TableStays r) (h : s.volumesSound) : r.volumesSound :=
  State.volumesSound_of h k.volumes k.shelf fun i f => (k.free i f).trans (h.2.2.2.2 i f)

theorem State.TableStays.refl (s : State) : s.TableStays s := ⟨rfl, rfl, fun _ _ => rfl⟩

theorem State.TableStays.trans (h : s.TableStays r) (k : r.TableStays q) : s.TableStays q :=
  ⟨k.volumes.trans h.volumes, k.shelf.trans h.shelf, fun i f =>
    (k.free i (by rw [h.volumes]; exact f)).trans (h.free i f)⟩

theorem State.TableStays.upd (f : Transport → Transport) (h : s.TableStays r) : s.TableStays (r.upd t f) :=
  h.trans ⟨rfl, rfl, fun _ _ => rfl⟩

/-- A bound entry is not FREE (R27). -/
theorem State.boundIdx_not_free {i : Fin 16} (h : s.boundIdx t = some i) : s.volumes[i].isFree = false := by
  have on := State.boundIdx_isOn h
  revert on
  cases s.volumes[i] <;> simp [Entry.isOn, Entry.isFree]

theorem State.Kept.tableStays (k : s.Kept t r) : s.TableStays r :=
  ⟨k.volumes, k.shelf, fun i f => k.elsewhere i fun b => by
    rw [State.boundIdx_not_free b] at f
    cases f⟩

theorem State.TableStays.event (h : s.TableStays r) (k : r.Kept t q) : s.TableStays q := h.trans k.tableStays

theorem State.TableStays.forEach {f : TNum → State → State} (k : ∀ (u : TNum) (q : State), q.TableStays (f u q)) :
    s.TableStays (s.forEach f) :=
  (((k _ _).trans (k _ _)).trans (k _ _)).trans (k _ _)

theorem State.TableStays.setMarks {i : Fin 16} (l : List Mark) (b : s.boundIdx t = some i) :
    s.TableStays (s.setMarks i l) := by
  refine ⟨rfl, rfl, fun j f => ?_⟩
  rw [State.marks_setMarks, if_neg]
  rintro rfl
  rw [State.boundIdx_not_free b] at f
  cases f

theorem State.TableStays.pruneWatches (h : s.TableStays r) : s.TableStays (r.pruneWatches t) :=
  h.event (State.Kept.refl t r).pruneWatches

theorem State.TableStays.replan (h : s.TableStays r) : s.TableStays (r.replan t) := h.event (State.Kept.refl t r).replan

theorem State.TableStays.reportBarrier (concerns : Bool) (h : s.TableStays r) :
    s.TableStays (r.reportBarrier t concerns) := by
  unfold State.reportBarrier
  split
  · exact h.replan
  · exact h

theorem changeMark_stays (t : TNum) (number : BitVec 16) (selector bits : Byte) (position : BitVec 24)
    (tag : BitVec 32) (s : State) : s.TableStays (changeMark t number selector bits position tag s).1 := by
  refine onVolume_state (State.TableStays.refl s) fun i bound => ?_
  split
  · split
    · exact State.TableStays.refl s
    · refine State.TableStays.reportBarrier _ (State.TableStays.pruneWatches ?_)
      split
      · exact (State.TableStays.setMarks _ bound).upd _
      · exact State.TableStays.setMarks _ bound
  · exact State.TableStays.refl s

theorem retireMark_stays (t : TNum) (number : BitVec 16) (s : State) : s.TableStays (retireMark t number s).1 :=
  onMark_state (State.TableStays.refl s) fun _ _ bound =>
    ((State.TableStays.setMarks _ bound).upd _).reportBarrier _

theorem readPassed_stays (t : TNum) (s : State) : s.TableStays (readPassed t s).1 :=
  onVolume_state (State.TableStays.refl s) fun _ bound => State.TableStays.setMarks _ bound

theorem findByTag_state (t : TNum) (tag : BitVec 32) (start : BitVec 16) (s : State) :
    (findByTag t tag start s).1 = s := by
  refine onVolume_state (P := fun q => q = s) rfl fun i _ => ?_
  split <;> rfl

theorem findNearest_state (t : TNum) (position : BitVec 24) (side : Byte) (s : State) :
    (findNearest t position side s).1 = s := by
  refine onVolume_state (P := fun q => q = s) rfl fun i _ => ?_
  split
  · split <;> rfl
  · split <;> rfl
  · rfl

theorem listMarks_state (t : TNum) (start : BitVec 16) (s : State) : (listMarks t start s).1 = s := by
  refine onVolume_state (P := fun q => q = s) rfl fun i _ => ?_
  split <;> rfl

theorem readVolume_state (form index : Byte) (serial : Serial) (s : State) : (readVolume form index serial s).1 = s := by
  unfold readVolume
  split
  · split <;> rfl
  · split
    · rfl
    · split <;> rfl
  · rfl

theorem listVolumes_state (start : Byte) (s : State) : (listVolumes start s).1 = s := by
  unfold listVolumes
  split <;> rfl

theorem setCaptureParameters_stays (t : TNum) (lead lag : BitVec 16) (filter : Byte) (s : State) :
    s.TableStays (setCaptureParameters t lead lag filter s).1 := by
  have same := State.TableStays.refl s
  unfold setCaptureParameters
  split
  · exact same
  · split
    · exact same
    · exact (same.upd _).pruneWatches.replan.event ((State.Kept.refl t _).filter _)

theorem setDefaultClass_stays (t : TNum) (cls : Byte) (s : State) : s.TableStays (setDefaultClass t cls s).1 := by
  unfold setDefaultClass
  split
  · exact ⟨rfl, rfl, fun _ _ => rfl⟩
  · exact State.TableStays.refl s

theorem queueOrder_stays (t : TNum) (tag kind : Byte) (argument : BitVec 24) (s : State) :
    s.TableStays (queueOrder t tag kind argument s).1 := by
  have same := State.TableStays.refl s
  unfold queueOrder
  dsimp only
  split
  · exact same
  split
  · exact same
  split
  · exact same
  split
  · exact same
  split
  · exact same
  · exact (same.upd _).event (State.Kept.refl t _).startNext

theorem halt_stays (t : TNum) (s : State) : s.TableStays (halt t s).1 := by
  unfold halt
  split
  · exact State.TableStays.refl s
  · exact (State.Kept.refl t s).haltOrders.tableStays

theorem setSlotThreshold_stays (t : TNum) (threshold : Byte) (s : State) :
    s.TableStays (setSlotThreshold t threshold s).1 := by
  unfold setSlotThreshold
  split
  · exact State.TableStays.refl s
  · exact ⟨rfl, rfl, fun _ _ => rfl⟩

theorem releaseTransport_stays (t : TNum) (s : State) : s.TableStays (releaseTransport t s).1 := by
  unfold releaseTransport
  split
  · exact (State.Kept.refl t s).goOffline.tableStays
  · exact State.TableStays.refl s

theorem setLoopParameters_stays (t : TNum) (a b c d e f : Byte) (s : State) :
    s.TableStays (setLoopParameters t a b c d e f s).1 := by
  unfold setLoopParameters
  split
  · exact ⟨rfl, rfl, fun _ _ => rfl⟩
  · exact State.TableStays.refl s

theorem setDriveParameters_stays (t : TNum) (a b c d : Byte) (s : State) :
    s.TableStays (setDriveParameters t a b c d s).1 := by
  unfold setDriveParameters
  split
  · exact State.TableStays.refl s
  · exact ⟨rfl, rfl, fun _ _ => rfl⟩

theorem clearHold_stays (t : TNum) (s : State) : s.TableStays (clearHold t s).1 := by
  unfold clearHold
  split
  · exact State.TableStays.refl s
  · split
    · exact State.TableStays.refl s
    · exact ⟨rfl, rfl, fun _ _ => rfl⟩

theorem State.stopAll_stays (s : State) : s.TableStays s.stopAll :=
  State.TableStays.forEach fun u q => (State.Kept.refl u q).allStopOne.tableStays

theorem State.resetStation_stays (s : State) : s.TableStays s.resetStation := by
  have dropped : s.TableStays (s.stopAll.forEach State.resetOrders) :=
    s.stopAll_stays.trans (State.TableStays.forEach fun u q => (State.Kept.refl u q).resetOrders.tableStays)
  unfold State.resetStation
  generalize s.stopAll.forEach State.resetOrders = q at dropped
  exact dropped.trans ⟨rfl, rfl, fun _ _ => rfl⟩

/-! ### Requests that change the table -/

/-- The entry found for a new serial leaves the table sound, with the serials that stood in it or fewer, and no transport
takes a volume (R31, R33). -/
theorem State.freshEntry_sound {i : Fin 16} {room : State} {e : Option Serial} (f : s.freshEntry = some (i, room, e))
    (h : s.volumesSound) :
    room.volumesSound ∧ ∀ j : Fin 16, room.volumes[j] = s.volumes[j] ∨ room.volumes[j] = .free := by
  unfold State.freshEntry at f
  split at f
  case h_1 =>
    cases f
    exact ⟨h, fun _ => .inl rfl⟩
  case h_2 =>
    split at f
    case h_2 => cases f
    case h_1 j rest shelf =>
      cases f
      have freed : ∀ k : Fin 16, (s.evict i).volumes[k] = if i = k then .free else s.volumes[k] :=
        fun k => State.volumes_setEntry i k .free s
      refine ⟨s.volumesSound_evict i h, fun k => ?_⟩
      rw [freed]
      split
      · exact .inr rfl
      · exact .inl rfl

/-- Marks retired leave the table sound (R56). -/
theorem State.volumesSound_clearMarks (i : Fin 16) (h : s.volumesSound) : (s.setMarks i []).volumesSound := by
  refine State.volumesSound_of h rfl rfl fun j f => ?_
  rw [State.marks_setMarks]
  split
  · rfl
  · exact h.2.2.2.2 j f

theorem State.bind_sound (v : Volume) (unbound : s.boundIdx t = none) (h : s.volumesSound) :
    (s.bind t v).1.volumesSound := by
  have apart := State.boundIdx_none unbound
  unfold State.bind
  split
  case h_1 i found =>
    have mine := State.findSerial_some found
    have alone : ∀ j, j ≠ i → s.serialOf j ≠ some v.serial := fun j n e =>
      n (h.2.2.1 j i (by rw [e]; rfl) (e.trans mine.symm))
    split
    · split
      · exact State.volumesSound_mount i v t s h alone apart
      · exact State.volumesSound_mount i v t _ (State.volumesSound_clearMarks i h) alone apart
    · exact h
  case h_2 new =>
    have new := State.findSerial_none new
    split
    case h_2 => exact h
    case h_1 i room e fresh =>
      obtain ⟨sound, entries⟩ := State.freshEntry_sound fresh h
      refine State.volumesSound_mount i v t _ (State.volumesSound_clearMarks i sound) (fun j _ => ?_) fun j => ?_
      · show (room.volumes[j].volume?.map fun k => k.serial) ≠ _
        rcases entries j with same | gone
        · rw [same]
          exact new j
        · rw [gone]
          exact nofun
      · show room.volumes[j].isOn t = false
        rcases entries j with same | gone
        · rw [same]
          exact apart j
        · rw [gone]
          rfl

theorem bindVolume_sound (t : TNum) (serial : Serial) (generation : BitVec 16) (cls : Byte) (length : BitVec 24)
    (h : s.volumesSound) : (bindVolume t serial generation cls length s).1.volumesSound := by
  unfold bindVolume
  split
  · exact h
  · split
    · exact h
    case isFalse n =>
      refine State.bind_sound _ ?_ h
      by_contra bound
      exact n (.inr (Option.isSome_iff_ne_none.mpr bound))

theorem unbindVolume_sound (t : TNum) (h : s.volumesSound) : (unbindVolume t s).1.volumesSound := by
  unfold unbindVolume
  split
  · exact h
  · split
    · exact h
    · exact State.volumesSound_shelveBound t s h

theorem retireVolume_sound (serial : Serial) (h : s.volumesSound) : (retireVolume serial s).1.volumesSound := by
  unfold retireVolume
  split
  · exact h
  · split
    · split
      · exact State.volumesSound_freeEntry _ s h
      · exact h
    · exact h

/-- Room in the pool is made by freeing a SHELVED entry, if at all, so that the bound volume stays bound (R26, R34). -/
theorem State.makeRoom_sound {i : Fin 16} {room : State} {e : Option Serial} (m : s.makeRoom = some (room, e))
    (bound : s.boundIdx t = some i) (h : s.volumesSound) : room.volumesSound ∧ room.volumes[i].isFree = false := by
  have mine := State.boundIdx_not_free bound
  unfold State.makeRoom at m
  split at m
  · cases m
    exact ⟨h, mine⟩
  · split at m
    case h_2 => cases m
    case h_1 j found =>
      cases m
      have shelved := (h.2.1 j).mp (List.mem_of_find?_eq_some found)
      refine ⟨s.volumesSound_evict j h, ?_⟩
      have entry : (s.evict j).volumes[i] = if j = i then .free else s.volumes[i] := State.volumes_setEntry j i .free s
      rw [entry, if_neg]
      · exact mine
      · rintro rfl
        have on := State.boundIdx_isOn bound
        revert on shelved
        cases s.volumes[j] <;> nofun

theorem setMark_sound (t : TNum) (number : BitVec 16) (bits form : Byte) (position : BitVec 24) (tag : BitVec 32)
    (h : s.volumesSound) : (setMark t number bits form position tag s).1.volumesSound := by
  refine onVolume_state h fun i bound => ?_
  split
  · split
    · exact h
    · split
      · exact h
      · split
        · exact h
        · rename_i room _ made
          obtain ⟨sound, used⟩ := State.makeRoom_sound made bound h
          refine ((State.TableStays.refl _).reportBarrier _).sound (State.volumesSound_of sound rfl rfl fun j f => ?_)
          rw [State.marks_setMarks, if_neg]
          · exact sound.2.2.2.2 j f
          · rintro rfl
            rw [used] at f
            cases f
  · exact h

/-! ### Every request and every step -/

theorem State.volumesSound_request (q : Request) (s : State) (h : s.volumesSound) :
    (s.handleRequest q).1.volumesSound := by
  have tables : ∀ {r : State}, s.TableStays r → r.volumesSound := fun k => k.sound h
  cases q with
  | poll => exact h
  | readLineStatus => exact h
  | setNoticeMasks sel => exact tables ⟨rfl, rfl, fun _ _ => rfl⟩
  | readNotices => exact h
  | ackNotices sel => exact tables ⟨rfl, rfl, fun _ _ => rfl⟩
  | readEviction => exact h
  | allStop => exact tables s.stopAll_stays
  | resetStation => exact tables s.resetStation_stays
  | readPosition b => exact onTransport_state b h fun _ => h
  | setDefaultClass b cls => exact onTransport_state b h fun u => tables (setDefaultClass_stays u cls s)
  | bindVolume b serial generation cls length => exact onTransport_state b h fun u => bindVolume_sound u _ _ _ _ h
  | unbindVolume b => exact onTransport_state b h fun u => unbindVolume_sound u h
  | retireVolume serial => exact retireVolume_sound serial h
  | readVolume form index serial => exact (readVolume_state form index serial s).symm ▸ h
  | listVolumes start => exact (listVolumes_state start s).symm ▸ h
  | setMark b number bits form position tag => exact onTransport_state b h fun u => setMark_sound u _ _ _ _ _ h
  | changeMark b number selector bits position tag =>
    exact onTransport_state b h fun u => tables (changeMark_stays u _ _ _ _ _ s)
  | retireMark b number => exact onTransport_state b h fun u => tables (retireMark_stays u _ s)
  | findMark b number => exact onTransport_state b h fun u => onMark_state h fun _ _ _ => h
  | findByTag b tag start => exact onTransport_state b h fun u => (findByTag_state u tag start s).symm ▸ h
  | findNearest b position side => exact onTransport_state b h fun u => (findNearest_state u position side s).symm ▸ h
  | listMarks b start => exact onTransport_state b h fun u => (listMarks_state u start s).symm ▸ h
  | readPassed b => exact onTransport_state b h fun u => tables (readPassed_stays u s)
  | setCaptureParameters b lead lag filter =>
    exact onTransport_state b h fun u => tables (setCaptureParameters_stays u _ _ _ s)
  | readCapture b => exact onTransport_state b h fun _ => h
  | queueOrder b tag kind argument => exact onTransport_state b h fun u => tables (queueOrder_stays u _ _ _ s)
  | halt b => exact onTransport_state b h fun u => tables (halt_stays u s)
  | cancelPending b => exact onTransport_state b h fun _ => tables ⟨rfl, rfl, fun _ _ => rfl⟩
  | readCompletions b => exact onTransport_state b h fun _ => tables ⟨rfl, rfl, fun _ _ => rfl⟩
  | setSlotThreshold b threshold => exact onTransport_state b h fun u => tables (setSlotThreshold_stays u _ s)
  | readTransport b => exact onTransport_state b h fun _ => h
  | releaseTransport b => exact onTransport_state b h fun u => tables (releaseTransport_stays u s)
  | resetTransport b =>
    exact onTransport_state b h fun u => tables (State.Kept.refl u s).resetTransport.tableStays
  | setLoopParameters b limitShort bandLow bandHigh limitLong gain persistence =>
    exact onTransport_state b h fun u => tables (setLoopParameters_stays u _ _ _ _ _ _ s)
  | setDriveParameters b supplyLevel takeupLevel resume stallTime =>
    exact onTransport_state b h fun u => tables (setDriveParameters_stays u _ _ _ _ s)
  | readLoops b => exact onTransport_state b h fun _ => tables ⟨rfl, rfl, fun _ _ => rfl⟩
  | clearHold b => exact onTransport_state b h fun u => tables (clearHold_stays u s)
  | readHoldRecord b => exact onTransport_state b h fun _ => h

/-- The end of a release shelves the bound volume (R36). -/
theorem State.volumesSound_releaseQuiet (t : TNum) (s : State) (h : s.volumesSound) : (s.releaseQuiet t).volumesSound := by
  unfold State.releaseQuiet
  split
  · exact State.volumesSound_shelveBound t _ h
  · exact h

theorem keeping_volumesSound : Keeping State.volumesSound where
  reads h _ v l m := State.volumesSound_of h v l fun i f => by
    rw [m]
    exact h.2.2.2.2 i f
  powerOn _ _ := State.reset_volumesSound
  event k h := State.volumesSound_events h k
  release := State.volumesSound_releaseQuiet
  request := State.volumesSound_request

/-- Settles O58: the table is sound at power-on, only binds, unbinds, retirements, SET MARK and the end of a release touch
it, and each of these keeps it sound. -/
theorem stepsKeepTheVolumesSound : Obligations.StepsKeepTheVolumesSound :=
  fun _ _ h x => keeping_volumesSound.step x h

end Sys2Proof.Machine
end

