-- ==== Sys2Proof/Proofs/Binds.lean ====
section
/-! PROOF. BIND VOLUME: the entry it takes, what it keeps of a shelved one, and its refusals. -/

namespace Sys2Proof.Machine

open Sys2Proof

/-! ### The operands (R24, R28, R176) -/

theorem inertiaOf_some {b : Byte} (h : b.toNat ≤ 2) : ∃ c : Inertia, c.code = b.toNat := by
  interval_cases b.toNat
  · exact ⟨.light, rfl⟩
  · exact ⟨.standard, rfl⟩
  · exact ⟨.heavy, rfl⟩

section
variable {t : TNum} {s : State} {serial : Serial} {generation : BitVec 16} {cls : Byte} {length : BitVec 24} {c : Inertia}
  {i : Fin 16}

theorem volumeOf_some (code : c.code = cls.toNat) (ok : serialOk serial = true) (least : 1 ≤ length.toNat)
    (most : length.toNat ≤ 8388607) : volumeOf serial generation cls length =
      some { serial := serial, generation := generation, cls := c, length := length.toNat } := by
  unfold volumeOf Config.posMax
  rw [inertiaOf_code code]
  exact if_pos ⟨ok, least, by omega⟩

theorem volumeOf_none (h : ¬(cls.toNat ≤ 2 ∧ serialOk serial = true ∧ 1 ≤ length.toNat ∧ length.toNat ≤ 8388607)) :
    volumeOf serial generation cls length = none := by
  unfold volumeOf Config.posMax
  by_cases known : cls.toNat ≤ 2
  · obtain ⟨c, code⟩ := inertiaOf_some known
    rw [inertiaOf_code code]
    refine if_neg fun ⟨ok, least, most⟩ => h ⟨known, ok, least, ?_⟩
    omega
  · rw [inertiaOf_none (by omega)]

/-! ### The request -/

/-- What BIND VOLUME does on a line that can answer, by its handler. -/
theorem exec_bindVolume {q : State} {p : Reply} (line : s.lineReady)
    (done : bindVolume t serial generation cls length s = (q, p)) (receiver : q.line.receiver = s.line.receiver) :
    exec (.bindVolume (transportByte t) serial generation cls length) s = .next (q.sending p.status p.body) :=
  exec_ready (.bindVolume (transportByte t) serial generation cls length) s q p line ((onTransport_byte t _ s).trans done)
    receiver

theorem bindVolume_free {v : Volume} (allowed : volumeOf serial generation cls length = some v)
    (state : (s.tr t).sequencer.state = .ready) (unbound : s.boundIdx t = none) :
    bindVolume t serial generation cls length s = s.bind t v := by
  unfold bindVolume
  rw [allowed]
  exact if_neg (by simp [state, unbound])

theorem bindVolume_wrongState {v : Volume} (allowed : volumeOf serial generation cls length = some v)
    (h : ¬((s.tr t).sequencer.state = .ready ∧ s.boundIdx t = none)) :
    bindVolume t serial generation cls length s = refuse .wrongState s := by
  unfold bindVolume
  rw [allowed]
  refine if_pos ?_
  rw [Option.isSome_iff_ne_none, ← not_and_or]
  exact h

/-! ### The entry taken (R29 to R31) -/

theorem State.freshEntry_free (free : s.volumes[i].isFree = true)
    (first : ∀ j : Fin 16, j < i → s.volumes[j].isFree = false) :
    s.freshEntry = some (i, s, none) := by
  have found : ((List.finRange 16).find? fun j => s.volumes[j].isFree) = some i := by
    rw [List.find?_eq_some_iff_getElem]
    refine ⟨free, i.val, by simp, by simp, fun j before => ?_⟩
    simpa using first ⟨j, by omega⟩ (Fin.lt_def.mpr before)
  unfold State.freshEntry
  rw [found]

theorem State.freshEntry_evicts {rest : List (Fin 16)} (full : ∀ j : Fin 16, s.volumes[j].isFree = false)
    (shelf : s.shelf = i :: rest) : s.freshEntry = some (i, s.evict i, s.serialOf i) := by
  have found : ((List.finRange 16).find? fun j => s.volumes[j].isFree) = none :=
    List.find?_eq_none.mpr fun j _ => by simpa using full j
  unfold State.freshEntry
  rw [found, shelf]

theorem State.bind_new {v : Volume} {room : State} {evicted : Option Serial} (new : s.findSerial v.serial = none)
    (fresh : s.freshEntry = some (i, room, evicted)) :
    s.bind t v = answer (bindBody i .new 0 0 evicted) ((room.setMarks i []).mount i v t) := by
  unfold State.bind
  rw [new]
  dsimp only
  rw [fresh]

theorem State.bind_rebound {v old : Volume} (found : s.findSerial v.serial = some i) (entry : s.volumes[i] = .shelved old)
    (same : old.generation = v.generation) :
    s.bind t v = answer (bindBody i .rebound 0 (s.marks[i].countP fun m => decide ((v.length : Int) < m.pos)) none)
      (s.mount i v t) := by
  unfold State.bind
  rw [found]
  dsimp only
  rw [entry]
  exact if_pos same

theorem State.bind_renewed {v old : Volume} (found : s.findSerial v.serial = some i) (entry : s.volumes[i] = .shelved old)
    (other : old.generation ≠ v.generation) :
    s.bind t v = answer (bindBody i .renewed (s.markCount i) 0 none) ((s.setMarks i []).mount i v t) := by
  unfold State.bind
  rw [found]
  dsimp only
  rw [entry]
  exact if_neg other

theorem State.bind_elsewhere {v k : Volume} {u : TNum} (found : s.findSerial v.serial = some i)
    (entry : s.volumes[i] = .mounted k u) : s.bind t v = refuse .boundElsewhere s := by
  unfold State.bind
  rw [found]
  dsimp only
  rw [entry]

theorem State.serialOf_shelved {v : Volume} (entry : s.volumes[i] = .shelved v) : s.serialOf i = some v.serial := by
  unfold State.serialOf
  rw [entry]
  rfl

/-- A mount on an evicted entry overwrites what the eviction put there (R31, R33). -/
theorem State.mount_evict {rest : List (Fin 16)} (v old : Volume) (shelf : s.shelf = i :: rest)
    (entry : s.volumes[i] = .shelved old) :
    ((s.evict i).setMarks i []).mount i v t =
      { s with
        volumes := s.volumes.set i (.mounted v t), shelf := rest.filter fun k => k != i, marks := s.marks.set i []
        eviction := { serial := some old.serial, count := min 255 (s.eviction.count + 1) }
        ctl := { s.ctl with evict := true } } := by
  simp [State.mount, State.evict, State.freeEntry, State.noteEviction, State.setMarks, State.setEntry, State.unshelve,
    State.serialOf_shelved entry, shelf, Config.maxEvictions]

end

/-- Settles O28: a new serial takes a fresh entry, the FREE one found first or the evicted one. -/
theorem bindMakesANewEntry : Obligations.BindMakesANewEntry := by
  intro t serial generation cls length s c i line state unbound code ok least most new volumes
  have binds := fun room evicted fresh => (bindVolume_free (volumeOf_some (generation := generation) code ok least most)
    state unbound).trans (State.bind_new (i := i) (room := room) (evicted := evicted) new fresh)
  refine ⟨fun free first => exec_bindVolume line (binds _ _ (State.freshEntry_free free first)) rfl,
    fun rest old full shelf entry => ?_⟩
  have bound := binds _ _ (State.freshEntry_evicts full shelf)
  rw [State.mount_evict _ old shelf entry, State.serialOf_shelved entry] at bound
  exact exec_bindVolume line bound rfl

/-- Settles O29: the generation decides whether the marks stay. -/
theorem bindTakesAShelvedEntryBack : Obligations.BindTakesAShelvedEntryBack := by
  intro t serial generation cls length s c i old line state unbound code ok least most found entry volumes shelf
  have free := bindVolume_free (volumeOf_some (generation := generation) code ok least most) state unbound
  exact ⟨fun same => exec_bindVolume line (free.trans (State.bind_rebound found entry same)) rfl,
    fun other => exec_bindVolume line (free.trans (State.bind_renewed found entry other)) rfl⟩

/-- Settles O30: the operands, the state of the transport and the table are judged in this order. -/
theorem bindRefusals : Obligations.BindRefusals := by
  intro t serial generation cls length s line allowed free command
  refine ⟨fun bad => ?_, fun ⟨known, ok, least, most⟩ taken => ?_,
    fun i v u ⟨known, ok, least, most⟩ ⟨state, unbound⟩ found entry => ?_⟩
  · have refused : bindVolume t serial generation cls length s = refuse .badParameter s := by
      unfold bindVolume
      rw [volumeOf_none bad]
    exact exec_bindVolume line refused rfl
  · obtain ⟨c, code⟩ := inertiaOf_some known
    exact exec_bindVolume line (bindVolume_wrongState (volumeOf_some code ok least most) taken) rfl
  · obtain ⟨c, code⟩ := inertiaOf_some known
    exact exec_bindVolume line ((bindVolume_free (volumeOf_some code ok least most) state unbound).trans
      (State.bind_elsewhere found entry)) rfl

end Sys2Proof.Machine
end

