-- ==== Sys2Proof/Proofs/VolumeRequests.lean ====
section
/-! PROOF. UNBIND, RETIRE, READ and LIST VOLUMES. -/

namespace Sys2Proof.Machine

open Sys2Proof

/-! ### Serials and indices (R24, R177) -/

theorem serialChar_false_iff (b : Byte) : serialChar b = false ↔
    b ≠ 0x20 ∧ ¬(0x30 ≤ b.toNat ∧ b.toNat ≤ 0x39) ∧ ¬(0x41 ≤ b.toNat ∧ b.toNat ≤ 0x5A) := by
  simp [serialChar, and_assoc]

/-- A serial is refused for being blank or for a character outside the 37. -/
theorem serialOk_false_iff (serial : Serial) : serialOk serial = false ↔ (∀ b ∈ serial.bytes, b = 0x20) ∨
    ∃ b ∈ serial.bytes, b ≠ 0x20 ∧ ¬(0x30 ≤ b.toNat ∧ b.toNat ≤ 0x39) ∧ ¬(0x41 ≤ b.toNat ∧ b.toNat ≤ 0x5A) := by
  have blank : (serial.bytes.all (· == 0x20)) = true ↔ ∀ b ∈ serial.bytes, b = 0x20 := by simp
  have strange : serial.bytes.all serialChar = false ↔ ∃ b ∈ serial.bytes, serialChar b = false := by simp
  unfold serialOk
  rw [Bool.and_eq_false_iff, Bool.not_eq_false', blank, strange, or_comm]
  simp only [serialChar_false_iff]

theorem indexOf_byte (i : Fin 16) : indexOf (byte i.val) = some i := by
  have value : (byte i.val).toNat = i.val := by
    simp only [byte, BitVec.toNat_ofNat]
    omega
  unfold indexOf
  rw [dif_pos (by omega)]
  simp [value]

theorem indexOf_none {b : Byte} (h : 15 < b.toNat) : indexOf b = none := dif_neg (by omega)

section
variable {t : TNum} {s : State} {serial : Serial} {i : Fin 16}

/-! ### UNBIND VOLUME (R35) -/

theorem exec_unbindVolume {q : State} {p : Reply} (line : s.lineReady) (done : unbindVolume t s = (q, p))
    (receiver : q.line.receiver = s.line.receiver) :
    exec (.unbindVolume (transportByte t)) s = .next (q.sending p.status p.body) :=
  exec_ready (.unbindVolume (transportByte t)) s q p line ((onTransport_byte t _ s).trans done) receiver

theorem unbindVolume_notBound (unbound : s.boundIdx t = none) : unbindVolume t s = refuse .notBound s := by
  unfold unbindVolume
  exact if_pos (by simp [unbound])

theorem Transport.busy_iff (x : Transport) : x.busy = true ↔
    x.running.isSome = true ∨ (∃ p, x.sequencer.state = .rewinding p) ∨ ∃ p, x.sequencer.state = .unloading p := by
  unfold Transport.busy
  cases x.sequencer.state <;> simp

theorem unbindVolume_bound (bound : (s.boundIdx t).isSome = true) : unbindVolume t s =
    if (s.tr t).busy then refuse .busy s else answer [] (s.shelveBound t) := by
  unfold unbindVolume
  exact if_neg (by simpa [Option.isSome_iff_ne_none] using bound)

theorem State.shelveBound_of {v : Volume} {u : TNum} (bound : s.boundIdx t = some i) (entry : s.volumes[i] = .mounted v u) :
    s.shelveBound t = { s with volumes := s.volumes.set i (.shelved v), shelf := s.shelf ++ [i] } := by
  unfold State.shelveBound
  rw [bound]
  dsimp only
  rw [entry]
  rfl

/-- READY, HELD and RECOVERING without an order are not busy. -/
theorem Transport.busy_false {x : Transport} (state : x.sequencer.state ∈ [XState.ready, .held, .recovering])
    (idle : x.running = none) : x.busy = false := by
  rw [← Bool.not_eq_true, Transport.busy_iff, idle]
  revert state
  cases x.sequencer.state <;> simp

/-! ### RETIRE VOLUME (R37) -/

theorem retireVolume_badParameter (bad : serialOk serial = false) : retireVolume serial s = refuse .badParameter s :=
  if_pos bad

theorem retireVolume_found (ok : serialOk serial = true) (found : s.findSerial serial = some i) : retireVolume serial s =
    if s.volumes[i].isShelved then answer (two (s.markCount i)) (s.freeEntry i) else refuse .wrongState s := by
  unfold retireVolume
  rw [if_neg (by simp [ok]), found]

theorem retireVolume_noSuchVolume (ok : serialOk serial = true) (new : s.findSerial serial = none) :
    retireVolume serial s = refuse .noSuchVolume s := by
  unfold retireVolume
  rw [if_neg (by simp [ok]), new]

/-! ### READ VOLUME (R38) -/

theorem readVolume_index (form index : Byte) (h : form.toNat = 0) : readVolume form index serial s =
    match indexOf index with
    | some i => answer (s.volumeRecord i) s
    | none => refuse .badParameter s := by
  unfold readVolume
  rw [h]
  rfl

theorem readVolume_badSerial (index : Byte) (bad : serialOk serial = false) :
    readVolume 1 index serial s = refuse .badParameter s :=
  if_pos bad

theorem readVolume_serial (index : Byte) (ok : serialOk serial = true) : readVolume 1 index serial s =
    match s.findSerial serial with
    | some i => answer (s.volumeRecord i) s
    | none => refuse .noSuchVolume s := by
  refine (if_neg (by simp [ok])).trans ?_
  rfl

theorem readVolume_badForm (form index : Byte) (h : 1 < form.toNat) :
    readVolume form index serial s = refuse .badParameter s := by
  unfold readVolume
  split
  · omega
  · omega
  · rfl

/-- The 14 bytes of an entry (R38, R179). -/
theorem State.volumeRecord_eq (s : State) (i : Fin 16) : s.volumeRecord i =
    let count := s.marks[i].length
    let form := fun (state place : Nat) (v : Volume) =>
      [byte (16 * i.val + 4 * state + v.cls.code), byte (16 * place + count / 256), byte (count % 256),
        v.serial.c0, v.serial.c1, v.serial.c2, v.serial.c3, v.serial.c4, v.serial.c5] ++
      bytes16 v.generation ++ bytes24 (BitVec.ofNat 24 v.length)
    match s.volumes[i] with
    | .free => [byte (16 * i.val), 0, 0, 0, 0, 0, 0, 0, 0, 0, 0, 0, 0, 0]
    | .mounted v t => form 1 t.toNat v
    | .shelved v => form 2 ((s.shelf.findIdx? fun k => k == i).getD 0) v := by
  unfold State.volumeRecord
  cases s.volumes[i] <;> rfl

/-! ### LIST VOLUMES (R39) -/

theorem listVolumes_eq (s : State) (i : Fin 16) : listVolumes (byte i.val) s =
    let listed := (List.finRange 16).filter fun k => decide (i ≤ k) && !s.volumes[k].isFree
    answer ((listed.take 4).flatMap s.volumeRecord ++
      [byte ((if 4 < listed.length then 128 else 0) + s.countEntries Entry.isFree),
        byte (32 * s.countEntries Entry.isMounted + s.countEntries Entry.isShelved)] ++ two s.poolInUse) s := by
  have more : ∀ n : Nat, bitAt 7 (decide (Config.listMax < n)) = if 4 < n then 128 else 0 := fun n => by
    by_cases h : 4 < n <;> simp [bitAt, Config.listMax, h]
  unfold listVolumes
  rw [indexOf_byte]
  dsimp only
  rw [more]
  rfl

theorem listVolumes_badParameter {start : Byte} (beyond : 15 < start.toNat) :
    listVolumes start s = refuse .badParameter s := by
  unfold listVolumes
  rw [indexOf_none beyond]

end

/-- Settles O31: request by request, each in the order of its checks. -/
theorem volumesAreUnboundRetiredAndRead : Obligations.VolumesAreUnboundRetiredAndRead := by
  intro s line
  have retires := fun serial q p (done : retireVolume serial s = (q, p)) => exec_ready (.retireVolume serial) s q p line done
  have reads := fun form index serial p (done : readVolume form index serial s = (s, p)) =>
    exec_ready (.readVolume form index serial) s s p line done rfl
  have lists := fun start p (done : listVolumes start s = (s, p)) => exec_ready (.listVolumes start) s s p line done rfl
  refine ⟨fun t => ⟨fun unbound => exec_unbindVolume line (unbindVolume_notBound unbound) rfl, fun bound busy => ?_,
      fun i v bound entry state idle => ?_⟩, fun serial i v ok found entry => ?_, fun serial i v u ok found entry => ?_,
    fun serial ok new => ⟨retires _ _ _ (retireVolume_noSuchVolume ok new) rfl, fun index => ?_⟩, fun serial i => ?_,
    fun serial index i ok found => ?_, fun serial => ⟨serialOk_false_iff serial, fun bad => ?_⟩,
    fun serial form index bad => ?_, fun start beyond => lists _ _ (listVolumes_badParameter beyond), s.volumeRecord_eq,
    fun i => lists _ _ (listVolumes_eq s i)⟩
  · have refused := unbindVolume_bound bound
    rw [if_pos ((Transport.busy_iff _).mpr busy)] at refused
    exact exec_unbindVolume line refused rfl
  · have shelved := unbindVolume_bound (t := t) (s := s) (by rw [bound]; rfl)
    rw [if_neg (by simp [Transport.busy_false state idle]), State.shelveBound_of bound entry] at shelved
    exact exec_unbindVolume line shelved rfl
  · have retired := retireVolume_found ok found
    rw [entry] at retired
    exact retires _ _ _ retired rfl
  · have refused := retireVolume_found ok found
    rw [entry] at refused
    exact retires _ _ _ refused rfl
  · have refused := readVolume_serial (s := s) index ok
    rw [new] at refused
    exact reads _ _ _ _ refused
  · have read := readVolume_index (serial := serial) (s := s) 0 (byte i.val) rfl
    rw [indexOf_byte] at read
    exact reads _ _ _ _ read
  · have read := readVolume_serial (s := s) index ok
    rw [found] at read
    exact reads _ _ _ _ read
  · have bad := (serialOk_false_iff serial).mpr bad
    exact ⟨retires _ _ _ (retireVolume_badParameter bad) rfl, fun index => reads _ _ _ _ (readVolume_badSerial index bad)⟩
  · rcases bad with beyond | ⟨rfl, beyond⟩
    · exact reads _ _ _ _ (readVolume_badForm form index beyond)
    · have refused := readVolume_index (serial := serial) (s := s) 0 index rfl
      rw [indexOf_none beyond] at refused
      exact reads _ _ _ _ refused

end Sys2Proof.Machine
end

