-- ==== Sys2Proof/Proofs/Replans.lean ====
section
/-! PROOF. A change to a barrier reported to the Order Slots: where it plans nothing anew, and what it makes of a fast
forward leg. -/

namespace Sys2Proof.Machine

open Sys2Proof

section
variable {t : TNum} {s : State} {o : Order} {w : Work}

theorem State.replan_stands (h : (s.tr t).planStands) : s.replan t = s := by
  unfold State.replan
  split
  case h_1 o w run =>
    refine if_neg fun ⟨fast, forward⟩ => ?_
    rcases h o w run with other | reverse
    · exact other fast
    · rw [forward] at reverse
      cases reverse
  case h_2 => rfl

/-! ### The slow-down point (R76, R90) -/

/-- The orders that have fast forward legs are among those that barriers stop. -/
theorem OrderKind.barred_of_seek {k : OrderKind} (h : (∃ p, k = .seekPos p) ∨ ∃ m, k = .seekMark m) : k.barred = true := by
  rcases h with ⟨p, rfl⟩ | ⟨m, rfl⟩ <;> rfl

theorem Transport.barredFrom_iff {x : Transport} {kind : OrderKind} {start : Int} {m : Mark} (known : x.cap.conf ≠ .lost)
    (barred : kind.barred = true) :
    x.barredFrom kind start m = true ↔ m.kind = .barrier ∧ start < m.pos - x.capture.lead := by
  simp [Transport.barredFrom, barred, known]

/-- With one barrier in the volume and no window, the slow-down point is that of the barrier or of the end point. -/
theorem State.slowDownPoint_one {m : Mark} (mem : m ∈ s.boundMarks t) (bar : m.kind = .barrier)
    (only : ∀ k ∈ s.boundMarks t, k.kind = .barrier → k = m) (shut : (s.tr t).capture.windows = [])
    (known : (s.tr t).cap.conf ≠ .lost) (barred : o.kind.barred = true) :
    s.slowDownPoint t o.kind w.start .forward w.leg.endPoint = (s.tr t).slowDownFor w (some m.pos) := by
  let ahead : Mark → Bool := fun k => (s.tr t).barredFrom o.kind w.start k && decide ((s.tr t).cap.counter < k.pos)
  have ahead_iff : ∀ k, ahead k = true ↔
      k.kind = .barrier ∧ w.start < k.pos - (s.tr t).capture.lead ∧ (s.tr t).cap.counter < k.pos := fun k => by
    simp only [ahead, Bool.and_eq_true, Transport.barredFrom_iff known barred, decide_eq_true_eq, and_assoc]
  unfold Transport.slowDownFor State.slowDownPoint Config.approachDistance
  dsimp only
  by_cases limits : w.start < m.pos - (s.tr t).capture.lead ∧ (s.tr t).cap.counter < m.pos
  · have found : (s.boundMarks t).find? ahead = some m := by
      cases e : (s.boundMarks t).find? ahead with
      | none => exact absurd ((ahead_iff m).mpr ⟨bar, limits⟩) (List.find?_eq_none.mp e m mem)
      | some k => rw [only k (List.mem_of_find?_eq_some e) ((ahead_iff k).mp (List.find?_some e)).1]
    rw [show (s.boundMarks t).find? _ = some m from found, if_pos limits]
    dsimp only
    rw [Transport.rangeOf_shut shut]
  · have none : (s.boundMarks t).find? ahead = none := List.find?_eq_none.mpr fun k mem' met => by
      obtain ⟨bar', near⟩ := (ahead_iff k).mp met
      exact limits (only k mem' bar' ▸ near)
    rw [show (s.boundMarks t).find? _ = Option.none from none, if_neg limits]

/-! ### A fast forward leg planned anew (R80, R90) -/

/-- The running order's leg with another slow-down point. -/
def Work.slowsAt (slow : Int) (w : Work) : Work := { w with leg := { w.leg with slowDown := slow } }

theorem State.replan_fast (run : (s.tr t).running = some (o, w)) (fast : w.phase = .fast) (forward : w.leg.dir = .forward) :
    s.replan t = (s.upd t fun x => x.modWork fun _ k =>
      k.slowsAt (s.slowDownPoint t o.kind w.start .forward w.leg.endPoint)).slowWatch t := by
  unfold State.replan
  rw [run]
  exact if_pos ⟨fast, forward⟩

/-- The watch of the slow-down point of a forward leg (R90). -/
theorem State.slowWatch_forward (run : (s.tr t).running = some (o, w)) (fast : w.phase = .fast)
    (forward : w.leg.dir = .forward) :
    s.slowWatch t = if w.leg.slowDown ≤ (s.tr t).cap.counter then s.readLeg t else s := by
  have slow : w.mustSlow (s.tr t).cap.counter = decide (w.leg.slowDown ≤ (s.tr t).cap.counter) := by
    simp [Work.mustSlow, fast, forward]
  unfold State.slowWatch
  rw [run]
  dsimp only
  rw [slow]
  simp only [decide_eq_true_eq]

/-- A forward leg's own run lies the approach distance ahead as long as its end point does. -/
theorem Leg.readRun_distant {l : Leg} {counter : Int} (forward : l.dir = .forward) (far : counter + 1500 ≤ l.endPoint) :
    l.readRun.distant counter := by
  intro p target
  unfold Leg.readRun plainRun at target ⊢
  rw [forward]
  dsimp only at target ⊢
  split at target <;> cases target
  exact far

/-- A leg run at READ speed that follows one at SEEK speed, by its order and its segment (R11, R84, R90). -/
theorem State.readLeg_fromSeek {v : Work} (run : (s.tr t).running = some (o, v)) (forward : v.leg.dir = .forward)
    (cond : (s.tr t).cap.seg.cond = .running) (speed : (s.tr t).cap.seg.speed = some .seek)
    (dir : (s.tr t).cap.seg.dir = some .forward) (eot : (s.tr t).cap.eotPos = none)
    (far : (s.tr t).cap.counter + 1500 ≤ v.leg.endPoint) :
    s.readLeg t = s.upd t fun x =>
      (x.modWork fun _ k => { k with phase := .readLeg, runoutTarget := false }).takes .orders
        ((s.tr t).cap.seg.slowing s.clock .orders v.leg.readRun) :=
  (State.readLeg_slows run cond (dir.trans (congrArg some forward.symm)) speed eot (Leg.readRun_distant forward far)).trans
    (State.upd_congr rfl)

theorem Segment.slowing_ramp {now : Nat} {b : Owner} {r : RunReq} {g : Segment} (cond : g.cond = .running)
    (speed : g.speed = some .seek) (slower : r.speed = .read) :
    ∃ k, (g.slowing now b r).cond = .ramping k ∧ k.goal = .toSpeed ∧ k.fromSpeed = 8000 ∧ k.toSpeed = 4000 := by
  refine ⟨_, rfl, rfl, ?_, ?_⟩
  · show g.speedReached now = 8000
    unfold Segment.speedReached
    rw [cond, speed]
    rfl
  · show r.speed.mm = 4000
    rw [slower]
    rfl

/-- What a report of a barrier makes of a fast forward leg, by its new slow-down point. -/
theorem State.replan_replans {slow : Int} (h : (s.tr t).fastForward o w)
    (point : s.slowDownPoint t o.kind w.start .forward w.leg.endPoint = slow) :
    s.sameOutside t (s.replan t) ∧ ((s.replan t).tr t).capture = (s.tr t).capture ∧
      (s.tr t).replannedTo slow o w ((s.replan t).tr t) := by
  obtain ⟨run, fast, -, forward, cond, speed, dir, eot, -, -, -, far⟩ := h
  let planned := (s.tr t).modWork fun _ k => k.slowsAt slow
  let q := s.upd t fun x => x.modWork fun _ k => k.slowsAt slow
  have tr : q.tr t = planned := State.tr_upd_same _ _ _
  have running : planned.running = some (o, w.slowsAt slow) := by
    rw [Transport.modWork_running, run]
    rfl
  have replans : s.replan t = if slow ≤ (s.tr t).cap.counter then q.readLeg t else q := by
    rw [State.replan_fast run fast forward, point,
      State.slowWatch_forward (s := q) (w := w.slowsAt slow) (by rw [tr]; exact running) fast forward, tr]
    rfl
  by_cases reached : slow ≤ (s.tr t).cap.counter
  · have reads : s.replan t = s.upd t fun x =>
        ((x.modWork fun _ k => k.slowsAt slow).modWork fun _ k => { k with phase := .readLeg, runoutTarget := false }).takes
          .orders ((s.tr t).cap.seg.slowing s.clock .orders w.leg.readRun) := by
      rw [replans, if_pos reached, State.readLeg_fromSeek (s := q) (v := w.slowsAt slow) (by rw [tr]; exact running) forward
        (by rw [tr]; exact cond) (by rw [tr]; exact speed) (by rw [tr]; exact dir) (by rw [tr]; exact eot)
        (by rw [tr]; exact far), State.upd_upd, tr]
      rfl
    rw [reads]
    refine ⟨State.sameOutside_upd t _ s, ?_⟩
    rw [State.tr_upd_same]
    refine ⟨rfl, rfl, rfl, rfl, rfl, rfl, rfl, ?_, fun before => absurd reached (by omega), fun _ =>
      ⟨?_, rfl, rfl, congrArg some forward, rfl, rfl, Segment.slowing_ramp cond speed rfl⟩⟩
    · exact (replaceRunning_length _ _).trans (replaceRunning_length _ _)
    · show (planned.modWork _).running = _
      rw [Transport.modWork_running, running]
      rfl
  · rw [replans, if_neg reached]
    refine ⟨State.sameOutside_upd t _ s, ?_⟩
    rw [tr]
    exact ⟨rfl, rfl, rfl, rfl, rfl, rfl, rfl, replaceRunning_length _ _, fun _ => ⟨running, rfl⟩,
      fun k => absurd k reached⟩

end

end Sys2Proof.Machine
end

