-- ==== Sys2Proof/Proofs/SetMark.lean ====
section
/-! PROOF. SET MARK: the mark made, the room found for it in the pool, and the report of a barrier. -/

namespace Sys2Proof.Machine

open Sys2Proof

section
variable {t : TNum} {s : State} {i j : Fin 16} {number : BitVec 16} {attributes form : Byte} {position : BitVec 24}
  {tag : BitVec 32} {p : Int} {st : MarkState}

/-! ### The operands (R46 to R50) -/

theorem markNumberOf_some (low : 1 ≤ number.toNat) (high : number.toNat ≤ 4095) :
    markNumberOf number = some number.toNat := if_pos ⟨low, high⟩

/-- The position and the state that a form gives: the last gap, the head at rest, or the position named. -/
theorem State.positionForm_place
    (given : (form = 0 ∧ (s.tr t).cap.lastGap = some p ∧ (s.tr t).cap.conf = .exact ∧ st = .verified) ∨
      (form = 1 ∧ (s.tr t).cap.seg.cond = .atRest ∧ (s.tr t).cap.conf = .exact ∧ p = (s.tr t).cap.counter ∧
        st = .provisional) ∨
      (form = 2 ∧ p = position.toInt ∧ -32768 ≤ p ∧ p ≤ s.tapeLength t ∧ st = .provisional)) :
    ∃ f, s.positionForm t form position = some f ∧ f.place (s.tr t).cap = .ok (p, st) := by
  rcases given with ⟨rfl, gap, exact', rfl⟩ | ⟨rfl, rest, exact', rfl, rfl⟩ | ⟨rfl, rfl, low, inside, rfl⟩
  · refine ⟨.lastGap, rfl, ?_⟩
    unfold PositionForm.place
    rw [gap]
    exact if_pos exact'
  · exact ⟨.here, rfl, if_pos ⟨rest, exact'⟩⟩
  · have placed : s.markPosition t position = some position.toInt := by
      unfold State.markPosition positionOf
      rw [if_pos (by unfold Config.posMin; exact low)]
      simpa [Option.filter] using inside
    exact ⟨.explicit position.toInt, congrArg (Option.map PositionForm.explicit) placed, rfl⟩

/-! ### The request -/

/-- SET MARK where its checks pass and the pool has, or is given, room (R47, R51). -/
theorem setMark_made {f : PositionForm} {m : Mark} {room made : State} {evicted : Option Serial} (bound : s.boundIdx t = some i)
    (low : 1 ≤ number.toNat) (high : number.toNat ≤ 4095) (unused : findNumber number.toNat s.marks[i] = none)
    (named : s.positionForm t form position = some f) (placed : f.place (s.tr t).cap = .ok (p, st))
    (mark : newMark number.toNat attributes tag p st = m) (found : s.makeRoom = some (room, evicted))
    (reported : (room.setMarks i (insertMark m room.marks[i])).reportBarrier t (m.kind == .barrier) = made) :
    setMark t number attributes form position tag s = answer (made.markSummary t m ++ serialBytes? evicted) made := by
  unfold setMark onVolume
  rw [bound]
  dsimp only
  rw [markNumberOf_some low high, named]
  dsimp only
  rw [if_neg (by rw [unused]; exact nofun), placed]
  dsimp only
  rw [found, mark]
  dsimp only
  rw [reported]

/-- What SET MARK does on a line that can answer, by its handler. -/
theorem exec_setMark {q : State} {body : List Byte} (line : s.lineReady)
    (done : setMark t number attributes form position tag s = answer body q)
    (receiver : q.line.receiver = s.line.receiver) :
    exec (.setMark (transportByte t) number attributes form position tag) s = .next (q.sending .done body) :=
  exec_ready (.setMark (transportByte t) number attributes form position tag) s q _ line
    ((onTransport_byte t _ s).trans done) receiver

/-! ### Room in the pool (R34, R51) -/

theorem State.makeRoom_free (room : s.poolInUse < 512) : s.makeRoom = some (s, none) := if_pos room

theorem State.evictable_oldest {before after : List (Fin 16)} (shelf : s.shelf = before ++ j :: after)
    (empty : ∀ k ∈ before, s.marks[k] = []) (marked : s.marks[j] ≠ []) : s.evictable = some j := by
  have none : ∀ k ∈ before, ¬decide (0 < s.markCount k) = true := fun k mem => by
    simp [State.markCount, show s.marks[k.val] = [] from empty k mem]
  unfold State.evictable
  rw [shelf, List.find?_append, List.find?_eq_none.mpr none, Option.none_or]
  exact List.find?_cons_of_pos (decide_eq_true (List.length_pos_iff.mpr marked))

theorem State.makeRoom_evicts (full : 512 ≤ s.poolInUse) (oldest : s.evictable = some j) :
    s.makeRoom = some (s.evict j, s.serialOf j) := by
  unfold State.makeRoom
  rw [if_neg (by unfold Config.poolSize; omega), oldest]

/-- A bound entry and a SHELVED one are two entries. -/
theorem State.bound_ne_shelved {old : Volume} (bound : s.boundIdx t = some i) (entry : s.volumes[j] = .shelved old) :
    i ≠ j := by
  rintro rfl
  have on := State.boundIdx_isOn bound
  rw [entry] at on
  cases on

/-- The bound volume's list with a mark put in, after the eviction of a SHELVED entry (R33, R34). -/
theorem State.setMarks_evict {old : Volume} {l : List Mark → List Mark} (apart : i ≠ j)
    (entry : s.volumes[j] = .shelved old) :
    (s.evict j).setMarks i (l (s.evict j).marks[i]) =
      { s with
        volumes := s.volumes.set j .free, shelf := s.shelf.filter fun k => k != j
        marks := (s.marks.set j []).set i (l s.marks[i])
        eviction := { serial := some old.serial, count := min 255 (s.eviction.count + 1) }
        ctl := { s.ctl with evict := true } } := by
  have list : (s.evict j).marks[i] = s.marks[i] := by
    rw [State.evict_marks, State.marks_setMarks, if_neg apart.symm]
  rw [list]
  unfold State.evict
  rw [State.serialOf_shelved entry]
  rfl

/-! ### The report (R80) -/

/-- A POINT, or no leg to plan anew. -/
theorem State.reportBarrier_plain {k : MarkKind} (plain : k = .point ∨ (s.tr t).planStands) :
    s.reportBarrier t (k == .barrier) = s := by
  unfold State.reportBarrier
  split
  case isTrue bar =>
    refine State.replan_stands (plain.resolve_left ?_)
    rintro rfl
    cases bar
  case isFalse => rfl

/-- The summary of a mark reads the table, the marks and the windows (R57). -/
theorem State.markSummary_congr {r : State} (m : Mark) (v : r.volumes = s.volumes) (l : r.marks = s.marks)
    (c : (r.tr t).capture = (s.tr t).capture) : r.markSummary t m = s.markSummary t m := by
  unfold State.markSummary State.boundMarks Transport.candidateOf
  rw [State.boundIdx_eq v, l, c]

/-- A barrier put among POINT marks is the only one in the list. -/
theorem insertMark_only {m : Mark} {l : List Mark} (points : ∀ k ∈ l, k.kind = .point) :
    ∀ k ∈ insertMark m l, k.kind = .barrier → k = m := by
  intro k mem bar
  rcases List.mem_cons.mp ((insertMark_perm m l).mem_iff.mp mem) with rfl | mem
  · rfl
  · rw [points k mem] at bar
    cases bar

/-- A barrier put into the volume of a fast forward leg has the leg planned anew for it (R80, R90). -/
theorem State.setMarks_replans {o : Order} {w : Work} {m : Mark} (bound : s.boundIdx t = some i) (bar : m.kind = .barrier)
    (h : (s.tr t).fastForward o w) (points : s.noBarriers t) :
    let r := s.setMarks i (insertMark m s.marks[i])
    r.sameOutside t (r.replan t) ∧ ((r.replan t).tr t).capture = (s.tr t).capture ∧
      (s.tr t).replannedTo ((s.tr t).slowDownFor w (some m.pos)) o w ((r.replan t).tr t) := by
  intro r
  have marks : r.boundMarks t = insertMark m s.marks[i] := State.boundMarks_setMarks bound _
  obtain ⟨-, -, kind, -, -, -, -, -, known, shut, -⟩ := id h
  refine State.replan_replans (s := r) h (State.slowDownPoint_one ?_ bar ?_ shut known (OrderKind.barred_of_seek kind))
  · rw [marks]
    exact (insertMark_perm m _).mem_iff.mpr List.mem_cons_self
  · rw [marks]
    refine insertMark_only ?_
    rw [← State.boundMarks_of bound]
    exact points

end

/-- Settles O32: the mark made is put in with the room there is or that an eviction gives, and reported if it is a
barrier. -/
theorem setMarkInsertsAMark : Obligations.SetMarkInsertsAMark := by
  intro t number attributes form position tag s i p st line bound low high unused given m plain
  obtain ⟨f, named, placed⟩ := State.positionForm_place given
  have makes := fun room evicted made found reported => exec_setMark line (setMark_made (attributes := attributes)
    (tag := tag) (m := m) (room := room) (evicted := evicted) (made := made) bound low high unused named placed rfl found
    reported)
  have still : plain → m.kind = .point ∨ (s.tr t).planStands := fun h =>
    h.imp_left fun point => if_neg (ne_true_of_eq_false point)
  constructor
  · intro room r
    refine ⟨fun stands => makes s none r (State.makeRoom_free room) (State.reportBarrier_plain (still stands)) rfl,
      fun o w bar fast points => ?_⟩
    have kind : m.kind = .barrier := if_pos bar
    obtain ⟨outside, capture, replanned⟩ := State.setMarks_replans bound kind fast points
    obtain ⟨-, -, volumes, -, marks, -, lines, -⟩ := id outside
    have made := makes s none (r.replan t) (State.makeRoom_free room) (by rw [kind]; rfl) (congrArg Line.receiver lines)
    have summary : (r.replan t).markSummary t m = r.markSummary t m := State.markSummary_congr m volumes marks capture
    rw [summary] at made
    exact ⟨r.replan t, made, outside, capture, replanned⟩
  · intro before j after old stands full shelf empty marked entry r
    have put := State.setMarks_evict (l := insertMark m) (State.bound_ne_shelved bound entry) entry
    have made := makes _ _ r (State.makeRoom_evicts full (State.evictable_oldest shelf empty marked))
      ((congrArg (State.reportBarrier t (m.kind == .barrier)) put).trans (State.reportBarrier_plain (still stands))) rfl
    rw [State.serialOf_shelved entry] at made
    exact made

end Sys2Proof.Machine
end

