-- ==== Sys2Proof/Proofs/MarksSound.lean ====
section
/-! PROOF. Every step keeps each volume's marks in order with no number twice, and the pool within its 512 records. -/

namespace Sys2Proof.Machine

open Sys2Proof

variable {t : TNum} {s r : State}

/-! ### Changes that leave the lists, or their order and their lengths, as they are -/

/-- A change of anything but the marks. -/
theorem State.marksSound.same (h : s.marksSound) (e : r.marks = s.marks := by rfl) : r.marksSound :=
  State.marksSound_of_marks h e

theorem State.marksSound.event (h : s.marksSound) (k : s.Kept t r) : r.marksSound := State.marksSound_events h k

theorem State.marksSound.forEach {f : TNum → State → State} (h : s.marksSound)
    (k : ∀ (u : TNum) (q : State), q.marksSound → (f u q).marksSound) : (s.forEach f).marksSound :=
  k _ _ (k _ _ (k _ _ (k _ _ h)))

theorem State.marksSound.pruneWatches (h : s.marksSound) : (s.pruneWatches t).marksSound :=
  h.event (State.Kept.refl t s).pruneWatches

theorem State.marksSound.reportBarrier (concerns : Bool) (h : s.marksSound) : (s.reportBarrier t concerns).marksSound := by
  unfold State.reportBarrier
  split
  · exact h.event (State.Kept.refl t s).replan
  · exact h

/-- A list in order that is no longer than the one it takes the place of needs no room in the pool. -/
theorem State.marksSound.setMarks {i : Fin 16} {l : List Mark} (h : s.marksSound) (ok : MarksOk l)
    (short : l.length ≤ s.marks[i].length) : (s.setMarks i l).marksSound := by
  have pool := h.2
  exact s.marksSound_setMarks i l h ok (by omega)

theorem State.marksSound.clearMarks (i : Fin 16) (h : s.marksSound) : (s.setMarks i []).marksSound :=
  h.setMarks MarksOk.nil (Nat.zero_le _)

/-! ### Mark requests -/

/-- A mark put in where a record is free: its number is new to a list as it was, and to one emptied by the eviction
(R46, R51). -/
theorem State.marksSound_insert {i : Fin 16} {room : State} {e : Option Serial} {m : Mark} (h : s.marksSound)
    (made : s.makeRoom = some (room, e)) (unused : findNumber m.number s.marks[i] = none) :
    (room.setMarks i (insertMark m room.marks[i])).marksSound := by
  obtain ⟨sound, free, lists⟩ := State.makeRoom_room made h
  have new : ∀ k ∈ room.marks[i], k.number ≠ m.number := fun k mem => by
    rcases lists i with same | empty
    · rw [same] at mem
      simpa using List.find?_eq_none.mp unused k mem
    · rw [empty] at mem
      cases mem
  refine State.marksSound_setMarks i _ room sound (insertMark_ok m _ (sound.1 i) new) ?_
  rw [insertMark_length]
  omega

theorem setMark_marksSound (t : TNum) (number : BitVec 16) (bits form : Byte) (position : BitVec 24) (tag : BitVec 32)
    (h : s.marksSound) : (setMark t number bits form position tag s).1.marksSound := by
  refine onVolume_state h fun i _ => ?_
  split
  case h_1 =>
    split
    case isTrue => exact h
    case isFalse unused =>
      split
      case h_1 => exact h
      case h_2 =>
        split
        case h_1 => exact h
        case h_2 made =>
          exact State.marksSound.reportBarrier _
            (State.marksSound_insert h made (Option.not_isSome_iff_eq_none.mp unused))
  case h_2 => exact h

theorem changeMark_marksSound (t : TNum) (number : BitVec 16) (selector bits : Byte) (position : BitVec 24)
    (tag : BitVec 32) (h : s.marksSound) : (changeMark t number selector bits position tag s).1.marksSound := by
  refine onVolume_state h fun i _ => ?_
  split
  case h_1 n c _ _ =>
    split
    case h_1 => exact h
    case h_2 =>
      have moved : (s.setMarks i (moveNumber n (Mark.change c) s.marks[i])).marksSound :=
        h.setMarks (moveNumber_ok n (Mark.change c) (fun _ => rfl) _ (h.1 i)) (moveNumber_length n _ _ (h.1 i)).le
      refine State.marksSound.reportBarrier _ (State.marksSound.pruneWatches ?_)
      split
      · exact moved.same
      · exact moved
  case h_2 => exact h

theorem retireMark_marksSound (t : TNum) (number : BitVec 16) (h : s.marksSound) :
    (retireMark t number s).1.marksSound := by
  refine onMark_state h fun i m _ => State.marksSound.reportBarrier _ ?_
  have removed : (s.setMarks i (removeNumber m.number s.marks[i])).marksSound :=
    h.setMarks (removeNumber_ok _ _ (h.1 i)) (List.length_filter_le _ _)
  exact removed.same

theorem readPassed_marksSound (t : TNum) (h : s.marksSound) : (readPassed t s).1.marksSound := by
  refine onVolume_state h fun i _ => h.setMarks (mapMarks_ok _ ?_ ?_ _ (h.1 i)) (List.length_map _).le
  · intro m; split <;> rfl
  · intro m; split <;> rfl

/-! ### Volume requests -/

theorem State.marksSound_freeEntry (i : Fin 16) (h : s.marksSound) : (s.freeEntry i).marksSound :=
  (h.clearMarks i).same

theorem State.freshEntry_marksSound {i : Fin 16} {room : State} {e : Option Serial}
    (f : s.freshEntry = some (i, room, e)) (h : s.marksSound) : room.marksSound := by
  unfold State.freshEntry at f
  split at f
  · cases f
    exact h
  · split at f
    · cases f
      exact State.marksSound_evict _ s h
    · cases f

/-- A bind keeps the marks of a volume that comes back, or retires those of its entry (R29, R30, R31). -/
theorem State.bind_marksSound (v : Volume) (h : s.marksSound) : (s.bind t v).1.marksSound := by
  unfold State.bind
  split
  · rename_i i _
    split
    · split
      · exact h.same
      · exact (h.clearMarks i).same
    · exact h
  · split
    case h_1 i room _ fresh => exact ((State.freshEntry_marksSound fresh h).clearMarks i).same
    case h_2 => exact h

theorem bindVolume_marksSound (t : TNum) (serial : Serial) (generation : BitVec 16) (cls : Byte) (length : BitVec 24)
    (h : s.marksSound) : (bindVolume t serial generation cls length s).1.marksSound := by
  unfold bindVolume
  split
  · exact h
  · split
    · exact h
    · exact State.bind_marksSound _ h

theorem State.shelveBound_marks (t : TNum) (s : State) : (s.shelveBound t).marks = s.marks := by
  unfold State.shelveBound
  split
  · split <;> rfl
  · rfl

theorem unbindVolume_marksSound (t : TNum) (h : s.marksSound) : (unbindVolume t s).1.marksSound := by
  unfold unbindVolume
  split
  · exact h
  · split
    · exact h
    · exact h.same (State.shelveBound_marks t s)

theorem retireVolume_marksSound (serial : Serial) (h : s.marksSound) : (retireVolume serial s).1.marksSound := by
  unfold retireVolume
  split
  · exact h
  · split
    · split
      · exact State.marksSound_freeEntry _ h
      · exact h
    · exact h

/-! ### The requests of one transport -/

theorem setCaptureParameters_marksSound (t : TNum) (lead lag : BitVec 16) (filter : Byte) (h : s.marksSound) :
    (setCaptureParameters t lead lag filter s).1.marksSound := by
  unfold setCaptureParameters
  split
  · exact h
  · split
    · exact h
    · have set : (s.upd t fun x => x.modCapture fun c => { c with lead := lead.toNat, lag := lag.toNat }).marksSound := h.same
      exact set.event (((State.Kept.refl t _).pruneWatches.replan).filter _)

theorem setDefaultClass_marksSound (t : TNum) (cls : Byte) (h : s.marksSound) : (setDefaultClass t cls s).1.marksSound := by
  unfold setDefaultClass
  split
  · exact h.same
  · exact h

theorem State.marksSound_enqueue (o : Order) (h : s.marksSound) : (s.enqueue t o).marksSound := by
  have queued : (s.upd t (Transport.modList fun l => l ++ [.pending o])).marksSound := h.same
  exact queued.event (State.Kept.refl t _).startNext

theorem queueOrder_marksSound (t : TNum) (tag kind : Byte) (argument : BitVec 24) (h : s.marksSound) :
    (queueOrder t tag kind argument s).1.marksSound := by
  unfold queueOrder
  dsimp only
  split
  · exact h
  split
  · exact h
  split
  · exact h
  split
  · exact h
  split
  · exact h
  · exact State.marksSound_enqueue _ h

theorem halt_marksSound (t : TNum) (h : s.marksSound) : (halt t s).1.marksSound := by
  unfold halt
  split
  · exact h
  · exact h.event (State.Kept.refl t s).haltOrders

theorem setSlotThreshold_marksSound (t : TNum) (threshold : Byte) (h : s.marksSound) :
    (setSlotThreshold t threshold s).1.marksSound := by
  unfold setSlotThreshold
  split
  · exact h
  · exact h.same

theorem releaseTransport_marksSound (t : TNum) (h : s.marksSound) : (releaseTransport t s).1.marksSound := by
  unfold releaseTransport
  split
  · exact h.event (State.Kept.refl t s).goOffline
  · exact h

theorem setLoopParameters_marksSound (t : TNum) (a b c d e f : Byte) (h : s.marksSound) :
    (setLoopParameters t a b c d e f s).1.marksSound := by
  unfold setLoopParameters
  split
  · exact h.same
  · exact h

theorem setDriveParameters_marksSound (t : TNum) (a b c d : Byte) (h : s.marksSound) :
    (setDriveParameters t a b c d s).1.marksSound := by
  unfold setDriveParameters
  split
  · exact h
  · exact h.same

theorem clearHold_marksSound (t : TNum) (h : s.marksSound) : (clearHold t s).1.marksSound := by
  unfold clearHold
  split
  · exact h
  · split
    · exact h
    · exact h.same

/-! ### The requests of the whole station -/

theorem State.marksSound_stopAll (h : s.marksSound) : s.stopAll.marksSound :=
  h.forEach fun u q k => k.event (State.Kept.refl u q).allStopOne

theorem State.marksSound_resetStation (h : s.marksSound) : s.resetStation.marksSound := by
  have dropped : (s.stopAll.forEach State.resetOrders).marksSound :=
    (State.marksSound_stopAll h).forEach fun u q k => k.event (State.Kept.refl u q).resetOrders
  unfold State.resetStation
  generalize s.stopAll.forEach State.resetOrders = q at dropped
  exact dropped.same

/-! ### Every request and every step -/

theorem State.marksSound_request (q : Request) (s : State) (h : s.marksSound) : (s.handleRequest q).1.marksSound := by
  cases q with
  | poll => exact h
  | readLineStatus => exact h
  | setNoticeMasks sel => exact h.same
  | readNotices => exact h
  | ackNotices sel => exact h.same
  | readEviction => exact h
  | allStop => exact State.marksSound_stopAll h
  | resetStation => exact State.marksSound_resetStation h
  | readPosition b => exact onTransport_state b h fun _ => h
  | setDefaultClass b cls => exact onTransport_state b h fun u => setDefaultClass_marksSound u cls h
  | bindVolume b serial generation cls length =>
    exact onTransport_state b h fun u => bindVolume_marksSound u _ _ _ _ h
  | unbindVolume b => exact onTransport_state b h fun u => unbindVolume_marksSound u h
  | retireVolume serial => exact retireVolume_marksSound serial h
  | readVolume form index serial => exact (readVolume_state form index serial s).symm ▸ h
  | listVolumes start => exact (listVolumes_state start s).symm ▸ h
  | setMark b number bits form position tag => exact onTransport_state b h fun u => setMark_marksSound u _ _ _ _ _ h
  | changeMark b number selector bits position tag =>
    exact onTransport_state b h fun u => changeMark_marksSound u _ _ _ _ _ h
  | retireMark b number => exact onTransport_state b h fun u => retireMark_marksSound u _ h
  | findMark b number => exact onTransport_state b h fun u => onMark_state h fun _ _ _ => h
  | findByTag b tag start => exact onTransport_state b h fun u => (findByTag_state u tag start s).symm ▸ h
  | findNearest b position side => exact onTransport_state b h fun u => (findNearest_state u position side s).symm ▸ h
  | listMarks b start => exact onTransport_state b h fun u => (listMarks_state u start s).symm ▸ h
  | readPassed b => exact onTransport_state b h fun u => readPassed_marksSound u h
  | setCaptureParameters b lead lag filter =>
    exact onTransport_state b h fun u => setCaptureParameters_marksSound u _ _ _ h
  | readCapture b => exact onTransport_state b h fun _ => h
  | queueOrder b tag kind argument => exact onTransport_state b h fun u => queueOrder_marksSound u _ _ _ h
  | halt b => exact onTransport_state b h fun u => halt_marksSound u h
  | cancelPending b => exact onTransport_state b h fun _ => h.same
  | readCompletions b => exact onTransport_state b h fun _ => h.same
  | setSlotThreshold b threshold => exact onTransport_state b h fun u => setSlotThreshold_marksSound u _ h
  | readTransport b => exact onTransport_state b h fun _ => h
  | releaseTransport b => exact onTransport_state b h fun u => releaseTransport_marksSound u h
  | resetTransport b => exact onTransport_state b h fun u => h.event (State.Kept.refl u s).resetTransport
  | setLoopParameters b limitShort bandLow bandHigh limitLong gain persistence =>
    exact onTransport_state b h fun u => setLoopParameters_marksSound u _ _ _ _ _ _ h
  | setDriveParameters b supplyLevel takeupLevel resume stallTime =>
    exact onTransport_state b h fun u => setDriveParameters_marksSound u _ _ _ _ h
  | readLoops b => exact onTransport_state b h fun _ => h.same
  | clearHold b => exact onTransport_state b h fun u => clearHold_marksSound u h
  | readHoldRecord b => exact onTransport_state b h fun _ => h

/-- The end of a release shelves the bound volume with its marks (R36). -/
theorem State.marksSound_releaseQuiet (t : TNum) (s : State) (h : s.marksSound) : (s.releaseQuiet t).marksSound := by
  unfold State.releaseQuiet
  split
  · exact h.same (State.shelveBound_marks t _)
  · exact h

theorem keeping_marksSound : Keeping State.marksSound where
  reads h _ _ _ m := h.same m
  powerOn _ _ := State.reset_marksSound
  event k h := h.event k
  release := State.marksSound_releaseQuiet
  request := State.marksSound_request

/-- Settles O57: a record is taken only from a pool with room, and a list changes by marks put in order, moved to their
place, changed where they stand, or taken out. -/
theorem stepsKeepTheMarksSound : Obligations.StepsKeepTheMarksSound :=
  fun _ _ h x => keeping_marksSound.step x h

end Sys2Proof.Machine
end

