-- ==== Sys2Proof/Proofs/SetMarkRefusals.lean ====
section
/-! PROOF. SET MARK refused: each check with those before it passed. -/

namespace Sys2Proof.Machine

open Sys2Proof

section
variable {t : TNum} {s : State} {i : Fin 16} {number : BitVec 16} {attributes form : Byte} {position : BitVec 24}
  {tag : BitVec 32}

/-! ### The operands (R46, R50) -/

theorem markNumberOf_none (h : ¬(1 ≤ number.toNat ∧ number.toNat ≤ 4095)) : markNumberOf number = none := if_neg h

/-- A position a mark may be given (R50, R52). -/
theorem State.markPosition_eq (t : TNum) (position : BitVec 24) (s : State) : s.markPosition t position =
    if -32768 ≤ position.toInt ∧ position.toInt ≤ s.tapeLength t then some position.toInt else none := by
  unfold State.markPosition positionOf Config.posMin
  by_cases low : -32768 ≤ position.toInt <;> simp [low, Option.filter]

/-- The forms allowed: the last gap, here, or a position that the volume holds (R47, R50). -/
theorem State.positionForm_isSome_iff : (s.positionForm t form position).isSome = true ↔
    form.toNat < 2 ∨ form = 2 ∧ -32768 ≤ position.toInt ∧ position.toInt ≤ s.tapeLength t := by
  have explicit_iff : form = 2 ↔ form.toNat = 2 := BitVec.toNat_inj.symm
  unfold State.positionForm
  split
  case h_1 zero => simp [zero]
  case h_2 one => simp [one]
  case h_3 explicit =>
    rw [explicit_iff, explicit]
    simp [State.markPosition_eq]
  case h_4 no0 no1 no2 =>
    have beyond : form.toNat ≠ 0 ∧ form.toNat ≠ 1 ∧ form.toNat ≠ 2 := ⟨no0, no1, no2⟩
    rw [explicit_iff]
    refine ⟨nofun, fun h => ?_⟩
    omega

/-! ### The checks in their order (R46 to R51) -/

/-- A SET MARK refused changes nothing and answers its status alone. -/
theorem exec_setMark_refused {status : Status} (line : s.lineReady)
    (refused : setMark t number attributes form position tag s = refuse status s) :
    exec (.setMark (transportByte t) number attributes form position tag) s = .next (s.sending status []) :=
  exec_ready (.setMark (transportByte t) number attributes form position tag) s s _ line
    ((onTransport_byte t _ s).trans refused) rfl

theorem setMark_notBound (unbound : s.boundIdx t = none) :
    setMark t number attributes form position tag s = refuse .notBound s := by
  unfold setMark onVolume
  rw [unbound]

theorem setMark_badParameter (bound : s.boundIdx t = some i)
    (bad : markNumberOf number = none ∨ s.positionForm t form position = none) :
    setMark t number attributes form position tag s = refuse .badParameter s := by
  unfold setMark onVolume
  rw [bound]
  dsimp only
  split
  case h_1 given placed =>
    rw [given, placed] at bad
    rcases bad with bad | bad <;> cases bad
  case h_2 => rfl

section
variable {f : PositionForm} (bound : s.boundIdx t = some i) (low : 1 ≤ number.toNat) (high : number.toNat ≤ 4095)
  (named : s.positionForm t form position = some f)
include bound low high named

theorem setMark_markExists (used : (findNumber number.toNat s.marks[i]).isSome = true) :
    setMark t number attributes form position tag s = refuse .markExists s := by
  unfold setMark onVolume
  rw [bound]
  dsimp only
  rw [markNumberOf_some low high, named]
  exact if_pos used

variable (unused : findNumber number.toNat s.marks[i] = none)
include unused

theorem setMark_unplaced {status : Status} (unplaced : f.place (s.tr t).cap = .error status) :
    setMark t number attributes form position tag s = refuse status s := by
  unfold setMark onVolume
  rw [bound]
  dsimp only
  rw [markNumberOf_some low high, named]
  dsimp only
  rw [if_neg (by rw [unused]; exact nofun), unplaced]

theorem setMark_poolFull {p : Int} {st : MarkState} (placed : f.place (s.tr t).cap = .ok (p, st))
    (full : s.makeRoom = none) : setMark t number attributes form position tag s = refuse .poolFull s := by
  unfold setMark onVolume
  rw [bound]
  dsimp only
  rw [markNumberOf_some low high, named]
  dsimp only
  rw [if_neg (by rw [unused]; exact nofun), placed]
  dsimp only
  rw [full]

end

/-! ### What a form and the pool are refused for (R48, R49, R51) -/

theorem PositionForm.place_noLastGap {c : Capstan} (h : c.lastGap = none) :
    PositionForm.lastGap.place c = .error .noLastGap := by
  unfold PositionForm.place
  rw [h]

theorem PositionForm.place_gapNotExact {c : Capstan} (h : c.lastGap.isSome = true) (k : c.conf ≠ .exact) :
    PositionForm.lastGap.place c = .error .notExact := by
  obtain ⟨p, gap⟩ := Option.isSome_iff_exists.mp h
  unfold PositionForm.place
  rw [gap]
  exact if_neg k

theorem PositionForm.place_hereNotExact {c : Capstan} (h : ¬(c.seg.cond = .atRest ∧ c.conf = .exact)) :
    PositionForm.here.place c = .error .notExact := if_neg h

/-- No room can be made where no SHELVED volume holds a mark (R34, R51). -/
theorem State.makeRoom_none (full : 512 ≤ s.poolInUse) (bare : ∀ j ∈ s.shelf, s.marks[j] = []) : s.makeRoom = none := by
  have none : s.evictable = none := List.find?_eq_none.mpr fun j mem => by
    simp [State.markCount, show s.marks[j.val] = [] from bare j mem]
  unfold State.makeRoom
  rw [if_neg (by unfold Config.poolSize; omega), none]

end

/-- Settles O33: each check refuses with its own status once those before it are passed. -/
theorem setMarkRefusals : Obligations.SetMarkRefusals := by
  intro t number attributes form position tag s line c numbered placed
  refine ⟨fun unbound => exec_setMark_refused line (setMark_notBound unbound), fun i bound =>
    ⟨fun bad => ?_, fun ⟨low, high⟩ given used => ?_, fun ⟨low, high⟩ last unused gap => ?_,
      fun ⟨low, high⟩ last unused gap conf => ?_, fun ⟨low, high⟩ here unused moving => ?_,
      fun ⟨low, high⟩ unused given full bare => ?_⟩⟩
  · refine exec_setMark_refused line (setMark_badParameter bound ?_)
    by_cases n : numbered
    · refine .inr (Option.not_isSome_iff_eq_none.mp fun some => bad ⟨n, ?_⟩)
      exact State.positionForm_isSome_iff.mp some
    · exact .inl (markNumberOf_none n)
  · obtain ⟨f, named⟩ := Option.isSome_iff_exists.mp (State.positionForm_isSome_iff.mpr given)
    exact exec_setMark_refused line (setMark_markExists bound low high named used)
  · subst last
    exact exec_setMark_refused line (setMark_unplaced bound low high rfl unused (PositionForm.place_noLastGap gap))
  · subst last
    exact exec_setMark_refused line (setMark_unplaced bound low high rfl unused (PositionForm.place_gapNotExact gap conf))
  · subst here
    exact exec_setMark_refused line (setMark_unplaced bound low high rfl unused (PositionForm.place_hereNotExact moving))
  · have room := State.makeRoom_none full bare
    have placement : ∃ f p st, s.positionForm t form position = some f ∧ f.place (s.tr t).cap = .ok (p, st) := by
      rcases given with ⟨last, gap, conf⟩ | ⟨here, rest, conf⟩ | ⟨explicit, inside⟩
      · obtain ⟨p, gap⟩ := Option.isSome_iff_exists.mp gap
        obtain ⟨f, named, place⟩ := State.positionForm_place (position := position) (.inl ⟨last, gap, conf, rfl⟩)
        exact ⟨f, p, _, named, place⟩
      · obtain ⟨f, named, place⟩ := State.positionForm_place (position := position) (.inr (.inl ⟨here, rest, conf, rfl, rfl⟩))
        exact ⟨f, _, _, named, place⟩
      · obtain ⟨-, low, long⟩ := inside.resolve_left (by rw [explicit]; decide)
        obtain ⟨f, named, place⟩ := State.positionForm_place (.inr (.inr ⟨explicit, rfl, low, long, rfl⟩))
        exact ⟨f, _, _, named, place⟩
    obtain ⟨f, p, st, named, place⟩ := placement
    exact exec_setMark_refused line (setMark_poolFull bound low high named unused place room)

end Sys2Proof.Machine
end

