-- ==== Sys2Proof/Proofs/MarksFound.lean ====
section
/-! PROOF. The requests that find marks: what each lists or picks, its 14 bytes, and its refusals. -/

namespace Sys2Proof.Machine

open Sys2Proof

section
variable {t : TNum} {s : State} {i : Fin 16} {number start : BitVec 16} {position : BitVec 24} {side : Byte}

/-! ### The 14 bytes of a mark (R57, R179) -/

theorem Mark.summary_eq (ordinal : Nat) (candidate : Option Int) (m : Mark) : m.summary ordinal candidate =
    bytes24 (BitVec.ofNat 24 (512 * m.number + (ordinal - 1))) ++
      [byte ((match m.kind with
          | .point => 0
          | .barrier => 1) +
        (match m.state with
          | .provisional => 0
          | .verified => 2
          | .doubtful => 4) +
        (match m.mode with
          | .none => 0
          | .forward => 8
          | .reverse => 16
          | .both => 24) +
        (if m.passed then 32 else 0) + (if m.tag.isSome then 64 else 0))] ++
      positionBytes m.pos ++
      (match m.tag with
        | some tag => bytes32 tag
        | none => [0, 0, 0, 0]) ++
      (match candidate with
        | some p => positionBytes p
        | none => [0x80, 0, 0]) := by
  have flags : m.kind.code + 2 * m.state.code + 8 * m.mode.code =
      (match m.kind with
        | .point => 0
        | .barrier => 1) +
      (match m.state with
        | .provisional => 0
        | .verified => 2
        | .doubtful => 4) +
      (match m.mode with
        | .none => 0
        | .forward => 8
        | .reverse => 16
        | .both => 24) := by
    cases m.kind <;> cases m.state <;> cases m.mode <;> rfl
  have tag : bytes32 (m.tag.getD 0) = match m.tag with
      | some tag => bytes32 tag
      | none => [0, 0, 0, 0] := by
    cases m.tag with
    | some tag => rfl
    | none => show bytes32 0 = [0, 0, 0, 0]; decide
  have candidate : positionBytes? candidate = match candidate with
      | some p => positionBytes p
      | none => [0x80, 0, 0] := by
    cases candidate with
    | some p => rfl
    | none => show bytes24 0x800000 = [0x80, 0, 0]; decide
  unfold Mark.summary
  rw [Nat.mul_comm m.number 512, flags, tag, candidate]
  rfl

/-! ### Requests on the bound volume (R46) -/

theorem onVolume_notBound {f : Fin 16 → State → State × Reply} (unbound : s.boundIdx t = none) :
    onVolume t f s = refuse .notBound s := by
  unfold onVolume
  rw [unbound]

theorem onVolume_bound {f : Fin 16 → State → State × Reply} (bound : s.boundIdx t = some i) : onVolume t f s = f i s := by
  unfold onVolume
  rw [bound]

section
variable {f : Fin 16 → Mark → State → State × Reply}

theorem onMark_notBound (unbound : s.boundIdx t = none) : onMark t number f s = refuse .notBound s :=
  onVolume_notBound unbound

variable (bound : s.boundIdx t = some i)
include bound

theorem onMark_badParameter (bad : ¬(1 ≤ number.toNat ∧ number.toNat ≤ 4095)) :
    onMark t number f s = refuse .badParameter s := by
  refine (onVolume_bound bound).trans ?_
  rw [markNumberOf_none bad]

theorem onMark_noSuchMark (low : 1 ≤ number.toNat) (high : number.toNat ≤ 4095)
    (unused : findNumber number.toNat s.marks[i] = none) : onMark t number f s = refuse .noSuchMark s := by
  refine (onVolume_bound bound).trans ?_
  rw [markNumberOf_some low high]
  dsimp only
  rw [unused]

theorem onMark_found {m : Mark} (low : 1 ≤ number.toNat) (high : number.toNat ≤ 4095)
    (found : findNumber number.toNat s.marks[i] = some m) : onMark t number f s = f i m s := by
  refine (onVolume_bound bound).trans ?_
  rw [markNumberOf_some low high]
  dsimp only
  rw [found]

/-! ### The summaries listed (R57, R58, R60, R61) -/

theorem State.markSummary_bound (m : Mark) :
    s.markSummary t m = m.summary (ordinalOf m.number s.marks[i]) ((s.tr t).candidateOf m.number) := by
  unfold State.markSummary
  rw [State.boundMarks_of bound]

theorem State.summaries_bound (l : List Mark) : s.summaries t l =
    (l.take 4).flatMap fun m => m.summary (ordinalOf m.number s.marks[i]) ((s.tr t).candidateOf m.number) :=
  congrArg (List.flatMap · (l.take 4)) (funext fun m => State.markSummary_bound bound m)

end

theorem moreByte_eq (l : List Mark) : byte (bitAt 0 (moreMarks l)) = if 4 < l.length then 1 else 0 := by
  unfold moreMarks Config.listMax
  by_cases more : 4 < l.length
  · rw [decide_eq_true more, if_pos more]
    rfl
  · rw [decide_eq_false more, if_neg more]
    rfl

/-! ### FIND BY TAG, LIST MARKS (R58, R60) -/

theorem ordinalArgOf_some (low : 1 ≤ start.toNat) (high : start.toNat ≤ 512) : ordinalArgOf start = some start.toNat :=
  if_pos ⟨low, high⟩

theorem ordinalArgOf_none (h : start.toNat < 1 ∨ 512 < start.toNat) : ordinalArgOf start = none :=
  if_neg (by unfold Config.poolSize; omega)

section
variable (tag : BitVec 32) (bound : s.boundIdx t = some i)
include bound

theorem findByTag_badParameter (bad : ordinalArgOf start = none) : findByTag t tag start s = refuse .badParameter s := by
  refine (onVolume_bound bound).trans ?_
  rw [bad]

theorem listMarks_badParameter (bad : ordinalArgOf start = none) : listMarks t start s = refuse .badParameter s := by
  refine (onVolume_bound bound).trans ?_
  rw [bad]

theorem findByTag_answer {o : Nat} (given : ordinalArgOf start = some o) : findByTag t tag start s =
    let found := (s.marks[i].drop (o - 1)).filter fun m => m.tag == some tag
    answer (byte (bitAt 0 (moreMarks found)) :: s.summaries t found) s := by
  refine (onVolume_bound bound).trans ?_
  rw [given]

theorem listMarks_answer {o : Nat} (given : ordinalArgOf start = some o) : listMarks t start s =
    answer (two s.marks[i].length ++ s.summaries t (s.marks[i].drop (o - 1))) s := by
  refine (onVolume_bound bound).trans ?_
  rw [given]
  rfl

end

/-! ### FIND NEAREST (R59) -/

theorem positionOf_some (low : -32768 ≤ position.toInt) : positionOf position = some position.toInt := if_pos low

theorem positionOf_none (below : position.toInt < -32768) : positionOf position = none :=
  if_neg (by unfold Config.posMin; omega)

section
variable (bound : s.boundIdx t = some i)
include bound

theorem findNearest_badParameter (bad : position.toInt < -32768 ∨ 1 < side.toNat) :
    findNearest t position side s = refuse .badParameter s := by
  refine (onVolume_bound bound).trans ?_
  rcases bad with below | beyond
  · rw [positionOf_none below]
  · split
    case h_1 zero => omega
    case h_2 one => omega
    case h_3 => rfl

/-- At or before a position: the last such mark of the list. -/
theorem findNearest_before (low : -32768 ≤ position.toInt) : findNearest t position 0 s =
    match s.marks[i].reverse.find? fun m => decide (m.pos ≤ position.toInt) with
    | some m => answer (s.markSummary t m) s
    | none => refuse .noSuchMark s := by
  refine (onVolume_bound bound).trans ?_
  rw [positionOf_some low]
  rfl

/-- At or after a position: the first such mark of the list. -/
theorem findNearest_after (low : -32768 ≤ position.toInt) : findNearest t position 1 s =
    match s.marks[i].find? fun m => decide (position.toInt ≤ m.pos) with
    | some m => answer (s.markSummary t m) s
    | none => refuse .noSuchMark s := by
  refine (onVolume_bound bound).trans ?_
  rw [positionOf_some low]
  rfl

end

/-- The last mark of a list at or before a position. -/
theorem find?_reverse_before {m : Mark} {before after : List Mark} {p : Int} (here : m.pos ≤ p)
    (beyond : ∀ k ∈ after, p < k.pos) :
    (before ++ m :: after).reverse.find? (fun k => decide (k.pos ≤ p)) = some m := by
  have none : after.reverse.find? (fun k => decide (k.pos ≤ p)) = none := List.find?_eq_none.mpr fun k mem => by
    simpa using beyond k (List.mem_reverse.mp mem)
  rw [List.reverse_append, List.reverse_cons, List.append_assoc, List.find?_append, none, Option.none_or]
  exact List.find?_cons_of_pos (decide_eq_true here)

/-- The first mark of a list at or after a position. -/
theorem find?_after {m : Mark} {before after : List Mark} {p : Int} (here : p ≤ m.pos)
    (short : ∀ k ∈ before, k.pos < p) :
    (before ++ m :: after).find? (fun k => decide (p ≤ k.pos)) = some m := by
  have none : before.find? (fun k => decide (p ≤ k.pos)) = none := List.find?_eq_none.mpr fun k mem => by
    simpa using short k mem
  rw [List.find?_append, none, Option.none_or]
  exact List.find?_cons_of_pos (decide_eq_true here)

/-! ### READ PASSED (R61) -/

theorem readPassed_answer (bound : s.boundIdx t = some i) : readPassed t s =
    let passed := s.marks[i].filter fun m => m.passed
    answer (byte (bitAt 0 (moreMarks passed)) :: s.summaries t passed)
      { s with marks := s.marks.set i (s.marks[i].map fun m =>
        if (passed.take 4).any fun q => q.number == m.number then { m with passed := false } else m) } :=
  onVolume_bound bound

end

/-- Settles O35: each request is refused in the order of its checks, and answers the summaries of the marks it picks. -/
theorem marksAreFound : Obligations.MarksAreFound := by
  refine ⟨Mark.summary_eq, fun t s line => ?_⟩
  have finds := fun number status body (done : findMark t number s = (s, ⟨status, body⟩)) =>
    exec_ready (.findMark (transportByte t) number) s s _ line ((onTransport_byte t _ s).trans done) rfl
  have tags := fun tag start status body (done : findByTag t tag start s = (s, ⟨status, body⟩)) =>
    exec_ready (.findByTag (transportByte t) tag start) s s _ line ((onTransport_byte t _ s).trans done) rfl
  have nears := fun position side status body (done : findNearest t position side s = (s, ⟨status, body⟩)) =>
    exec_ready (.findNearest (transportByte t) position side) s s _ line ((onTransport_byte t _ s).trans done) rfl
  have lists := fun start status body (done : listMarks t start s = (s, ⟨status, body⟩)) =>
    exec_ready (.listMarks (transportByte t) start) s s _ line ((onTransport_byte t _ s).trans done) rfl
  have reads := fun q status body (done : readPassed t s = (q, ⟨status, body⟩)) =>
    exec_ready (.readPassed (transportByte t)) s q _ line ((onTransport_byte t _ s).trans done)
  refine ⟨fun unbound number tag start position side => ?_, fun i bound => ?_⟩
  · have found : findMark t number s = refuse .notBound s := onMark_notBound unbound
    have tagged : findByTag t tag start s = refuse .notBound s := onVolume_notBound unbound
    have nearest : findNearest t position side s = refuse .notBound s := onVolume_notBound unbound
    have listed : listMarks t start s = refuse .notBound s := onVolume_notBound unbound
    have passed : readPassed t s = refuse .notBound s := onVolume_notBound unbound
    exact ⟨finds _ _ _ found, tags _ _ _ _ tagged, nears _ _ _ _ nearest, lists _ _ _ listed, reads _ _ _ passed rfl⟩
  intro summary shown more
  have listed : ∀ l, byte (bitAt 0 (moreMarks l)) :: s.summaries t l = more l :: shown l := fun l => by
    rw [moreByte_eq, State.summaries_bound bound]
  refine ⟨fun number => ⟨fun bad => ?_, fun low high => ⟨fun unused => ?_, fun m found => ?_⟩⟩,
    fun tag start => ⟨fun bad => ?_, fun low high => ?_⟩,
    fun position side => ⟨fun bad => ?_, fun low => ⟨fun beyond => ?_, fun short => ?_, fun m before after split =>
      ⟨fun here beyond => ?_, fun here short => ?_⟩⟩⟩, ?_⟩
  · exact finds _ _ _ (onMark_badParameter bound (by omega))
  · exact finds _ _ _ (onMark_noSuchMark bound low high unused)
  · have answered : findMark t number s = answer (s.markSummary t m) s := onMark_found bound low high found
    rw [State.markSummary_bound bound] at answered
    exact finds _ _ _ answered
  · have bad := ordinalArgOf_none bad
    exact ⟨tags _ _ _ _ (findByTag_badParameter tag bound bad), lists _ _ _ (listMarks_badParameter bound bad)⟩
  · intro found
    have given := ordinalArgOf_some low high
    have byTag := findByTag_answer tag bound given
    have all := listMarks_answer bound given
    dsimp only at byTag
    rw [listed] at byTag
    rw [State.summaries_bound bound] at all
    exact ⟨tags _ _ _ _ byTag, lists _ _ _ all⟩
  · exact nears _ _ _ _ (findNearest_badParameter bound bad)
  · have picked := findNearest_before bound low
    rw [List.find?_eq_none.mpr (by simpa using beyond)] at picked
    exact nears _ _ _ _ picked
  · have picked := findNearest_after bound low
    rw [List.find?_eq_none.mpr (by simpa using short)] at picked
    exact nears _ _ _ _ picked
  · have picked := findNearest_before bound low
    rw [split, find?_reverse_before here beyond] at picked
    dsimp only at picked
    rw [State.markSummary_bound bound] at picked
    exact nears _ _ _ _ picked
  · have picked := findNearest_after bound low
    rw [split, find?_after here short] at picked
    dsimp only at picked
    rw [State.markSummary_bound bound] at picked
    exact nears _ _ _ _ picked
  · intro passed
    have answered := readPassed_answer bound
    dsimp only at answered
    rw [listed] at answered
    exact reads _ _ _ answered rfl

end Sys2Proof.Machine
end

