-- ==== Sys2Proof/Proofs/BarrierReports.lean ====
section
/-! PROOF. What CHANGE MARK and RETIRE MARK share: the watches and the plan of the running order that stand, and a leg
planned anew after a change of one mark. -/

namespace Sys2Proof.Machine

open Sys2Proof

section
variable {t : TNum} {s r : State} {o : Order} {w : Work} {i : Fin 16} {m n : Mark}

/-! ### Watches and plans that stand (R74, R80) -/

/-- Watches of barriers that apply stand, and so do all watches while no order runs. -/
theorem State.pruneWatches_held
    (held : (s.tr t).running.isSome = true → ∀ b ∈ (s.tr t).capture.watch,
      ∃ k ∈ s.boundMarks t, (s.tr t).applies k = true ∧ k.number = b.number) : s.pruneWatches t = s := by
  unfold State.pruneWatches
  split
  · rfl
  · rename_i run
    refine State.upd_id _ _ _ ?_
    have stays : (s.tr t).capture.watch.filter (fun b =>
        ((s.boundMarks t).filter (s.tr t).applies).any fun k => k.number == b.number) = (s.tr t).capture.watch := by
      refine List.filter_eq_self.mpr fun b mem => ?_
      obtain ⟨k, listed, applies, number⟩ := held (by rw [run]; rfl) b mem
      exact List.any_eq_true.mpr ⟨k, List.mem_filter.mpr ⟨listed, applies⟩, by simp [number]⟩
    unfold Transport.modCapture
    dsimp only
    rw [stays]

/-- A change that concerns no barrier, or that finds no leg to plan anew, is reported without effect. -/
theorem State.reportBarrier_stands {concerns : Bool} (plain : concerns = false ∨ (s.tr t).planStands) :
    s.reportBarrier t concerns = s := by
  unfold State.reportBarrier
  split
  case isTrue bar =>
    refine State.replan_stands (plain.resolve_left ?_)
    rw [bar]
    nofun
  case isFalse => rfl

/-- Whether a plan stands is told by the running order's phase and leg. -/
theorem Transport.planStands_modWork {x : Transport} {f : Order → Work → Work} (h : x.planStands)
    (phase : ∀ o w, (f o w).phase = w.phase) (leg : ∀ o w, (f o w).leg = w.leg) : (x.modWork f).planStands := by
  intro o w run
  rw [Transport.modWork_running] at run
  obtain ⟨p, before, same⟩ := Option.map_eq_some_iff.mp run
  cases same
  rw [phase, leg]
  exact h p.1 p.2 before

theorem State.sameOutside.boundMarks (h : s.sameOutside t r) : r.boundMarks t = s.boundMarks t := by
  obtain ⟨-, -, volumes, -, marks, -⟩ := h
  unfold State.boundMarks
  rw [State.boundIdx_eq volumes, marks]

/-! ### One mark of the list changed (R44, R90) -/

theorem State.slowDownPoint_none {kind : OrderKind} {start p : Int} (points : s.noBarriers t) :
    s.slowDownPoint t kind start .forward p = p - 1500 :=
  
  congrArg Leg.slowDown (State.planLeg_plain (t := t) (kind := kind) (start := start) (p := p) (d := .forward)
    (rests := false) fun _ => points)

/-- Without the only mark that may be a barrier, the others are POINT marks. -/
theorem removeNumber_points {number : Nat} {l : List Mark} (others : ∀ k ∈ l, k.number ≠ number → k.kind = .point) :
    ∀ k ∈ removeNumber number l, k.kind = .point :=
  fun k mem => others k (List.mem_filter.mp mem).1 (removeNumber_new number l k mem)

/-- The slow-down point with one mark put among POINT marks, be it a barrier or not. -/
theorem State.slowDownPoint_insert {l : List Mark} (marks : s.boundMarks t = insertMark n l)
    (points : ∀ k ∈ l, k.kind = .point) (shut : (s.tr t).capture.windows = []) (known : (s.tr t).cap.conf ≠ .lost)
    (barred : o.kind.barred = true) : s.slowDownPoint t o.kind w.start .forward w.leg.endPoint =
      (s.tr t).slowDownFor w (if n.kind = .barrier then some n.pos else none) := by
  have members : ∀ k ∈ s.boundMarks t, k = n ∨ k ∈ l := fun k mem => by
    rw [marks] at mem
    exact List.mem_cons.mp ((insertMark_perm n l).mem_iff.mp mem)
  by_cases bar : n.kind = .barrier
  · rw [if_pos bar]
    refine State.slowDownPoint_one ?_ bar ?_ shut known barred
    · rw [marks]
      exact (insertMark_perm n l).mem_iff.mpr List.mem_cons_self
    · rw [marks]
      exact insertMark_only points
  · rw [if_neg bar]
    refine State.slowDownPoint_none fun k mem => ?_
    rcases members k mem with rfl | mem
    · cases kind : k.kind with
      | point => rfl
      | barrier => exact absurd kind bar
    · exact points k mem

/-! ### A Capture Unit that gives up a mark (R71, R72) -/

/-- Transport `y` is `x` but for its Capture Unit, which has the same lead and no new window or watch. -/
structure Transport.GivesUp (x y : Transport) : Prop where
  rest : y = { x with capture := y.capture }
  lead : y.capture.lead = x.capture.lead
  windows : y.capture.windows ⊆ x.capture.windows
  watch : y.capture.watch ⊆ x.capture.watch

theorem Transport.GivesUp.refl (x : Transport) : x.GivesUp x := ⟨rfl, rfl, List.Subset.refl _, List.Subset.refl _⟩

theorem Transport.givesUp_mark (number : Nat) (p : Option Int) (x : Transport) : x.GivesUp (x.giveUpMark number p) :=
  ⟨rfl, rfl, List.filter_sublist.subset, List.filter_sublist.subset⟩

section
variable {x y z : Transport} {slow : Int}

theorem Transport.GivesUp.cap (h : x.GivesUp y) : y.cap = x.cap := by rw [h.rest]

theorem Transport.GivesUp.running (h : x.GivesUp y) : y.running = x.running := by rw [h.rest]; rfl

theorem Transport.GivesUp.planStands (h : x.GivesUp y) (k : x.planStands) : y.planStands := by
  unfold Transport.planStands
  rw [h.running]
  exact k

/-- Whether a mark applies as a barrier is told by its kind and position. -/
theorem Transport.GivesUp.applies (h : x.GivesUp y) (kind : n.kind = m.kind) (pos : n.pos = m.pos) :
    y.applies n = x.applies m := by
  unfold Transport.applies Transport.wouldApply Transport.barredFrom
  rw [h.running, h.cap, h.lead, kind, pos]

/-- A fast forward leg stays one. -/
theorem Transport.GivesUp.fastForward (h : x.GivesUp y) (k : x.fastForward o w) : y.fastForward o w := by
  obtain ⟨run, fast, kind, forward, cond, speed, dir, eot, known, shut, unwatched, far⟩ := k
  have shut' := h.windows
  have unwatched' := h.watch
  rw [shut] at shut'
  rw [unwatched] at unwatched'
  rw [Transport.fastForward, h.running, h.cap]
  exact ⟨run, fast, kind, forward, cond, speed, dir, eot, known, List.eq_nil_of_subset_nil shut',
    List.eq_nil_of_subset_nil unwatched', far⟩

theorem Transport.GivesUp.slowDownFor (h : x.GivesUp y) (barrier : Option Int) :
    y.slowDownFor w barrier = x.slowDownFor w barrier := by
  unfold Transport.slowDownFor
  rw [h.cap, h.lead]

/-- What has been planned anew from `y` has been planned anew from `x`. -/
theorem Transport.GivesUp.replannedTo (h : x.GivesUp y) (k : y.replannedTo slow o w z) : x.replannedTo slow o w z := by
  have rest := h.rest
  generalize y.capture = c at rest
  subst rest
  exact k

/-! ### The working values of the running order changed (R98) -/

theorem Transport.fastForward.modWork {f : Order → Work → Work} (h : x.fastForward o w)
    (phase : (f o w).phase = w.phase) (leg : (f o w).leg = w.leg) : (x.modWork f).fastForward o (f o w) := by
  obtain ⟨run, fast, kind, forward, motion⟩ := h
  refine ⟨?_, phase.trans fast, kind, by rw [leg]; exact forward, ?_⟩
  · rw [Transport.modWork_running, run]
    rfl
  · rw [leg]
    exact motion

theorem Transport.replannedTo.ofWork {f : Order → Work → Work} (h : (x.modWork f).replannedTo slow o w z) :
    x.replannedTo slow o w z := by
  obtain ⟨sequencer, supply, takeup, prot, flags, masks, slots, motion⟩ := h
  exact ⟨sequencer, supply, takeup, prot, flags, masks, slots.trans (replaceRunning_length _ _), motion⟩

end

end

end Sys2Proof.Machine
end

