-- ==== Sys2Proof/Proofs/ChangeMark.lean ====
section
/-! PROOF. CHANGE MARK: the change asked for, the mark and the Capture Unit it leaves, and its report. -/

namespace Sys2Proof.Machine

open Sys2Proof

section
variable {t : TNum} {s : State} {i : Fin 16} {number : BitVec 16} {selector attributes : Byte} {position : BitVec 24}
  {tag : BitVec 32} {m n : Mark} {c : MarkChange} {o : Order} {w : Work}

/-! ### The operands (R52, R177) -/

/-- A selector that names a field, and not both tag forms, with position bytes that spell a position, one that the volume
holds if it is named (R52, log entry 48). -/
def State.asksChange (t : TNum) (selector : Byte) (position : BitVec 24) (s : State) : Prop :=
  (selector.getLsbD 0 || selector.getLsbD 1 || selector.getLsbD 2 || selector.getLsbD 3 || selector.getLsbD 4) = true ∧
    (selector.getLsbD 3 && selector.getLsbD 4) = false ∧
    -32768 ≤ position.toInt ∧ (selector.getLsbD 0 = true → position.toInt ≤ s.tapeLength t)

/-- The change that an allowed selector names. -/
def changeOf (selector attributes : Byte) (position : BitVec 24) (tag : BitVec 32) : MarkChange :=
  { position := if selector.getLsbD 0 then some position.toInt else none
    kind := if selector.getLsbD 1 then some (kindOf attributes) else none
    mode := if selector.getLsbD 2 then some (modeOf attributes) else none
    tag := if selector.getLsbD 3 then some (some tag) else if selector.getLsbD 4 then some none else none }

theorem positionOf_isNone_iff : (positionOf position).isNone = true ↔ ¬-32768 ≤ position.toInt := by
  unfold positionOf Config.posMin
  split <;> simp_all

/-- The selector is allowed exactly where none of the model's refusals holds. -/
theorem State.asksChange_iff : s.asksChange t selector position ↔
    ¬((selector.getLsbD 0 || (selector.getLsbD 1 || (selector.getLsbD 2
      || (selector.getLsbD 3 || selector.getLsbD 4)))) = false ∨ (selector.getLsbD 3 && selector.getLsbD 4) = true
      ∨ (positionOf position).isNone = true ∨ (selector.getLsbD 0 && (s.markPosition t position).isNone) = true) := by
  unfold State.asksChange
  rw [positionOf_isNone_iff, State.markPosition_eq]
  simp only [Bool.or_assoc]
  generalize (selector.getLsbD 0 || (selector.getLsbD 1 || (selector.getLsbD 2
    || (selector.getLsbD 3 || selector.getLsbD 4)))) = named
  generalize (selector.getLsbD 3 && selector.getLsbD 4) = both
  by_cases low : -32768 ≤ position.toInt
  · simp [low]
  · simp [low]

theorem State.markChange_some (asked : s.asksChange t selector position) :
    s.markChange t selector attributes position tag = some (changeOf selector attributes position tag) := by
  have placed : (if selector.getLsbD 0 then s.markPosition t position else none) =
      if selector.getLsbD 0 then some position.toInt else none := by
    obtain ⟨-, -, low, inside⟩ := asked
    split
    case isTrue named => rw [State.markPosition_eq, if_pos ⟨low, inside named⟩]
    case isFalse => rfl
  unfold State.markChange changeOf
  rw [← placed]
  exact if_neg (State.asksChange_iff.mp asked)

theorem State.markChange_none (bad : ¬s.asksChange t selector position) :
    s.markChange t selector attributes position tag = none :=
  if_pos (not_not.mp fun allowed => bad (State.asksChange_iff.mpr allowed))

/-! ### The changed mark (R53, R54) -/

theorem Mark.change_changeOf (m : Mark) : m.change (changeOf selector attributes position tag) =
    { m with
      pos := if selector.getLsbD 0 then position.toInt else m.pos
      state := if selector.getLsbD 0 then .provisional else m.state
      kind := if selector.getLsbD 1 then (if attributes.getLsbD 0 then .barrier else .point) else m.kind
      mode := if selector.getLsbD 2 then modeOf attributes else m.mode
      passed := if selector.getLsbD 0 || (selector.getLsbD 2 && modeOf attributes == .none) then false else m.passed
      tag := if selector.getLsbD 3 then some tag else if selector.getLsbD 4 then none else m.tag } := by
  have given : ∀ {α : Type} (b : Bool) (v d : α), (if b then some v else none).getD d = if b then v else d :=
    fun b _ _ => by cases b <;> rfl
  have cleared : (if (if selector.getLsbD 0 then some position.toInt else none).isSome = true ∨
      (if selector.getLsbD 2 then some (modeOf attributes) else none) = some .none then false else m.passed) =
      if selector.getLsbD 0 || (selector.getLsbD 2 && modeOf attributes == .none) then false else m.passed :=
    if_congr (by simp) rfl rfl
  have tagged : (if selector.getLsbD 3 then some (some tag) else if selector.getLsbD 4 then some none else none).getD m.tag =
      if selector.getLsbD 3 then some tag else if selector.getLsbD 4 then none else m.tag := by
    cases selector.getLsbD 3
    · exact given _ _ _
    · rfl
  unfold Mark.change changeOf
  dsimp only
  rw [cleared, tagged]
  simp only [given, Option.isSome_ite]
  rfl

/-! ### The request (R52) -/

/-- What CHANGE MARK does on a line that can answer, by its handler. -/
theorem exec_changeMark {q : State} {status : Status} {body : List Byte} (line : s.lineReady)
    (done : changeMark t number selector attributes position tag s = (q, ⟨status, body⟩))
    (receiver : q.line.receiver = s.line.receiver) :
    exec (.changeMark (transportByte t) number selector attributes position tag) s = .next (q.sending status body) :=
  exec_ready (.changeMark (transportByte t) number selector attributes position tag) s q _ line
    ((onTransport_byte t _ s).trans done) receiver

theorem changeMark_badParameter (bound : s.boundIdx t = some i)
    (bad : ¬((1 ≤ number.toNat ∧ number.toNat ≤ 4095) ∧ s.asksChange t selector position)) :
    changeMark t number selector attributes position tag s = refuse .badParameter s := by
  refine (onVolume_bound bound).trans ?_
  rcases not_and_or.mp bad with bad | bad
  · rw [markNumberOf_none bad]
  · rw [State.markChange_none bad]
    cases markNumberOf number <;> rfl

theorem changeMark_noSuchMark (bound : s.boundIdx t = some i) (low : 1 ≤ number.toNat) (high : number.toNat ≤ 4095)
    (asked : s.asksChange t selector position) (unused : findNumber number.toNat s.marks[i] = none) :
    changeMark t number selector attributes position tag s = refuse .noSuchMark s := by
  refine (onVolume_bound bound).trans ?_
  rw [markNumberOf_some low high, State.markChange_some asked]
  dsimp only
  rw [unused]

/-- The changed mark in its place, and the Capture Unit that has given it up if it was moved (R45, R71, R72). -/
def State.changed (t : TNum) (i : Fin 16) (m : Mark) (c : MarkChange) (s : State) : State :=
  (s.setMarks i (insertMark (m.change c) (removeNumber m.number s.marks[i]))).upd t fun x =>
    if c.position.isSome then x.giveUpMark m.number c.position else x

theorem State.changed_boundMarks (bound : s.boundIdx t = some i) :
    (s.changed t i m c).boundMarks t = insertMark (m.change c) (removeNumber m.number s.marks[i]) :=
  State.boundMarks_setMarks bound _

theorem State.changed_tr : (s.changed t i m c).tr t =
    if c.position.isSome then (s.tr t).giveUpMark m.number c.position else s.tr t :=
  State.tr_upd_same _ _ _

theorem State.changed_givesUp : (s.tr t).GivesUp ((s.changed t i m c).tr t) := by
  rw [State.changed_tr]
  split
  · exact Transport.givesUp_mark _ _ _
  · exact Transport.GivesUp.refl _

/-- What CHANGE MARK leaves of the state, field by field. -/
theorem State.changed_eq (change : changeOf selector attributes position tag = c) (after : m.change c = n) :
    s.changed t i m c =
      { s with marks := s.marks.set i (insertMark n (removeNumber m.number s.marks[i])) }.upd t fun x =>
        if selector.getLsbD 0 then
          { x with capture := { x.capture with
            windows := x.capture.windows.filter fun w => w.number != m.number
            watch := x.capture.watch.filter fun b => b.number != m.number || b.pos == n.pos
            target := x.capture.target.filter fun k => k.number != m.number } }
        else x := by
  unfold State.changed
  rw [after]
  refine State.upd_congr ?_
  have place : selector.getLsbD 0 = true → n.pos = position.toInt := fun moved => by
    rw [← after, ← change, Mark.change_changeOf]
    exact if_pos moved
  rw [← change]
  unfold changeOf
  dsimp only
  cases moved : selector.getLsbD 0 with
  | false => rfl
  | true =>
    rw [place moved]
    rfl

/-- CHANGE MARK where its checks pass: `made` is what the watches and the report leave of the change. -/
theorem changeMark_made {made : State} (bound : s.boundIdx t = some i) (low : 1 ≤ number.toNat)
    (high : number.toNat ≤ 4095) (asked : s.asksChange t selector position)
    (found : findNumber number.toNat s.marks[i] = some m) (change : changeOf selector attributes position tag = c)
    (reported : ((s.changed t i m c).pruneWatches t).reportBarrier t (m.kind == .barrier || (m.change c).kind == .barrier) =
      made)
    (list : made.boundMarks t = insertMark (m.change c) (removeNumber m.number s.marks[i])) :
    changeMark t number selector attributes position tag s =
      answer (Mark.summary (ordinalOf m.number (insertMark (m.change c) (removeNumber m.number s.marks[i])))
        ((s.tr t).candidateOf m.number) { m.change c with passed := m.passed }) made := by
  have own : m.number = number.toNat := findNumber_number found
  have moved : moveNumber number.toNat (Mark.change c) s.marks[i] =
      insertMark (m.change c) (removeNumber m.number s.marks[i]) := by
    unfold moveNumber
    rw [found, own]
  have told : ∀ q : State, (if c.position.isSome then q.upd t (Transport.giveUpMark m.number c.position) else q) =
      q.upd t fun x => if c.position.isSome then x.giveUpMark m.number c.position else x := fun q => by
    split
    · rfl
    · exact (State.upd_id t _ q rfl).symm
  refine (onVolume_bound bound).trans ?_
  rw [markNumberOf_some low high, State.markChange_some asked, change]
  dsimp only
  rw [found]
  dsimp only
  unfold State.changed at reported
  rw [moved, ← own, told, reported, list]

/-! ### Watches after a change (R74, R78, log entry 17) -/

/-- The watch of the changed mark ends where the mark is moved to another position than that of the watch. -/
theorem State.changed_watch {b : BarrierWatch} (watch : (s.tr t).capture.watch = [b]) (own : b.number = m.number) :
    ((s.changed t i m (changeOf selector attributes position tag)).tr t).capture.watch =
      if selector.getLsbD 0 = true ∧ b.pos ≠ position.toInt then [] else [b] := by
  rw [State.changed_tr]
  unfold changeOf
  cases moved : selector.getLsbD 0 with
  | false => simpa using watch
  | true =>
    show (s.tr t).capture.watch.filter _ = _
    rw [watch]
    by_cases same : b.pos = position.toInt <;> simp [own, same]

/-- A watch begun where the mark stood ends where the mark is moved. -/
theorem State.changed_watch_here {b : BarrierWatch} (watch : (s.tr t).capture.watch = [b]) (own : b.number = m.number)
    (here : b.pos = m.pos) (change : changeOf selector attributes position tag = c) :
    ((s.changed t i m c).tr t).capture.watch = if (m.change c).pos = m.pos then [b] else [] := by
  subst change
  rw [State.changed_watch watch own, Mark.change_changeOf, here]
  cases selector.getLsbD 0 with
  | false => simp
  | true => by_cases same : position.toInt = m.pos <;> simp [same, Ne.symm]

/-- Without an order or a watch there is none to end. -/
theorem State.changed_unwatched (h : (s.tr t).running = none ∨ (s.tr t).capture.watch = []) :
    (s.changed t i m c).pruneWatches t = s.changed t i m c := by
  have gives := State.changed_givesUp (t := t) (s := s) (i := i) (m := m) (c := c)
  refine State.pruneWatches_held fun runs b mem => ?_
  rcases h with idle | unwatched
  · rw [gives.running, idle] at runs
    cases runs
  · have mem := gives.watch mem
    rw [unwatched] at mem
    cases mem

/-- A barrier that keeps its kind and its position keeps the watch it has. -/
theorem State.changed_watched {b : BarrierWatch} (bound : s.boundIdx t = some i)
    (watch : (s.tr t).capture.watch = [b]) (own : b.number = m.number) (applies : (s.tr t).applies m = true)
    (change : changeOf selector attributes position tag = c) (kind : (m.change c).kind = m.kind)
    (place : (m.change c).pos = m.pos ∨ selector.getLsbD 0 = true ∧ (m.change c).pos ≠ b.pos) :
    (s.changed t i m c).pruneWatches t = s.changed t i m c := by
  subst change
  refine State.pruneWatches_held fun _ a mem => ?_
  rw [State.changed_watch watch own] at mem
  split at mem
  case isTrue => cases mem
  case isFalse stays =>
    obtain rfl := List.mem_singleton.mp mem
    have pos := place.resolve_right fun ⟨moved, apart⟩ => stays ⟨moved, fun same => apart (by
      rw [Mark.change_changeOf, same]
      exact if_pos moved)⟩
    refine ⟨_, ?_, (State.changed_givesUp.applies kind pos).trans applies, own.symm⟩
    rw [State.changed_boundMarks bound]
    exact (insertMark_perm _ _).mem_iff.mpr List.mem_cons_self

/-! ### Changes that plan nothing anew, and those that do (R80, R90) -/

section
variable (line : s.lineReady) (bound : s.boundIdx t = some i) (low : 1 ≤ number.toNat) (high : number.toNat ≤ 4095)
  (asked : s.asksChange t selector position) (found : findNumber number.toNat s.marks[i] = some m)
  (change : changeOf selector attributes position tag = c)
include line bound low high asked found change

/-- A change with the watches and the plan that stand. -/
theorem exec_changeMark_stands (watches : (s.changed t i m c).pruneWatches t = s.changed t i m c)
    (plan : m.kind = .point ∧ (m.change c).kind = .point ∨ (s.tr t).planStands) :
    exec (.changeMark (transportByte t) number selector attributes position tag) s =
      .next ((s.changed t i m c).sending .done
        (Mark.summary (ordinalOf m.number (insertMark (m.change c) (removeNumber m.number s.marks[i])))
          ((s.tr t).candidateOf m.number) { m.change c with passed := m.passed })) := by
  have stands : (m.kind == .barrier || (m.change c).kind == .barrier) = false ∨ ((s.changed t i m c).tr t).planStands :=
    plan.imp (fun ⟨old, new⟩ => by rw [old, new]; rfl) State.changed_givesUp.planStands
  refine exec_changeMark line (changeMark_made bound low high asked found change ?_ (State.changed_boundMarks bound)) rfl
  rw [watches]
  exact State.reportBarrier_stands stands

/-- A change to the one barrier of the volume has a fast forward leg planned anew. -/
theorem exec_changeMark_replans (concerns : ¬(m.kind = .point ∧ (m.change c).kind = .point))
    (others : ∀ k ∈ s.marks[i], k.number ≠ m.number → k.kind = .point) (fast : (s.tr t).fastForward o w) :
    ∃ q : State, exec (.changeMark (transportByte t) number selector attributes position tag) s =
        .next (q.sending .done
          (Mark.summary (ordinalOf m.number (insertMark (m.change c) (removeNumber m.number s.marks[i])))
            ((s.tr t).candidateOf m.number) { m.change c with passed := m.passed })) ∧
      (s.changed t i m c).sameOutside t q ∧ (q.tr t).capture = ((s.changed t i m c).tr t).capture ∧
      (s.tr t).replannedTo
        ((s.tr t).slowDownFor w (if (m.change c).kind = .barrier then some (m.change c).pos else none)) o w (q.tr t) := by
  have gives := State.changed_givesUp (t := t) (s := s) (i := i) (m := m) (c := c)
  have fast' := gives.fastForward fast
  obtain ⟨-, -, kind, -, -, -, -, -, known, shut, unwatched, -⟩ := id fast'
  obtain ⟨outside, capture, replanned⟩ := State.replan_replans fast' ((State.slowDownPoint_insert
    (State.changed_boundMarks bound) (removeNumber_points others) shut known (OrderKind.barred_of_seek kind)).trans
    (gives.slowDownFor _))
  have concerned : (m.kind == .barrier || (m.change c).kind == .barrier) = true := by
    revert concerns
    cases m.kind <;> cases (m.change c).kind <;> simp
  have reported : ((s.changed t i m c).pruneWatches t).reportBarrier t (m.kind == .barrier || (m.change c).kind == .barrier)
      = (s.changed t i m c).replan t := by
    rw [State.pruneWatches_held (by rw [unwatched]; nofun), concerned]
    rfl
  have made := changeMark_made bound low high asked found change reported
    (outside.boundMarks.trans (State.changed_boundMarks bound))
  obtain ⟨-, -, -, -, -, -, lines, -⟩ := id outside
  exact ⟨_, exec_changeMark line made (congrArg Line.receiver lines), outside, capture, gives.replannedTo replanned⟩

end

end

end Sys2Proof.Machine
end

