-- ==== Sys2Proof/Proofs/RetireMark.lean ====
section
/-! PROOF. RETIRE MARK, and the statement on changed and retired marks. -/

namespace Sys2Proof.Machine

open Sys2Proof

section
variable {t : TNum} {s : State} {i : Fin 16} {number : BitVec 16} {m : Mark} {o : Order} {w : Work}

/-! ### What RETIRE MARK leaves (R55, R71, R98) -/

/-- A SEEK_MARK toward the mark learns that its target is retired (R98). -/
def Work.learns (number : Nat) (o : Order) (w : Work) : Work :=
  if o.kind = .seekMark number then { w with targetRetired := true } else w

theorem Work.learns_phase : (Work.learns m.number o w).phase = w.phase := by
  unfold Work.learns
  split <;> rfl

theorem Work.learns_leg : (Work.learns m.number o w).leg = w.leg := by
  unfold Work.learns
  split <;> rfl

theorem Transport.targetGone_eq (number : Nat) (x : Transport) : x.targetGone number = x.modWork (Work.learns number) := by
  refine congrArg (Transport.modWork · x) (funext fun o => funext fun w => ?_)
  unfold Work.learns
  split
  case h_1 k toward =>
    rw [toward]
    exact if_congr (by simp) rfl rfl
  case h_2 other => exact (if_neg fun toward => other _ toward).symm

/-- The list without the mark, the Capture Unit that has given it up, and a SEEK_MARK that has learnt of it. -/
def State.retired (t : TNum) (i : Fin 16) (m : Mark) (s : State) : State :=
  (s.setMarks i (removeNumber m.number s.marks[i])).upd t fun x =>
    (x.giveUpMark m.number none).modWork (Work.learns m.number)

theorem State.retired_boundMarks (bound : s.boundIdx t = some i) :
    (s.retired t i m).boundMarks t = removeNumber m.number s.marks[i] :=
  State.boundMarks_setMarks bound _

theorem State.retired_tr :
    (s.retired t i m).tr t = ((s.tr t).giveUpMark m.number none).modWork (Work.learns m.number) :=
  State.tr_upd_same _ _ _

theorem State.retired_planStands (h : (s.tr t).planStands) : ((s.retired t i m).tr t).planStands := by
  rw [State.retired_tr]
  exact Transport.planStands_modWork ((Transport.givesUp_mark _ _ _).planStands h) (fun _ _ => Work.learns_phase)
    fun _ _ => Work.learns_leg

/-! ### The request -/

theorem exec_retireMark {q : State} {status : Status} {body : List Byte} (line : s.lineReady)
    (done : retireMark t number s = (q, ⟨status, body⟩)) (receiver : q.line.receiver = s.line.receiver) :
    exec (.retireMark (transportByte t) number) s = .next (q.sending status body) :=
  exec_ready (.retireMark (transportByte t) number) s q _ line ((onTransport_byte t _ s).trans done) receiver

section
variable (line : s.lineReady) (bound : s.boundIdx t = some i) (low : 1 ≤ number.toNat) (high : number.toNat ≤ 4095)
  (found : findNumber number.toNat s.marks[i] = some m)
include bound low high found

theorem retireMark_found : retireMark t number s =
    answer (s.markSummary t m) ((s.retired t i m).reportBarrier t (m.kind == .barrier)) := by
  refine (onMark_found bound low high found).trans ?_
  simp only [Transport.targetGone_eq]
  rfl

include line

/-- A POINT retired, or a barrier with no leg to plan anew. -/
theorem exec_retireMark_stands (plain : m.kind = .point ∨ (s.tr t).planStands) :
    exec (.retireMark (transportByte t) number) s = .next ((s.retired t i m).sending .done (s.markSummary t m)) := by
  have done := retireMark_found bound low high found
  rw [State.reportBarrier_plain (plain.imp_right State.retired_planStands)] at done
  exact exec_retireMark line done rfl

/-- The one barrier of the volume retired has a fast forward leg planned anew. -/
theorem exec_retireMark_replans (bar : m.kind = .barrier)
    (others : ∀ k ∈ s.marks[i], k.number ≠ m.number → k.kind = .point) (fast : (s.tr t).fastForward o w) :
    ∃ q : State, exec (.retireMark (transportByte t) number) s = .next (q.sending .done (s.markSummary t m)) ∧
      (s.retired t i m).sameOutside t q ∧ (q.tr t).capture = ((s.retired t i m).tr t).capture ∧
      (s.tr t).replannedTo ((s.tr t).slowDownFor w none) o (Work.learns m.number o w) (q.tr t) := by
  have gives := Transport.givesUp_mark m.number none (s.tr t)
  have fast' : ((s.retired t i m).tr t).fastForward o (Work.learns m.number o w) := by
    rw [State.retired_tr]
    exact (gives.fastForward fast).modWork Work.learns_phase Work.learns_leg
  have points : (s.retired t i m).noBarriers t := by
    unfold State.noBarriers
    rw [State.retired_boundMarks bound]
    exact removeNumber_points others
  obtain ⟨outside, capture, replanned⟩ := State.replan_replans (slow := (s.tr t).slowDownFor w none) fast'
    ((State.slowDownPoint_none points).trans (by rw [Work.learns_leg]; rfl))
  have done := retireMark_found bound low high found
  rw [bar] at done
  rw [State.retired_tr] at replanned
  obtain ⟨-, -, -, -, -, -, lines, -⟩ := id outside
  exact ⟨_, exec_retireMark line done (congrArg Line.receiver lines), outside, capture, gives.replannedTo replanned.ofWork⟩

end

end

/-- Settles O34: CHANGE MARK and RETIRE MARK each give the state before the report, and the report leaves it or plans the
leg anew. -/
theorem marksAreChangedAndRetired : Obligations.MarksAreChangedAndRetired := by
  intro t number selector attributes position tag s line change retire numbered asked
  refine ⟨fun unbound => ?_, fun i bound => ⟨fun bad => ?_, fun bad => ?_, fun ⟨low, high⟩ unused => ⟨fun ok => ?_, ?_⟩, ?_⟩⟩
  · have unchanged : changeMark t number selector attributes position tag s = refuse .notBound s := onVolume_notBound unbound
    have kept : retireMark t number s = refuse .notBound s := onMark_notBound unbound
    exact ⟨exec_changeMark line unchanged rfl, exec_retireMark line kept rfl⟩
  · exact exec_changeMark line (changeMark_badParameter bound bad) rfl
  · have refused : retireMark t number s = refuse .badParameter s := onMark_badParameter bound bad
    exact exec_retireMark line refused rfl
  · exact exec_changeMark line (changeMark_noSuchMark bound low high ok unused) rfl
  · have refused : retireMark t number s = refuse .noSuchMark s := onMark_noSuchMark bound low high unused
    exact exec_retireMark line refused rfl
  intro m ⟨low, high⟩ found others givenUp learnt
  constructor
  · intro ok n list r shown points
    obtain ⟨c, change⟩ : ∃ c, changeOf selector attributes position tag = c := ⟨_, rfl⟩
    have after : m.change c = n := by
      rw [← change]
      exact Mark.change_changeOf m
    have same : s.changed t i m c = r := State.changed_eq change after
    have stands := exec_changeMark_stands line bound low high ok found change
    have replans := fun o w => exec_changeMark_replans (o := o) (w := w) line bound low high ok found change
    rw [same, after] at stands
    rw [same, after] at replans
    refine ⟨fun still plan => stands (same ▸ State.changed_unwatched still) plan,
      fun o w b run first phase plan cond dir watch own bar place => ?_, replans⟩
    obtain ⟨-, kind, -⟩ := id first
    have watched := State.changed_watched bound watch own (first.applies run phase cond dir) change
      (by rw [after]; exact bar.trans kind.symm) (by rw [after]; exact place)
    refine ⟨stands (same ▸ watched) (.inr plan), fun here => ?_⟩
    rw [← same, ← after]
    exact State.changed_watch_here watch own here change
  · intro gone
    have same : gone = s.retired t i m := rfl
    rw [same]
    exact ⟨exec_retireMark_stands line bound low high found, fun o w bar points fast =>
      exec_retireMark_replans line bound low high found bar points fast⟩

end Sys2Proof.Machine
end

