-- ==== Sys2Proof/Proofs/QueueOrder.lean ====
section
/-! PROOF. QUEUE ORDER: a SPACE_F that starts at once, an order that waits behind others, and the refusals in their order. -/

namespace Sys2Proof.Machine

open Sys2Proof

section
variable {t : TNum} {s : State} {tag code : Byte} {argument : BitVec 24}

/-! ### A SPACE_F that starts at once (R87, R93) -/

theorem State.noBarriers_unbound (h : s.boundIdx t = none) : s.noBarriers t := fun m k => by
  rw [State.boundMarks_unbound h] at k
  exact absurd k List.not_mem_nil

/-- An unbound transport takes its default class (R10). -/
theorem State.chosenClass_unbound (h : s.boundIdx t = none) : s.chosenClass t = (s.tr t).cap.defaultClass := by
  unfold State.chosenClass State.boundVol
  rw [h]
  rfl

/-- The working values of a SPACE order that has just set off (R87). -/
def Work.spaceBegun (counter : Int) : Work := { Work.fresh counter .readLeg with runoutTarget := false }

/-- A SPACE_F that nothing bounds and no barrier ends: what becomes of the transport, whole (R93). -/
theorem State.enqueue_spaceF {done : List Record} {n : Nat} (ready : s.startReady t done) (eot : (s.tr t).cap.eotPos = none)
    (points : s.noBarriers t) :
    s.enqueue t { tag := tag, kind := .spaceF n } = s.upd t (Transport.departs s.clock (s.chosenClass t) done
      { tag := tag, kind := .spaceF n } (Work.spaceBegun (s.tr t).cap.counter) (s.tr t).capture
      (plainRun .forward .read none)) := by
  have check : s.startCheck t (.spaceF n) = none := points.forwardCheck fun e runout => by
    unfold Capstan.runout at runout
    rw [eot] at runout
    cases runout
  have rest : (s.tr t).cap.seg.cond = .atRest := ready.2.2.2.2.2
  calc s.enqueue t { tag := tag, kind := .spaceF n }
      = (s.upd t (Transport.begun done { tag := tag, kind := .spaceF n })).beginPlan t (.spaceF n) :=
        State.enqueue_starts (o := { tag := tag, kind := .spaceF n }) ready check
    _ = ((s.upd t (Transport.begun done { tag := tag, kind := .spaceF n })).upd t (Transport.setState .moving)).orderRun t
          (plainRun .forward .read none) := rfl
    _ = _ := by
        rw [State.begun_moving]
        exact State.onItsWay_runFree (q := plainRun .forward .read none) rest (fun _ => eot) (RunReq.ahead_none rfl)

/-- Settles O37: the order departs from rest, and `Transport.departs` changes the order list, the state and the segment
alone. -/
theorem queueOrderStartsASpace : Obligations.QueueOrderStartsASpace := by
  intro t tag argument s done ready eot unbound low high
  have started := State.enqueue_spaceF (tag := tag) (n := argument.toNat) ready eot (State.noBarriers_unbound unbound)
  have cls := State.chosenClass_unbound unbound
  refine ⟨_, exec_queueOrder (n := 1) (last := .running { tag := tag, kind := .spaceF argument.toNat }
      (Work.spaceBegun (s.tr t).cap.counter)) ready (orderKindOf_count low high).1 started rfl
      (Transport.standing_running (l := done.map .record) rfl), State.sameOutside_upd _ _ _, ?_⟩
  rw [State.tr_upd_same, cls]
  exact ⟨rfl, ⟨_, rfl, rfl, rfl, rfl, rfl, rfl⟩, ⟨⟨_, rfl, rfl, rfl, rfl, rfl, rfl⟩, rfl, rfl, rfl, rfl, rfl⟩,
    rfl, rfl, rfl, rfl, rfl, rfl⟩

/-! ### The refusals, in their order (R86) -/

/-- The answer to QUEUE ORDER on a line that can answer, by its handler. -/
theorem exec_queueOrder_of {q : State} {p : Reply} (line : s.lineReady) (h : queueOrder t tag code argument s = (q, p))
    (l : q.line.receiver = s.line.receiver) :
    exec (.queueOrder (transportByte t) tag code argument) s = .next (q.sending p.status p.body) :=
  exec_ready (.queueOrder (transportByte t) tag code argument) s q p line ((onTransport_byte t _ s).trans h) l

theorem queueOrder_offline (online : (s.tr t).sequencer.online = false) :
    queueOrder t tag code argument s = refuse .offline s := if_pos online

section
variable (online : (s.tr t).sequencer.online = true)
include online

theorem queueOrder_state {status : Status} (state : (s.tr t).sequencer.state.refusesOrders = some status) :
    queueOrder t tag code argument s = refuse status s := by
  unfold queueOrder
  dsimp only
  rw [if_neg (by simp [online]), state]

variable (state : (s.tr t).sequencer.state.refusesOrders = none)
include state

theorem queueOrder_unload (unload : (s.tr t).orders.list.any Slot.isUnload = true) :
    queueOrder t tag code argument s = refuse .wrongState s := by
  unfold queueOrder
  dsimp only
  rw [if_neg (by simp [online]), state]
  exact if_pos unload

variable (unload : (s.tr t).orders.list.any Slot.isUnload = false)
include unload

theorem queueOrder_full (full : 8 ≤ (s.tr t).orders.list.length) :
    queueOrder t tag code argument s = refuse .slotsFull s := by
  unfold queueOrder
  dsimp only
  rw [if_neg (by simp [online]), state]
  dsimp only
  rw [if_neg (by simp [unload])]
  exact if_pos (Nat.sub_eq_zero_of_le full)

variable (room : (s.tr t).orders.list.length < 8)
include room

/-- What is left once no check refuses: the argument. -/
theorem queueOrder_badKind (unknown : orderKindOf code argument = none) :
    queueOrder t tag code argument s = refuse .badParameter s := by
  have free : (s.tr t).freeCount ≠ 0 := (Nat.sub_pos_of_lt room).ne'
  unfold queueOrder
  dsimp only
  rw [if_neg (by simp [online]), state]
  dsimp only
  rw [if_neg (by simp [unload]), if_neg free, unknown]

theorem queueOrder_taken {k : OrderKind} (named : orderKindOf code argument = some k) :
    queueOrder t tag code argument s =
      answer [byte ((s.enqueue t { tag := tag, kind := k }).tr t).freeCount,
        byte ((s.enqueue t { tag := tag, kind := k }).tr t).standing] (s.enqueue t { tag := tag, kind := k }) := by
  have free : (s.tr t).freeCount ≠ 0 := (Nat.sub_pos_of_lt room).ne'
  unfold queueOrder
  dsimp only
  rw [if_neg (by simp [online]), state]
  dsimp only
  rw [if_neg (by simp [unload]), if_neg free, named]

end

/-! ### An order that waits (R86, R87) -/

/-- A transport with a pending order more at the young end of its list. -/
def Transport.queued (o : Order) (x : Transport) : Transport := x.modList fun l => l ++ [.pending o]

theorem Transport.queued_freeCount (o : Order) (x : Transport) : (x.queued o).freeCount = 7 - x.orders.list.length := by
  unfold Transport.freeCount Transport.queued Config.slotCount
  rw [Transport.modList_orders, List.length_append, List.length_singleton]
  omega

theorem Transport.queued_standing (o : Order) (x : Transport) : (x.queued o).standing = 0 := by
  unfold Transport.standing Transport.queued
  rw [Transport.modList_orders, List.getLast?_concat]

/-- An order queued on a transport that is not READY starts no order. -/
theorem State.enqueue_waits (o : Order) (state : (s.tr t).sequencer.state ≠ .ready) :
    s.enqueue t o = s.upd t (Transport.queued o) :=
  State.startPending_waits fun h => state (by
    rw [State.tr_upd_same] at h
    exact h.1)

/-! ### The kinds and their arguments (R84, R176, R177) -/

/-- The two ways of writing that an argument lies in the range of its kind. -/
theorem orderKindOf_counted (n high : Nat) (k : OrderKind) :
    (if decide (1 ≤ n) && decide (n ≤ high) then some k else none) = if 1 ≤ n ∧ n ≤ high then some k else none := by
  rw [← Bool.decide_and]
  exact ite_congr decide_eq_true_eq (fun _ => rfl) fun _ => rfl

theorem orderKindOf_position (argument : BitVec 24) : orderKindOf 3 argument =
    if -32768 ≤ argument.toInt ∧ argument.toInt ≤ 8388607 then some (.seekPos argument.toInt) else none := by
  have below : argument.toInt ≤ 8388607 := by
    have := argument.toInt_lt
    omega
  show (positionOf argument).map OrderKind.seekPos = _
  unfold positionOf Config.posMin
  by_cases low : -32768 ≤ argument.toInt
  · rw [if_pos low, if_pos ⟨low, below⟩]
    rfl
  · rw [if_neg low, if_neg fun h => low h.1]
    rfl

theorem orderKindOf_unknown (h : 6 < code.toNat) : orderKindOf code argument = none := by
  unfold orderKindOf
  dsimp only
  split
  case h_8 => rfl
  all_goals omega

/-- The states in which QUEUE ORDER looks at the list (R86). -/
theorem XState.refusesOrders_open {q : XState} (h : q = .ready ∨ q = .moving ∨ ∃ p, q = .rewinding p) :
    q.refusesOrders = none := by
  obtain rfl | rfl | ⟨p, rfl⟩ := h <;> rfl

/-- Settles O38: each refusal by the first check that gives it, and what waits by `State.enqueue_waits`. -/
theorem queueOrderWaitsOrIsRefused : Obligations.QueueOrderWaitsOrIsRefused := by
  intro t tag code argument s line
  have refused : ∀ status, queueOrder t tag code argument s = refuse status s →
      exec (.queueOrder (transportByte t) tag code argument) s = .next (s.sending status []) :=
    fun status h => exec_queueOrder_of line h rfl
  refine ⟨fun online => refused _ (queueOrder_offline online), fun online => ⟨fun held => ?_, fun wrong => ?_,
    fun opens unload => ?_, fun opens unload full => ?_, fun opens unload room unknown => ?_,
    fun k moves unload room named => ?_⟩, ?_⟩
  · refine refused _ (queueOrder_state online ?_)
    obtain e | e := held <;> rw [e] <;> rfl
  · refine refused _ (queueOrder_state online ?_)
    obtain e | ⟨p, e⟩ | ⟨p, e⟩ := wrong <;> rw [e] <;> rfl
  · exact refused _ (queueOrder_unload online (XState.refusesOrders_open opens) unload)
  · exact refused _ (queueOrder_full online (XState.refusesOrders_open opens) unload full)
  · exact refused _ (queueOrder_badKind online (XState.refusesOrders_open opens) unload room unknown)
  · have state : (s.tr t).sequencer.state ≠ .ready := by
      obtain e | ⟨p, e⟩ := moves <;> rw [e] <;> nofun
    have waits := queueOrder_taken (tag := tag) online (XState.refusesOrders_open (.inr moves)) unload room named
    rw [State.enqueue_waits _ state, State.tr_upd_same, Transport.queued_freeCount, Transport.queued_standing] at waits
    exact exec_queueOrder_of line waits rfl
  · refine ⟨?_, ?_, ?_, ?_, ?_, ?_, ?_, orderKindOf_unknown⟩ <;> rintro rfl
    · exact orderKindOf_counted _ 65535 _
    · exact orderKindOf_counted _ 65535 _
    · exact orderKindOf_counted _ 65535 _
    · exact orderKindOf_position argument
    · exact orderKindOf_counted _ 4095 _
    · rfl
    · rfl

end

end Sys2Proof.Machine
end

