-- ==== Sys2Proof/Proofs/OrderSlots.lean ====
section
/-! PROOF. CANCEL PENDING, READ COMPLETIONS and SET SLOT THRESHOLD, and the bytes of a completion record. -/

namespace Sys2Proof.Machine

open Sys2Proof

/-! ### The front of a list (R107) -/

/-- The records taken from a list that holds `records` in front are those, if they are as many as can be taken, or if no
other record follows them. -/
theorem frontRecords_front {n : Nat} {records : List Record} {rest : List Slot} (few : records.length ≤ n)
    (all : records.length = n ∨ ∀ r q, rest ≠ .record r :: q) :
    frontRecords n (records.map .record ++ rest) = records := by
  induction records generalizing n with
  | nil =>
    cases n with
    | zero => rfl
    | succ n =>
      have none : ∀ r q, rest ≠ .record r :: q := all.resolve_left nofun
      cases rest with
      | nil => rfl
      | cons sl rest =>
        cases sl with
        | record r => exact absurd rfl (none r rest)
        | pending o => rfl
        | running o w => rfl
  | cons k records ih =>
    cases n with
    | zero => cases few
    | succ n => exact congrArg (k :: ·) (ih (Nat.le_of_succ_le_succ few) (all.imp_left Nat.succ.inj))

theorem drop_records (records : List Record) (rest : List Slot) :
    (records.map Slot.record ++ rest).drop records.length = rest :=
  List.drop_left' (List.length_map _)

/-! ### READ COMPLETIONS (R107, R108) -/

/-- A transport whose list has become `rest` and whose SLOTS flag is set if `rises`. -/
def Transport.readOff (rest : List Slot) (rises : Bool) (x : Transport) : Transport :=
  { x with orders := { x.orders with list := rest }, flags := { x.flags with slots := x.flags.slots || rises } }

theorem Transport.slotsReached_withList (rest : List Slot) (before : Nat) (x : Transport) :
    (x.withList rest).slotsReached before =
      x.readOff rest (decide (before < x.orders.threshold ∧ x.orders.threshold ≤ 8 - rest.length)) := by
  unfold Transport.slotsReached Transport.readOff
  by_cases rises : before < x.orders.threshold ∧ x.orders.threshold ≤ 8 - rest.length
  · rw [decide_eq_true rises, Bool.or_true]
    exact if_pos rises
  · rw [decide_eq_false rises, Bool.or_false]
    exact if_neg rises

section
variable {t : TNum} {s : State}

/-- READ COMPLETIONS on a list with `records` in front. -/
theorem readCompletions_front {records : List Record} {rest : List Slot}
    (list : (s.tr t).orders.list = records.map .record ++ rest) (few : records.length ≤ 4)
    (all : records.length = 4 ∨ ∀ r q, rest ≠ .record r :: q) :
    let read := s.upd t (Transport.readOff rest (decide (8 - (s.tr t).orders.list.length < (s.tr t).orders.threshold ∧
      (s.tr t).orders.threshold ≤ 8 - rest.length)))
    readCompletions t s = answer ([byte (8 - rest.length),
      byte (bitAt 0 (read.tr t).doneFlag + bitAt 1 (recordsBehind rest))] ++ records.flatMap Record.bytes) read := by
  intro read
  have front : frontRecords Config.listMax (s.tr t).orders.list = records := by
    rw [list]
    exact frontRecords_front few all
  have taken : (s.upd t fun y =>
      Transport.slotsReached (s.tr t).freeCount (y.modList fun l => l.drop records.length)) = read := by
    refine State.upd_congr ((congrArg (Transport.slotsReached (s.tr t).freeCount) ?_).trans
      (Transport.slotsReached_withList rest (s.tr t).freeCount (s.tr t)))
    exact congrArg (fun l => (s.tr t).withList l) ((congrArg (List.drop records.length) list).trans (drop_records _ _))
  have left : (read.tr t).orders.list = rest := congrArg (fun x => x.orders.list) (State.tr_upd_same t _ s)
  have free : (read.tr t).freeCount = 8 - rest.length := congrArg (fun l => 8 - l.length) left
  unfold readCompletions
  dsimp only
  rw [front, taken, free, left]

/-- DONE, as bit 0 of the answer, after READ COMPLETIONS (R108). -/
theorem State.readOff_doneFlag (rest : List Slot) (rises : Bool) :
    bitAt 0 ((s.upd t (Transport.readOff rest rises)).tr t).doneFlag = match rest with
      | .record _ :: _ => 1
      | _ => 0 := by
  rw [State.tr_upd_same]
  unfold Transport.doneFlag Transport.readOff
  cases rest with
  | nil => rfl
  | cons sl rest => cases sl <;> rfl

/-! ### CANCEL PENDING (R103) -/

/-- The mark number of a discarded order. -/
theorem recordMark_discarded (k : OrderKind) : recordMark k .discarded none = match k with
    | .seekMark m => some m
    | _ => none := by
  cases k <;> rfl

/-! ### The answers -/

/-- Settles O40: a discard changes each slot by itself, and READ COMPLETIONS takes what `frontRecords_front` says. -/
theorem slotsAreCancelledReadAndWatched : Obligations.SlotsAreCancelledReadAndWatched := by
  refine ⟨fun r => ?_, fun t s line => ⟨?_, fun records rest list few all => ?_, fun threshold =>
    ⟨fun low => ?_, fun high => ?_⟩⟩⟩
  · refine congrArg₂ (· ++ ·) (congrArg₂ (· ++ ·) (congrArg (· ++ two r.count) ?_) ?_) ?_
    · refine List.cons_eq_cons.mpr ⟨rfl, List.cons_eq_cons.mpr ⟨?_, List.cons_eq_cons.mpr ⟨?_, rfl⟩⟩⟩
      · cases r.kind <;> rfl
      · cases r.status <;> rfl
    · cases r.finalPos <;> rfl
    · cases r.markNumber <;> rfl
  · refine (exec_ready (.cancelPending (transportByte t)) s _ ⟨.done, _⟩ line (onTransport_byte t _ s) rfl).trans ?_
    refine congrArg (fun q => Host.Outcome.next (State.sending .done _ q)) (State.upd_congr ?_)
    refine congrArg (fun l => (s.tr t).withList l) (List.map_congr_left fun sl _ => ?_)
    cases sl with
    | pending o => exact congrArg (fun m => Slot.record { o.discarded with markNumber := m }) (recordMark_discarded o.kind)
    | running o w => rfl
    | record r => rfl
  · refine (exec_ready (.readCompletions (transportByte t)) s _ ⟨.done, _⟩ line
      ((onTransport_byte t _ s).trans (readCompletions_front list few all)) rfl).trans ?_
    exact congrArg (fun b => Host.Outcome.next (State.sending .done ([byte (8 - rest.length),
      byte (b + bitAt 1 (recordsBehind rest))] ++ records.flatMap Record.bytes) _)) (State.readOff_doneFlag rest _)
  · exact exec_ready (.setSlotThreshold (transportByte t) threshold) s _ ⟨.done, []⟩ line
      ((onTransport_byte t _ s).trans (if_neg (Nat.not_lt.mpr low))) rfl
  · exact exec_ready (.setSlotThreshold (transportByte t) threshold) s s ⟨.badParameter, []⟩ line
      ((onTransport_byte t _ s).trans (if_pos high)) rfl

end

end Sys2Proof.Machine
end

