-- ==== Sys2Proof/Proofs/Halts.lean ====
section
/-! PROOF. HALT by what the running order is doing, and the distance limits that stop a SPACE. -/

namespace Sys2Proof.Machine

open Sys2Proof

/-! ### The discard (R103) -/

/-- A slot after a discard. -/
def Slot.discarded : Slot → Slot
  | .pending o => .record o.discarded
  | other => other

theorem Transport.discard_list (x : Transport) : x.discard.orders.list = x.orders.list.map Slot.discarded :=
  List.map_congr_left fun sl _ => by cases sl <;> rfl

theorem Slot.discarded_isPending (sl : Slot) : sl.discarded.isPending = false := by
  cases sl <;> rfl

theorem runningIn_discarded (l : List Slot) : runningIn (l.map Slot.discarded) = runningIn l := by
  induction l with
  | nil => rfl
  | cons a l ih =>
    cases a with
    | pending o => exact ih
    | running o w => rfl
    | record r => exact ih

@[simp] theorem Transport.discard_running (x : Transport) : x.discard.running = x.running := by
  unfold Transport.running
  rw [Transport.discard_list]
  exact runningIn_discarded _

/-- A change of the running order makes no order pending. -/
theorem replaceRunning_noPending (g : Order → Work → Work) {l : List Slot} (h : ∀ sl ∈ l, sl.isPending = false) :
    ∀ sl ∈ replaceRunning (fun o w => .running o (g o w)) l, sl.isPending = false := by
  induction l with
  | nil => exact h
  | cons a l ih =>
    obtain ⟨first, rest⟩ := List.forall_mem_cons.mp h
    cases a with
    | pending o => cases first
    | running o w => exact List.forall_mem_cons.mpr ⟨rfl, rest⟩
    | record r => exact List.forall_mem_cons.mpr ⟨rfl, ih rest⟩

section
variable {t : TNum} {s : State} {o : Order} {w : Work}

/-! ### The halt of the running order, by its phase (R101, R102, R118) -/

theorem Transport.releasing_iff (x : Transport) :
    x.releasing = true ↔ x.running.isSome = true ∧ x.sequencer.state = .unloading .release := by
  simp [Transport.releasing]

theorem Transport.not_releasing_of_state {x : Transport} (h : x.sequencer.state ≠ .unloading .release) :
    x.releasing = false := by
  simp [Transport.releasing, h]

theorem State.haltOrders_idle (run : (s.tr t).running = none) : s.haltOrders t = s := by
  unfold State.haltOrders
  rw [run]
  rfl

section
variable (run : (s.tr t).running = some (o, w)) (reached : (s.tr t).releasing = false)
include run reached

/-- An order whose stop, approach or halt search goes on as it was. -/
theorem State.haltRunning_goesOn (phase : w.phase ∈ [OrderPhase.stopping, .approach, .haltSearch]) :
    s.haltRunning t = s.markHalted t := by
  unfold State.haltRunning
  rw [run]
  dsimp only
  rw [if_neg (by simp [reached])]
  simp only [List.mem_cons, List.not_mem_nil, or_false] at phase
  obtain e | e | e := phase <;> rw [e]

/-- A SPACE goes on to the next gap. -/
theorem State.haltRunning_space (phase : w.phase ∈ [OrderPhase.fast, .readLeg, .search]) (space : o.kind.isSpace = true) :
    s.haltRunning t =
      s.upd t fun x => x.modWork fun _ k => { k with phase := .haltSearch, halted := true, haltTravel := 0 } := by
  unfold State.haltRunning
  rw [run]
  dsimp only
  rw [if_neg (by simp [reached])]
  simp only [List.mem_cons, List.not_mem_nil, or_false] at phase
  obtain e | e | e := phase <;> rw [e] <;> exact if_pos space

/-- Any other order with no stop under way begins its stop. -/
theorem State.haltRunning_stops (phase : w.phase ∈ [OrderPhase.fast, .readLeg, .search]) (space : o.kind.isSpace = false) :
    s.haltRunning t = (s.markHalted t).stopOrder t .halted none := by
  unfold State.haltRunning
  rw [run]
  dsimp only
  rw [if_neg (by simp [reached])]
  simp only [List.mem_cons, List.not_mem_nil, or_false] at phase
  obtain e | e | e := phase <;> rw [e] <;> exact if_neg (by simp [space])

/-- A REWIND or an UNLOAD is ended by the Sequencer. -/
theorem State.haltRunning_sequence (phase : w.phase = .sequence) : s.haltRunning t = (s.markHalted t).endRewind t := by
  unfold State.haltRunning
  rw [run]
  dsimp only
  rw [if_neg (by simp [reached]), phase]

end

/-! ### The ending of a rewind with its capstan driven (R118) -/

/-- A transport whose rewind has been ended, its capstan driven. -/
def Transport.endsRewind (now : Nat) (x : Transport) : Transport :=
  let marked := x.modSeq fun q => { q with ending := true }
  if x.sequencer.state.rewindPhase? = some .fast ∧ x.sequencer.lpStop = false ∧ x.sequencer.ending = false then
    marked.stopDriven now .sequencer
  else marked

theorem State.endRewind_none (h : (s.tr t).sequencer.state.rewindPhase? = none) : s.endRewind t = s := by
  unfold State.endRewind
  dsimp only
  rw [h]

theorem State.endRewind_driven (phase : (s.tr t).sequencer.state.rewindPhase?.isSome = true)
    (driven : (s.tr t).cap.seg.driven = true) : s.endRewind t = s.upd t (Transport.endsRewind s.clock) := by
  have stop : (s.upd t fun x => x.modSeq fun q => { q with ending := true }).stop t .sequencer =
      s.upd t fun x => (x.modSeq fun q => { q with ending := true }).stopDriven s.clock .sequencer := by
    rw [State.stop_driven _ (by rw [State.tr_upd_same]; exact driven), State.upd_upd]
    rfl
  obtain ⟨p, named⟩ := Option.isSome_iff_exists.mp phase
  have later : p ≠ .fast → s.upd t (fun x => x.modSeq fun q => { q with ending := true }) =
      s.upd t (Transport.endsRewind s.clock) :=
    fun e => State.upd_congr (if_neg fun h => e (Option.some.inj (named.symm.trans h.1))).symm
  unfold State.endRewind
  dsimp only
  rw [named]
  cases p with
  | fast =>
    dsimp only
    rw [stop]
    by_cases begun : (s.tr t).sequencer.lpStop = false ∧ (s.tr t).sequencer.ending = false
    · rw [if_neg (by simp [begun])]
      exact State.upd_congr (if_pos ⟨named, begun⟩).symm
    · rw [if_pos (by rwa [← Bool.not_eq_false, Bool.or_eq_false_iff])]
      exact State.upd_congr (if_neg fun h => begun h.2).symm
  | approach => exact later nofun
  | settle => exact later nofun

theorem Transport.endsRewind_rewindEnded (now : Nat) (x : Transport) : x.rewindEnded (x.endsRewind now) := by
  unfold Transport.rewindEnded Transport.endsRewind
  dsimp only
  split
  · exact ⟨rfl, rfl, rfl, rfl, rfl, rfl, rfl, Segment.stopsFor_rampDown _ _ _⟩
  · exact ⟨rfl, rfl, rfl, rfl, rfl, rfl, rfl, rfl⟩

theorem Transport.endsRewind_orders (now : Nat) (x : Transport) : (x.endsRewind now).orders = x.orders := by
  unfold Transport.endsRewind
  dsimp only
  split <;> rfl

/-! ### HALT (R101) -/

/-- What a halt that reaches a running order does whatever that order is doing. -/
structure State.HaltKeeps (t : TNum) (s r : State) : Prop where
  outside : s.sameOutside t r
  slots : (r.tr t).orders.list.length = (s.tr t).orders.list.length
  discarded : ∀ sl ∈ (r.tr t).orders.list, sl.isPending = false
  counter : (r.tr t).cap.counter = (s.tr t).cap.counter

/-- A change of the running order's working values, and of anything else but the counter, after the discard. -/
theorem State.HaltKeeps.of_upd {f : Transport → Transport} (g : Order → Work → Work)
    (orders : (f (s.tr t).discard).orders = ((s.tr t).discard.modWork g).orders)
    (counter : (f (s.tr t).discard).cap.counter = (s.tr t).cap.counter) :
    s.HaltKeeps t ((s.upd t Transport.discard).upd t f) := by
  have list : (f (s.tr t).discard).orders.list =
      replaceRunning (fun o w => .running o (g o w)) ((s.tr t).orders.list.map Slot.discarded) := by
    rw [orders, ← Transport.discard_list]
    rfl
  rw [State.upd_upd]
  refine ⟨State.sameOutside_upd _ _ _, ?_, ?_, ?_⟩ <;> rw [State.tr_upd_same]
  · rw [list, replaceRunning_length, List.length_map]
  · rw [list]
    exact replaceRunning_noPending g (List.forall_mem_map.mpr fun sl _ => sl.discarded_isPending)
  · exact counter

/-- The running order with its working values changed, after the discard. -/
theorem Transport.discard_modWork_running {x : Transport} (run : x.running = some (o, w)) (g : Order → Work → Work) :
    (x.discard.modWork g).running = some (o, g o w) := by
  rw [Transport.modWork_running, Transport.discard_running, run]
  rfl

theorem Transport.stopped_orders (now : Nat) (c : Completion) (b : Option Nat) (x : Transport) :
    (x.stopped now c b).orders =
      (x.modWork fun _ w => { w with phase := .stopping, reason := some c, barrier := b }).orders := rfl

/-- A transport with its running order marked as halted. -/
def Transport.halted (x : Transport) : Transport := x.modWork fun _ w => { w with halted := true }

section
variable (run : (s.tr t).running = some (o, w)) (reached : (s.tr t).releasing = false)
include run

theorem State.haltOrders_discard : s.haltOrders t = (s.upd t Transport.discard).haltRunning t :=
  if_pos (Option.isSome_iff_exists.mpr ⟨_, run⟩)

theorem State.discarded_running : ((s.upd t Transport.discard).tr t).running = some (o, w) := by
  rw [State.tr_upd_same, Transport.discard_running, run]

include reached

omit run in
theorem State.discarded_reached : ((s.upd t Transport.discard).tr t).releasing = false := by
  rw [State.tr_upd_same]
  unfold Transport.releasing at reached ⊢
  rw [Transport.discard_running]
  exact reached

theorem State.haltOrders_goesOn (phase : w.phase ∈ [OrderPhase.stopping, .approach, .haltSearch]) :
    s.haltOrders t = (s.upd t Transport.discard).upd t Transport.halted := by
  rw [State.haltOrders_discard run,
    State.haltRunning_goesOn (State.discarded_running run) (State.discarded_reached reached) phase]
  rfl

theorem State.haltOrders_space (phase : w.phase ∈ [OrderPhase.fast, .readLeg, .search]) (space : o.kind.isSpace = true) :
    s.haltOrders t = (s.upd t Transport.discard).upd t
      fun x => x.modWork fun _ k => { k with phase := .haltSearch, halted := true, haltTravel := 0 } := by
  rw [State.haltOrders_discard run,
    State.haltRunning_space (State.discarded_running run) (State.discarded_reached reached) phase space]

theorem State.haltOrders_stops (phase : w.phase ∈ [OrderPhase.fast, .readLeg, .search]) (space : o.kind.isSpace = false)
    (driven : (s.tr t).cap.seg.driven = true) :
    s.haltOrders t = (s.upd t Transport.discard).upd t fun x => x.halted.stopped s.clock .halted none := by
  rw [State.haltOrders_discard run,
    State.haltRunning_stops (State.discarded_running run) (State.discarded_reached reached) phase space,
    State.stopOrder_driven _ _ (by rw [State.markHalted, State.tr_upd_same, State.tr_upd_same]; exact driven),
    State.markHalted, State.upd_upd]
  rfl

theorem State.haltOrders_sequence (phase : w.phase = .sequence) (driven : (s.tr t).cap.seg.driven = true) :
    s.haltOrders t = (s.upd t Transport.discard).upd t fun x =>
      if (s.tr t).sequencer.state.rewindPhase?.isSome = true then x.halted.endsRewind s.clock else x.halted := by
  have marked : (((s.upd t Transport.discard).markHalted t).tr t) = (s.tr t).discard.halted := by
    rw [State.markHalted, State.tr_upd_same, State.tr_upd_same]
    rfl
  rw [State.haltOrders_discard run,
    State.haltRunning_sequence (State.discarded_running run) (State.discarded_reached reached) phase]
  by_cases rewinds : (s.tr t).sequencer.state.rewindPhase?.isSome = true
  · rw [State.endRewind_driven (by rw [marked]; exact rewinds) (by rw [marked]; exact driven), State.markHalted,
      State.upd_upd]
    simp only [if_pos rewinds]
    rfl
  · have idle : (s.tr t).sequencer.state.rewindPhase? = none := by simpa using rewinds
    rw [State.endRewind_none (by rw [marked]; exact idle)]
    simp only [if_neg rewinds]
    rfl

theorem State.haltOrders_keeps (driven : (s.tr t).cap.seg.driven = true) : s.HaltKeeps t (s.haltOrders t) := by
  by_cases sequence : w.phase = .sequence
  · rw [State.haltOrders_sequence run reached sequence driven]
    refine .of_upd (fun _ w => { w with halted := true }) ?_ ?_ <;> split
    · exact Transport.endsRewind_orders _ _
    · rfl
    · exact (Transport.endsRewind_rewindEnded _ _).2.1
    · rfl
  by_cases phase : w.phase ∈ [OrderPhase.fast, .readLeg, .search]
  · cases space : o.kind.isSpace with
    | true =>
      rw [State.haltOrders_space run reached phase space]
      exact .of_upd _ rfl rfl
    | false =>
      rw [State.haltOrders_stops run reached phase space driven]
      refine .of_upd (fun _ w =>
        { w with halted := true, phase := .stopping, reason := some .halted, barrier := none }) ?_ rfl
      rw [Transport.stopped_orders, Transport.halted, Transport.modWork_modWork]
  · rw [State.haltOrders_goesOn run reached (by cases e : w.phase <;> simp_all)]
    exact .of_upd _ rfl rfl

end

theorem exec_halt_done (line : s.lineReady) (reached : (s.tr t).releasing = false) :
    exec (.halt (transportByte t)) s = .next ((s.haltOrders t).sending .done []) :=
  exec_ready (.halt (transportByte t)) s (s.haltOrders t) ⟨.done, []⟩ line
    ((onTransport_byte t _ s).trans (if_neg (by simp [reached])))
    (congrArg Line.receiver (State.Kept.refl t s).haltOrders.line)

theorem exec_halt_releasing (line : s.lineReady) (releasing : (s.tr t).releasing = true) :
    exec (.halt (transportByte t)) s = .next (s.sending .wrongState []) :=
  exec_ready (.halt (transportByte t)) s s ⟨.wrongState, []⟩ line ((onTransport_byte t _ s).trans (if_pos releasing)) rfl

/-- Settles O39: by the phase of the running order, a halt changes its working values, begins a stop or ends the rewind. -/
theorem haltReachesTheRunningOrder : Obligations.HaltReachesTheRunningOrder := by
  intro t s line
  refine ⟨fun idle => ?_, fun run state => exec_halt_releasing line ((Transport.releasing_iff _).mpr ⟨run, state⟩),
    fun o w run state driven => ?_⟩
  · have done := exec_halt_done (t := t) line (by simp [Transport.releasing, idle])
    rwa [State.haltOrders_idle idle] at done
  have reached := Transport.not_releasing_of_state state
  have keeps := State.haltOrders_keeps run reached driven
  refine ⟨s.haltOrders t, exec_halt_done line reached, keeps.outside, keeps.slots, keeps.discarded, keeps.counter,
    fun phase => ⟨fun kind => ?_, fun n kind => ?_⟩, fun phase => ?_, fun phase rewinds => ?_⟩
  · have space : o.kind.isSpace = false := by
      obtain ⟨_, e⟩ | ⟨_, e⟩ | ⟨_, e⟩ := kind <;> rw [e] <;> rfl
    rw [State.haltOrders_stops run reached phase space driven, State.upd_upd, State.tr_upd_same]
    exact ⟨Segment.stopsFor_rampDown _ _ _, Transport.stopped_running (Transport.discard_modWork_running run _)⟩
  · have space : o.kind.isSpace = true := by
      obtain e | e := kind <;> rw [e] <;> rfl
    rw [State.haltOrders_space run reached phase space, State.upd_upd, State.tr_upd_same]
    exact ⟨rfl, Transport.discard_modWork_running run _⟩
  · rw [State.haltOrders_goesOn run reached phase, State.upd_upd, State.tr_upd_same]
    exact ⟨rfl, Transport.discard_modWork_running run _⟩
  · rw [State.haltOrders_sequence run reached phase driven, State.upd_upd, State.tr_upd_same]
    simp only [if_pos rewinds]
    refine ⟨Transport.endsRewind_rewindEnded _ (s.tr t).discard.halted, ?_⟩
    unfold Transport.running
    rw [Transport.endsRewind_orders]
    exact Transport.discard_modWork_running run _

/-! ### The distance limits of a SPACE (R92, R94, R101) -/

theorem OrderKind.isSpace_iff (k : OrderKind) : k.isSpace = true ↔ ∃ n, k = .spaceF n ∨ k = .spaceR n := by
  cases k <;> simp [OrderKind.isSpace]

theorem OrderPhase.underWay_iff (p : OrderPhase) :
    p.underWay = true ↔ p ∈ [OrderPhase.fast, .readLeg, .search, .haltSearch] := by
  cases p <;> simp [OrderPhase.underWay]

theorem State.blankStop_under (run : (s.tr t).running = some (o, w)) (space : o.kind.isSpace = true)
    (under : w.phase.underWay = true) : s.blankStop t = s.stopOrder t .blank none := by
  unfold State.blankStop
  rw [run]
  exact if_pos (by rw [space, under]; rfl)

theorem State.blankStop_else
    (h : ∀ o w, (s.tr t).running = some (o, w) → ¬(o.kind.isSpace = true ∧ w.phase.underWay = true)) :
    s.blankStop t = s := by
  unfold State.blankStop
  cases run : (s.tr t).running with
  | none => rfl
  | some p => exact if_neg (by simpa using h p.1 p.2 run)

theorem State.haltSearchEnd_searching (run : (s.tr t).running = some (o, w)) (phase : w.phase = .haltSearch) :
    s.haltSearchEnd t = s.stopOrder t .halted none := by
  unfold State.haltSearchEnd
  rw [run]
  exact if_pos phase

theorem State.haltSearchEnd_else (h : ∀ o w, (s.tr t).running = some (o, w) → w.phase ≠ .haltSearch) :
    s.haltSearchEnd t = s := by
  unfold State.haltSearchEnd
  cases run : (s.tr t).running with
  | none => rfl
  | some p => exact if_neg (h p.1 p.2 run)

/-- The stop of the running order of a driven transport, and what it leaves alone. -/
theorem State.stopOrder_stopsOrder (c : Completion) (b : Option Nat) (run : (s.tr t).running = some (o, w))
    (driven : (s.tr t).cap.seg.driven = true) :
    s.sameOutside t (s.stopOrder t c b) ∧ (s.tr t).stopsOrder o w c b ((s.stopOrder t c b).tr t) := by
  rw [State.stopOrder_driven _ _ driven]
  refine ⟨State.sameOutside_upd _ _ _, ?_⟩
  rw [State.tr_upd_same]
  exact ⟨Segment.stopsFor_rampDown _ _ _, Transport.stopped_running run⟩

/-- Settles O41: both limits ask for the stop of the running order, and neither looks at a distance. -/
theorem distanceLimitsStopSpaces : Obligations.DistanceLimitsStopSpaces := by
  intro t s
  refine ⟨fun o n w kind run cond => ⟨fun under => ?_, fun phase => ?_⟩, fun idle => ?_, fun idle => ?_⟩
  · refine ⟨s.stopOrder t .blank none, congrArg Host.Outcome.next (State.blankStop_under run ?_ ?_),
      State.stopOrder_stopsOrder _ _ run (Segment.driven_running cond)⟩
    · exact (OrderKind.isSpace_iff _).mpr ⟨n, kind⟩
    · exact (OrderPhase.underWay_iff _).mpr under
  · exact ⟨s.stopOrder t .halted none, congrArg Host.Outcome.next (State.haltSearchEnd_searching run phase),
      State.stopOrder_stopsOrder _ _ run (Segment.driven_running cond)⟩
  · refine congrArg Host.Outcome.next (State.blankStop_else fun o w run h => idle o w run ?_)
    exact ⟨(OrderPhase.underWay_iff _).mp h.2, (OrderKind.isSpace_iff _).mp h.1⟩
  · exact congrArg Host.Outcome.next (State.haltSearchEnd_else idle)

end

end Sys2Proof.Machine
end

