-- ==== Sys2Proof/Proofs/OnlinePress.lean ====
section
/-! PROOF. The ONLINE press, the flash and the lamps. -/

namespace Sys2Proof.Machine

open Sys2Proof

section
variable {t : TNum} {s : State}

/-! ### The press (R104, R121) -/

/-- A transport whose online flag the panel has set to `b`, with the STATE notice (R121). -/
def Transport.turned (b : Bool) (x : Transport) : Transport :=
  { x with sequencer := { x.sequencer with online := b }, flags := { x.flags with state := true } }

/-- A transport that has left the line, its orders not yet halted (R121). -/
def Transport.offline (x : Transport) : Transport := { x with sequencer := { x.sequencer with online := false } }

theorem State.onlinePress_leaves (online : (s.tr t).sequencer.online = true) :
    s.onlinePress t = ((s.upd t Transport.offline).haltOrders t).upd t Transport.noteState := if_pos online

theorem State.onlinePress_idle (online : (s.tr t).sequencer.online = true) (idle : (s.tr t).running = none) :
    s.onlinePress t = s.upd t (Transport.turned false) := by
  rw [State.onlinePress_leaves online, State.haltOrders_idle (by rw [State.tr_upd_same]; exact idle), State.upd_upd]
  rfl

theorem XState.mayGoOnline_iff (q : XState) : q.mayGoOnline = true ↔ q = .ready ∨ q = .unloaded := by
  cases q <;> simp [XState.mayGoOnline]

theorem State.onlinePress_offline (online : (s.tr t).sequencer.online = false) :
    s.onlinePress t = if (s.tr t).sequencer.state = .ready ∨ (s.tr t).sequencer.state = .unloaded then
      s.upd t (Transport.turned true) else s := by
  unfold State.onlinePress
  dsimp only
  rw [if_neg (by simp [online])]
  exact ite_congr (propext (XState.mayGoOnline_iff _)) (fun _ => rfl) fun _ => rfl

end

/-! ### The flash and the lamps (R122, R145) -/

/-- Settles O47: going offline is the halt of the same transport with its online flag clear. -/
theorem onlinePressAndTheFlash : Obligations.OnlinePressAndTheFlash := by
  refine ⟨fun t s => ⟨fun online idle => ?_, fun online run reached line => ?_, fun online => ?_, rfl⟩, fun x => ?_⟩
  · exact congrArg Host.Outcome.next (State.onlinePress_idle online idle)
  · refine ⟨(s.upd t Transport.offline).haltOrders t, ?_, congrArg Host.Outcome.next (State.onlinePress_leaves online)⟩
    refine exec_halt_done (s := s.upd t Transport.offline) line ?_
    rw [State.tr_upd_same]
    exact reached
  · exact congrArg Host.Outcome.next (State.onlinePress_offline online)
  · refine ⟨?_, rfl, rfl, rfl, fun flash => ⟨rfl, rfl, rfl⟩⟩
    unfold Transport.readyLamp
    cases x.sequencer.state <;> rfl

end Sys2Proof.Machine
end

