-- ==== Sys2Proof/Proofs/PowerOn.lean ====
section
/-! PROOF. What power-on makes of each transport, by its pins. -/

namespace Sys2Proof.Machine

open Sys2Proof

/-- Tape stands in a column of a transport with a reel (R110). -/
theorem XPins.tapeStands_iff (p : XPins) :
    XPins.tapeStands p = true ↔ p.reelPresent = true ∧ (p.supplyDepth.toNat < 244 ∨ p.takeupDepth.toNat < 244) := by
  unfold XPins.tapeStands
  rw [Bool.and_eq_true, Bool.or_eq_true, decide_eq_true_iff, decide_eq_true_iff]
  rfl

theorem State.powerOn_tr (pins : PowerPins) (s : State) (t : TNum) : (s.powerOn pins).tr t = transportAt (pins.x.get t) := by
  cases t <;> rfl

/-- A transport with tape in a column starts HELD with cause POWER ON (R110, R155). -/
theorem transportAt_held {p : XPins} (h : XPins.tapeStands p = true) :
    (transportAt p).sequencer.state = .held ∧ (transportAt p).sequencer.valveOpen = true ∧
      (transportAt p).prot.hold =
        { active := true, primary := some .powerOn, position := some 0, state := none, further := [], failed := false } := by
  unfold transportAt
  rw [h]
  exact ⟨rfl, rfl, rfl⟩

theorem transportAt_unloaded {p : XPins} (h : XPins.tapeStands p = false) :
    (transportAt p).sequencer.state = .unloaded ∧ (transportAt p).sequencer.valveOpen = false ∧
      (transportAt p).prot.hold.active = false := by
  unfold transportAt
  rw [h]
  exact ⟨rfl, rfl, rfl⟩

/-- Settles O3: the tape in the columns decides the state alone, and the rest of a transport is that of its pins. -/
theorem powerOnStartsEachTransport : Obligations.PowerOnStartsEachTransport := by
  intro pins s
  refine ⟨s.powerOn pins, rfl, rfl, rfl, rfl, rfl, fun i => ⟨State.reset_volumes i, State.reset_marks i⟩, rfl,
    fun t => ?_⟩
  rw [State.powerOn_tr]
  refine ⟨fun held => transportAt_held ((XPins.tapeStands_iff _).mpr held), fun bare => transportAt_unloaded ?_,
    rfl, rfl, rfl, rfl, rfl, rfl, rfl, rfl, rfl, rfl⟩
  exact Bool.eq_false_iff.mpr fun h => bare ((XPins.tapeStands_iff _).mp h)

end Sys2Proof.Machine
end

