-- ==== Sys2Proof/Proofs/CurrentLimits.lean ====
section
/-! PROOF. Current limiting: the three current reports, with the drive enable on and off, and the tachometer pulses. -/

namespace Sys2Proof.Machine

open Sys2Proof

theorem overLevel_iff (level current : Nat) : overLevel level current = true ↔ level ≤ current ∧ 0 < current := by
  simp [overLevel]

section
variable {now level current : Nat} {mode : ResumeMode} {d : ReelDrive}

/-- An over-current event is taken by an output that is not forced (R139). -/
theorem ReelDrive.overCurrent_eq : d.overCurrent now level current =
    if d.limiting = false ∧ level ≤ current ∧ 0 < current then { d with current := current }.force now
    else { d with current := current } := by
  refine ite_congr (propext ?_) (fun _ => rfl) fun _ => rfl
  rw [Bool.and_eq_true, overLevel_iff, Bool.not_eq_true']

/-- An output resumes unless the current forces it again (R139). -/
theorem ReelDrive.resume_eq : d.resume now level =
    if level ≤ d.current ∧ 0 < d.current then d.force now else { d with output := d.commanded, limiting := false } :=
  ite_congr (propext (overLevel_iff _ _)) (fun _ => rfl) fun _ => rfl

theorem ReelDrive.periodStart_eq : d.periodStart now level current mode =
    let begun := { d with
      current := current, overThisPeriod := false, stall := if d.overThisPeriod then d.stall else none }
    if d.limiting = true ∧ mode = .atPeriod then begun.resume now level else begun := by
  refine ite_congr (propext ?_) (fun _ => rfl) fun _ => rfl
  rw [Bool.and_eq_true, beq_iff_eq]

theorem ReelDrive.holdOff_eq : d.holdOff now level current mode =
    if d.limiting = true ∧ mode = .afterHoldOff then { d with current := current }.resume now level
    else { d with current := current } := by
  refine ite_congr (propext ?_) (fun _ => rfl) fun _ => rfl
  rw [Bool.and_eq_true, beq_iff_eq]

end

/-- A change of one reel is told by what it makes of that reel. -/
theorem Transport.modReel_const {e : Reel} {f : ReelDrive → ReelDrive} {x : Transport} {d : ReelDrive}
    (h : f (x.reel e) = d) :
    x.modReel e f = x.modReel e fun _ => d := by
  cases e <;> exact h ▸ rfl

theorem Transport.whileEnabled_on {e : Reel} {c : Nat} {f : ReelDrive → ReelDrive} {x : Transport}
    (on : x.prot.driveEnable = true) : x.whileEnabled e c f = x.modReel e fun _ => f (x.reel e) :=
  (if_pos on).trans (Transport.modReel_const rfl)

theorem Transport.whileEnabled_off {e : Reel} {c : Nat} {f : ReelDrive → ReelDrive} {x : Transport}
    (off : x.prot.driveEnable = false) : x.whileEnabled e c f = x.modReel e fun _ => { x.reel e with current := c } :=
  (if_neg (by simp [off])).trans (Transport.modReel_const rfl)

/-- Settles O50: with the drive enable on each report does what its equation on the Reel Drive says. -/
theorem currentLimitingForcesAndResumes : Obligations.CurrentLimitingForcesAndResumes := by
  intro t e current s x d level put atLevel seen begun forced resumed
  have resumes : ∀ k : ReelDrive, k.current = current.toNat → k.resume s.clock level = resumed k := fun k h =>
    ReelDrive.resume_eq.trans (ite_congr (by rw [h]) (fun _ => rfl) fun _ => rfl)
  refine ⟨fun on => ⟨?_, ?_, ?_⟩, fun off => ⟨?_, ?_, ?_⟩, rfl, rfl⟩
  · refine congrArg Host.Outcome.next (State.upd_congr ((Transport.whileEnabled_on on).trans ?_))
    rw [ReelDrive.overCurrent_eq]
    rfl
  · refine congrArg Host.Outcome.next (State.upd_congr ((Transport.whileEnabled_on on).trans ?_))
    rw [ReelDrive.periodStart_eq, ← resumes begun rfl]
  · refine congrArg Host.Outcome.next (State.upd_congr ((Transport.whileEnabled_on on).trans ?_))
    rw [ReelDrive.holdOff_eq, ← resumes seen rfl]
  all_goals exact congrArg Host.Outcome.next (State.upd_congr (Transport.whileEnabled_off off))

end Sys2Proof.Machine
end

