-- ==== Sys2Proof/Proofs/TransportReports.lean ====
section
/-! PROOF. The transport status, the hold record and the loop report byte for byte, and RELEASE TRANSPORT. -/

namespace Sys2Proof.Machine

open Sys2Proof

/-! ### Cause sets (R176) -/

/-- A two-byte value, most significant byte first. -/
theorem two_eq (n : Nat) : two n = [byte (n / 256), byte n] := by
  have high : (BitVec.ofNat 16 n).extractLsb' 8 8 = byte (n / 256) := by
    refine BitVec.eq_of_toNat_eq ?_
    simp only [byte, BitVec.extractLsb'_toNat, BitVec.toNat_ofNat, Nat.shiftRight_eq_div_pow]
    omega
  have low : (BitVec.ofNat 16 n).extractLsb' 0 8 = byte n := by
    refine BitVec.eq_of_toNat_eq ?_
    simp only [byte, BitVec.extractLsb'_toNat, BitVec.toNat_ofNat, Nat.shiftRight_eq_div_pow]
    omega
  unfold two bytes16
  rw [high, low]

/-- The two bytes of a cause set: the second holds the eight causes of the loops, the reels and the capstan. -/
def causeBytes (has : Cause → Bool) : List Byte :=
  [byteOfBits [has .doorOpen, has .powerOn, has .recoveryTimeout],
    byteOfBits [has .supplyLoopShort, has .supplyLoopLong, has .takeupLoopShort, has .takeupLoopLong, has .vacuumLoss,
      has .supplyStall, has .takeupStall, has .capstanTachLoss]]

theorem byte_congr {m n : Nat} (h : m % 256 = n % 256) : byte m = byte n := BitVec.eq_of_toNat_eq (by simpa [byte] using h)

theorem bitAt_eq (k : Nat) (b : Bool) : bitAt k b = 2 ^ k * b.toNat := by
  cases b <;> simp [bitAt]

theorem causeSet_eq (l : List Cause) : causeSet l = causeBytes l.contains := by
  have bit : ∀ b : Bool, (if b = true then 1 else 0) = b.toNat := fun b => by cases b <;> rfl
  have le : ∀ c : Cause, (l.contains c).toNat ≤ 1 := fun c => Bool.toNat_le _
  unfold causeSet
  rw [two_eq]
  simp only [Cause.all, List.map_cons, List.map_nil, List.sum_cons, List.sum_nil, bitAt_eq, Cause.code]
  unfold causeBytes
  refine congrArg₂ (fun a b : Byte => [a, b]) (byte_congr ?_) (byte_congr ?_) <;>
    simp only [List.foldr_cons, List.foldr_nil, bit]
  all_goals
    have := le .supplyLoopShort
    have := le .supplyLoopLong
    have := le .takeupLoopShort
    have := le .takeupLoopLong
    have := le .vacuumLoss
    have := le .supplyStall
    have := le .takeupStall
    have := le .capstanTachLoss
    have := le .doorOpen
    have := le .powerOn
    have := le .recoveryTimeout
    omega

theorem Cause.mem_all (c : Cause) : c ∈ Cause.all := by
  cases c <;> decide

theorem Transport.armed_contains (x : Transport) : x.armed.contains = x.isArmed := by
  funext c
  rw [Bool.eq_iff_iff, List.contains_iff_mem]
  simp [Transport.armed, Cause.mem_all]

/-! ### The reports (R128, R143, R157, R179) -/

/-- The two bytes of a recovery timer (R157). -/
def timerBytes (now : Nat) (since : Option Nat) : List Byte :=
  match since with
  | some b => two ((now - b) / 1000)
  | none => [0, 0]

theorem timerBytes_eq (now : Nat) (since : Option Nat) : two (timerMs now since) = timerBytes now since := by
  cases since with
  | some b => rfl
  | none => exact two_eq 0

theorem positionBytes?_eq (p : Option Int) : positionBytes? p = match p with
    | some v => positionBytes v
    | none => [0x80, 0, 0] := by
  cases p <;> rfl

theorem codeByte?_cause (v : Option Cause) : codeByte? (v.map Cause.code) = match v with
    | some c => byte c.code
    | none => 0xFF := by
  cases v <;> rfl

theorem codeByte?_state (v : Option XState) : codeByte? (v.map XState.code) = match v with
    | some st => byte st.code
    | none => 0xFF := by
  cases v <;> rfl

theorem codeByte?_phase (st : Option XState) : codeByte? (st.bind XState.phaseCode?) = match st with
    | some st => if st.phaseCode = 0 then 0xFF else byte st.phaseCode
    | none => 0xFF := by
  cases st with
  | none => rfl
  | some st =>
    show codeByte? st.phaseCode? = _
    unfold XState.phaseCode?
    dsimp only
    split <;> rfl

theorem Transport.holdReport_eq (now : Nat) (x : Transport) : x.holdReport now =
    [byteOfBits [x.prot.hold.active, x.prot.hold.failed, x.prot.driveEnable, x.prot.steady.isSome,
          !x.prot.vacuum.debounced, x.prot.door.debounced, (x.loop.zoneOf x.supplySlot.depth).isLimit,
          (x.loop.zoneOf x.takeupSlot.depth).isLimit],
        (match x.prot.hold.primary with
          | some c => byte c.code
          | none => 0xFF)] ++
      (match x.prot.hold.position with
        | some p => positionBytes p
        | none => [0x80, 0, 0]) ++
      [(match x.prot.hold.state with
          | some st => byte st.code
          | none => 0xFF),
        (match x.prot.hold.state with
          | some st => if st.phaseCode = 0 then 0xFF else byte st.phaseCode
          | none => 0xFF)] ++
      causeBytes x.prot.hold.further.contains ++ causeBytes x.isArmed ++ timerBytes now x.prot.recovery ++
      timerBytes now x.prot.steady := by
  unfold Transport.holdReport
  dsimp only
  rw [codeByte?_cause, codeByte?_state, codeByte?_phase, positionBytes?_eq, causeSet_eq, causeSet_eq, x.armed_contains,
    timerBytes_eq, timerBytes_eq]
  rfl

theorem Transport.reelReport_eq (e : Reel) (x : Transport) : x.reelReport e =
    [byte (x.slotOf e).depth,
      byte ((x.loop.zoneOf (x.slotOf e).depth).code + 8 * (x.reel e).mode.code + (if (x.reel e).entered then 32 else 0) +
        (if (x.reel e).limiting then 64 else 0) + (if (x.slotOf e).fresh then 128 else 0)),
      byte ((x.reel e).persist + (if (x.reel e).stall.isSome then 128 else 0)), BitVec.ofInt 8 (x.reel e).commanded,
      BitVec.ofInt 8 (x.reel e).output] := rfl

theorem Transport.scanByte_eq (x : Transport) : byte (bitAt 0 x.inScan + bitAt 1 (x.drive.resume == .afterHoldOff)) =
    byte ((if x.sequencer.state = .unloaded then 0 else 1) + (if x.drive.resume = .afterHoldOff then 2 else 0)) := by
  have scan : bitAt 0 x.inScan = if x.sequencer.state = .unloaded then 0 else 1 := by
    unfold Transport.inScan bitAt
    by_cases h : x.sequencer.state = .unloaded <;> simp [h]
  have resume : bitAt 1 (x.drive.resume == .afterHoldOff) = if x.drive.resume = .afterHoldOff then 2 else 0 := by
    unfold bitAt
    by_cases h : x.drive.resume = .afterHoldOff <;> simp [h]
  rw [scan, resume]

/-! ### RELEASE TRANSPORT (R104, R121) -/

section
variable {t : TNum} {s : State} {o : Order} {w : Work}

theorem exec_releaseTransport (line : s.lineReady) : exec (.releaseTransport (transportByte t)) s =
    .next (State.sending .done [] (if (s.tr t).sequencer.online then s.goOffline t else s)) := by
  refine exec_ready (.releaseTransport (transportByte t)) s _ ⟨.done, []⟩ line (onTransport_byte t _ s) ?_
  split
  · exact congrArg Line.receiver (State.Kept.refl t s).goOffline.line
  · rfl

theorem State.goOffline_eq : s.goOffline t = (s.upd t Transport.offline).haltOrders t := rfl

/-- Offline already, a transport is as it is. -/
theorem State.upd_offline (online : (s.tr t).sequencer.online = false) : s.upd t Transport.offline = s :=
  State.upd_id _ _ _ (by unfold Transport.offline; rw [← online])

/-- A halt does not reach an UNLOAD in RELEASE, which stands alone in its list (R101, R104). -/
theorem State.haltOrders_releasing (list : (s.tr t).orders.list = [.running o w]) (releasing : (s.tr t).releasing = true) :
    s.haltOrders t = s := by
  have same : (s.tr t).discard = s.tr t := by
    have l : (s.tr t).discard.orders.list = (s.tr t).orders.list := by
      rw [Transport.discard_list, list]
      rfl
    show { s.tr t with orders := { (s.tr t).orders with list := (s.tr t).discard.orders.list } } = s.tr t
    rw [l]
  have run := Transport.running_single list
  rw [State.haltOrders_discard run, State.upd_id _ _ _ same]
  unfold State.haltRunning
  rw [run]
  exact if_pos releasing

end

/-- Settles O42: each report is its bytes, and RELEASE TRANSPORT is the halt of the transport with its online flag clear. -/
theorem transportsAreReadAndReleased : Obligations.TransportsAreReadAndReleased := by
  intro t s line x ms causes reel
  refine ⟨?_, fun idle => ?_, ⟨fun offline => ?_, fun online run reached => ?_,
    fun o w online list releasing => ?_⟩, ?_, ?_⟩
  · exact exec_ready (.readTransport (transportByte t)) s s ⟨.done, _⟩ line (onTransport_byte t _ s) rfl
  · rw [exec_releaseTransport line, State.goOffline_eq,
      State.haltOrders_idle (by rw [State.tr_upd_same]; exact idle)]
    cases online : (s.tr t).sequencer.online with
    | true => rfl
    | false => exact congrArg (fun r => Host.Outcome.next (State.sending .done [] r)) (State.upd_offline online).symm
  · rw [exec_releaseTransport line, if_neg (by rw [offline]; nofun)]
  · refine ⟨(s.upd t Transport.offline).haltOrders t, exec_halt_done (s := s.upd t Transport.offline) line ?_, ?_⟩
    · rw [State.tr_upd_same]
      exact reached
    · rw [exec_releaseTransport line, if_pos online]
      rfl
  · rw [exec_releaseTransport line, if_pos online, State.goOffline_eq,
      State.haltOrders_releasing (o := o) (w := w) (by rw [State.tr_upd_same]; exact list)
        (by rw [State.tr_upd_same]; exact releasing)]
    rfl
  · have report := (s.tr t).holdReport_eq s.clock
    exact exec_ready (.readHoldRecord (transportByte t)) s s ⟨.done, _⟩ line
      ((onTransport_byte t _ s).trans (congrArg (fun b => answer b s) report)) rfl
  · refine exec_ready (.readLoops (transportByte t)) s _ ⟨.done, _⟩ line ((onTransport_byte t _ s).trans ?_) rfl
    refine congrArg (fun b => answer b (s.upd t _)) ?_
    unfold Transport.loopReport
    rw [Transport.scanByte_eq]
    rfl

end Sys2Proof.Machine
end

