-- ==== Sys2Proof/Proofs/Resets.lean ====
section
/-! PROOF. The transport reset, by the state of the transport and by its running order. -/

namespace Sys2Proof.Machine

open Sys2Proof

/-! ### HOLD REST (R14) -/

/-- HOLD REST changes the segment alone, and what waits of the Sequencer. -/
theorem Transport.holdRest_eq (now : Nat) (x : Transport) : ∃ c : Capstan, x.holdRest now = { x with cap := c } ∧
    c.counter = x.cap.counter ∧ c.conf = x.cap.conf := by
  unfold Transport.holdRest
  split <;> exact ⟨_, rfl, rfl, rfl⟩

/-! ### Records and pending orders go (R106, R175) -/

/-- A transport whose order list and event flags a reset has cleared, its running order aside. -/
def Transport.wiped (x : Transport) : Transport := x.clearEvents.dropOrders

/-- A transport without an order, cleared by a reset. -/
def Transport.emptied (x : Transport) : Transport :=
  { x with orders := { x.orders with list := [] }, flags := { slots := false, hold := false, state := false } }

theorem filter_running_none {l : List Slot} (h : runningIn l = none) : l.filter Slot.isRunning = [] := by
  induction l with
  | nil => rfl
  | cons a l ih =>
    cases a with
    | running o w => cases h
    | pending o => exact ih h
    | record r => exact ih h

theorem runningIn_filter (l : List Slot) : runningIn (l.filter Slot.isRunning) = runningIn l := by
  induction l with
  | nil => rfl
  | cons a l ih =>
    cases a with
    | running o w => rfl
    | pending o => exact ih
    | record r => exact ih

theorem Transport.wiped_idle {x : Transport} (idle : x.running = none) : x.wiped = x.emptied := by
  show ({ x.emptied with orders := { x.orders with list := x.orders.list.filter Slot.isRunning } } : Transport) = _
  rw [filter_running_none idle]
  rfl

theorem Transport.wiped_running (x : Transport) : x.wiped.running = x.running := runningIn_filter _

theorem Transport.wiped_releasing (x : Transport) : x.wiped.releasing = x.releasing := by
  unfold Transport.releasing
  rw [Transport.wiped_running]
  rfl

/-- A change of the working values leaves running slots alone in a list of them. -/
theorem replaceRunning_isRunning (g : Order → Work → Work) {l : List Slot} (h : ∀ sl ∈ l, sl.isRunning = true) :
    ∀ sl ∈ replaceRunning (fun o w => .running o (g o w)) l, sl.isRunning = true := by
  cases l with
  | nil => exact h
  | cons a l =>
    obtain ⟨first, rest⟩ := List.forall_mem_cons.mp h
    cases a with
    | running o w => exact List.forall_mem_cons.mpr ⟨rfl, rest⟩
    | pending o => cases first
    | record r => cases first

/-! ### Sequences that a reset begins or ends (R118, R119, R124, R156) -/

/-- A transport that begins RELEASE (R119). -/
def Transport.releases (now : Nat) (x : Transport) : Transport :=
  (((x.setState (.unloading .release)).modSeq fun q =>
    { q with valveOpen := false, quiet := some now, ending := false, lpStop := false }).free .reverse).windRelease

theorem State.beginRelease_eq (t : TNum) (s : State) : s.beginRelease t = s.upd t (Transport.releases s.clock) := rfl

theorem State.abandonLoad_eq (t : TNum) (s : State) : s.abandonLoad t = s.upd t fun x => (x.modSeq fun q =>
    { q with loadTimer := none, loadResult := .abandoned, panelMotion := true }).releases s.clock := by
  unfold State.abandonLoad
  rw [State.beginRelease_eq, State.upd_upd]
  rfl

/-- A transport whose hold ends for a forced unload (R156). -/
def Transport.letGo (x : Transport) : Transport :=
  let on := x.driveOn.modSeq fun q => { q with panelMotion := true }
  { on with prot := { on.prot with hold := { on.prot.hold with active := false } } }

theorem Transport.endsRewind_notices (now : Nat) (x : Transport) :
    (x.endsRewind now).flags = x.flags ∧ (x.endsRewind now).masks = x.masks := by
  unfold Transport.endsRewind
  dsimp only
  split <;> exact ⟨rfl, rfl⟩

theorem State.resetByState_rewind {t : TNum} {s : State} (h : (s.tr t).sequencer.state.rewindPhase?.isSome = true) :
    s.resetByState t = s.endRewind t := by
  unfold State.resetByState
  cases e : (s.tr t).sequencer.state with
  | rewinding p => rfl
  | unloading p =>
    cases p with
    | ret p => rfl
    | release => rw [e] at h; cases h
  | _ => rw [e] at h; cases h

/-- A recovery that begins: the drive on, the valve open, the reels by zone, and the timers of the recovery (R124, R153). -/
theorem Transport.recoveryBegin_eq (now : Nat) (x : Transport) : ∃ c : Capstan,
    x.recoveryBegin now = { x with
      cap := c
      sequencer := { x.sequencer with state := .recovering, valveOpen := true }
      supply := { x.supply with mode := .zone, entered := true, brake := false }
      takeup := { x.takeup with mode := .zone, entered := true, brake := false }
      prot := { x.prot with driveEnable := true, recovery := some now, steady := if x.inBand then some now else none } } ∧
    c.counter = x.cap.counter ∧ c.conf = x.cap.conf := by
  obtain ⟨c, rest, counter, conf⟩ := (x.driveOn.setState .recovering).holdRest_eq now
  refine ⟨c, ?_, counter, conf⟩
  unfold Transport.recoveryBegin
  rw [rest]
  rfl

section
variable {t : TNum} {s : State} {o : Order} {w : Work} {p : Transport → Prop} {f : Transport → Transport}

/-! ### What every reset does (R106, R125, R175) -/

/-- The RESET press and RESET TRANSPORT do the same to transport `t`: what is left in its list is running, and `p` holds. -/
def State.Resets (t : TNum) (p : Transport → Prop) (s : State) : Prop :=
  ∃ r : State,
    exec (.resetPress t) s = .next r ∧ exec (.resetTransport (transportByte t)) s = .next (r.sending .done []) ∧
    s.sameOutside t r ∧ (∀ sl ∈ (r.tr t).orders.list, sl.isRunning = true) ∧
    (r.tr t).orders.threshold = (s.tr t).orders.threshold ∧ (r.tr t).masks = (s.tr t).masks ∧ p (r.tr t)

theorem State.Resets.imp {q : Transport → Prop} (h : ∀ y, p y → q y) (k : s.Resets t p) : s.Resets t q := by
  obtain ⟨r, press, asked, outside, slots, threshold, masks, holds⟩ := k
  exact ⟨r, press, asked, outside, slots, threshold, masks, h _ holds⟩

theorem State.Resets.of_upd (line : s.lineReady) (reset : s.resetTransport t = s.upd t f)
    (slots : ∀ sl ∈ (f (s.tr t)).orders.list, sl.isRunning = true)
    (threshold : (f (s.tr t)).orders.threshold = (s.tr t).orders.threshold) (masks : (f (s.tr t)).masks = (s.tr t).masks)
    (holds : p (f (s.tr t))) : s.Resets t p := by
  refine ⟨s.upd t f, congrArg Host.Outcome.next reset, ?_, State.sameOutside_upd _ _ _, ?_⟩
  · exact exec_ready (.resetTransport (transportByte t)) s _ ⟨.done, []⟩ line
      ((onTransport_byte t _ s).trans (congrArg (answer []) reset)) rfl
  · rw [State.tr_upd_same]
    exact ⟨slots, threshold, masks, holds⟩

/-! ### Resets without a running order (R125, R156) -/

section
variable (line : s.lineReady) (idle : (s.tr t).running = none)

theorem State.resetTransport_idle (idle : (s.tr t).running = none) :
    s.resetTransport t = (s.upd t Transport.emptied).resetByState t := by
  unfold State.resetTransport
  dsimp only
  rw [idle, if_neg nofun]
  exact congrArg (State.resetByState t) (State.upd_congr (Transport.wiped_idle idle))

include line idle

/-- A reset without a running order is what its state makes of the cleared transport. -/
theorem State.Resets.of_idle (state : (s.upd t Transport.emptied).resetByState t = (s.upd t Transport.emptied).upd t f)
    (orders : (f (s.tr t).emptied).orders = (s.tr t).emptied.orders)
    (masks : (f (s.tr t).emptied).masks = (s.tr t).masks) (holds : p (f (s.tr t).emptied)) : s.Resets t p := by
  refine State.Resets.of_upd (f := fun x => f x.emptied) line ?_ ?_ ?_ masks holds
  · rw [State.resetTransport_idle idle, state, State.upd_upd]
  · rw [orders]
    exact fun sl h => absurd h List.not_mem_nil
  · rw [orders]
    rfl

theorem reset_goesOn (state : (s.tr t).sequencer.state ∈ [XState.ready, .unloaded, .recovering, .unloading .release]) :
    s.Resets t fun y => y = (s.tr t).emptied := by
  refine State.Resets.of_idle (f := id) line idle ?_ rfl rfl rfl
  rw [State.upd_id t id _ rfl]
  unfold State.resetByState
  rw [State.tr_upd_same, show (s.tr t).emptied.sequencer = (s.tr t).sequencer from rfl]
  simp only [List.mem_cons, List.not_mem_nil, or_false] at state
  rcases state with e | e | e | e <;> rw [e]

theorem reset_endsRewind (phase : (s.tr t).sequencer.state.rewindPhase?.isSome = true)
    (driven : (s.tr t).cap.seg.driven = true) :
    s.Resets t fun y => (s.tr t).rewindEnded y ∧ y.flags = { slots := false, hold := false, state := false } := by
  refine State.Resets.of_idle (f := Transport.endsRewind s.clock) line idle ?_ (Transport.endsRewind_orders _ _)
    (Transport.endsRewind_notices _ _).2 ⟨Transport.endsRewind_rewindEnded _ (s.tr t).emptied,
      (Transport.endsRewind_notices _ _).1⟩
  rw [State.resetByState_rewind (by rw [State.tr_upd_same]; exact phase),
    State.endRewind_driven (by rw [State.tr_upd_same]; exact phase) (by rw [State.tr_upd_same]; exact driven)]
  rfl

/-- A load that a reset abandons releases the tape (R114, R125). -/
theorem reset_abandonsLoad {phase : LoadPhase} (state : (s.tr t).sequencer.state = .loading phase) :
    s.Resets t fun y => y.sequencer.state = .unloading .release ∧
      y.sequencer.loadResult = .abandoned ∧ y.sequencer.panelMotion = true ∧ y.sequencer.loadTimer = none ∧
      y.sequencer.valveOpen = false ∧ y.cap.seg.cond = .free ∧ y.cap.conf = .lost ∧
      y.flags = { slots := false, hold := false, state := false } := by
  refine State.Resets.of_idle (f := fun x => (x.modSeq fun q =>
      { q with loadTimer := none, loadResult := .abandoned, panelMotion := true }).releases s.clock) line idle ?_ rfl rfl
    ⟨rfl, rfl, rfl, rfl, rfl, rfl, rfl, rfl⟩
  unfold State.resetByState
  rw [State.tr_upd_same, show (s.tr t).emptied.sequencer.state = .loading phase from state]
  exact State.abandonLoad_eq t _

/-- A hold without a cause present becomes a recovery (R124, R125). -/
theorem reset_recovers (state : (s.tr t).sequencer.state = .held) (clear : (s.tr t).causePresent = false) :
    s.Resets t fun y => y.sequencer.state = .recovering ∧ y.prot.driveEnable = true ∧ y.sequencer.valveOpen = true ∧
      y.prot.recovery = some s.clock ∧ y.flags = { slots := false, hold := false, state := false } := by
  obtain ⟨c, begun, -, -⟩ := (s.tr t).emptied.recoveryBegin_eq s.clock
  refine State.Resets.of_idle (f := Transport.recoveryBegin s.clock) line idle ?_ (by rw [begun]) (by rw [begun]; rfl) ?_
  · unfold State.resetByState
    rw [State.tr_upd_same, show (s.tr t).emptied.sequencer.state = .held from state]
    exact if_neg (by rw [show (s.tr t).emptied.causePresent = (s.tr t).causePresent from rfl, clear]; nofun)
  · rw [begun]
    exact ⟨rfl, rfl, rfl, rfl, rfl⟩

omit line idle in
theorem resetByState_forced (state : (s.tr t).sequencer.state = .held) (present : (s.tr t).causePresent = true) :
    (s.upd t Transport.emptied).resetByState t =
      (s.upd t Transport.emptied).upd t fun x => (x.letGo.releases s.clock).takeCause? s.clock
        (if x.prot.door.debounced then some .doorOpen else none) := by
  unfold State.resetByState
  rw [State.tr_upd_same, show (s.tr t).emptied.sequencer.state = .held from state]
  refine (if_pos (by exact present)).trans ?_
  unfold State.forcedUnload
  dsimp only
  rw [State.beginRelease_eq, State.upd_upd, State.upd_upd]
  rfl

/-- A hold with a cause present is left for a forced unload (R156). -/
theorem reset_forcesUnload (state : (s.tr t).sequencer.state = .held) (present : (s.tr t).causePresent = true)
    (door : (s.tr t).prot.door.debounced = false) :
    s.Resets t fun y => y.sequencer.state = .unloading .release ∧ y.prot.driveEnable = true ∧
      y.prot.hold.active = false ∧ y.sequencer.panelMotion = true ∧ y.cap.seg.cond = .free ∧
      y.flags = { slots := false, hold := false, state := false } := by
  refine State.Resets.of_idle (f := fun x => x.letGo.releases s.clock) line idle ?_ rfl rfl ⟨rfl, rfl, rfl, rfl, rfl, rfl⟩
  rw [resetByState_forced state present]
  refine State.upd_congr ?_
  rw [State.tr_upd_same, show (s.tr t).emptied.prot.door.debounced = false from door]
  rfl

/-- An open door holds the transport of a forced unload anew (R148, R156). -/
theorem reset_holdsAnew (state : (s.tr t).sequencer.state = .held) (door : (s.tr t).prot.door.debounced = true) :
    s.Resets t fun y => y.sequencer.state = .held ∧ y.prot.driveEnable = false ∧ y.sequencer.valveOpen = false ∧
      y.supply.cut ∧ y.takeup.cut ∧ y.cap.seg.cond = .coasting ∧ y.cap.conf = .lost ∧
      y.prot.hold = { active := true, primary := some .doorOpen, position := some (s.tr t).cap.counter
                      state := some (.unloading .release), further := [], failed := false } ∧
      y.flags = { slots := false, hold := true, state := false } := by
  have present : (s.tr t).causePresent = true := by
    simp [Transport.causePresent, door]
  refine State.Resets.of_idle (f := fun x => (x.letGo.releases s.clock).holdEntry s.clock .doorOpen) line idle ?_ rfl rfl
    ⟨rfl, rfl, rfl, ReelDrive.off_cut _, ReelDrive.off_cut _, rfl, rfl, rfl, rfl⟩
  rw [resetByState_forced state present]
  refine State.upd_congr ?_
  rw [State.tr_upd_same, show (s.tr t).emptied.prot.door.debounced = true from door]
  rfl

end

/-! ### Resets of a running order (R106) -/

section
variable (line : s.lineReady) (run : (s.tr t).running = some (o, w))

theorem State.resetTransport_running (run : (s.tr t).running = some (o, w)) :
    s.resetTransport t = (s.upd t Transport.wiped).resetRunning t :=
  if_pos (Option.isSome_iff_exists.mpr ⟨_, run⟩)

include line run

/-- A reset of a running order changes its working values in the list that it leaves. -/
theorem State.Resets.of_running (g : Order → Work → Work)
    (reset : (s.upd t Transport.wiped).resetRunning t = (s.upd t Transport.wiped).upd t f)
    (orders : (f (s.tr t).wiped).orders = ((s.tr t).wiped.modWork g).orders)
    (masks : (f (s.tr t).wiped).masks = (s.tr t).masks)
    (holds : (f (s.tr t).wiped).running = some (o, g o w) → p (f (s.tr t).wiped)) : s.Resets t p := by
  have running : (f (s.tr t).wiped).running = some (o, g o w) := by
    unfold Transport.running
    rw [orders]
    exact (Transport.modWork_running _ g).trans (congrArg (Option.map _) ((s.tr t).wiped_running.trans run))
  refine State.Resets.of_upd (f := fun x => f x.wiped) line ?_ ?_ ?_ masks (holds running)
  · rw [State.resetTransport_running run, reset, State.upd_upd]
  · rw [orders]
    exact replaceRunning_isRunning g fun sl h => (List.mem_filter.mp h).2
  · rw [orders]
    rfl

/-- The RELEASE of an UNLOAD goes on (R101, R106). -/
theorem reset_releasing (state : (s.tr t).sequencer.state = .unloading .release) :
    s.Resets t fun y => { y with orders := (s.tr t).orders } =
        { s.tr t with flags := { slots := false, hold := false, state := false } } ∧ y.running = some (o, w) := by
  refine State.Resets.of_running (f := id) line run (fun _ _ => w) ?_ ?_ rfl fun run => ⟨rfl, run⟩
  · have releasing : (s.tr t).wiped.releasing = true := by
      rw [Transport.wiped_releasing]
      exact (Transport.releasing_iff _).mpr ⟨Option.isSome_iff_exists.mpr ⟨_, run⟩, state⟩
    rw [State.upd_id t id _ rfl]
    unfold State.resetRunning
    rw [State.tr_upd_same, Transport.wiped_running, run]
    exact if_pos releasing
  · rw [Transport.modWork_self ((s.tr t).wiped_running.trans run)]
    rfl

section
variable (reached : (s.tr t).sequencer.state ≠ .unloading .release)
include reached

omit line in
/-- What the reset of an order that it reaches does, by the phase of the order (R106). -/
theorem State.resetRunning_wiped : (s.upd t Transport.wiped).resetRunning t =
    match w.phase with
    | .sequence => ((s.upd t Transport.wiped).markHalted t).endRewind t
    | .approach => (s.upd t Transport.wiped).markHalted t
    | .stopping => (s.upd t Transport.wiped).markHalted t
    | _ => ((s.upd t Transport.wiped).markHalted t).stopOrder t .halted none := by
  have other : (s.tr t).wiped.releasing = false := Transport.not_releasing_of_state reached
  unfold State.resetRunning
  rw [State.tr_upd_same, Transport.wiped_running, run]
  dsimp only
  refine (if_neg (by rw [other]; nofun)).trans ?_
  cases w.phase <;> rfl

/-- An order with no stop under way stops at once (R106). -/
theorem reset_stops (driven : (s.tr t).cap.seg.driven = true)
    (phase : w.phase ∈ [OrderPhase.fast, .readLeg, .search, .haltSearch]) :
    s.Resets t fun y => y.flags = { slots := false, hold := false, state := false } ∧
      (s.tr t).cap.seg.stopsFor .orders y.cap.seg ∧
      y.running = some (o, { w with phase := .stopping, reason := some .halted, barrier := none, halted := true }) := by
  refine State.Resets.of_running (f := fun x => x.halted.stopped s.clock .halted none) line run
    (fun _ w => { w with phase := .stopping, reason := some .halted, barrier := none, halted := true }) ?_ ?_ rfl
    fun run => ⟨rfl, Segment.stopsFor_rampDown _ _ _, run⟩
  · have stops : (s.upd t Transport.wiped).resetRunning t =
        ((s.upd t Transport.wiped).markHalted t).stopOrder t .halted none := by
      rw [State.resetRunning_wiped run reached]
      simp only [List.mem_cons, List.not_mem_nil, or_false] at phase
      obtain e | e | e | e := phase <;> rw [e]
    rw [stops, State.stopOrder_driven _ _ (by rw [State.markHalted, State.tr_upd_same, State.tr_upd_same]; exact driven),
      State.markHalted, State.upd_upd]
    rfl
  · rw [Transport.stopped_orders, Transport.halted, Transport.modWork_modWork]

/-- A stop or an approach under way goes on (R106). -/
theorem reset_leavesStop (phase : w.phase = .stopping ∨ w.phase = .approach) :
    s.Resets t fun y => y.flags = { slots := false, hold := false, state := false } ∧ y.cap = (s.tr t).cap ∧
      y.running = some (o, { w with halted := true }) := by
  refine State.Resets.of_running (f := Transport.halted) line run (fun _ w => { w with halted := true }) ?_ rfl rfl
    fun run => ⟨rfl, rfl, run⟩
  rw [State.resetRunning_wiped run reached]
  obtain e | e := phase <;> rw [e] <;> rfl

/-- A REWIND, or the RETURN of an UNLOAD, is ended (R106, R118). -/
theorem reset_endsSequence (driven : (s.tr t).cap.seg.driven = true) (phase : w.phase = .sequence)
    (rewinds : (s.tr t).sequencer.state.rewindPhase?.isSome = true) :
    s.Resets t fun y => y.flags = { slots := false, hold := false, state := false } ∧ (s.tr t).rewindEnded y ∧
      y.running = some (o, { w with halted := true }) := by
  refine State.Resets.of_running (f := fun x => x.halted.endsRewind s.clock) line run (fun _ w => { w with halted := true })
    ?_ (Transport.endsRewind_orders _ _) (Transport.endsRewind_notices _ _).2
    fun run => ⟨(Transport.endsRewind_notices _ _).1, Transport.endsRewind_rewindEnded _ (s.tr t).wiped.halted, run⟩
  rw [State.resetRunning_wiped run reached, phase]
  dsimp only
  rw [State.endRewind_driven (by rw [State.markHalted, State.tr_upd_same, State.tr_upd_same]; exact rewinds)
    (by rw [State.markHalted, State.tr_upd_same, State.tr_upd_same]; exact driven), State.markHalted, State.upd_upd]
  rfl

/-- A sequence order whose Sequencer rewinds no longer is marked alone. -/
theorem reset_marksSequence (phase : w.phase = .sequence) (other : (s.tr t).sequencer.state.rewindPhase? = none) :
    s.Resets t fun y => y.flags = { slots := false, hold := false, state := false } := by
  refine State.Resets.of_running (f := Transport.halted) line run (fun _ w => { w with halted := true }) ?_ rfl rfl
    fun _ => rfl
  rw [State.resetRunning_wiped run reached, phase]
  exact State.endRewind_none (by rw [State.markHalted, State.tr_upd_same, State.tr_upd_same]; exact other)

end
end
end

/-- Settles O43: without a running order the state decides, with one the phase of the order. -/
theorem transportReset : Obligations.TransportReset := by
  intro t s line x none' resets
  refine ⟨fun idle => ⟨reset_goesOn line idle, reset_endsRewind line idle, fun p => reset_abandonsLoad line idle,
    reset_recovers line idle, reset_forcesUnload line idle, reset_holdsAnew line idle⟩,
    fun o w run => ⟨reset_releasing line run, fun reached driven => ?_⟩⟩
  have same : ∀ p, s.Resets t p → resets p := fun _ h => h
  clear_value resets
  by_cases stops : w.phase ∈ [OrderPhase.fast, .readLeg, .search, .haltSearch]
  · refine same _ (State.Resets.imp (fun y h => ⟨h.1, fun _ => h.2, fun e => ?_, fun e => ?_⟩)
      (reset_stops line run reached driven stops))
    · obtain e | e := e <;> simp [e] at stops
    · simp [e] at stops
  by_cases under : w.phase = .stopping ∨ w.phase = .approach
  · refine same _ (State.Resets.imp (fun y h => ⟨h.1, fun e => absurd e stops, fun _ => h.2, fun e => ?_⟩)
      (reset_leavesStop line run reached under))
    rw [e] at under
    simp at under
  have phase : w.phase = .sequence := by
    cases e : w.phase <;> simp [e] at stops under ⊢
  cases rewinds : (s.tr t).sequencer.state.rewindPhase? with
  | some p =>
    exact same _ (State.Resets.imp (fun y h => ⟨h.1, fun e => absurd e stops, fun e => absurd e under, fun _ _ => h.2⟩)
      (reset_endsSequence line run reached driven phase (by rw [rewinds]; rfl)))
  | none =>
    exact same _ (State.Resets.imp
      (fun y h => ⟨h, fun e => absurd e stops, fun e => absurd e under, fun _ e => absurd e nofun⟩)
      (reset_marksSequence line run reached phase rewinds))

end Sys2Proof.Machine
end

