-- ==== Sys2Proof/Proofs/Conversions.lean ====
section
/-! PROOF. What the end of a conversion gives to a reel, and what it ends, trips and measures. -/

namespace Sys2Proof.Machine

open Sys2Proof

/-! ### The drive from a result (R132, R135 to R137) -/

theorem Zone.isLimit_iff (z : Zone) : z.isLimit = true ↔ z = .limitShort ∨ z = .limitLong := by
  cases z <;> simp [Zone.isLimit]

/-- The magnitude of the feed-forward; a ramp is linear in time (R135, log entry 10). -/
def Segment.feedAt (now : Nat) (g : Segment) : Int :=
  match g.cond with
  | .running =>
    match g.speed with
    | some v =>
      match v with
      | .creep => 12
      | .read => 60
      | .seek => 100
      | .rewind => 120
    | none => 0
  | .ramping k =>
    let done := min (now - k.began) k.lasts
    if k.lasts = 0 then k.toFeed else ((k.fromFeed * (k.lasts - done) + k.toFeed * done) / k.lasts : Nat)
  | _ => 0

theorem Segment.feedAt_eq (now : Nat) (g : Segment) : g.feedAt now = g.feed now := by
  unfold Segment.feedAt Segment.feed
  cases g.cond with
  | atRest => rfl
  | coasting => rfl
  | free => rfl
  | running =>
    cases g.speed with
    | none => rfl
    | some v => cases v <;> rfl
  | ramping k => exact (apply_ite Nat.cast _ _ _).symm

/-- A magnitude with the sign of a direction. -/
def signedBy (d : Option Dir) (m : Int) : Int := if d = some .forward then m else if d = some .reverse then -m else 0

theorem signedBy_zero (d : Option Dir) : signedBy d 0 = 0 := by
  simp [signedBy]

/-- The direction in which the capstan would move the tape. -/
def Segment.way (g : Segment) : Option Dir :=
  match g.cond with
  | .ramping k => some k.dir
  | _ => g.dir

/-- At rest no direction matters, there being no feed-forward. -/
theorem Segment.signed_way (now : Nat) (g : Segment) : signedBy g.way (g.feedAt now) = signedBy g.tapeDir (g.feed now) := by
  rw [← Segment.feedAt_eq]
  by_cases rest : g.cond = .atRest
  · have none : g.feedAt now = 0 := by
      unfold Segment.feedAt
      rw [rest]
    rw [none, signedBy_zero, signedBy_zero]
  · have same : g.way = g.tapeDir := by
      unfold Segment.way Segment.tapeDir
      cases e : g.cond with
      | atRest => exact absurd e rest
      | _ => rfl
    rw [same]

/-- The reels take the feed-forward of the capstan with opposite signs (R135). -/
theorem feedForward_eq (now : Nat) (e : Reel) (g : Segment) : feedForward now e g =
    if e = .supply then signedBy g.way (g.feedAt now) else -signedBy g.way (g.feedAt now) := by
  rw [Segment.signed_way]
  unfold feedForward signedBy
  cases g.tapeDir with
  | none => cases e <;> rfl
  | some d => cases d <;> cases e <;> simp

/-- Which side of the band a result lies on decides its correction (R135). -/
theorem LoopParams.correction_eq {p : LoopParams} (h : p.allowed) (n : Nat) : p.correction n =
    if n < p.bandLow then (p.gain : Int) * (p.bandLow - n)
    else if p.bandHigh < n then -((p.gain : Int) * (n - p.bandHigh)) else 0 := by
  obtain ⟨low, band, high, -⟩ := h
  unfold LoopParams.correction LoopParams.zoneOf
  by_cases short : n < p.limitShort
  · rw [if_pos short, if_pos (by omega)]
  rw [if_neg short]
  by_cases below : n < p.bandLow
  · rw [if_pos below, if_pos below]
  rw [if_neg below, if_neg below]
  by_cases center : n ≤ p.bandHigh
  · rw [if_pos center, if_neg (by omega)]
  have above : p.bandHigh < n := by omega
  rw [if_neg center, if_pos above]
  by_cases long : n ≤ p.limitLong
  · rw [if_pos long]
  · rw [if_neg long]

/-! ### The result at its reel (R129, R131, R137) -/

/-- The Reel Drive of reel `e` after a result of depth `n`, in the words of R135 to R138. -/
def Transport.driven (now : Nat) (e : Reel) (n : Nat) (x : Transport) : ReelDrive :=
  let d := x.reel e
  let p := x.loop
  let z := p.zoneOf n
  let limit := z = .limitShort ∨ z = .limitLong
  let count := if limit then (if d.zone = z then min 4 (d.persist + 1) else 1) else 0
  let forward := signedBy x.cap.seg.way (x.cap.seg.feedAt now)
  let correction : Int :=
    if n < p.bandLow then (p.gain : Int) * (p.bandLow - n)
    else if p.bandHigh < n then -((p.gain : Int) * (n - p.bandHigh)) else 0
  let entered := d.entered || decide (n < p.limitLong)
  let drive : Int :=
    if entered then max (-127) (min 127 ((if e = .supply then forward else -forward) + correction)) else 40
  let judged := { d with zone := z, persist := count }
  if x.prot.driveEnable = true ∧ d.mode = .zone then
    { judged with entered := entered, commanded := drive, output := if d.limiting then 0 else drive }
  else judged

theorem ReelDrive.judge_eq (z : Zone) (d : ReelDrive) : d.judge z = { d with
    zone := z
    persist := if z = .limitShort ∨ z = .limitLong then (if d.zone = z then min 4 (d.persist + 1) else 1) else 0 } :=
  congrArg (fun n => { d with zone := z, persist := n }) (ite_congr (propext z.isLimit_iff) (fun _ => rfl) fun _ => rfl)

theorem ReelDrive.servo_eq {now n : Nat} {e : Reel} {p : LoopParams} {g : Segment} {d : ReelDrive} (h : p.allowed) :
    let forward := signedBy g.way (g.feedAt now)
    let entered := d.entered || decide (n < p.limitLong)
    let drive : Int := if entered then max (-127) (min 127 ((if e = .supply then forward else -forward) +
      if n < p.bandLow then (p.gain : Int) * (p.bandLow - n)
      else if p.bandHigh < n then -((p.gain : Int) * (n - p.bandHigh)) else 0)) else 40
    d.servo now e p g n = { d with entered := entered, commanded := drive, output := if d.limiting then 0 else drive } := by
  unfold ReelDrive.servo
  rw [feedForward_eq, LoopParams.correction_eq h]
  rfl

theorem Transport.takeResult_eq {now n : Nat} {e : Reel} {x : Transport} (h : x.loop.allowed) :
    x.takeResult now e n = x.modReel e fun _ => x.driven now e n := by
  refine Transport.modReel_const ?_
  dsimp only
  rw [ReelDrive.judge_eq, ReelDrive.servo_eq h]
  refine ite_congr (propext ?_) (fun _ => rfl) fun _ => rfl
  rw [Bool.and_eq_true, beq_iff_eq]

/-- A transport that has been given a result: its slot written and its reel driven. -/
def Transport.given (now : Nat) (e : Reel) (n : Nat) (x : Transport) : Transport :=
  (x.setSlot e { depth := n, fresh := true }).modReel e fun _ => x.driven now e n

theorem Transport.given_reel (now : Nat) (e : Reel) (n : Nat) (x : Transport) :
    (x.given now e n).reel e = x.driven now e n := by
  cases e <;> rfl

theorem Transport.driven_zone (now : Nat) (e : Reel) (n : Nat) (x : Transport) :
    (x.driven now e n).zone = x.loop.zoneOf n := by
  unfold Transport.driven
  dsimp only
  split <;> rfl

theorem Transport.driven_persist (now : Nat) (e : Reel) (n : Nat) (x : Transport) : (x.driven now e n).persist =
    if x.loop.zoneOf n = .limitShort ∨ x.loop.zoneOf n = .limitLong then
      (if (x.reel e).zone = x.loop.zoneOf n then min 4 ((x.reel e).persist + 1) else 1) else 0 := by
  unfold Transport.driven
  dsimp only
  split <;> rfl

/-- A result changes the slot and the drive of its reel alone. -/
theorem Transport.given_eq (now : Nat) (e : Reel) (n : Nat) (x : Transport) : ∃ a b c d, x.given now e n =
    { x with supplySlot := a, takeupSlot := b, supply := c, takeup := d } := by
  cases e <;> exact ⟨_, _, _, _, rfl⟩

theorem Transport.given_sequencer (now : Nat) (e : Reel) (n : Nat) (x : Transport) :
    (x.given now e n).sequencer = x.sequencer := by
  cases e <;> rfl

/-- Both loops lie in the band after a result if it shows CENTER and the other loop's latest one does (R113, R153). -/
theorem Transport.given_inBand (now : Nat) (e : Reel) (n : Nat) (x : Transport) :
    (x.given now e n).inBand = true ↔ x.loop.zoneOf n = .center ∧
      x.loop.zoneOf (match e with
        | .supply => x.takeupSlot.depth
        | .takeup => x.supplySlot.depth) = .center := by
  unfold Transport.inBand Transport.latestZone
  rw [Bool.and_eq_true, beq_iff_eq, beq_iff_eq]
  cases e
  · exact Iff.rfl
  · exact and_comm

/-! ### The trip of a result (R137, R147) -/

/-- The cause of a trip in a limit zone, as the record names it. -/
def limitCause (e : Reel) (z : Zone) : Cause :=
  match e, z with
  | .supply, .limitShort => .supplyLoopShort
  | .supply, _ => .supplyLoopLong
  | .takeup, .limitShort => .takeupLoopShort
  | .takeup, _ => .takeupLoopLong

theorem loopCause_limit {e : Reel} {z : Zone} (h : z = .limitShort ∨ z = .limitLong) :
    loopCause e z = some (limitCause e z) := by
  cases e <;> rcases h with rfl | rfl <;> rfl

theorem loopCause_none {e : Reel} {z : Zone} (h : ¬(z = .limitShort ∨ z = .limitLong)) : loopCause e z = none := by
  cases z with
  | limitShort => exact absurd (.inl rfl) h
  | limitLong => exact absurd (.inr rfl) h
  | _ => cases e <;> rfl

theorem Transport.isArmed_loop (e : Reel) (z : Zone) (x : Transport) :
    x.isArmed (limitCause e z) = x.sequencer.state.loopsArmed := by
  cases e <;> cases z <;> rfl

theorem limitCause_ne_tach (e : Reel) (z : Zone) : limitCause e z ≠ .capstanTachLoss := by
  cases e <;> cases z <;> nofun

section
variable {now n : Nat} {e : Reel} {x : Transport}

theorem Transport.handTrip_below (below : (x.reel e).persist < x.loop.persistence) : x.handTrip now e = x := by
  unfold Transport.handTrip Transport.loopTrip
  dsimp only
  rw [if_neg (by omega)]
  rfl

theorem Transport.handTrip_unarmed (unarmed : x.sequencer.state.loopsArmed = false) : x.handTrip now e = x := by
  have none : (loopCause e (x.reel e).zone).filter x.isArmed = none := by
    by_cases limit : (x.reel e).zone = .limitShort ∨ (x.reel e).zone = .limitLong
    · rw [loopCause_limit limit, Option.filter_some, Transport.isArmed_loop, unarmed]
      rfl
    · rw [loopCause_none limit]
      rfl
  unfold Transport.handTrip Transport.loopTrip
  dsimp only
  split
  · rw [none]
    rfl
  · rfl

theorem Transport.handTrip_limit (reached : x.loop.persistence ≤ (x.reel e).persist)
    (limit : (x.reel e).zone = .limitShort ∨ (x.reel e).zone = .limitLong) : x.handTrip now e =
      if x.sequencer.state.loopsArmed = true then x.takeCause now (limitCause e (x.reel e).zone) else x := by
  unfold Transport.handTrip Transport.loopTrip
  dsimp only
  rw [if_pos reached, loopCause_limit limit, ← x.isArmed_loop e (x.reel e).zone, Option.filter_some]
  split <;> rfl

end

/-! ### The conversion (R129, R130) -/

/-- The converter after the conversion in progress, `rest` being the channels still to come. -/
def State.nextConverter (rest : List (TNum × Reel)) (s : State) : Converter :=
  match rest with
  | [] =>
    match TNum.all.filter fun v => (s.tr v).sequencer.state != .unloaded with
    | [] => { busy := none, rest := [] }
    | v :: others =>
      { busy := some { t := v, reel := .supply, handed := true }
        rest := (v, .takeup) :: others.flatMap fun v => [(v, .supply), (v, .takeup)] }
  | (u, g) :: more => { busy := some { t := u, reel := g, handed := true }, rest := more }

/-- What the next conversion is depends on the transports' states alone. -/
theorem State.nextConverter_congr {r s : State} (rest : List (TNum × Reel))
    (h : ∀ v, (r.tr v).sequencer.state = .unloaded ↔ (s.tr v).sequencer.state = .unloaded) :
    r.nextConverter rest = s.nextConverter rest := by
  have same : (TNum.all.filter fun v => (r.tr v).sequencer.state != .unloaded) =
      TNum.all.filter fun v => (s.tr v).sequencer.state != .unloaded :=
    List.filter_congr fun v _ => by rw [Bool.eq_iff_iff, bne_iff_ne, bne_iff_ne, Ne, h v]
  unfold State.nextConverter
  rw [same]

theorem State.nextConversion_eq {s : State} {rest : List (TNum × Reel)} (h : s.converter.rest = rest) :
    s.nextConversion = { s with converter := s.nextConverter rest } := by
  have pass : s.passChannels = (TNum.all.filter fun v => (s.tr v).sequencer.state != .unloaded).flatMap
    fun v => [(v, .supply), (v, .takeup)] := rfl
  unfold State.nextConversion State.nextConverter
  rw [h]
  cases rest with
  | cons c more => rfl
  | nil =>
    unfold State.startPass
    dsimp only
    rw [pass]
    cases TNum.all.filter fun v => (s.tr v).sequencer.state != .unloaded with
    | nil => rfl
    | cons v others => rfl

section
variable {s r : State} {t : TNum} {e : Reel} {rest : List (TNum × Reel)} {depth : Byte} {handed : Bool}

theorem State.tr_converter (c : Converter) (v : TNum) : State.tr { s with converter := c } v = s.tr v := rfl

/-- A conversion whose result makes `r` of the state goes on to the next one. -/
theorem exec_conversionEnd (busy : s.converter = { busy := some { t := t, reel := e, handed := handed }, rest := rest })
    (result : (let written := s.upd t (Transport.setSlot e { depth := depth.toNat, fresh := true })
      if handed then written.handResult t e depth.toNat else written) = r)
    (kept : r.converter = s.converter)
    (states : ∀ v, (r.tr v).sequencer.state = .unloaded ↔ (s.tr v).sequencer.state = .unloaded) :
    exec (.conversionEnd depth) s = .next { r with converter := s.nextConverter rest } := by
  refine congrArg Host.Outcome.next ?_
  unfold State.conversionEnd
  rw [busy]
  dsimp only at result ⊢
  rw [result, State.nextConversion_eq (rest := rest) (by rw [kept, busy]), State.nextConverter_congr rest states]

/-- A transport changed by `f` that leaves or keeps UNLOADED with the rest. -/
theorem states_upd {f : Transport → Transport}
    (h : (f (s.tr t)).sequencer.state = .unloaded ↔ (s.tr t).sequencer.state = .unloaded) (v : TNum) :
    ((s.upd t f).tr v).sequencer.state = .unloaded ↔ (s.tr v).sequencer.state = .unloaded := by
  by_cases same : v = t
  · rw [same, State.tr_upd_same]
    exact h
  · rw [State.tr_upd_other _ _ _ _ same]

theorem State.handResult_written (allowed : (s.tr t).loop.allowed) :
    (s.upd t (Transport.setSlot e { depth := depth.toNat, fresh := true })).handResult t e depth.toNat =
      let judged := s.upd t fun x => (x.given s.clock e depth.toNat).handTrip s.clock e
      let checked := judged.fillCheck t
      if (checked.tr t).sequencer.state = .recovering then checked.upd t (Transport.measureSteady s.clock) else checked := by
  have judged : (s.upd t (Transport.setSlot e { depth := depth.toNat, fresh := true })).upd t
      (fun x => (x.takeResult s.clock e depth.toNat).handTrip s.clock e) =
      s.upd t fun x => (x.given s.clock e depth.toNat).handTrip s.clock e := by
    rw [State.upd_upd]
    refine State.upd_congr ?_
    rw [Transport.takeResult_eq (by cases e <;> exact allowed)]
    cases e <;> rfl
  unfold State.handResult
  dsimp only
  rw [show (s.upd t (Transport.setSlot e { depth := depth.toNat, fresh := true })).clock = s.clock from rfl, judged]

/-- A result does not trip a transport in which it is not armed, or whose count is below the persistence. -/
theorem Transport.given_quiet {now n : Nat} {x : Transport} (h : (x.driven now e n).persist < x.loop.persistence ∨
    x.sequencer.state.loopsArmed = false) : (x.given now e n).handTrip now e = x.given now e n := by
  rcases h with below | unarmed
  · refine Transport.handTrip_below ?_
    rw [Transport.given_reel]
    cases e <;> exact below
  · exact Transport.handTrip_unarmed (by rw [Transport.given_sequencer]; exact unarmed)

/-- A result that brings a limit zone's count to the persistence is handed where it is armed. -/
theorem Transport.given_trips {now n : Nat} {x : Transport} (armed : x.sequencer.state.loopsArmed = true)
    (limit : x.loop.zoneOf n = .limitShort ∨ x.loop.zoneOf n = .limitLong)
    (reached : x.loop.persistence ≤ (x.driven now e n).persist) :
    (x.given now e n).handTrip now e = (x.given now e n).takeCause now (limitCause e (x.loop.zoneOf n)) := by
  have zone : ((x.given now e n).reel e).zone = x.loop.zoneOf n := by
    rw [Transport.given_reel, Transport.driven_zone]
  rw [Transport.handTrip_limit (by rw [Transport.given_reel]; cases e <;> exact reached) (by rw [zone]; exact limit),
    if_pos (by rw [Transport.given_sequencer]; exact armed), zone]

theorem State.given_tr : (s.upd t (Transport.given s.clock e depth.toNat)).tr t = (s.tr t).given s.clock e depth.toNat :=
  State.tr_upd_same _ _ _

section
variable (allowed : (s.tr t).loop.allowed)
include allowed

/-- A result that trips a transport in which it is armed: the cause alone is taken. -/
theorem State.handResult_trips {y : Transport} (armed : (s.tr t).sequencer.state.loopsArmed = true)
    (limit : (s.tr t).loop.zoneOf depth.toNat = .limitShort ∨ (s.tr t).loop.zoneOf depth.toNat = .limitLong)
    (reached : (s.tr t).loop.persistence ≤ ((s.tr t).driven s.clock e depth.toNat).persist)
    (taken : ((s.tr t).given s.clock e depth.toNat).takeCause s.clock (limitCause e ((s.tr t).loop.zoneOf depth.toNat)) = y)
    (held : y.sequencer.state = .held) :
    (s.upd t (Transport.setSlot e { depth := depth.toNat, fresh := true })).handResult t e depth.toNat =
      s.upd t fun _ => y := by
  have judged : (s.upd t fun x => (x.given s.clock e depth.toNat).handTrip s.clock e) = s.upd t fun _ => y :=
    State.upd_congr ((Transport.given_trips armed limit reached).trans taken)
  rw [State.handResult_written allowed, judged]
  dsimp only
  rw [State.fillCheck_else (by rw [State.tr_upd_same, held]; nofun), if_neg (by rw [State.tr_upd_same, held]; nofun)]

section
variable (quiet : ((s.tr t).driven s.clock e depth.toNat).persist < (s.tr t).loop.persistence ∨
  (s.tr t).sequencer.state.loopsArmed = false)
include quiet

/-- A result that trips nothing is judged for FILL and for the recovery. -/
theorem State.handResult_quiet :
    (s.upd t (Transport.setSlot e { depth := depth.toNat, fresh := true })).handResult t e depth.toNat =
      let checked := (s.upd t (Transport.given s.clock e depth.toNat)).fillCheck t
      if (checked.tr t).sequencer.state = .recovering then checked.upd t (Transport.measureSteady s.clock) else checked := by
  rw [State.handResult_written allowed,
    State.upd_congr (g := Transport.given s.clock e depth.toNat) (Transport.given_quiet quiet)]

/-- Outside RECOVERING a result that ends no FILL drives its reel alone. -/
theorem State.handResult_drives (steady : (s.tr t).sequencer.state ≠ .recovering)
    (fill : (s.tr t).sequencer.state ≠ .loading .fill ∨ (s.tr t).prot.vacuum.debounced = false ∨
      ((s.tr t).given s.clock e depth.toNat).inBand = false) :
    (s.upd t (Transport.setSlot e { depth := depth.toNat, fresh := true })).handResult t e depth.toNat =
      s.upd t (Transport.given s.clock e depth.toNat) := by
  have goesOn : (s.upd t (Transport.given s.clock e depth.toNat)).fillCheck t =
      s.upd t (Transport.given s.clock e depth.toNat) := by
    refine if_neg fun ⟨state, band, vacuum⟩ => ?_
    rw [State.given_tr] at state band vacuum
    rw [Transport.given_sequencer] at state
    have shown : (s.tr t).prot.vacuum.debounced = true := by cases e <;> exact vacuum
    rcases fill with other | none | out
    · exact other state
    · exact absurd (none.symm.trans shown) nofun
    · exact absurd (out.symm.trans band) nofun
  rw [State.handResult_quiet allowed quiet, goesOn]
  dsimp only
  rw [if_neg (by rw [State.given_tr, Transport.given_sequencer]; exact steady)]

/-- In RECOVERING the steady measurement follows the two loops (R153). -/
theorem State.handResult_measures (steady : (s.tr t).sequencer.state = .recovering) :
    (s.upd t (Transport.setSlot e { depth := depth.toNat, fresh := true })).handResult t e depth.toNat =
      s.upd t fun x => (x.given s.clock e depth.toNat).measureSteady s.clock := by
  rw [State.handResult_quiet allowed quiet,
    State.fillCheck_else (by rw [State.given_tr, Transport.given_sequencer, steady]; nofun)]
  dsimp only
  rw [if_pos (by rw [State.given_tr, Transport.given_sequencer]; exact steady), State.upd_upd]

end

/-- A result that shows both loops in the band with vacuum ends FILL (R113). -/
theorem State.handResult_fills (state : (s.tr t).sequencer.state = .loading .fill) (cond : (s.tr t).cap.seg.cond = .atRest)
    (band : ((s.tr t).given s.clock e depth.toNat).inBand = true) (vacuum : (s.tr t).prot.vacuum.debounced = true) :
    (s.upd t (Transport.setSlot e { depth := depth.toNat, fresh := true })).handResult t e depth.toNat =
      s.upd t fun x => Transport.takes .sequencer
        (x.cap.seg.started s.clock (s.chosenClass t) x.cap.counter .sequencer establish)
        (((x.given s.clock e depth.toNat).setState (.loading .findLoadPoint)).modSeq fun q =>
          { q with loadTimer := none, searchCount := 0 }) := by
  have ended := State.fillCheck_ends (t := t) (s := s.upd t (Transport.given s.clock e depth.toNat))
    (by rw [State.given_tr, Transport.given_sequencer]; exact state) (by rw [State.given_tr]; exact band)
    (by rw [State.given_tr]; cases e <;> exact vacuum) (by rw [State.given_tr]; cases e <;> exact cond)
  rw [State.upd_upd, State.chosenClass_upd (by cases e <;> rfl)] at ended
  rw [State.handResult_quiet allowed (.inr (by rw [state]; rfl)), ended]
  dsimp only
  rw [if_neg (by rw [State.tr_upd_same]; nofun)]
  refine State.upd_congr ?_
  cases e <;> rfl

end

/-- A result that leaves the other transports and the scan as they are. -/
theorem exec_conversionEnd_upd {f : Transport → Transport}
    (busy : s.converter = { busy := some { t := t, reel := e, handed := true }, rest := rest })
    (result : (s.upd t (Transport.setSlot e { depth := depth.toNat, fresh := true })).handResult t e depth.toNat = s.upd t f)
    (state : (f (s.tr t)).sequencer.state = .unloaded ↔ (s.tr t).sequencer.state = .unloaded) :
    exec (.conversionEnd depth) s = .next { s.upd t f with converter := s.nextConverter rest } :=
  exec_conversionEnd busy result rfl (states_upd state)

theorem XState.tripping_of_armed {q : XState} (armed : q.loopsArmed = true) (other : q ≠ .recovering) :
    q.tripping = true := by
  cases q with
  | recovering => exact absurd rfl other
  | unloaded => cases armed
  | held => cases armed
  | _ => rfl

end

/-- Settles O49: a result is given to its reel, and the state of the transport decides what else it does. -/
theorem conversionsDriveTheReels : Obligations.ConversionsDriveTheReels := by
  intro s t e rest depth handed slot
  refine ⟨fun idle => ?_, fun busy => ?_⟩
  · refine congrArg Host.Outcome.next ?_
    unfold State.conversionEnd
    rw [idle]
  intro pass next x d p z limit count named feed way forward correction entered drive judged driven given other
  have drives : given = s.upd t (Transport.given s.clock e depth.toNat) := State.upd_congr rfl
  have counted : (x.driven s.clock e depth.toNat).persist = count := x.driven_persist _ _ _
  have spared : ¬limit ∨ count < p.persistence ∨ x.sequencer.state.loopsArmed = false → p.allowed →
      (x.driven s.clock e depth.toNat).persist < x.loop.persistence ∨ x.sequencer.state.loopsArmed = false := by
    rintro (inside | below | unarmed) ⟨-, -, -, -, -, -, least, -⟩
    · refine .inl ?_
      rw [counted, show count = 0 from if_neg inside]
      exact least
    · exact .inl (counted ▸ below)
    · exact .inr unarmed
  refine ⟨fun gone => ?_, fun here allowed state => ?_, fun here allowed state center => ?_,
    fun here allowed state away => ?_, fun here allowed state quiet => ?_⟩
  · refine exec_conversionEnd busy (r := s.upd t (Transport.setSlot e slot)) ?_ rfl (states_upd ?_)
    · rw [gone]
      rfl
    · cases e <;> exact Iff.rfl
  · subst here
    have outside : x.sequencer.state ≠ .recovering ∧ x.sequencer.state ≠ .loading .fill := by
      rcases state with named | ⟨q, e⟩ | ⟨q, e⟩
      · constructor <;> intro e <;> rw [e] at named <;> simp at named
      · rw [e]
        exact ⟨nofun, nofun⟩
      · rw [e]
        exact ⟨nofun, nofun⟩
    refine ⟨fun quiet => ?_, fun limit reached armed => ?_⟩
    · rw [drives]
      exact exec_conversionEnd_upd busy (State.handResult_drives allowed (spared quiet allowed) outside.1 (.inl outside.2))
        (by rw [Transport.given_sequencer])
    · have tripping := XState.tripping_of_armed armed outside.1
      have taken := Transport.takeCause_tripping (now := s.clock) (cause := limitCause e z)
        (x := x.given s.clock e depth.toNat) (by rw [Transport.given_sequencer]; exact tripping)
      refine ⟨_, exec_conversionEnd_upd busy (State.handResult_trips allowed armed limit (by rw [counted]; exact reached)
        taken rfl) ⟨nofun, fun e => ?_⟩, rfl, ?_, fun v n => State.tr_upd_other t v (fun _ => _) s n⟩
      · rw [show x.sequencer.state = .unloaded from e] at armed
        cases armed
      · show x.heldBy (limitCause e z)
          ((s.upd t fun _ => (x.given s.clock e depth.toNat).holdEntry s.clock (limitCause e z)).tr t)
        rw [State.tr_upd_same]
        cases e <;> exact Transport.holdEntry_heldBy s.clock (x.setSlot _ slot) _ _ _ (limitCause_ne_tach _ _)
  · subst here
    have band : ((s.tr t).given s.clock e depth.toNat).inBand = true ↔ p.bandLow ≤ other ∧ other ≤ p.bandHigh :=
      ((x.given_inBand _ _ _).trans (and_iff_right center)).trans (LoopParams.zoneOf_center allowed _)
    refine ⟨fun ⟨low, high, vacuum⟩ cond => ?_, fun out => ?_⟩
    · refine ⟨_, exec_conversionEnd_upd busy
        (State.handResult_fills allowed state cond (band.mpr ⟨low, high⟩) vacuum) ⟨nofun, fun e => ?_⟩, rfl, ?_⟩
      · rw [show x.sequencer.state = .unloaded from e] at state
        cases state
      · rw [State.tr_converter (s.nextConverter rest), State.tr_upd_same]
        refine ⟨?_, Segment.started_startsFor _ _ _ _ _ _, x.given_reel _ _ _,
          fun v n => (State.tr_converter _ v).trans (State.tr_upd_other t v _ s n)⟩
        cases e <;> rfl
    · rw [drives]
      refine exec_conversionEnd_upd busy (State.handResult_drives allowed (spared (.inr (.inr (by rw [state]; rfl))) allowed)
        (by rw [show (s.tr t).sequencer.state = _ from state]; nofun) (.inr ?_)) (by rw [Transport.given_sequencer])
      by_cases vacuum : (s.tr t).prot.vacuum.debounced = true
      · exact .inr (Bool.eq_false_iff.mpr fun k => out ⟨(band.mp k).1, (band.mp k).2, vacuum⟩)
      · exact .inl (Bool.eq_false_iff.mpr vacuum)
  · subst here
    rw [drives]
    refine exec_conversionEnd_upd busy (State.handResult_drives allowed (spared (.inr (.inr (by rw [state]; rfl))) allowed)
      (by rw [show (s.tr t).sequencer.state = _ from state]; nofun) (.inr (.inr ?_))) (by rw [Transport.given_sequencer])
    exact Bool.eq_false_iff.mpr fun k => away (Transport.given_inBand _ _ _ _ |>.mp k).1
  · subst here
    intro center measured
    have band : (x.given s.clock e depth.toNat).inBand = true ↔ center :=
      (x.given_inBand _ _ _).trans (and_congr_right fun _ => LoopParams.zoneOf_center allowed _)
    have measures : measured = s.upd t fun x => (x.given s.clock e depth.toNat).measureSteady s.clock := by
      show State.upd t _ given = _
      rw [drives, State.upd_upd]
      refine State.upd_congr ?_
      unfold Transport.measureSteady
      rw [ite_congr (propext band) (fun _ => rfl) fun _ => rfl]
      cases e <;> rfl
    rw [measures]
    refine exec_conversionEnd_upd busy (State.handResult_measures allowed (spared ?_ allowed) state) ?_
    · exact quiet.imp_right .inl
    · show (x.given s.clock e depth.toNat).sequencer.state = _ ↔ _
      rw [Transport.given_sequencer]

end Sys2Proof.Machine
end

