-- ==== Sys2Proof/Proofs/Recoveries.lean ====
section
/-! PROOF. CLEAR HOLD, the end of a recovery, and its failures. -/

namespace Sys2Proof.Machine

open Sys2Proof

section
variable {t : TNum} {s : State}

/-! ### CLEAR HOLD (R124, R152) -/

theorem exec_clearHold {q : State} {p : Reply} (line : s.lineReady) (done : clearHold t s = (q, p))
    (kept : q.line.receiver = s.line.receiver) :
    exec (.clearHold (transportByte t)) s = .next (q.sending p.status p.body) :=
  exec_ready (.clearHold (transportByte t)) s q p line ((onTransport_byte t _ s).trans done) kept

theorem Transport.inBand_zones (x : Transport) : x.inBand = true ↔
    x.loop.zoneOf x.supplySlot.depth = .center ∧ x.loop.zoneOf x.takeupSlot.depth = .center := by
  unfold Transport.inBand
  rw [Bool.and_eq_true, beq_iff_eq, beq_iff_eq]
  exact Iff.rfl

/-- A hold without a cause present is cleared into a recovery. -/
theorem clearHold_recovers (state : (s.tr t).sequencer.state = .held) (clear : (s.tr t).causePresent = false) :
    clearHold t s = (s.upd t (Transport.recoveryBegin s.clock), ⟨.done, []⟩) :=
  (if_neg (fun h => h state)).trans (if_neg (by rw [clear]; nofun))

/-! ### The failures of a recovery (R154) -/

theorem Transport.takeCause_recovering {now : Nat} {cause : Cause} {x : Transport} (h : x.sequencer.state = .recovering) :
    x.takeCause now cause = x.recoveryFail now cause := by
  unfold Transport.takeCause
  rw [h]

/-- The failure of a recovery of a transport that differs from `x` in its reels, their results and its switches alone. -/
theorem Transport.recoveryFail_failedBy (now : Nat) (cause : Cause) (x : Transport) (a b : ReelDrive) (c d : ResultSlot)
    (p : Protection) (h : p.hold = x.prot.hold) :
    x.failedBy cause (Transport.recoveryFail now cause
      { x with supply := a, takeup := b, supplySlot := c, takeupSlot := d, prot := p }) := by
  refine ⟨rfl, rfl, ReelDrive.off_cut _, ReelDrive.off_cut _, rfl, rfl, ?_, rfl, rfl, rfl, rfl, rfl, rfl, rfl⟩
  rw [← h]
  rfl

/-- Event `c` makes the recovery of transport `t` fail with a cause. -/
def State.fails (t : TNum) (c : Instr) (cause : Cause) (s : State) : Prop :=
  ∃ r, exec c s = .next r ∧ s.sameOutside t r ∧ (s.tr t).failedBy cause (r.tr t)

theorem State.fails_of_upd {c : Instr} {cause : Cause} {f : Transport → Transport} (ran : exec c s = .next (s.upd t f))
    (failed : (s.tr t).failedBy cause (f (s.tr t))) : s.fails t c cause := by
  refine ⟨_, ran, State.sameOutside_upd _ _ _, ?_⟩
  rw [State.tr_upd_same]
  exact failed

section
variable (state : (s.tr t).sequencer.state = .recovering)
include state

theorem recoveryTimeout_fails (timed : (s.tr t).prot.recovery.isSome = true) :
    s.fails t (.recoveryTimeout t) .recoveryTimeout := by
  refine State.fails_of_upd (f := fun x => x.takeCause s.clock .recoveryTimeout)
    (congrArg Host.Outcome.next (if_pos ⟨state, timed⟩)) ?_
  rw [Transport.takeCause_recovering state]
  exact Transport.recoveryFail_failedBy _ _ (s.tr t) _ _ _ _ _ rfl

theorem stallTime_fails (e : Reel) (enabled : (s.tr t).prot.driveEnable = true)
    (timed : ((s.tr t).reel e).stall.isSome = true) :
    s.fails t (.stallTimeReached t e) (if e = .supply then .supplyStall else .takeupStall) := by
  refine State.fails_of_upd (congrArg Host.Outcome.next (if_pos (by simp [enabled, timed]))) ?_
  obtain ⟨a, b, reels⟩ := (s.tr t).modReel_eq e (ReelDrive.restartStall s.clock)
  rw [reels, Transport.takeCause_recovering (by exact state), ← stallCause_eq]
  exact Transport.recoveryFail_failedBy _ _ (s.tr t) a b _ _ _ rfl

/-- A switch that hands a cause in a recovery. -/
theorem debounce_fails {w : Switch} {cause : Cause} (timed : ((s.tr t).prot.input w).since.isSome = true)
    (handed : ((s.tr t).switched w).switchCause w = some cause) : s.fails t (.switchDebounceExpiry t w) cause := by
  have taken : ((s.tr t).switched w).takeCause? s.clock (((s.tr t).switched w).switchCause w) =
      ((s.tr t).switched w).recoveryFail s.clock cause := by
    rw [handed]
    exact Transport.takeCause_recovering (by cases w <;> exact state)
  have debounced : s.debounce t w = s.upd t fun x => (x.switched w).recoveryFail s.clock cause := by
    rw [State.debounce_eq timed]
    dsimp only
    rw [State.upd_congr (g := fun x => (x.switched w).recoveryFail s.clock cause) taken, State.fillCheck_else, ite_self]
    rw [State.tr_upd_same]
    nofun
  refine State.fails_of_upd (congrArg Host.Outcome.next debounced) ?_
  cases w <;> exact Transport.recoveryFail_failedBy _ _ (s.tr t) _ _ _ _ _ rfl

/-- A result that brings the count of a limit zone to the persistence trips the recovery (R137). -/
theorem conversion_fails {e : Reel} {depth : Byte} {rest : List (TNum × Reel)}
    (busy : s.converter = { busy := some { t := t, reel := e, handed := true }, rest := rest })
    (allowed : (s.tr t).loop.allowed)
    (limit : (s.tr t).loop.zoneOf depth.toNat = .limitShort ∨ (s.tr t).loop.zoneOf depth.toNat = .limitLong)
    (again : ((s.tr t).reel e).zone = (s.tr t).loop.zoneOf depth.toNat)
    (count : ((s.tr t).reel e).persist + 1 = (s.tr t).loop.persistence) :
    ∃ r, exec (.conversionEnd depth) s = .next r ∧ (∀ v, v ≠ t → r.tr v = s.tr v) ∧
      (s.tr t).failedBy (limitCause e ((s.tr t).loop.zoneOf depth.toNat)) (r.tr t) := by
  have reached : (s.tr t).loop.persistence ≤ ((s.tr t).driven s.clock e depth.toNat).persist := by
    obtain ⟨-, -, -, -, -, -, -, most⟩ := allowed
    rw [Transport.driven_persist, if_pos limit, if_pos again]
    omega
  have taken := Transport.takeCause_recovering (now := s.clock) (cause := limitCause e ((s.tr t).loop.zoneOf depth.toNat))
    (x := (s.tr t).given s.clock e depth.toNat) (by rw [Transport.given_sequencer]; exact state)
  refine ⟨_, exec_conversionEnd_upd busy (State.handResult_trips allowed (by rw [state]; rfl) limit reached taken rfl)
    ⟨nofun, fun e => ?_⟩, fun v n => (State.tr_converter _ v).trans (State.tr_upd_other t v _ s n), ?_⟩
  · rw [state] at e
    cases e
  · rw [State.tr_converter (s.nextConverter rest), State.tr_upd_same]
    cases e <;> exact Transport.recoveryFail_failedBy _ _ (s.tr t) _ _ _ _ _ rfl

end
end

/-- A depth beyond a limit lies in its zone (R132). -/
theorem LoopParams.zoneOf_limit {p : LoopParams} {n : Nat} {z : Zone} (h : p.allowed)
    (beyond : (n < p.limitShort ∧ z = .limitShort) ∨ (p.limitLong < n ∧ z = .limitLong)) : p.zoneOf n = z := by
  obtain ⟨low, band, high, -⟩ := h
  unfold LoopParams.zoneOf
  rcases beyond with ⟨short, rfl⟩ | ⟨long, rfl⟩
  · exact if_pos short
  · rw [if_neg (by omega), if_neg (by omega), if_neg (by omega), if_neg (by omega)]

/-- Settles O52: CLEAR HOLD is `clearHold_recovers`, and each failure takes its cause in RECOVERING. -/
theorem recoveryFromAHold : Obligations.RecoveryFromAHold := by
  intro t s
  refine ⟨fun line state => exec_clearHold line (if_pos state) rfl, fun line state present => ?_,
    fun line state clear => ?_, fun state timed => ?_, fun state => ⟨recoveryTimeout_fails state, stallTime_fails state,
      fun timed raw => ?_, fun timed raw => ?_, ?_⟩⟩
  · exact exec_clearHold line ((if_neg (fun h => h state)).trans (if_pos present)) rfl
  · refine ⟨_, exec_clearHold line (clearHold_recovers state clear) rfl, State.sameOutside_upd _ _ _, ?_⟩
    obtain ⟨c, begun, counter, conf⟩ := (s.tr t).recoveryBegin_eq s.clock
    rw [State.tr_upd_same, begun]
    refine ⟨rfl, ?_, rfl, rfl, counter, conf, rfl, rfl⟩
    exact congrArg (fun steady => { (s.tr t).prot with driveEnable := true, recovery := some s.clock, steady := steady })
      (ite_congr (propext (s.tr t).inBand_zones) (fun _ => rfl) fun _ => rfl)
  · exact congrArg Host.Outcome.next (if_pos ⟨state, timed⟩)
  · refine debounce_fails (w := .vacuum) state timed ((if_neg ?_).trans (if_pos ?_))
    · rw [show ((s.tr t).switched .vacuum).prot.vacuum.debounced = false from raw]
      nofun
    · show (s.tr t).sequencer.state.loopsArmed = true
      rw [state]
      rfl
  · refine debounce_fails (w := .door) state timed ((if_pos (by exact raw)).trans (if_pos ?_))
    simp [Transport.isArmed, Transport.switched, Transport.modInput, state]
  · intro e depth u g rest busy d allowed count beyond
    have zone : (s.tr t).loop.zoneOf depth.toNat = d.zone := LoopParams.zoneOf_limit allowed beyond
    have limit : d.zone = .limitShort ∨ d.zone = .limitLong := beyond.imp And.right And.right
    have failed := conversion_fails state busy allowed (by rw [zone]; exact limit) zone.symm count
    rw [zone] at failed
    exact failed

end Sys2Proof.Machine
end

