-- ==== Sys2Proof/Proofs/Loads.lean ====
section
/-! PROOF. The LOAD press, the revolutions of THREAD, the load timers and the end of the load-point search. -/

namespace Sys2Proof.Machine

open Sys2Proof

/-! ### The LOAD press (R111, R130) -/

theorem Transport.loadTaken_iff (x : Transport) : x.loadTaken = true ↔
    x.sequencer.state = .unloaded ∧ x.sequencer.online = false ∧ x.prot.reelPresent.debounced = true ∧
      x.prot.door.debounced = false := by
  simp [Transport.loadTaken]

theorem State.joinScan_eq (s : State) : s.joinScan =
    { s with converter := if s.converter.busy.isNone then Converter.start s.passChannels else s.converter } := by
  unfold State.joinScan
  split <;> rfl

/-- The only transport that meets a test. -/
theorem TNum.filter_only {p : TNum → Bool} (t : TNum) (own : p t = true) (others : ∀ u, u ≠ t → p u = false) :
    TNum.all.filter p = [t] := by
  have rest : ∀ u, u ≠ t → ¬p u = true := fun u n => by rw [others u n]; nofun
  cases t <;> simp [TNum.all, own, rest]

section
variable {t : TNum} {s : State}

/-- A transport that joins a scan which it has alone begins its first conversion (R129, R130). -/
theorem State.passChannels_only (own : (s.tr t).sequencer.state ≠ .unloaded)
    (others : ∀ u, u ≠ t → (s.tr u).sequencer.state = .unloaded) : s.passChannels = [(t, .supply), (t, .takeup)] := by
  unfold State.passChannels Transport.inScan
  rw [TNum.filter_only t (by simpa using own) fun u n => by rw [others u n]; rfl]
  rfl

theorem State.load_taken (taken : (s.tr t).loadTaken = true) :
    s.load t = (s.upd t (Transport.beginLoad s.clock)).joinScan := if_pos taken

theorem State.load_else (h : ¬(s.tr t).loadTaken = true) : s.load t = s := if_neg h

/-! ### A load that fails (R114) -/

theorem ReelDrive.command_mode (enabled : Bool) (v : Int) (d : ReelDrive) : (d.command enabled v).mode = d.mode := by
  cases enabled <;> rfl

/-- A transport whose load fails with `result`. -/
def Transport.loadFails (now : Nat) (result : LoadResult) (x : Transport) : Transport :=
  Transport.releases now (Transport.noteState (x.modSeq fun q =>
    { q with loadTimer := none, loadResult := result, panelMotion := true }))

theorem State.loadTimeout_fails {p : LoadPhase} {result : LoadResult} (state : (s.tr t).sequencer.state = .loading p)
    (timed : (s.tr t).sequencer.loadTimer.isSome = true) :
    s.loadTimeout t p result = s.upd t (Transport.loadFails s.clock result) := by
  refine (if_pos ⟨state, timed⟩).trans ?_
  unfold State.loadFail
  rw [State.beginRelease_eq, State.upd_upd]
  rfl

/-- A load that fails with `result` releases the tape, and nothing outside the transport changes. -/
def State.loadFailed (t : TNum) (result : LoadResult) (s r : State) : Prop :=
  s.sameOutside t r ∧
    (r.tr t).sequencer.state = .unloading .release ∧ (r.tr t).sequencer.loadResult = result ∧
    (r.tr t).sequencer.panelMotion = true ∧ (r.tr t).sequencer.valveOpen = false ∧
    (r.tr t).sequencer.loadTimer = none ∧ (r.tr t).sequencer.quiet = some s.clock ∧
    (r.tr t).flags = { (s.tr t).flags with state := true } ∧ (r.tr t).cap.seg.cond = .free ∧
    (r.tr t).cap.conf = .lost ∧ (r.tr t).supply.mode = .release

theorem State.loadFailed_upd (result : LoadResult) :
    s.loadFailed t result (s.upd t (Transport.loadFails s.clock result)) := by
  refine ⟨State.sameOutside_upd _ _ _, ?_⟩
  rw [State.tr_upd_same]
  exact ⟨rfl, rfl, rfl, rfl, rfl, rfl, rfl, rfl, rfl, ReelDrive.command_mode _ _ _⟩

/-! ### THREAD and FILL (R112) -/

theorem Transport.holdRest_free {now : Nat} {x : Transport} (h : x.cap.seg.cond = .free) :
    x.holdRest now = { x with cap := { x.cap with seg := x.cap.seg.rested } } := by
  unfold Transport.holdRest
  rw [h]

/-- THREAD ends with the tape freed and the drive on: the reels pay in until a loop is seen (R112, R136). -/
theorem Transport.beginFill_free {now : Nat} {x : Transport} (free : x.cap.seg.cond = .free)
    (on : x.prot.driveEnable = true) : x.beginFill now = { x with
      cap := { x.cap with seg := x.cap.seg.rested }
      sequencer := { x.sequencer with state := .loading .fill, valveOpen := true, loadTimer := some now }
      supply := ReelDrive.command true 40 { x.supply with mode := .zone, entered := false }
      takeup := ReelDrive.command true 40 { x.takeup with mode := .zone, entered := false } } := by
  unfold Transport.beginFill
  rw [Transport.holdRest_free (by exact free), ← on]
  rfl

theorem State.revolution_counts (state : (s.tr t).sequencer.state = .loading .thread)
    (few : (s.tr t).sequencer.revolutions < 2) :
    s.revolution t = s.upd t fun x => x.modSeq fun q => { q with revolutions := q.revolutions + 1 } :=
  (if_pos state).trans (if_neg (by unfold Config.threadRevolutions; omega))

theorem State.revolution_third (state : (s.tr t).sequencer.state = .loading .thread)
    (two : (s.tr t).sequencer.revolutions = 2) :
    s.revolution t = s.upd t fun x =>
      (x.modSeq fun q => { q with revolutions := q.revolutions + 1 }).beginFill s.clock := by
  refine (if_pos state).trans ((if_pos (by unfold Config.threadRevolutions; omega)).trans ?_)
  exact State.upd_upd _ _ _ _

/-! ### The end of the load-point search (R113) -/

theorem State.searchEnd_stops (state : (s.tr t).sequencer.state = .loading .findLoadPoint)
    (approach : (s.tr t).cap.seg.approach = .establishing) (cond : (s.tr t).cap.seg.cond = .running) :
    s.searchEnd t = s.upd t (Transport.stopDriven s.clock .sequencer) := by
  refine (if_pos ⟨state, ?_⟩).trans (State.stop_running _ _ _ cond)
  simp [Segment.approaching, approach, cond]

end

/-- Settles O44: the press begins a load, the revolutions count, and the timers and the search end it. -/
theorem loadsBeginAndGoOn : Obligations.LoadsBeginAndGoOn := by
  intro t s x taken
  refine ⟨fun other => ?_, fun here => ?_, ?_⟩
  · exact congrArg Host.Outcome.next (State.load_else fun h => other ((Transport.loadTaken_iff _).mp h))
  · have begun := State.joinScan_eq (s.upd t (Transport.beginLoad s.clock))
    refine ⟨_, congrArg Host.Outcome.next ((State.load_taken ((Transport.loadTaken_iff _).mpr here)).trans begun),
      State.sameOutside_upd _ _ _, fun busy => ?_, fun idle others => ?_, ?_⟩
    · exact if_neg (by rw [← Option.not_isSome, show (s.upd t _).converter.busy.isSome = true from busy]; nofun)
    · refine (if_pos (by rw [show (s.upd t _).converter.busy = none from idle]; rfl)).trans ?_
      rw [State.passChannels_only (t := t) (by rw [State.tr_upd_same]; nofun) fun u n => by
        rw [State.tr_upd_other _ _ _ _ n]; exact others u n]
      rfl
    · rw [State.tr_converter, State.tr_upd_same]
      exact ⟨rfl, rfl, rfl, rfl, rfl, rfl, rfl, rfl, rfl, rfl, rfl, rfl, rfl, rfl, rfl, rfl, rfl⟩
  intro failed
  refine ⟨fun state few => congrArg Host.Outcome.next (State.revolution_counts state few),
    fun state two free on => ?_, fun other => congrArg Host.Outcome.next (if_neg other), fun state timed => ?_,
    fun state timed => ?_, fun state approach cond => ?_⟩
  · refine ⟨_, congrArg Host.Outcome.next (State.revolution_third state two), State.sameOutside_upd _ _ _, ?_⟩
    rw [State.tr_upd_same, Transport.beginFill_free (by exact free) (by exact on)]
    exact ⟨rfl, rfl, rfl, rfl, rfl, rfl, rfl, rfl⟩
  · exact ⟨_, congrArg Host.Outcome.next (State.loadTimeout_fails state timed), State.loadFailed_upd _⟩
  · exact ⟨_, congrArg Host.Outcome.next (State.loadTimeout_fails state timed), State.loadFailed_upd _⟩
  · refine ⟨_, congrArg Host.Outcome.next (State.searchEnd_stops state approach cond), State.sameOutside_upd _ _ _, ?_⟩
    rw [State.tr_upd_same]
    exact ⟨rfl, Segment.stopsFor_stopDriven _ _ _⟩

end Sys2Proof.Machine
end

