-- ==== Sys2Proof/Proofs/Rewinds.lean ====
section
/-! PROOF. How a rewind begins at rest, goes from phase to phase, and ends. -/

namespace Sys2Proof.Machine

open Sys2Proof

/-! ### The start of a rewind (R116) -/

/-- A transport at rest that begins a rewind in state `st` with motion `q`. -/
def Transport.beginsRewind (now : Nat) (cls : Inertia) (st : XState) (q : RunReq) (x : Transport) : Transport :=
  ((x.setState st).modSeq fun k => { k with ending := false, lpStop := false }).takes .sequencer
    (x.cap.seg.started now cls x.cap.counter .sequencer q)

/-- The transport is in phase `p` of a rewind, in the motion `q`. -/
def Transport.rewindsAs (x : Transport) (p : RewindPhase) (q : RunReq) : Prop :=
  x.sequencer.state = .rewinding p ∧ x.cap.seg.dir = some q.dir ∧ x.cap.seg.speed = some q.speed ∧
    x.cap.seg.stopTarget = q.target ∧ x.cap.seg.approach = q.approach

/-- What holds of the plan of a rewind holds by the leader flag, the confidence and the counter. -/
theorem Transport.rewindPlan_table {x : Transport} {P : RewindPhase → RunReq → Prop}
    (h : P x.rewindPlan.1 x.rewindPlan.2) :
    if x.sequencer.leader = true then
      P .settle { dir := .forward, speed := .creep, target := none, approach := .establishing }
    else if x.cap.conf = .lost then P .fast { dir := .reverse, speed := .seek, target := none, approach := .none }
    else if 30000 < x.cap.counter then P .fast { dir := .reverse, speed := .rewind, target := none, approach := .none }
    else if 1500 < x.cap.counter then P .fast { dir := .reverse, speed := .seek, target := some 1500, approach := .none }
    else P .approach { dir := .reverse, speed := .creep, target := none, approach := .none } := by
  unfold Transport.rewindPlan Config.rewindSlowDown Config.rewindApproach at h
  by_cases leader : x.sequencer.leader = true
  · rw [if_pos leader] at h ⊢
    exact h
  rw [if_neg leader] at h ⊢
  by_cases lost : x.cap.conf = .lost
  · rw [if_pos lost] at h ⊢
    exact h
  rw [if_neg lost] at h ⊢
  by_cases far : 30000 < x.cap.counter
  · rw [if_pos far] at h ⊢
    exact h
  rw [if_neg far] at h ⊢
  by_cases above : 1500 < x.cap.counter
  · rw [if_pos above] at h ⊢
    exact h
  · rw [if_neg above] at h ⊢
    exact h

section
variable {t : TNum} {s : State} {o : Order} {w : Work}

theorem State.beginRewind_atRest (as : RewindPhase → XState) (cond : (s.tr t).cap.seg.cond = .atRest) :
    s.beginRewind t as =
      s.upd t (Transport.beginsRewind s.clock (s.chosenClass t) (as (s.tr t).rewindPlan.1) (s.tr t).rewindPlan.2) := by
  unfold State.beginRewind State.run
  dsimp only
  rw [State.upd_upd, State.chosenClass_upd rfl]
  refine State.upd_congr ?_
  exact Transport.run_atRest (x := ((s.tr t).setState (as (s.tr t).rewindPlan.1)).modSeq fun q =>
    { q with ending := false, lpStop := false }) cond (s.tr t).rewindPlan_ahead

/-- A transport whose motion the panel asks for (R120). -/
def Transport.panelAsks (x : Transport) : Transport := x.modSeq fun q => { q with panelMotion := true }

theorem State.rewindPress_ready (state : (s.tr t).sequencer.state = .ready) (offline : (s.tr t).sequencer.online = false) :
    s.rewindPress t = (s.upd t Transport.panelAsks).beginRewind t .rewinding := if_pos ⟨state, offline⟩

theorem rewindPress_begins (state : (s.tr t).sequencer.state = .ready) (offline : (s.tr t).sequencer.online = false)
    (cond : (s.tr t).cap.seg.cond = .atRest) : exec (.rewindPress t) s = .next (s.upd t fun x =>
      x.panelAsks.beginsRewind s.clock (s.chosenClass t) (.rewinding (s.tr t).rewindPlan.1) (s.tr t).rewindPlan.2) := by
  have plan : ((s.upd t Transport.panelAsks).tr t).rewindPlan = (s.tr t).rewindPlan := by
    rw [State.tr_upd_same]
    rfl
  refine congrArg Host.Outcome.next ?_
  rw [State.rewindPress_ready state offline, State.beginRewind_atRest _ (by rw [State.tr_upd_same]; exact cond), plan,
    State.chosenClass_upd rfl, State.upd_upd]
  rfl

/-! ### The at-rest event of a rewind (R116 to R118) -/

theorem XState.rewindPhase_iff (q : XState) (p : RewindPhase) :
    q.rewindPhase? = some p ↔ q = .rewinding p ∨ q = .unloading (.ret p) := by
  cases q with
  | unloading u => cases u <;> simp [XState.rewindPhase?]
  | _ => simp [XState.rewindPhase?]

theorem State.sequencerAtRest_rewind {p : RewindPhase} (rezero : Bool)
    (phase : (s.tr t).sequencer.state.rewindPhase? = some p) :
    s.sequencerAtRest t rezero = s.rewindAtRest t p rezero := by
  unfold State.sequencerAtRest
  rcases (XState.rewindPhase_iff _ p).mp phase with e | e <;> rw [e]

theorem State.rewindAtRest_lpStop (rezero : Bool) (stop : (s.tr t).sequencer.lpStop = true) :
    s.rewindAtRest t .fast rezero = s.nextRewindPhase t .settle establish := if_pos stop

theorem State.rewindAtRest_further (rezero : Bool) (stop : (s.tr t).sequencer.lpStop = false)
    (ending : (s.tr t).sequencer.ending = false) :
    s.rewindAtRest t .fast rezero = s.nextRewindPhase t .approach (reverseRun .creep none) :=
  (if_neg (by rw [stop]; nofun)).trans (if_neg (by rw [ending]; nofun))

theorem State.rewindAtRest_ended (rezero : Bool) (stop : (s.tr t).sequencer.lpStop = false)
    (ending : (s.tr t).sequencer.ending = true) : s.rewindAtRest t .fast rezero = s.sequenceReady t .halted :=
  (if_neg (by rw [stop]; nofun)).trans (if_pos ending)

theorem State.rewindAtRest_rewound (state : (s.tr t).sequencer.state = .rewinding .settle) :
    s.rewindAtRest t .settle true = s.sequenceReady t .complete := by
  unfold State.rewindAtRest
  dsimp only
  rw [state]
  rfl

/-- The rezero of the RETURN of an unload begins RELEASE, unless the unload has been ended (R117 to R119). -/
theorem State.rewindAtRest_return (state : (s.tr t).sequencer.state = .unloading (.ret .settle)) :
    s.rewindAtRest t .settle true =
      if (s.tr t).sequencer.ending then s.sequenceReady t .halted else s.beginRelease t := by
  unfold State.rewindAtRest
  dsimp only
  rw [state]
  rfl

theorem State.rewindAtRest_returned (state : (s.tr t).sequencer.state = .unloading (.ret .settle))
    (ending : (s.tr t).sequencer.ending = true) : s.rewindAtRest t .settle true = s.sequenceReady t .halted :=
  (State.rewindAtRest_return state).trans (if_pos ending)

theorem XState.withRewindPhase_eq {q : XState} (next : RewindPhase) : ∀ p, q.rewindPhase? = some p →
    q.withRewindPhase next = match q with
      | .rewinding _ => .rewinding next
      | _ => .unloading (.ret next) := by
  intro p phase
  rcases (XState.rewindPhase_iff _ p).mp phase with rfl | rfl <;> rfl

/-- A transport at rest, its windows shut and a rezero made if there is one. -/
def Transport.settled (rezero : Bool) (x : Transport) : Transport := x.abandoned.comesToRest rezero

/-- A rezero of an establishing approach leaves the counter 0 in EXACT confidence; without one both stay (R4). -/
theorem Transport.settled_position {x : Transport} (h : x.cap.seg.approach = .establishing) :
    (x.settled true).cap.counter = 0 ∧ (x.settled true).cap.conf = .exact := by
  unfold Transport.settled Transport.comesToRest
  rw [if_pos rfl, show x.abandoned.cap.seg.approach = .establishing from h]
  exact ⟨rfl, rfl⟩

theorem Transport.settled_rests (rezero : Bool) (x : Transport) : (x.settled rezero).cap.seg.cond = .atRest := by
  show (x.abandoned.comesToRest rezero).cap.seg.cond = _
  rw [Transport.comesToRest_seg]
  rfl

/-- The next phase of a rewind at rest begins with its motion. -/
def Transport.goesOn (now : Nat) (cls : Inertia) (next : RewindPhase) (q : RunReq) (x : Transport) : Transport :=
  (x.setState (x.sequencer.state.withRewindPhase next)).takes .sequencer
    (x.cap.seg.started now cls x.cap.counter .sequencer q)

theorem State.nextRewindPhase_atRest (next : RewindPhase) {q : RunReq} (target : q.target = none)
    (cond : (s.tr t).cap.seg.cond = .atRest) : s.nextRewindPhase t next q =
      s.upd t (Transport.goesOn s.clock (s.chosenClass t) next q) := by
  unfold State.nextRewindPhase State.run
  rw [State.upd_upd, State.chosenClass_upd rfl]
  refine State.upd_congr ?_
  exact Transport.run_atRest (x := (s.tr t).setState ((s.tr t).sequencer.state.withRewindPhase next)) cond
    (RunReq.ahead_none target)

/-! ### The ends of a sequence (R100, R117, R118) -/

/-- The endings asked for are forgotten. -/
def Transport.endingsOver (x : Transport) : Transport := x.modSeq fun q => { q with ending := false, lpStop := false }

theorem State.sequenceReady_idle (status : Completion) (idle : (s.tr t).running = none) : s.sequenceReady t status =
    s.upd t fun x => ((x.endingsOver.setState .ready).modSeq fun q => { q with panelMotion := false }).noteState := by
  unfold State.sequenceReady
  dsimp only
  rw [idle, if_neg nofun, State.upd_upd]
  rfl

theorem State.sequenceReady_order (status : Completion) (list : (s.tr t).orders.list = [.running o w]) :
    s.sequenceReady t status = s.upd t fun x => x.endingsOver.orderDone status := by
  have busy : (s.tr t).running.isSome = true := by rw [Transport.running_single list]; rfl
  refine (if_pos busy).trans ?_
  rw [State.orderEnd_single (o := o) (w := w) status (by rw [State.tr_upd_same]; exact list), State.upd_upd]
  rfl

/-- The record of a REWIND or an UNLOAD counts nothing and names no mark (R85). -/
theorem Order.ended_sequence {status : Completion} (kind : o.kind = .rewind ∨ o.kind = .unload) (h : status ≠ .barrier)
    (counter : Int) : o.ended w status counter =
      { tag := o.tag, kind := o.kind, status := status, count := 0, finalPos := some counter, markNumber := none } := by
  obtain ⟨tag, k⟩ := o
  cases status with
  | barrier => exact absurd rfl h
  | _ => obtain e | e := kind <;> cases e <;> rfl

/-- The sequence of transport `t` has ended READY in `r`: its order with `status`, or else the panel motion (R117, R118). -/
def State.sequenceEnds (t : TNum) (status : Completion) (counter : Int) (conf : Confidence) (s r : State) : Prop :=
  s.sameOutside t r ∧ (r.tr t).cap.counter = counter ∧
    (r.tr t).cap.conf = conf ∧ (r.tr t).cap.seg.cond = .atRest ∧ (r.tr t).sequencer.state = .ready ∧
    (∀ o w, (s.tr t).orders.list = [.running o w] → o.kind = .rewind ∨ o.kind = .unload →
      (r.tr t).orders.list = [.record { tag := o.tag, kind := o.kind, status := status, count := 0
                                        finalPos := some counter, markNumber := none }] ∧
      (r.tr t).flags = (s.tr t).flags) ∧
    ((s.tr t).running = none → (r.tr t).orders = (s.tr t).orders ∧ (r.tr t).sequencer.panelMotion = false ∧
      (r.tr t).flags = { (s.tr t).flags with state := true })

theorem State.sequenceReady_ends {rezero : Bool} {status : Completion} (other : status ≠ .barrier)
    (only : (s.tr t).running = none ∨ ∃ o w, (s.tr t).orders.list = [.running o w]) :
    s.sequenceEnds t status ((s.tr t).settled rezero).cap.counter ((s.tr t).settled rezero).cap.conf
      ((s.upd t (Transport.settled rezero)).sequenceReady t status) := by
  have tr : (s.upd t (Transport.settled rezero)).tr t = (s.tr t).settled rezero := State.tr_upd_same _ _ _
  rcases only with idle | ⟨o, w, list⟩
  · rw [State.sequenceReady_idle status (by rw [tr]; exact idle), State.upd_upd]
    refine ⟨State.sameOutside_upd _ _ _, ?_⟩
    rw [State.tr_upd_same]
    refine ⟨rfl, rfl, Transport.settled_rests _ _, rfl, fun o w list => ?_, fun _ => ⟨rfl, rfl, rfl⟩⟩
    rw [Transport.running_single list] at idle
    cases idle
  · rw [State.sequenceReady_order (o := o) (w := w) status (by rw [tr]; exact list), State.upd_upd]
    refine ⟨State.sameOutside_upd _ _ _, ?_⟩
    rw [State.tr_upd_same]
    refine ⟨rfl, rfl, Transport.settled_rests _ _, rfl, fun k v named kind => ⟨?_, rfl⟩, fun idle => ?_⟩
    · refine (Transport.orderDone_list (x := ((s.tr t).settled rezero).endingsOver) (l := []) status named).trans ?_
      rw [Order.ended_sequence kind other]
      rfl
    · rw [Transport.running_single list] at idle
      cases idle

end

/-! ### The ends of ramps of a rewind -/

section
variable {t : TNum} {s : State} {k : Ramp} {rezero : Bool} {p : RewindPhase}
  (ramp : (s.tr t).cap.seg.cond = .ramping k) (goal : k.goal = .toRest rezero)
  (owner : (s.tr t).cap.seg.owner = some .sequencer) (shut : (s.tr t).capture.windows = [])
  (phase : (s.tr t).sequencer.state.rewindPhase? = some p)
include ramp goal owner shut phase

theorem rampEnd_rewind :
    exec (.capstanRampEnd t) s = .next ((s.upd t (Transport.settled rezero)).rewindAtRest t p rezero) := by
  rw [exec_rampEnd_rest ramp goal owner, State.still_shut _ shut]
  refine congrArg Host.Outcome.next (State.sequencerAtRest_rewind (s := s.upd t (Transport.settled rezero)) rezero ?_)
  rw [State.tr_upd_same]
  exact phase

/-- The end of a ramp without a rezero takes a rewind to its next phase. -/
theorem rampEnd_goesOn {next : RewindPhase} {q : RunReq} (still : rezero = false) (target : q.target = none)
    (goes : (s.upd t (Transport.settled rezero)).rewindAtRest t p rezero =
      (s.upd t (Transport.settled rezero)).nextRewindPhase t next q) :
    ∃ r, exec (.capstanRampEnd t) s = .next r ∧ s.sameOutside t r ∧ (r.tr t).cap.counter = (s.tr t).cap.counter ∧
      (r.tr t).cap.conf = (s.tr t).cap.conf ∧
      (r.tr t).sequencer = { (s.tr t).sequencer with state := match (s.tr t).sequencer.state with
        | .rewinding _ => .rewinding next
        | _ => .unloading (.ret next) } ∧
      (r.tr t).orders = (s.tr t).orders ∧ (r.tr t).cap.seg.startsFor .sequencer (s.chosenClass t) q := by
  subst still
  refine ⟨_, rampEnd_rewind ramp goal owner shut phase, ?_⟩
  rw [goes, State.nextRewindPhase_atRest next target (by rw [State.tr_upd_same]; exact Transport.settled_rests _ _),
    State.chosenClass_upd rfl, State.upd_upd]
  refine ⟨State.sameOutside_upd _ _ _, ?_⟩
  rw [State.tr_upd_same]
  refine ⟨rfl, rfl, ?_, rfl, Segment.started_startsFor _ _ _ _ _ _⟩
  exact congrArg (fun st => { (s.tr t).sequencer with state := st }) (XState.withRewindPhase_eq next p phase)

/-- An ended FAST phase, and the rezero of SETTLE, end the sequence READY. -/
theorem rampEnd_ends {status : Completion} (other : status ≠ .barrier)
    (only : (s.tr t).running = none ∨ ∃ o w, (s.tr t).orders.list = [.running o w])
    (ready : (s.upd t (Transport.settled rezero)).rewindAtRest t p rezero =
      (s.upd t (Transport.settled rezero)).sequenceReady t status) :
    ∃ r, exec (.capstanRampEnd t) s = .next r ∧ s.sequenceEnds t status ((s.tr t).settled rezero).cap.counter
      ((s.tr t).settled rezero).cap.conf r :=
  ⟨_, (rampEnd_rewind ramp goal owner shut phase).trans (congrArg Host.Outcome.next ready),
    State.sequenceReady_ends other only⟩

end

/-- Settles O45: the table of the start is that of the plan, and each phase ends by its own at-rest event. -/
theorem rewindBeginsByTheTable : Obligations.RewindBeginsByTheTable := by
  intro t s
  refine ⟨fun other => congrArg Host.Outcome.next (if_neg other), fun state offline cond => ?_,
    fun k rezero p ramp goal owner shut phase => ?_⟩
  · refine ⟨_, rewindPress_begins state offline cond, State.sameOutside_upd _ _ _, ?_⟩
    rw [State.tr_upd_same]
    refine ⟨rfl, rfl, rfl, rfl, ?_⟩
    exact Transport.rewindPlan_table (x := s.tr t) (P := Transport.rewindsAs _) ⟨rfl, rfl, rfl, rfl, rfl⟩
  intro x q goes ends settle
  have tr : ((s.upd t (Transport.settled rezero)).tr t).sequencer = q := by
    rw [State.tr_upd_same]
    rfl
  refine ⟨fun still fast stop => ?_, fun still fast stop ending => ?_, fun still approach => ?_,
    fun still fast stop ending only => ?_, fun made settles approach only => ?_⟩
  · subst fast
    exact rampEnd_goesOn ramp goal owner shut phase still rfl (State.rewindAtRest_lpStop rezero (by rw [tr]; exact stop))
  · subst fast
    exact rampEnd_goesOn ramp goal owner shut phase still rfl
      (State.rewindAtRest_further rezero (by rw [tr]; exact stop) (by rw [tr]; exact ending))
  · subst approach
    exact rampEnd_goesOn ramp goal owner shut phase still rfl rfl
  · subst still fast
    exact rampEnd_ends ramp goal owner shut phase nofun only
      (State.rewindAtRest_ended false (by rw [tr]; exact stop) (by rw [tr]; exact ending))
  · subst made settles
    obtain ⟨counter, conf⟩ := Transport.settled_position approach
    have done := fun status => rampEnd_ends (status := status) ramp goal owner shut phase
    rw [counter, conf] at done
    exact ⟨fun rewinding => done .complete nofun only (State.rewindAtRest_rewound (by rw [tr]; exact rewinding)),
      fun returning ending =>
        done .halted nofun only (State.rewindAtRest_returned (by rw [tr]; exact returning) (by rw [tr]; exact ending))⟩

end Sys2Proof.Machine
end

