-- ==== Sys2Proof/Proofs/Unloads.lean ====
section
/-! PROOF. The UNLOAD press, the start of RELEASE, and the entry to UNLOADED. -/

namespace Sys2Proof.Machine

open Sys2Proof

/-! ### A RUN request leaves the Sequencer alone (R11) -/

theorem Transport.decelWatch_modSeq (now : Nat) (f : Sequencer → Sequencer) (x : Transport) :
    (x.modSeq f).decelWatch now = (x.decelWatch now).modSeq f := by
  unfold Transport.decelWatch Transport.modSeq
  dsimp only
  split
  · split <;> rfl
  · rfl

theorem Transport.run_modSeq (now : Nat) (c : Inertia) (b : Owner) (q : RunReq) (f : Sequencer → Sequencer)
    (x : Transport) : (x.modSeq f).run now c b q = (x.run now c b q).modSeq f := by
  unfold Transport.run
  rw [show (x.modSeq f).cap = x.cap from rfl]
  split
  · rfl
  · rfl
  · exact Transport.decelWatch_modSeq now f { x with cap := _, capture := _ }

theorem Transport.decelWatch_sequencer (now : Nat) (x : Transport) : (x.decelWatch now).sequencer = x.sequencer := by
  unfold Transport.decelWatch
  split
  · dsimp only
    split <;> rfl
  · rfl

theorem Transport.run_sequencer (now : Nat) (c : Inertia) (b : Owner) (q : RunReq) (x : Transport) :
    (x.run now c b q).sequencer = x.sequencer := by
  unfold Transport.run
  split
  · rfl
  · rfl
  · exact Transport.decelWatch_sequencer _ _

section
variable {t : TNum} {s : State} (as other : RewindPhase → XState)

/-! ### A rewind and the RETURN of an unload begin alike (R116, R119) -/

theorem State.beginRewind_eq : s.beginRewind t as = s.upd t fun x =>
    ((x.run s.clock (s.chosenClass t) .sequencer (s.tr t).rewindPlan.2).modSeq fun q =>
      { q with ending := false, lpStop := false }).setState (as (s.tr t).rewindPlan.1) := by
  unfold State.beginRewind State.run
  dsimp only
  rw [State.upd_upd, State.chosenClass_upd rfl]
  refine State.upd_congr ?_
  unfold Transport.setState
  rw [Transport.run_modSeq, Transport.run_modSeq]
  rfl

theorem State.beginRewind_state : ((s.beginRewind t as).tr t).sequencer.state = as (s.tr t).rewindPlan.1 := by
  rw [State.beginRewind_eq, State.tr_upd_same]
  rfl

/-- Another sequence that begins with the same motion differs in its state alone. -/
theorem State.beginRewind_as :
    s.beginRewind t other = (s.beginRewind t as).upd t (Transport.setState (other (s.tr t).rewindPlan.1)) := by
  rw [State.beginRewind_eq, State.beginRewind_eq, State.upd_upd]
  rfl

/-! ### The UNLOAD press (R119, R120) -/

section
variable (offline : (s.tr t).sequencer.online = false)
include offline

theorem unloadPress_rewinding {p : RewindPhase} (state : (s.tr t).sequencer.state = .rewinding p) :
    s.unloadPress t =
      if (s.tr t).sequencer.panelMotion then s.upd t (Transport.setState (.unloading (.ret p))) else s := by
  unfold State.unloadPress
  dsimp only
  rw [offline, state]
  rfl

theorem unloadPress_ready (state : (s.tr t).sequencer.state = .ready) : s.unloadPress t = s.beginUnload t true := by
  unfold State.unloadPress
  dsimp only
  rw [offline, state]
  rfl

end

theorem State.beginUnload_releases (cond : (s.tr t).cap.seg.cond = .atRest) (counter : (s.tr t).cap.counter = 0)
    (conf : (s.tr t).cap.conf = .exact) :
    s.beginUnload t true = s.upd t fun x => x.panelAsks.releases s.clock := by
  refine (if_pos ⟨cond, counter, conf⟩).trans ?_
  rw [State.beginRelease_eq, State.upd_upd]
  rfl

theorem State.beginUnload_returns
    (elsewhere : ¬((s.tr t).cap.seg.cond = .atRest ∧ (s.tr t).cap.counter = 0 ∧ (s.tr t).cap.conf = .exact)) :
    s.beginUnload t true = (s.upd t Transport.panelAsks).beginRewind t fun p => .unloading (.ret p) := if_neg elsewhere

/-! ### RELEASE (R119, R136, R138) -/

/-- The reels of a release: with the drive on and no limit in force the supply reel pulls the tape back. -/
theorem Transport.releases_reels {now : Nat} {x : Transport} (on : x.prot.driveEnable = true)
    (unlimited : x.supply.limiting = false) :
    (x.releases now).supply.commanded = -60 ∧ (x.releases now).supply.output = -60 ∧
      (x.releases now).takeup.commanded = 0 := by
  have supply : (x.releases now).supply =
      ReelDrive.command x.prot.driveEnable (-60) { x.supply with mode := .release, entered := x.supply.entered } := rfl
  have takeup : (x.releases now).takeup =
      ReelDrive.command x.prot.driveEnable 0 { x.takeup with mode := .release, entered := x.takeup.entered } := rfl
  rw [supply, takeup, on]
  refine ⟨rfl, ?_, rfl⟩
  exact if_neg (by rw [show ({ x.supply with mode := .release } : ReelDrive).limiting = false from unlimited]; nofun)

end

/-! ### The entry to UNLOADED (R119) -/

/-- The values of a transport that enters UNLOADED, its capstan aside. -/
theorem Transport.enterUnloaded_eq (now : Nat) (x : Transport) : ∃ c : Capstan,
    x.enterUnloaded now = { x with
      cap := c
      capture := x.capture.abandonAll
      sequencer := { x.sequencer with state := .unloaded, panelMotion := false, leader := false, quiet := none }
      supply := { x.supply.off with persist := 0 }
      takeup := { x.takeup.off with persist := 0 }
      prot := { x.prot with driveEnable := false }
      flags := { x.flags with state := true } } ∧
    c.counter = 0 ∧ c.conf = .lost ∧ c.lastGap = none ∧ c.eotPos = none := by
  obtain ⟨c, rest, -, -⟩ := x.driveOff.holdRest_eq now
  refine ⟨{ c with counter := 0, lastGap := none, eotPos := none, conf := .lost }, ?_, rfl, rfl, rfl, rfl⟩
  unfold Transport.enterUnloaded
  rw [rest]
  rfl

section
variable {t : TNum} {s : State}

/-- Shelving the bound volume changes the table and the shelf alone (R36). -/
theorem State.shelveBound_eq (t : TNum) (s : State) : ∃ v l, s.shelveBound t = { s with volumes := v, shelf := l } := by
  unfold State.shelveBound
  split
  · split <;> exact ⟨_, _, rfl⟩
  · exact ⟨_, _, rfl⟩

theorem State.shelveBound_unbound (unbound : s.boundIdx t = none) : s.shelveBound t = s := by
  unfold State.shelveBound
  rw [unbound]

/-- The transport of an order that completes as it enters UNLOADED (R100). -/
def Transport.unloads (now : Nat) (x : Transport) : Transport := (x.enterUnloaded now).makeRecord .complete

theorem Transport.unloads_values (now : Nat) (x : Transport) :
    (x.unloads now).sequencer.state = .unloaded ∧ (x.unloads now).sequencer.panelMotion = false ∧
      (x.unloads now).sequencer.leader = false ∧ (x.unloads now).sequencer.online = x.sequencer.online ∧
      (x.unloads now).prot.driveEnable = false ∧ (x.unloads now).supply.cut ∧ (x.unloads now).takeup.cut ∧
      (x.unloads now).cap.counter = 0 ∧ (x.unloads now).cap.conf = .lost ∧ (x.unloads now).cap.lastGap = none ∧
      (x.unloads now).cap.eotPos = none ∧ (x.unloads now).flags = { x.flags with state := true } := by
  obtain ⟨c, entered, position⟩ := x.enterUnloaded_eq now
  unfold Transport.unloads
  rw [entered]
  obtain ⟨counter, conf, gap, eot⟩ := position
  exact ⟨rfl, rfl, rfl, rfl, rfl, x.supply.off_cut, x.takeup.off_cut, counter, conf, gap, eot, rfl⟩

theorem Transport.unloads_list {o : Order} {w : Work} (now : Nat) (list : (s.tr t).orders.list = [.running o w])
    (kind : o.kind = .unload) : ((s.tr t).unloads now).orders.list =
      [.record { tag := o.tag, kind := .unload, status := .complete, count := 0, finalPos := some 0
                 markNumber := none }] := by
  obtain ⟨c, entered, counter, -⟩ := (s.tr t).enterUnloaded_eq now
  have named : ((s.tr t).enterUnloaded now).orders.list = [.running o w] := by rw [entered]; exact list
  have zero : ((s.tr t).enterUnloaded now).cap.counter = 0 := by rw [entered]; exact counter
  have done := Transport.orderDone_list (x := (s.tr t).enterUnloaded now) (l := []) .complete named
  rw [Order.ended_sequence (status := .complete) (.inr kind) nofun, zero, kind] at done
  exact done

theorem State.enterUnloaded_tr (u : TNum) :
    (s.enterUnloaded t).tr u = (s.upd t (Transport.unloads s.clock)).tr u := by
  obtain ⟨v, l, shelved⟩ := (s.upd t (Transport.unloads s.clock)).shelveBound_eq t
  exact (congrArg (State.tr · u) shelved :)

/-- What the entry to UNLOADED leaves of the scan holds no channel of the transport (R130). -/
theorem State.leaveScan_rest : ∀ c ∈ (s.leaveScan t).converter.rest, c.1 ≠ t := by
  intro c h
  simpa using (List.mem_filter.mp h).2

end

/-- Settles O46: the press begins RELEASE, a RETURN, or turns a rewind into one; the rezero of RETURN begins RELEASE, and
its end enters UNLOADED. -/
theorem unloadsBeginAndEnd : Obligations.UnloadsBeginAndEnd := by
  intro t s
  refine ⟨fun online => congrArg Host.Outcome.next (if_pos online),
    fun p offline state => congrArg Host.Outcome.next (unloadPress_rewinding offline state),
    fun offline state cond counter conf on unlimited => ?_, fun offline state elsewhere => ?_,
    fun k ramp goal approach owner shut state ending => ?_,
    fun other => congrArg Host.Outcome.next (if_neg fun h => other h.1), fun state quiet => ?_⟩
  · refine ⟨_, congrArg Host.Outcome.next ((unloadPress_ready offline state).trans
      (State.beginUnload_releases cond counter conf)), State.sameOutside_upd _ _ _, ?_⟩
    rw [State.tr_upd_same]
    exact ⟨rfl, rfl, rfl, rfl, rfl, rfl, Transport.releases_reels (x := (s.tr t).panelAsks) on unlimited⟩
  · refine ⟨_, _, congrArg Host.Outcome.next (State.rewindPress_ready state offline), State.beginRewind_state _, ?_⟩
    refine congrArg Host.Outcome.next ?_
    rw [unloadPress_ready offline state, State.beginUnload_returns elsewhere]
    exact State.beginRewind_as .rewinding _
  · have tr : (s.upd t (Transport.settled true)).tr t = (s.tr t).settled true := State.tr_upd_same _ _ _
    have returns := State.rewindAtRest_return (t := t) (s := s.upd t (Transport.settled true)) (by rw [tr]; exact state)
    rw [show ((s.upd t (Transport.settled true)).tr t).sequencer.ending = false by rw [tr]; exact ending, if_neg nofun,
      State.beginRelease_eq, State.upd_upd] at returns
    refine ⟨_, (rampEnd_rewind (p := .settle) ramp goal owner shut (by rw [state]; rfl)).trans
      (congrArg Host.Outcome.next returns), State.sameOutside_upd _ _ _, ?_⟩
    rw [State.tr_upd_same]
    have unended : { (s.tr t).sequencer with ending := false } = (s.tr t).sequencer := by rw [← ending]
    exact ⟨(Transport.settled_position approach).1, congrArg (fun q : Sequencer =>
      { q with state := .unloading .release, valveOpen := false, quiet := some s.clock, lpStop := false }) unended,
      rfl, rfl, rfl⟩
  · refine ⟨s.enterUnloaded t, congrArg Host.Outcome.next (if_pos ⟨state, quiet⟩), ?_⟩
    obtain ⟨v, l, shelved⟩ := (s.upd t (Transport.unloads s.clock)).shelveBound_eq t
    obtain ⟨unloaded, panel, leader, online, off, supply, takeup, counter, conf, gap, eot, flags⟩ :=
      (s.tr t).unloads_values s.clock
    rw [State.enterUnloaded_tr, State.tr_upd_same]
    refine ⟨unloaded, panel, leader, online, off, supply, takeup, counter, conf, gap, eot, flags, ?_, ?_,
      fun u n => (State.enterUnloaded_tr u).trans (State.tr_upd_other _ _ _ _ n), fun i v bound entry => ?_,
      fun unbound => ?_, fun tag w list => Transport.unloads_list (o := { tag := tag, kind := .unload }) _ list rfl,
      State.leaveScan_rest⟩
    · exact (congrArg State.marks shelved :)
    · exact (congrArg State.line shelved :)
    · have shelves := State.shelveBound_of (s := s.upd t (Transport.unloads s.clock)) bound entry
      exact ⟨(congrArg State.volumes shelves :), (congrArg State.shelf shelves :)⟩
    · have stays := State.shelveBound_unbound (s := s.upd t (Transport.unloads s.clock)) unbound
      exact ⟨(congrArg State.volumes stays :), (congrArg State.shelf stays :)⟩

end Sys2Proof.Machine
end

