-- ==== Sys2Proof/Proofs/DriveSafe.lean ====
section
/-! PROOF. Every step keeps the drive off in HELD and UNLOADED, and both reels cut and braked while it is off: the events by
`State.Kept`, the requests handler by handler, and the two entries that no event of `State.Kept` makes, power-on and the
end of a release. -/

namespace Sys2Proof.Machine

open Sys2Proof

/-- The drive enable is off in HELD and UNLOADED, and both reels are cut while it is off (R138, R145). -/
def Transport.Guarded (x : Transport) : Prop := x.driveSafe ∧ x.reelsSafe

/-- Every transport is guarded. -/
def State.Guarded (s : State) : Prop := s.every Transport.Guarded

variable {t : TNum} {s r : State}

/-! ### Changes of the state -/

/-- A change of anything but the transports. -/
theorem State.Guarded.same (h : s.Guarded) (e : r.x = s.x := by rfl) : r.Guarded := by
  intro u
  unfold State.tr
  rw [e]
  exact h u

/-- A change of one transport; without proof, one of nothing that the drive's safety reads. -/
theorem State.Guarded.upd {f : Transport → Transport} (h : s.Guarded)
    (k : (s.tr t).Guarded → (f (s.tr t)).Guarded := by exact id) : (s.upd t f).Guarded := by
  intro u
  by_cases e : u = t
  · subst e
    rw [State.tr_upd_same]
    exact k (h u)
  · rw [State.tr_upd_other _ _ _ _ e]
    exact h u

theorem State.Guarded.event (h : s.Guarded) (k : s.Kept t r) : r.Guarded := by
  intro u
  by_cases e : u = t
  · subst e
    exact k.own.safe (h u)
  · rw [k.others u e]
    exact h u

theorem State.Guarded.forEach {f : TNum → State → State} (h : s.Guarded)
    (k : ∀ (u : TNum) (q : State), q.Guarded → (f u q).Guarded) : (s.forEach f).Guarded :=
  k _ _ (k _ _ (k _ _ (k _ _ h)))

/-! ### The two entries of no event: power-on and UNLOADED -/

theorem reelAt_cut (held : Bool) (depth : Byte) : (reelAt held depth).cut := by
  cases held <;> exact ⟨rfl, rfl, rfl, rfl, rfl⟩

/-- Power comes up with every drive off (R142, R144). -/
theorem transportAt_guarded (p : XPins) : (transportAt p).Guarded :=
  ⟨⟨fun _ => rfl, fun _ => rfl⟩, fun _ => ⟨reelAt_cut _ _, reelAt_cut _ _⟩⟩

theorem State.powerOn_guarded (pins : PowerPins) (s : State) : (s.powerOn pins).Guarded := by
  intro u
  rw [State.powerOn_tr]
  exact transportAt_guarded _

theorem Transport.holdRest_drive (now : Nat) (x : Transport) :
    (x.holdRest now).prot = x.prot ∧ (x.holdRest now).supply = x.supply ∧ (x.holdRest now).takeup = x.takeup := by
  unfold Transport.holdRest
  split <;> exact ⟨rfl, rfl, rfl⟩

/-- The entry to UNLOADED turns the drive off (R119, R138). -/
theorem Transport.enterUnloaded_guarded (now : Nat) (x : Transport) : (x.enterUnloaded now).Guarded := by
  obtain ⟨prot, supply, takeup⟩ := x.driveOff.holdRest_drive now
  have off : (x.enterUnloaded now).prot.driveEnable = false := (congrArg Protection.driveEnable prot :)
  have supplyCut : (x.driveOff.holdRest now).supply.cut := supply ▸ ReelDrive.off_cut _
  have takeupCut : (x.driveOff.holdRest now).takeup.cut := takeup ▸ ReelDrive.off_cut _
  exact ⟨⟨fun _ => off, fun _ => off⟩, fun _ => ⟨supplyCut, takeupCut⟩⟩

theorem State.releaseQuiet_guarded (t : TNum) (s : State) (h : s.Guarded) : (s.releaseQuiet t).Guarded := by
  unfold State.releaseQuiet
  split
  · have entered : (s.upd t fun x => (x.enterUnloaded s.clock).makeRecord .complete).Guarded :=
      h.upd fun _ => (Transport.kept_makeRecord _ _).safe (Transport.enterUnloaded_guarded _ _)
    exact entered.same (State.shelveBound_x _ _)
  · exact h

/-! ### Mark and capture requests -/

theorem State.Guarded.reportBarrier (concerns : Bool) (h : s.Guarded) : (s.reportBarrier t concerns).Guarded := by
  unfold State.reportBarrier
  split
  · exact h.event (State.Kept.refl t s).replan
  · exact h

theorem setMark_guarded (t : TNum) (number : BitVec 16) (bits form : Byte) (position : BitVec 24) (tag : BitVec 32)
    (h : s.Guarded) : (setMark t number bits form position tag s).1.Guarded := by
  refine onVolume_state h fun i _ => ?_
  split
  case h_1 =>
    split
    case isTrue => exact h
    case isFalse =>
      split
      case h_1 => exact h
      case h_2 =>
        split
        case h_1 => exact h
        case h_2 made =>
          have room := State.makeRoom_x made
          exact State.Guarded.reportBarrier _ (h.same room)
  case h_2 => exact h

theorem changeMark_guarded (t : TNum) (number : BitVec 16) (selector bits : Byte) (position : BitVec 24)
    (tag : BitVec 32) (h : s.Guarded) : (changeMark t number selector bits position tag s).1.Guarded := by
  refine onVolume_state h fun i _ => ?_
  split
  case h_1 =>
    split
    case h_1 => exact h
    case h_2 =>
      refine State.Guarded.reportBarrier _ (State.Guarded.event ?_ (State.Kept.refl t _).pruneWatches)
      split
      · exact State.Guarded.upd h.same
      · exact h.same
  case h_2 => exact h

theorem retireMark_guarded (t : TNum) (number : BitVec 16) (h : s.Guarded) : (retireMark t number s).1.Guarded := by
  refine onMark_state h fun i m _ => State.Guarded.reportBarrier _ ?_
  have removed : (s.setMarks i (removeNumber m.number s.marks[i])).Guarded := h.same
  exact removed.upd

theorem readPassed_guarded (t : TNum) (h : s.Guarded) : (readPassed t s).1.Guarded := onVolume_state h fun _ _ => h.same

theorem setCaptureParameters_guarded (t : TNum) (lead lag : BitVec 16) (filter : Byte) (h : s.Guarded) :
    (setCaptureParameters t lead lag filter s).1.Guarded := by
  unfold setCaptureParameters
  split
  · exact h
  · split
    · exact h
    · have set : (s.upd t fun x => x.modCapture fun c => { c with lead := lead.toNat, lag := lag.toNat }).Guarded := h.upd
      exact set.event (((State.Kept.refl t _).pruneWatches.replan).filter _)

/-! ### Order requests -/

theorem setDefaultClass_guarded (t : TNum) (cls : Byte) (h : s.Guarded) : (setDefaultClass t cls s).1.Guarded := by
  unfold setDefaultClass
  split
  · exact h.upd
  · exact h

theorem State.Guarded.enqueue (o : Order) (h : s.Guarded) : (s.enqueue t o).Guarded := by
  have queued : (s.upd t (Transport.modList fun l => l ++ [.pending o])).Guarded := h.upd
  exact queued.event (State.Kept.refl t _).startNext

theorem queueOrder_guarded (t : TNum) (tag kind : Byte) (argument : BitVec 24) (h : s.Guarded) :
    (queueOrder t tag kind argument s).1.Guarded := by
  unfold queueOrder
  dsimp only
  split
  · exact h
  split
  · exact h
  split
  · exact h
  split
  · exact h
  split
  · exact h
  · exact h.enqueue _

theorem halt_guarded (t : TNum) (h : s.Guarded) : (halt t s).1.Guarded := by
  unfold halt
  split
  · exact h
  · exact h.event (State.Kept.refl t s).haltOrders

theorem Transport.kept_slotsReached (n : Nat) (x : Transport) : x.Kept (x.slotsReached n) := by
  unfold Transport.slotsReached
  split
  · exact x.kept_flags _
  · exact Transport.Kept.refl x

theorem readCompletions_guarded (t : TNum) (h : s.Guarded) : (readCompletions t s).1.Guarded :=
  h.upd (Transport.kept_slotsReached _ (Transport.modList _ (s.tr t))).safe

theorem setSlotThreshold_guarded (t : TNum) (threshold : Byte) (h : s.Guarded) :
    (setSlotThreshold t threshold s).1.Guarded := by
  unfold setSlotThreshold
  split
  · exact h
  · exact h.upd

theorem releaseTransport_guarded (t : TNum) (h : s.Guarded) : (releaseTransport t s).1.Guarded := by
  unfold releaseTransport
  split
  · exact h.event (State.Kept.refl t s).goOffline
  · exact h

/-! ### Loop and drive requests -/

theorem setLoopParameters_guarded (t : TNum) (a b c d e f : Byte) (h : s.Guarded) :
    (setLoopParameters t a b c d e f s).1.Guarded := by
  unfold setLoopParameters
  split
  · exact h.upd
  · exact h

/-- New drive parameters touch the reels only while the drive is on (R138, R141). -/
theorem Transport.newDriveParams_guarded (now : Nat) (p : DriveParams) {x : Transport} (h : x.Guarded) :
    (x.newDriveParams now p).Guarded := by
  unfold Transport.newDriveParams
  dsimp only
  split
  case isTrue on => exact ⟨h.1, fun off => absurd (on.symm.trans off) nofun⟩
  case isFalse => exact h

/-- A cut reel times no stall, so none restarts (R138, R140). -/
theorem Transport.restartStalls_guarded (now : Nat) {x : Transport} (h : x.Guarded) : (x.restartStalls now).Guarded := by
  have idle : ∀ d : ReelDrive, d.cut → (if d.stallReached now x.drive.stallMs then d.restartStall now else d).cut := by
    intro d cut
    obtain ⟨_, _, _, _, stall⟩ := id cut
    rw [ReelDrive.stallReached, stall]
    exact cut
  exact ⟨h.1, fun off => ⟨idle _ (h.2 off).1, idle _ (h.2 off).2⟩⟩

theorem setDriveParameters_guarded (t : TNum) (a b c d : Byte) (h : s.Guarded) :
    (setDriveParameters t a b c d s).1.Guarded := by
  unfold setDriveParameters
  split
  · exact h
  · exact h.upd fun k => (Transport.kept_takeCauses _ _ _).safe
      (Transport.restartStalls_guarded _ (Transport.newDriveParams_guarded _ _ k))

theorem clearHold_guarded (t : TNum) (h : s.Guarded) : (clearHold t s).1.Guarded := by
  unfold clearHold
  split
  · exact h
  · split
    · exact h
    · exact h.upd (Transport.kept_recoveryBegin _ _).safe

/-! ### Requests of the whole station -/

theorem State.Guarded.stopAll (h : s.Guarded) : s.stopAll.Guarded :=
  h.forEach fun u q k => k.event (State.Kept.refl u q).allStopOne

theorem State.Guarded.resetStation (h : s.Guarded) : s.resetStation.Guarded := by
  have dropped : (s.stopAll.forEach State.resetOrders).Guarded :=
    h.stopAll.forEach fun u q k => k.event (State.Kept.refl u q).resetOrders
  have cleared := dropped.forEach (f := fun u q => q.upd u fun x => { x.clearEvents with masks := XMasks.all })
    fun _ _ k => k.upd
  exact cleared.same

/-! ### Every request and every step -/

theorem State.guarded_request (q : Request) (s : State) (h : s.Guarded) : (s.handleRequest q).1.Guarded := by
  cases q with
  | poll => exact h
  | readLineStatus => exact h.same
  | setNoticeMasks sel =>
    have masked := h.forEach (f := fun u k => k.upd u fun x => { x with masks := masksOf (sel.x.get u) })
      fun _ _ k => k.upd
    exact masked.same
  | readNotices => exact h
  | ackNotices sel =>
    have cleared := h.forEach (f := fun u k => k.upd u fun x => { x with flags := x.flags.ack (sel.x.get u) })
      fun _ _ k => k.upd
    exact cleared.same
  | readEviction => exact h.same
  | allStop => exact h.stopAll
  | resetStation => exact h.resetStation
  | readPosition b => exact onTransport_state b h fun _ => h
  | setDefaultClass b cls => exact onTransport_state b h fun u => setDefaultClass_guarded u cls h
  | bindVolume b serial generation cls length => exact onTransport_state b h fun u => h.same (bindVolume_x u ..)
  | unbindVolume b => exact onTransport_state b h fun u => h.same (unbindVolume_x u s)
  | retireVolume serial => exact h.same (retireVolume_x serial s)
  | readVolume form index serial => exact h.same (readVolume_x form index serial s)
  | listVolumes start => exact h.same (listVolumes_x start s)
  | setMark b number bits form position tag => exact onTransport_state b h fun u => setMark_guarded u _ _ _ _ _ h
  | changeMark b number selector bits position tag =>
    exact onTransport_state b h fun u => changeMark_guarded u _ _ _ _ _ h
  | retireMark b number => exact onTransport_state b h fun u => retireMark_guarded u _ h
  | findMark b number => exact onTransport_state b h fun u => onMark_state h fun _ _ _ => h
  | findByTag b tag start => exact onTransport_state b h fun u => (findByTag_state u tag start s).symm ▸ h
  | findNearest b position side => exact onTransport_state b h fun u => (findNearest_state u position side s).symm ▸ h
  | listMarks b start => exact onTransport_state b h fun u => (listMarks_state u start s).symm ▸ h
  | readPassed b => exact onTransport_state b h fun u => readPassed_guarded u h
  | setCaptureParameters b lead lag filter =>
    exact onTransport_state b h fun u => setCaptureParameters_guarded u _ _ _ h
  | readCapture b => exact onTransport_state b h fun _ => h
  | queueOrder b tag kind argument => exact onTransport_state b h fun u => queueOrder_guarded u _ _ _ h
  | halt b => exact onTransport_state b h fun u => halt_guarded u h
  | cancelPending b => exact onTransport_state b h fun _ => h.upd
  | readCompletions b => exact onTransport_state b h fun u => readCompletions_guarded u h
  | setSlotThreshold b threshold => exact onTransport_state b h fun u => setSlotThreshold_guarded u _ h
  | readTransport b => exact onTransport_state b h fun _ => h
  | releaseTransport b => exact onTransport_state b h fun u => releaseTransport_guarded u h
  | resetTransport b => exact onTransport_state b h fun u => h.event (State.Kept.refl u s).resetTransport
  | setLoopParameters b limitShort bandLow bandHigh limitLong gain persistence =>
    exact onTransport_state b h fun u => setLoopParameters_guarded u _ _ _ _ _ _ h
  | setDriveParameters b supplyLevel takeupLevel resume stallTime =>
    exact onTransport_state b h fun u => setDriveParameters_guarded u _ _ _ _ h
  | readLoops b => exact onTransport_state b h fun _ => h.upd
  | clearHold b => exact onTransport_state b h fun u => clearHold_guarded u h
  | readHoldRecord b => exact onTransport_state b h fun _ => h

theorem keeping_guarded : Keeping State.Guarded where
  reads h x _ _ _ := h.same x
  powerOn := State.powerOn_guarded
  event k h := h.event k
  release := State.releaseQuiet_guarded
  request := State.guarded_request

/-- Settles O54: power-on leaves every drive off, what enters HELD or UNLOADED turns the drive off, and the reels
take drives, limits and stalls only while it is on. -/
theorem stepsKeepTheDriveSafe : Obligations.StepsKeepTheDriveSafe :=
  fun _ _ h x => keeping_guarded.step x h

end Sys2Proof.Machine
end

