-- ==== Sys2Proof/Proofs/LoopAndDriveParameters.lean ====
section
/-! PROOF. SET LOOP PARAMETERS and SET DRIVE PARAMETERS: which values they take, what new drive parameters make of each reel,
and the stall timers that have already reached the new stall time. -/

namespace Sys2Proof.Machine

open Sys2Proof

/-! ### Allowed values (R132, R133, R141) -/

section
variable {a b c d e f : Byte} {m : ResumeMode}

/-- Allowed loop parameters are read; limit_long is a byte and so at most 255 at all times. -/
theorem loopParamsOf_eq_some
    (h : LoopParams.allowed
      { limitShort := a.toNat, bandLow := b.toNat, bandHigh := c.toNat, limitLong := d.toNat, gain := e.toNat
        persistence := f.toNat }) :
    loopParamsOf a b c d e f = some
      { limitShort := a.toNat, bandLow := b.toNat, bandHigh := c.toNat, limitLong := d.toNat, gain := e.toNat
        persistence := f.toNat } := by
  obtain ⟨short, band, long, -, rest⟩ := h
  exact if_pos ⟨short, band, long, rest⟩

theorem loopParamsOf_eq_none
    (h : ¬LoopParams.allowed
      { limitShort := a.toNat, bandLow := b.toNat, bandHigh := c.toNat, limitLong := d.toNat, gain := e.toNat
        persistence := f.toNat }) :
    loopParamsOf a b c d e f = none :=
  if_neg fun ⟨short, band, long, rest⟩ => h ⟨short, band, long, Nat.le_of_lt_succ d.isLt, rest⟩

theorem resumeOf_code (h : m.code = c.toNat) : resumeOf c = some m := by
  unfold resumeOf
  rw [← h]
  cases m <;> rfl

theorem driveParamsOf_eq_some (h : m.code = c.toNat) (low : 5 ≤ d.toNat) (high : d.toNat ≤ 100) :
    driveParamsOf a b c d =
      some { supplyLevel := a.toNat, takeupLevel := b.toNat, resume := m, stallMs := d.toNat } := by
  unfold driveParamsOf
  rw [resumeOf_code h]
  exact if_pos ⟨low, high⟩

theorem driveParamsOf_eq_none (h : 1 < c.toNat ∨ d.toNat < 5 ∨ 100 < d.toNat) : driveParamsOf a b c d = none := by
  unfold driveParamsOf
  rcases h with mode | time
  · have none : resumeOf c = none := by
      unfold resumeOf
      split <;> first | rfl | omega
    rw [none]
    rfl
  · exact Option.bind_eq_none_iff.mpr fun _ _ => if_neg (by omega)

end

/-! ### New parameters at one reel (R139, R141) -/

section
variable {now level ms : Nat} {mode : ResumeMode} {d : ReelDrive}

/-- A forced output that has to wait stays as it is; any other is forced by its current, resumes, or stays. -/
theorem ReelDrive.newParams_eq : d.newParams now level mode =
    if d.limiting = true ∧ ¬(mode = .afterHoldOff ∧ 20 ≤ now - d.forcedAt) then d
    else if level ≤ d.current ∧ 0 < d.current then d.force now
    else if d.limiting = true then { d with limiting := false, output := d.commanded }
    else d := by
  unfold ReelDrive.newParams Config.holdOff
  by_cases limited : d.limiting = true
  · by_cases due : mode = .afterHoldOff ∧ 20 ≤ now - d.forcedAt
    · simp [limited, due, ReelDrive.resume_eq]
    · simp only [limited, due, ↓reduceIte, not_false_eq_true, and_self]
  · simp [limited, overLevel_iff]

/-- A stall timer goes on, or begins now. -/
theorem ReelDrive.newParams_stall :
    (d.newParams now level mode).stall = d.stall ∨ (d.newParams now level mode).stall = some (d.stall.getD now) := by
  rw [ReelDrive.newParams_eq]
  split
  · exact .inl rfl
  split
  · exact .inr rfl
  split <;> exact .inl rfl

theorem ReelDrive.stallReached_iff :
    d.stallReached now ms = true ↔ ∃ since, d.stall = some since ∧ 1000 * ms ≤ now - since := by
  unfold ReelDrive.stallReached
  cases d.stall <;> simp

/-- A stall timer that begins now has reached no stall time but 0, so only those that ran before have (R140). -/
theorem ReelDrive.newParams_stallReached (h : 0 < ms) :
    (d.newParams now level mode).stallReached now ms = true ↔ d.stallReached now ms = true := by
  rw [ReelDrive.stallReached_iff, ReelDrive.stallReached_iff]
  rcases d.newParams_stall (now := now) (level := level) (mode := mode) with same | begun
  · rw [same]
  · rw [begun]
    cases d.stall with
    | some since => rfl
    | none => simp; omega

end

/-! ### The stall timers that have reached the stall time (R140, R141) -/

/-- A reel's stall timer has reached the stall time in force. -/
def Transport.reached (now : Nat) (e : Reel) (x : Transport) : Prop :=
  (x.reel e).stallReached now x.drive.stallMs = true

/-- The stalls of a transport taken: each timer that has reached the stall time restarts, and its cause is handed. -/
def Transport.handStalls (now : Nat) (x : Transport) : Transport :=
  (x.stallsReached now).foldl (fun y c => y.takeCause now c) (x.restartStalls now)

section
variable {now : Nat} {x : Transport}

/-- Restarted timers change the reels alone. -/
theorem Transport.restartStalls_eq (now : Nat) (x : Transport) :
    ∃ a b, x.restartStalls now = { x with supply := a, takeup := b } := ⟨_, _, rfl⟩

theorem Transport.handStalls_none (supply : ¬x.reached now .supply) (takeup : ¬x.reached now .takeup) :
    x.handStalls now = x := by
  have restarted : x.restartStalls now = x := by
    show { x with supply := if _ then _ else _, takeup := if _ then _ else _ } = x
    rw [if_neg (by exact supply), if_neg (by exact takeup)]
  have none : x.stallsReached now = [] := by
    simp_all [Transport.stallsReached, Transport.reached]
  rw [Transport.handStalls, none, restarted]
  rfl

/-- One stall holds the transport with its cause (R140, R149). -/
theorem Transport.handStalls_one {e : Reel} (own : x.reached now e) (other : ∀ g, g ≠ e → ¬x.reached now g)
    (tripping : x.sequencer.state.tripping = true) : x.heldBy (stallCause e) (x.handStalls now) := by
  have one : x.stallsReached now = [stallCause e] := by
    cases e
    · have takeup := other .takeup nofun
      simp_all [Transport.stallsReached, Transport.reached]
    · have supply := other .supply nofun
      simp_all [Transport.stallsReached, Transport.reached]
  obtain ⟨a, b, restarted⟩ := x.restartStalls_eq now
  rw [Transport.handStalls, one, restarted, List.foldl_cons, List.foldl_nil, Transport.takeCause_tripping (by exact tripping)]
  exact Transport.holdEntry_heldBy _ _ a b _ (by cases e <;> nofun)

/-- Of two stalls the supply reel's holds the transport, and the take-up reel's joins the further causes (log entry 49). -/
theorem Transport.handStalls_both (supply : x.reached now .supply) (takeup : x.reached now .takeup)
    (tripping : x.sequencer.state.tripping = true) : ∃ y, x.heldBy .supplyStall y ∧
      x.handStalls now = { y with prot := { y.prot with hold := { y.prot.hold with further := [.takeupStall] } } } := by
  have both : x.stallsReached now = [.supplyStall, .takeupStall] := by
    simp_all [Transport.stallsReached, Transport.reached, stallCause]
  obtain ⟨a, b, restarted⟩ := x.restartStalls_eq now
  refine ⟨_, Transport.holdEntry_heldBy now x a b x.prot nofun, ?_⟩
  rw [Transport.handStalls, both, restarted, List.foldl_cons, List.foldl_cons, List.foldl_nil,
    Transport.takeCause_tripping (cause := .supplyStall) (by exact tripping), Transport.takeCause_held (by rfl)]
  rfl

end

/-! ### SET DRIVE PARAMETERS (R141) -/

section
variable {now : Nat} {p : DriveParams} {x : Transport}

theorem Transport.newDriveParams_on (on : x.prot.driveEnable = true) : x.newDriveParams now p = { x with
    drive := p, supply := x.supply.newParams now p.supplyLevel p.resume
    takeup := x.takeup.newParams now p.takeupLevel p.resume } :=
  if_pos on

theorem Transport.newDriveParams_off (off : x.prot.driveEnable = false) : x.newDriveParams now p = { x with drive := p } :=
  if_neg (by simp [off])

/-- New parameters reach no stall time by themselves: the timers that have reached it ran before. -/
theorem Transport.newDriveParams_reached (on : x.prot.driveEnable = true) (h : 0 < p.stallMs) (e : Reel) :
    (x.newDriveParams now p).reached now e ↔ ∃ since, (x.reel e).stall = some since ∧ 1000 * p.stallMs ≤ now - since := by
  rw [Transport.newDriveParams_on on, ← ReelDrive.stallReached_iff]
  cases e <;> exact ReelDrive.newParams_stallReached h

end

theorem exec_setDriveParameters {t : TNum} {s : State} {a b c d : Byte} {p : DriveParams} (ready : s.lineReady)
    (params : driveParamsOf a b c d = some p) : exec (.setDriveParameters (transportByte t) a b c d) s =
    .next (State.sending .done [] (s.upd t fun x => (x.newDriveParams s.clock p).handStalls s.clock)) := by
  refine exec_ready (.setDriveParameters (transportByte t) a b c d) s _ ⟨.done, []⟩ ready
    ((onTransport_byte t _ s).trans ?_) rfl
  unfold setDriveParameters
  rw [params]
  rfl

/-- Settles O48: allowed values are taken and others refused; new drive parameters judge each reel by its last current and
hand the stalls they find reached. -/
theorem loopAndDriveParametersAreSet : Obligations.LoopAndDriveParametersAreSet := by
  intro t a b c d e f s ready
  refine ⟨?_, fun m code low high off supply takeup => ?_, fun m code low high on => ?_, fun bad => ?_⟩
  · intro p
    refine ⟨fun allowed => ?_, fun other => ?_⟩
    · refine exec_ready (.setLoopParameters (transportByte t) a b c d e f) s _ ⟨.done, []⟩ ready
        ((onTransport_byte t _ s).trans ?_) rfl
      rw [setLoopParameters, loopParamsOf_eq_some allowed]
      rfl
    · refine exec_ready (.setLoopParameters (transportByte t) a b c d e f) s s ⟨.badParameter, []⟩ ready
        ((onTransport_byte t _ s).trans ?_) rfl
      rw [setLoopParameters, loopParamsOf_eq_none other]
      rfl
  · rw [exec_setDriveParameters ready (driveParamsOf_eq_some code low high)]
    have idle : ∀ k : ReelDrive, k.stall = none → ¬k.stallReached s.clock d.toNat = true := fun k none => by
      rw [ReelDrive.stallReached, none]
      nofun
    refine congrArg (fun q => Host.Outcome.next (State.sending .done [] q)) (State.upd_congr ?_)
    rw [Transport.newDriveParams_off off]
    exact Transport.handStalls_none (idle _ supply) (idle _ takeup)
  · intro p reached reel
    have run := exec_setDriveParameters (t := t) ready (driveParamsOf_eq_some (a := a) (b := b) code low high)
    have judged : ∀ (level : Byte) (k : ReelDrive), k.newParams s.clock level.toNat m = reel level k :=
      fun _ _ => ReelDrive.newParams_eq
    have set : (s.tr t).newDriveParams s.clock p = { s.tr t with
        drive := p, supply := reel a (s.tr t).supply, takeup := reel b (s.tr t).takeup } := by
      rw [Transport.newDriveParams_on on, ← judged, ← judged]
    have timers : ∀ g, ((s.tr t).newDriveParams s.clock p).reached s.clock g ↔ reached g :=
      Transport.newDriveParams_reached on (by exact Nat.lt_of_lt_of_le (by decide) low)
    refine ⟨fun supply takeup => ?_, fun g own other tripping => ?_, fun supply takeup tripping => ?_⟩
    · rw [run]
      refine congrArg (fun q => Host.Outcome.next (State.sending .done [] q)) (State.upd_congr ?_)
      exact (Transport.handStalls_none (fun k => supply ((timers _).mp k)) fun k => takeup ((timers _).mp k)).trans set
    · refine ⟨_, run, State.sameOutside_upd _ _ _, ?_⟩
      rw [State.tr_upd_same, ← stallCause_eq]
      have held := Transport.handStalls_one ((timers g).mpr own) (fun v n k => other v n ((timers v).mp k))
        (by rw [set]; exact tripping)
      exact set ▸ held
    · obtain ⟨y, held, joined⟩ := Transport.handStalls_both ((timers .supply).mpr supply) ((timers .takeup).mpr takeup)
        (by rw [set]; exact tripping)
      refine ⟨_, y, run, State.sameOutside_upd _ _ _, ?_, (State.tr_upd_same _ _ _).trans joined⟩
      rw [set] at held
      exact held
  · refine exec_ready (.setDriveParameters (transportByte t) a b c d) s s ⟨.badParameter, []⟩ ready
      ((onTransport_byte t _ s).trans ?_) rfl
    rw [setDriveParameters, driveParamsOf_eq_none bad]
    rfl

end Sys2Proof.Machine
end

