-- ==== Sys2Proof/Proofs/LineSound.lean ====
section
/-! PROOF. Every step keeps a waiting request waiting for the transmitter alone: no request but READ LINE STATUS and RESET
STATION touches the line, and none fills the buffer. -/

namespace Sys2Proof.Machine

open Sys2Proof

variable {t : TNum} {s r : State}

/-! ### Requests that leave the line as it is -/

/-- All operations on the four transports in turn that each leave the line as it is. -/
theorem State.forEach_line {f : TNum → State → State} (h : ∀ (u : TNum) (q : State), (f u q).line = q.line) (s : State) :
    (s.forEach f).line = s.line := by
  unfold State.forEach
  rw [h, h, h, h]

theorem State.makeRoom_line {room : State} {e : Option Serial} (h : s.makeRoom = some (room, e)) : room.line = s.line := by
  unfold State.makeRoom at h
  split at h
  · cases h; rfl
  · split at h
    · cases h; rfl
    · cases h

theorem State.freshEntry_line {i : Fin 16} {room : State} {e : Option Serial} (h : s.freshEntry = some (i, room, e)) :
    room.line = s.line := by
  unfold State.freshEntry at h
  split at h
  · cases h; rfl
  · split at h
    · cases h; rfl
    · cases h

theorem State.bind_line (t : TNum) (v : Volume) (s : State) : (s.bind t v).1.line = s.line := by
  unfold State.bind
  split
  · split
    · split <;> rfl
    · rfl
  · split
    case h_1 fresh => exact (State.freshEntry_line fresh :)
    case h_2 => rfl

theorem bindVolume_line (t : TNum) (serial : Serial) (generation : BitVec 16) (cls : Byte) (length : BitVec 24)
    (s : State) : (bindVolume t serial generation cls length s).1.line = s.line := by
  unfold bindVolume
  split
  · rfl
  · split
    · rfl
    · exact State.bind_line _ _ _

theorem State.shelveBound_line (t : TNum) (s : State) : (s.shelveBound t).line = s.line := by
  unfold State.shelveBound
  split
  · split <;> rfl
  · rfl

theorem unbindVolume_line (t : TNum) (s : State) : (unbindVolume t s).1.line = s.line := by
  unfold unbindVolume
  split
  · rfl
  · split
    · rfl
    · exact State.shelveBound_line _ _

theorem retireVolume_line (serial : Serial) (s : State) : (retireVolume serial s).1.line = s.line := by
  unfold retireVolume
  split
  · rfl
  · split
    · split <;> rfl
    · rfl

theorem State.reportBarrier_line (t : TNum) (concerns : Bool) (s : State) :
    (s.reportBarrier t concerns).line = s.line := by
  unfold State.reportBarrier
  split
  · exact (State.Kept.refl t s).replan.line
  · rfl

theorem setMark_line (t : TNum) (number : BitVec 16) (bits form : Byte) (position : BitVec 24) (tag : BitVec 32)
    (s : State) : (setMark t number bits form position tag s).1.line = s.line := by
  refine onVolume_state (P := fun q => q.line = s.line) rfl fun i _ => ?_
  split
  case h_1 =>
    split
    case isTrue => rfl
    case isFalse =>
      split
      case h_1 => rfl
      case h_2 =>
        split
        case h_1 => rfl
        case h_2 made =>
          have room := State.makeRoom_line made
          exact (State.reportBarrier_line _ _ _).trans room
  case h_2 => rfl

theorem changeMark_line (t : TNum) (number : BitVec 16) (selector bits : Byte) (position : BitVec 24)
    (tag : BitVec 32) (s : State) : (changeMark t number selector bits position tag s).1.line = s.line := by
  refine onVolume_state (P := fun q => q.line = s.line) rfl fun i _ => ?_
  split
  case h_1 =>
    split
    case h_1 => rfl
    case h_2 =>
      refine (State.reportBarrier_line _ _ _).trans ((State.Kept.refl t _).pruneWatches.line.trans ?_)
      split <;> rfl
  case h_2 => rfl

theorem retireMark_line (t : TNum) (number : BitVec 16) (s : State) : (retireMark t number s).1.line = s.line :=
  onMark_state (P := fun q => q.line = s.line) rfl fun _ _ _ => State.reportBarrier_line _ _ _

theorem setCaptureParameters_line (t : TNum) (lead lag : BitVec 16) (filter : Byte) (s : State) :
    (setCaptureParameters t lead lag filter s).1.line = s.line := by
  unfold setCaptureParameters
  split
  · rfl
  · split
    · rfl
    · exact (((State.Kept.refl t _).pruneWatches.replan).filter _).line

theorem setDefaultClass_line (t : TNum) (cls : Byte) (s : State) : (setDefaultClass t cls s).1.line = s.line := by
  unfold setDefaultClass
  split <;> rfl

theorem queueOrder_line (t : TNum) (tag kind : Byte) (argument : BitVec 24) (s : State) :
    (queueOrder t tag kind argument s).1.line = s.line := by
  unfold queueOrder
  dsimp only
  split
  · rfl
  split
  · rfl
  split
  · rfl
  split
  · rfl
  split
  · rfl
  · exact (State.Kept.refl t _).startNext.line

theorem halt_line (t : TNum) (s : State) : (halt t s).1.line = s.line := by
  unfold halt
  split
  · rfl
  · exact (State.Kept.refl t s).haltOrders.line

theorem setSlotThreshold_line (t : TNum) (threshold : Byte) (s : State) :
    (setSlotThreshold t threshold s).1.line = s.line := by
  unfold setSlotThreshold
  split <;> rfl

theorem releaseTransport_line (t : TNum) (s : State) : (releaseTransport t s).1.line = s.line := by
  unfold releaseTransport
  split
  · exact (State.Kept.refl t s).goOffline.line
  · rfl

theorem setLoopParameters_line (t : TNum) (a b c d e f : Byte) (s : State) :
    (setLoopParameters t a b c d e f s).1.line = s.line := by
  unfold setLoopParameters
  split <;> rfl

theorem setDriveParameters_line (t : TNum) (a b c d : Byte) (s : State) :
    (setDriveParameters t a b c d s).1.line = s.line := by
  unfold setDriveParameters
  split <;> rfl

theorem clearHold_line (t : TNum) (s : State) : (clearHold t s).1.line = s.line := by
  unfold clearHold
  split
  · rfl
  · split <;> rfl

theorem State.stopAll_line (s : State) : s.stopAll.line = s.line :=
  State.forEach_line (fun u q => (State.Kept.refl u q).allStopOne.line) s

/-- Only READ LINE STATUS and RESET STATION touch the line (R166, R167). -/
theorem State.handleRequest_line (q : Request) (s : State) (status : q ≠ .readLineStatus) (reset : q ≠ .resetStation) :
    (s.handleRequest q).1.line = s.line := by
  have onT : ∀ {f : TNum → State → State × Reply} (b : Byte), (∀ u, (f u s).1.line = s.line) →
      (onTransport b f s).1.line = s.line := fun b => onTransport_state (P := fun r => r.line = s.line) b rfl
  cases q with
  | poll => rfl
  | readLineStatus => exact absurd rfl status
  | setNoticeMasks sel => rfl
  | readNotices => rfl
  | ackNotices sel => rfl
  | readEviction => rfl
  | allStop => exact State.stopAll_line s
  | resetStation => exact absurd rfl reset
  | readPosition b => exact onT b fun _ => rfl
  | setDefaultClass b cls => exact onT b fun u => setDefaultClass_line u cls s
  | bindVolume b serial generation cls length => exact onT b fun u => bindVolume_line u ..
  | unbindVolume b => exact onT b fun u => unbindVolume_line u s
  | retireVolume serial => exact retireVolume_line serial s
  | readVolume form index serial => exact congrArg State.line (readVolume_state form index serial s)
  | listVolumes start => exact congrArg State.line (listVolumes_state start s)
  | setMark b number bits form position tag => exact onT b fun u => setMark_line u ..
  | changeMark b number selector bits position tag => exact onT b fun u => changeMark_line u ..
  | retireMark b number => exact onT b fun u => retireMark_line u number s
  | findMark b number => exact onT b fun u => onMark_state (P := fun r => r.line = s.line) rfl fun _ _ _ => rfl
  | findByTag b tag start => exact onT b fun u => congrArg State.line (findByTag_state u tag start s)
  | findNearest b position side => exact onT b fun u => congrArg State.line (findNearest_state u position side s)
  | listMarks b start => exact onT b fun u => congrArg State.line (listMarks_state u start s)
  | readPassed b => exact onT b fun u => onVolume_state (P := fun r => r.line = s.line) rfl fun _ _ => rfl
  | setCaptureParameters b lead lag filter => exact onT b fun u => setCaptureParameters_line u ..
  | readCapture b => exact onT b fun _ => rfl
  | queueOrder b tag kind argument => exact onT b fun u => queueOrder_line u ..
  | halt b => exact onT b fun u => halt_line u s
  | cancelPending b => exact onT b fun _ => rfl
  | readCompletions b => exact onT b fun _ => rfl
  | setSlotThreshold b threshold => exact onT b fun u => setSlotThreshold_line u threshold s
  | readTransport b => exact onT b fun _ => rfl
  | releaseTransport b => exact onT b fun u => releaseTransport_line u s
  | resetTransport b => exact onT b fun u => (State.Kept.refl u s).resetTransport.line
  | setLoopParameters b limitShort bandLow bandHigh limitLong gain persistence =>
    exact onT b fun u => setLoopParameters_line u ..
  | setDriveParameters b supplyLevel takeupLevel resume stallTime => exact onT b fun u => setDriveParameters_line u ..
  | readLoops b => exact onT b fun _ => rfl
  | clearHold b => exact onT b fun u => clearHold_line u s
  | readHoldRecord b => exact onT b fun _ => rfl

/-! ### The buffer (R162, R163) -/

/-- No request fills the buffer. -/
theorem State.handleRequest_buffer (q : Request) (h : s.line.buffer = none) :
    (s.handleRequest q).1.line.buffer = none := by
  by_cases status : q = .readLineStatus
  · subst status
    exact h
  by_cases reset : q = .resetStation
  · subst reset
    rfl
  · rw [State.handleRequest_line q s status reset]
    exact h

theorem State.respond_buffer (kind : SelKind) (p : Reply) (s : State) :
    (s.respond kind p).line.buffer = s.line.buffer := by
  unfold State.respond
  split <;> rfl

theorem State.execute_buffer (b : Buffered) (h : s.line.buffer = none) : (s.execute b).line.buffer = none := by
  refine (State.respond_buffer _ _ _).trans ?_
  unfold State.handleMessage
  split
  · exact State.handleRequest_buffer _ h
  · exact h
  · exact h

/-! ### The condition, from the buffer to a step -/

/-- A line whose buffer and transmitter are as they were. -/
theorem Line.sound.same {k l : Line} (h : k.sound) (buffer : l.buffer = k.buffer := by rfl)
    (transmitter : l.transmitter = k.transmitter := by rfl) : l.sound := by
  unfold Line.sound
  rw [buffer, transmitter]
  exact h

/-- A request is left waiting only while a response is sent. -/
theorem State.takeRequest_sound (s : State) : s.takeRequest.line.sound := by
  unfold State.takeRequest
  split
  case h_1 b _ =>
    split
    case isTrue => exact fun _ => State.execute_buffer _ rfl
    case isFalse busy => exact fun idle => absurd idle busy
  case h_2 empty => exact fun _ => empty

theorem State.submit_sound (b : Buffered) (h : s.line.sound) : (s.submit b).line.sound := by
  unfold State.submit
  split
  · exact h
  · split
    · exact h.same
    · exact State.takeRequest_sound _

theorem State.messageEnd_sound (k : SelKind) (got : List Byte) (h : s.line.sound) : (s.messageEnd k got).line.sound := by
  unfold State.messageEnd
  dsimp only
  split
  · exact State.submit_sound _ h.same
  · exact h.same

theorem State.dataFrame_sound (data : Byte) (h : s.line.sound) : (s.dataFrame data).line.sound := by
  unfold State.dataFrame
  split
  · exact h
  · exact h
  · split <;> exact h.same
  · split
    · exact State.messageEnd_sound _ _ h
    · exact h.same

/-- A response that is cut is still being sent (R164). -/
theorem Transmitter.cut_isIdle (m : Transmitter) : m.cut.isIdle = m.isIdle := by
  cases m <;> rfl

theorem State.addressFrame_sound (data : Byte) (h : s.line.sound) : (s.addressFrame data).line.sound := by
  intro idle
  refine h ?_
  unfold State.addressFrame at idle
  dsimp only at idle
  split at idle
  · exact idle
  · rwa [Transmitter.cut_isIdle] at idle

theorem State.frameError_sound (parity framing : Bool) (h : s.line.sound) :
    (s.frameError parity framing).line.sound := by
  unfold State.frameError
  split <;> exact h.same

theorem State.frameGap_sound (h : s.line.sound) : s.frameGap.line.sound := by
  unfold State.frameGap
  split
  · exact h.same
  · exact h.same
  · exact h

theorem State.transmitEnd_sound (h : s.line.sound) : s.transmitEnd.line.sound := by
  unfold State.transmitEnd
  split
  · exact h
  · exact State.takeRequest_sound _

/-! ### Events -/

theorem State.load_line (t : TNum) (s : State) : (s.load t).line = s.line := by
  unfold State.load State.joinScan
  split
  · split <;> rfl
  · rfl

theorem State.releaseQuiet_line (t : TNum) (s : State) : (s.releaseQuiet t).line = s.line := by
  unfold State.releaseQuiet
  split
  · exact State.shelveBound_line _ _
  · rfl

theorem State.nextConversion_line (s : State) : s.nextConversion.line = s.line := by
  unfold State.nextConversion
  split <;> rfl

theorem State.conversionEnd_line (depth : Nat) (s : State) : (s.conversionEnd depth).line = s.line := by
  unfold State.conversionEnd
  split
  · rfl
  · refine (State.nextConversion_line _).trans ?_
    split
    · exact ((State.Kept.refl _ _).handResult _ _).line
    · rfl

/-- No event of one transport touches the line. -/
theorem exec_event_line (c : Instr) (e : c.transport? = some t) (x : exec c s = .next r) : r.line = s.line := by
  rcases exec_event_kept c t s e with ⟨q, x', kept⟩ | rfl | rfl
  · rw [x'] at x
    cases x
    exact kept.line
  · cases x
    exact State.load_line t s
  · cases x
    exact State.releaseQuiet_line t s

/-- A command of no single transport: power-on, the frames, the end of a conversion, and every request, which reaches the
request buffer. -/
theorem exec_common_sound (c : Instr) (e : c.transport? = none) (x : exec c s = .next r) (h : s.line.sound) :
    r.line.sound := by
  cases c <;> cases e <;> cases x
  case powerOn pins => exact fun _ => rfl
  case addressFrame data => exact State.addressFrame_sound data h
  case dataFrame data => exact State.dataFrame_sound data h
  case frameError parity framing =>
    split
    · exact State.frameError_sound parity framing h
    · exact h
  case frameGapTimeout => exact State.frameGap_sound h
  case transmitEnd => exact State.transmitEnd_sound h
  case conversionEnd depth =>
    have line := State.conversionEnd_line depth.toNat s
    exact line ▸ h
  all_goals exact State.submit_sound _ h

theorem exec_sound (c : Instr) (x : exec c s = .next r) (h : s.line.sound) : r.line.sound := by
  cases e : c.transport? with
  | none => exact exec_common_sound c e x h
  | some t => exact (exec_event_line c e x) ▸ h

/-- Settles O56: a request is taken at once from a line whose transmitter is idle, none puts another one into the buffer,
and the end of a transmission takes the one that waits. -/
theorem stepsKeepTheLineSound : Obligations.StepsKeepTheLineSound := by
  intro s r h x
  unfold step at x
  split at x
  · exact exec_sound _ x h
  · cases x
    exact h

end Sys2Proof.Machine
end

