-- ==== Sys2Proof/Proofs/Frames.lean ====
section
/-! PROOF. What the receiver makes of an address frame, a data frame, a frame with an error and a frame gap, state by state. -/

namespace Sys2Proof.Machine

open Sys2Proof

section
variable {s : State} {k : SelKind} {data : Byte}

/-! ### Address frames (R159, R164) -/

/-- Only the station's own number selects ADDRESSED. -/
theorem Line.selectedBy_isAddressed (data : Byte) (l : Line) :
    (l.selectedBy data).isAddressed = true ↔ data = l.station.setWidth 8 := by
  unfold Line.selectedBy
  split
  case isTrue own => exact ⟨fun _ => own, fun _ => rfl⟩
  case isFalse other => split <;> exact ⟨nofun, fun own => absurd own other⟩

theorem Transmitter.kept_or_cut (own : Prop) [Decidable own] (m : Transmitter) :
    (if own then m else m.cut) = match m with
      | .idle => .idle
      | .sending frames cut => .sending frames (if own then cut else true) := by
  by_cases h : own <;> cases m <;> simp [h, Transmitter.cut]

/-! ### Data frames (R159, R160) -/

theorem State.dataFrame_unselected (h : s.line.receiver = .unselected) : s.dataFrame data = s := by
  unfold State.dataFrame
  rw [h]

theorem State.dataFrame_discarding (h : s.line.receiver = .discarding k) : s.dataFrame data = s := by
  unfold State.dataFrame
  rw [h]

theorem State.dataFrame_length (h : s.line.receiver = .idle k) (fits : 2 ≤ data.toNat ∧ data.toNat ≤ 63) :
    s.dataFrame data = s.setReceiver (.receiving k data.toNat [data]) := by
  unfold State.dataFrame
  rw [h]
  exact if_pos fits

theorem State.dataFrame_badLength (h : s.line.receiver = .idle k) (bad : data.toNat < 2 ∨ 63 < data.toNat) :
    s.dataFrame data = s.setReceiver (.discarding k) := by
  unfold State.dataFrame
  rw [h]
  exact if_neg (by omega)

theorem State.dataFrame_next {n : Nat} {got : List Byte} (h : s.line.receiver = .receiving k (n + 2) got) :
    s.dataFrame data = s.setReceiver (.receiving k (n + 1) (got ++ [data])) := by
  unfold State.dataFrame
  rw [h]
  exact if_neg (by omega)

theorem State.dataFrame_last {got : List Byte} (h : s.line.receiver = .receiving k 1 got) :
    s.dataFrame data = s.messageEnd k (got ++ [data]) := by
  unfold State.dataFrame
  rw [h]
  exact if_pos (le_refl 1)

theorem State.messageEnd_fails {got : List Byte} (bad : byteSum got ≠ 0) :
    s.messageEnd k got = (s.setReceiver (.idle k)).raiseFlag fun f => { f with check := true } := by
  unfold State.messageEnd
  exact if_neg bad

theorem State.messageEnd_checked {got : List Byte} (good : byteSum got = 0) :
    s.messageEnd k got = (s.setReceiver (.idle k)).submit
      { message := decodeMessage (got.getD 1 0) (got.drop 2).dropLast, kind := k } := by
  unfold State.messageEnd
  exact if_pos good

/-- One flag raised, of which it is known whether it was set. -/
theorem State.raiseFlag_eq {set : LineFlags → LineFlags} {was : Bool}
    (known : set s.line.flags = s.line.flags ↔ was = true) :
    s.raiseFlag set = { s with
      line := { s.line with flags := set s.line.flags }
      ctl := if was then s.ctl else { s.ctl with line := true } } := by
  unfold State.raiseFlag
  cases was with
  | true => rw [if_pos (known.mpr rfl), if_pos rfl]
  | false => rw [if_neg (fun h => nomatch known.mp h), if_neg nofun]

/-! ### Frames with an error, and gaps (R159, R161) -/

theorem exec_frameError {parity framing : Bool} (error : (parity || framing) = true) (s : State) :
    exec (.frameError parity framing) s = .next (s.frameError parity framing) :=
  congrArg Host.Outcome.next (if_pos error)

theorem State.frameError_unselected {parity framing : Bool} (h : s.line.receiver = .unselected) :
    s.frameError parity framing = s := by
  unfold State.frameError
  rw [h]

theorem State.setReceiver_self {r : Receiver} {s : State} (h : s.line.receiver = r) : s.setReceiver r = s := by
  rw [← h]
  rfl

/-- A selected receiver flags the errors and discards what follows. -/
theorem State.frameError_selected {parity framing : Bool}
    (h : s.line.receiver = .discarding k ∨ s.line.receiver = .idle k ∨ ∃ n got, s.line.receiver = .receiving k n got) :
    s.frameError parity framing = (s.raiseFlag (LineFlags.frameError parity framing)).setReceiver (.discarding k) := by
  unfold State.frameError
  obtain e | e | ⟨n, got, e⟩ := h <;> rw [e]
  exact (State.setReceiver_self (s := s.raiseFlag _) e).symm

theorem State.frameGap_waits (h : s.line.receiver = .unselected ∨ s.line.receiver = .idle k) : s.frameGap = s := by
  unfold State.frameGap
  obtain e | e := h <;> rw [e]

theorem State.frameGap_discarding (h : s.line.receiver = .discarding k) : s.frameGap = s.setReceiver (.idle k) := by
  unfold State.frameGap
  rw [h]

theorem State.frameGap_receiving {n : Nat} {got : List Byte} (h : s.line.receiver = .receiving k n got) :
    s.frameGap = (s.raiseFlag fun f => { f with timeout := true }).setReceiver (.idle k) := by
  unfold State.frameGap
  rw [h]

/-! ### Frames on the pair (R158) -/

theorem Bool.toNat_ite (b : Bool) : b.toNat = if b then 1 else 0 := by
  cases b <;> rfl

theorem WireFrame.ones_eq (f : WireFrame) : f.ones =
    ((List.range 8).countP fun i => f.data.getLsbD i) + (if f.kind then 1 else 0) + (if f.parity then 1 else 0) := by
  unfold WireFrame.ones onesOf
  rw [Bool.toNat_ite, Bool.toNat_ite]

/-- A frame whose ones are even, or whose stop bit is not at the resting level, is an error, whatever its kind bit shows. -/
theorem WireFrame.command_eq (f : WireFrame) : f.command =
    if f.ones % 2 = 0 ∨ f.stop = false then .frameError (decide (f.ones % 2 = 0)) (!f.stop)
    else if f.kind then .addressFrame f.data
    else .dataFrame f.data := by
  have parity : f.parityError = decide (f.ones % 2 = 0) := by
    unfold WireFrame.parityError
    rw [beq_eq_decide]
  unfold WireFrame.command WireFrame.framingError
  rw [parity]
  simp only [Bool.or_eq_true, decide_eq_true_eq, Bool.not_eq_true']

end

/-- Settles O4: only the station's own number selects ADDRESSED, and a response goes on under no other selection. -/
theorem addressFramesSelect : Obligations.AddressFramesSelect := by
  intro data s own
  refine congrArg Host.Outcome.next ?_
  unfold State.addressFrame
  dsimp only
  simp only [Line.selectedBy_isAddressed]
  rw [Transmitter.kept_or_cut]
  rfl

/-- Settles O5, by the state of the receiver. -/
theorem dataFramesAssembleMessages : Obligations.DataFramesAssembleMessages := by
  intro data s k
  refine ⟨fun h => congrArg Host.Outcome.next (State.dataFrame_unselected h),
    fun h => congrArg Host.Outcome.next (State.dataFrame_discarding h),
    fun h fits => congrArg Host.Outcome.next (State.dataFrame_length h fits),
    fun h bad => congrArg Host.Outcome.next (State.dataFrame_badLength h bad),
    fun n got h => congrArg Host.Outcome.next (State.dataFrame_next h), fun got h bad => ?_⟩
  refine congrArg Host.Outcome.next ((State.dataFrame_last h).trans ((State.messageEnd_fails bad).trans ?_))
  exact State.raiseFlag_eq (LineFlags.check_set _)

/-- Settles O6: the two tests of a frame, then the frame with an error and the gap by the state of the receiver. -/
theorem frameErrorsAndGaps : Obligations.FrameErrorsAndGaps := by
  refine ⟨fun f => ?_, fun parity framing s k => ⟨fun error => ⟨fun h => ?_, fun h => ?_⟩, fun h => ?_, fun h => ?_,
    fun n got h => ?_⟩⟩
  · rw [WireFrame.command_eq, WireFrame.ones_eq]
  · exact (exec_frameError error s).trans (congrArg Host.Outcome.next (State.frameError_unselected h))
  · exact (exec_frameError error s).trans (congrArg Host.Outcome.next (State.frameError_selected h))
  · exact congrArg Host.Outcome.next (State.frameGap_waits h)
  · exact congrArg Host.Outcome.next (State.frameGap_discarding h)
  · refine congrArg Host.Outcome.next ((State.frameGap_receiving h).trans ?_)
    rw [State.raiseFlag_eq (LineFlags.timeout_set _)]
    rfl

end Sys2Proof.Machine
end

