-- ==== Sys2Proof/Proofs/Messages.lean ====
section
/-! PROOF. Messages of the catalogue: read back from their bytes, assembled from their frames, refused by the common checks,
kept waiting by a response, and the two requests that answer what the line itself holds. -/

namespace Sys2Proof

theorem Request.body_length_le (r : Request) : r.body.length ≤ 13 := by
  cases r <;> exact Nat.le_of_ble_eq_true rfl

end Sys2Proof

namespace Sys2Proof.Machine

open Sys2Proof

/-! ### The catalogue (R178) -/

/-- A request read from its own bytes: its values are bytes, or words put together again from theirs. -/
theorem decodeMessage_code_body (r : Request) : decodeMessage r.code r.body = .known r := by
  cases r with
  | bindVolume b serial generation cls length =>
    exact congrArg₂ (fun g l => Message.known (.bindVolume b serial g cls l)) (word16_bytes generation) (word24_bytes length)
  | setMark b number bits form position tag =>
    refine (congrArg₂ (fun n p => Message.known (.setMark b n bits form p _)) (word16_bytes number) (word24_bytes position)).trans ?_
    rw [word32_bytes]
  | changeMark b number selector bits position tag =>
    refine (congrArg₂ (fun n p => Message.known (.changeMark b n selector bits p _)) (word16_bytes number)
      (word24_bytes position)).trans ?_
    rw [word32_bytes]
  | retireMark b number => exact congrArg (fun n => Message.known (.retireMark b n)) (word16_bytes number)
  | findMark b number => exact congrArg (fun n => Message.known (.findMark b n)) (word16_bytes number)
  | findByTag b tag start =>
    exact congrArg₂ (fun v n => Message.known (.findByTag b v n)) (word32_bytes tag) (word16_bytes start)
  | findNearest b position side => exact congrArg (fun p => Message.known (.findNearest b p side)) (word24_bytes position)
  | listMarks b start => exact congrArg (fun n => Message.known (.listMarks b n)) (word16_bytes start)
  | setCaptureParameters b lead lag filter =>
    exact congrArg₂ (fun v w => Message.known (.setCaptureParameters b v w filter)) (word16_bytes lead) (word16_bytes lag)
  | queueOrder b tag kind argument => exact congrArg (fun v => Message.known (.queueOrder b tag kind v)) (word24_bytes argument)
  | _ => rfl

/-- The CODEs of the catalogue, each with the length of its body (R178). -/
def requestLengths : List (Byte × Nat) :=
  [(0x01, 0), (0x02, 0), (0x03, 5), (0x04, 0), (0x05, 5), (0x06, 0), (0x0E, 0), (0x0F, 0),
    (0x10, 1), (0x11, 2), (0x20, 13), (0x21, 1), (0x22, 6), (0x23, 8), (0x24, 1),
    (0x30, 12), (0x31, 12), (0x32, 3), (0x33, 3), (0x34, 7), (0x35, 5), (0x36, 3), (0x37, 1), (0x38, 6), (0x39, 1),
    (0x40, 6), (0x41, 1), (0x42, 1), (0x43, 1), (0x44, 2), (0x50, 1), (0x51, 1), (0x52, 1),
    (0x60, 7), (0x61, 5), (0x62, 1), (0x70, 1), (0x71, 1)]

theorem decodeMessage_unknown {code : Byte} (body : List Byte) (other : ∀ p ∈ requestLengths, p.1 ≠ code) :
    decodeMessage code body = .unknown code body := by
  have apart : ∀ p ∈ requestLengths, p.1.toNat ≠ code.toNat := fun p m e => other p m (BitVec.eq_of_toNat_eq e)
  unfold decodeMessage
  split
  case h_39 => rfl
  all_goals
    rename_i named
    rw [named] at apart
    exact absurd apart (by decide)

theorem decodeMessage_badLength : ∀ p ∈ requestLengths, ∀ body : List Byte, body.length ≠ p.2 →
    decodeMessage p.1 body = .badLength p.1 body := by
  unfold requestLengths
  simp only [List.forall_mem_cons]
  and_intros
  on_goal 39 => exact fun _ none => absurd none List.not_mem_nil
  all_goals
    intro body other
    simp only [decodeMessage, BitVec.reduceToNat]
    split
    · exact absurd rfl other
    · rfl

/-- A request of the catalogue that names a transport outside 0 to 3 is refused before it reaches its block (R163). -/
theorem State.handleRequest_noTransport {r : Request} {b : Byte} (named : r.transportByte? = some b) (far : 4 ≤ b.toNat)
    (s : State) : s.handleRequest r = refuse .badParameter s := by
  cases r <;> cases named
  all_goals exact onTransport_none _ _ s far

/-! ### The frames of a message (R160) -/

theorem byteSum_append (l : List Byte) (b : Byte) : byteSum (l ++ [b]) = byteSum l + b := by
  simp [byteSum]

/-- A CHECK makes the sum 0. -/
theorem byteSum_check (l : List Byte) : byteSum (l ++ [-(byteSum l)]) = 0 := by
  rw [byteSum_append]
  exact add_neg_cancel _

/-- The LENGTH of a request's message counts its frames. -/
theorem lengthFrame_toNat (r : Request) : (byte (r.body.length + 2)).toNat = r.body.length + 2 := by
  have short := r.body_length_le
  simp only [byte, BitVec.toNat_ofNat]
  omega

section
variable {s : State} {k : SelKind}

/-- A run goes on from the next state. -/
theorem run_next (M : Host.Core) (n : Nat) {s r : M.State} (x : M.step s = .next r) : M.run (n + 1) s = M.run n r := by
  show (match M.step s with
    | .next q => M.run n q
    | .fault e => .fault e
    | .refused e => .refused e) = _
  rw [x]

/-- A run takes the front command first. -/
theorem run_front {c : Instr} {q : List Instr} {r : State} (n : Nat) (queue : s.pending = c :: q)
    (x : exec c { s with pending := q } = .next r) : Sys2Proof.core.run (n + 1) s = Sys2Proof.core.run n r := by
  refine run_next Sys2Proof.core n ?_
  show step s = .next r
  unfold step
  rw [queue]
  exact x

/-- The frames still to come of a message, taken in turn, end it. -/
theorem run_frames (rest : List Byte) (last : Byte) (s : State) (got : List Byte)
    (queue : s.pending = (rest ++ [last]).map .dataFrame)
    (h : s.line.receiver = .receiving k (rest.length + 1) got) :
    Sys2Proof.core.run (rest.length + 1) s =
      .next ({ s with pending := [] }.messageEnd k (got ++ (rest ++ [last]))) := by
  induction rest generalizing s got with
  | nil => exact run_front 0 queue (congrArg Host.Outcome.next (State.dataFrame_last h))
  | cons b rest ih =>
    have taken := State.dataFrame_next (s := { s with pending := (rest ++ [last]).map .dataFrame }) (data := b) h
    refine (run_front (rest.length + 1) queue (congrArg Host.Outcome.next taken)).trans ((ih _ _ rfl rfl).trans ?_)
    rw [List.append_assoc]
    rfl

/-- The frames of a whole message, LENGTH first, sent to a selected receiver. -/
theorem run_message (r : Request) (h : s.line.receiver = .idle k) (queue : s.pending = (messageBytes r).map .dataFrame) :
    Sys2Proof.core.run (messageBytes r).length s = .next ({ s with pending := [] }.submit { message := .known r, kind := k }) := by
  have count := lengthFrame_toNat r
  have short := r.body_length_le
  obtain ⟨check, whole, sum⟩ : ∃ check, messageBytes r = byte (r.body.length + 2) :: (r.code :: r.body ++ [check]) ∧
      byteSum (messageBytes r) = 0 := ⟨_, rfl, byteSum_check _⟩
  rw [whole] at queue sum ⊢
  have begun := State.dataFrame_length (s := { s with pending := (r.code :: r.body ++ [check]).map .dataFrame })
    (data := byte (r.body.length + 2)) h (by omega)
  have body : ((r.code :: r.body ++ [check]).drop 1).dropLast = r.body := by simp
  have ready : State.setReceiver (.idle k) { s with pending := [] } = { s with pending := [] } :=
    State.setReceiver_self (s := { s with pending := [] }) h
  calc Sys2Proof.core.run (byte (r.body.length + 2) :: (r.code :: r.body ++ [check])).length s
    _ = Sys2Proof.core.run (r.body.length + 3) s := by simp
    _ = _ := run_front (r.body.length + 2) queue (congrArg Host.Outcome.next begun)
    _ = _ := run_frames (r.code :: r.body) check _ [byte (r.body.length + 2)] rfl
      (congrArg (Receiver.receiving k · _) count)
    _ = _ := congrArg Host.Outcome.next (State.messageEnd_checked sum)
    _ = _ := congrArg Host.Outcome.next
      (congrArg₂ (fun m q => State.submit { message := m, kind := k } q)
        ((congrArg (decodeMessage r.code) body).trans (decodeMessage_code_body r)) ready)

/-! ### Messages at the buffer (R162 to R164) -/

/-- The command of a request that its kind of selection lets through (R162). -/
theorem exec_command_taken (r : Request) (s : State) (taken : k = .addressed ∨ r = .allStop ∨ r = .resetStation) :
    exec (r.command k) s = .next (s.submit { message := .known r, kind := k }) := by
  obtain rfl | rfl | rfl := taken
  · exact exec_command r s
  · rfl
  · rfl

theorem broadcastTakes_known (r : Request) (allStop : r ≠ .allStop) (reset : r ≠ .resetStation) :
    broadcastTakes (.known r) = false := by
  cases r with
  | allStop => exact absurd rfl allStop
  | resetStation => exact absurd rfl reset
  | _ => rfl

/-- A message that broadcast listening does not take changes nothing (R162). -/
theorem State.submit_discarded {m : Message} (s : State) (h : broadcastTakes m = false) :
    s.submit { message := m, kind := .broadcast } = s := by
  unfold State.submit
  exact if_pos ⟨rfl, h⟩

/-- A message that broadcast listening takes, or an addressed one, is executed at once from an empty buffer and an idle
transmitter (R162, R163). -/
theorem State.submit_executes {b : Buffered} (empty : s.line.buffer = none) (idle : s.line.transmitter.isIdle = true)
    (taken : b.kind = .addressed ∨ broadcastTakes b.message = true) : s.submit b = s.execute b := by
  have same : { s with line := { s.line with buffer := none } } = s := State.clearBuffer s empty
  unfold State.submit
  rw [if_neg (by rintro ⟨kind, none'⟩; simp [kind, none'] at taken), if_neg (by simp [empty])]
  unfold State.takeRequest
  refine (if_pos idle).trans ?_
  exact congrArg (State.execute b) same

/-- A message that the common checks refuse changes nothing, and the refusal is sent (R163, R164). -/
theorem State.submit_refused {m : Message} {status : Status} (line : s.lineReady)
    (refused : s.handleMessage m = refuse status s) :
    s.submit { message := m, kind := .addressed } = s.sending status [] := by
  obtain ⟨addressed, empty, idle⟩ := line
  rw [State.submit_executes empty (by rw [idle]; rfl) (.inl rfl)]
  unfold State.execute
  rw [refused]
  exact State.respond_sending _ _ addressed

/-- The last frame of a checked message, which begins with its LENGTH. -/
theorem State.dataFrame_checked {data code : Byte} {got body : List Byte} (h : s.line.receiver = .receiving k 1 got)
    (length : got.length = body.length + 2) (first : got.getD 1 0 = code) (rest : got.drop 2 = body)
    (sum : byteSum (got ++ [data]) = 0) :
    s.dataFrame data = (s.setReceiver (.idle k)).submit { message := decodeMessage code body, kind := k } := by
  have front : (got ++ [data]).getD 1 0 = code := by
    rw [List.getD_append _ _ _ _ (by omega), first]
  have back : ((got ++ [data]).drop 2).dropLast = body := by
    rw [List.drop_append_of_le_length (by omega), List.dropLast_concat, rest]
  rw [State.dataFrame_last h, State.messageEnd_checked sum, front, back]

/-- The end of a transmission takes what waits in the buffer (R163, R164). -/
theorem State.transmitEnd_sending {frames : List Frame} {cut : Bool} (h : s.line.transmitter = .sending frames cut) :
    s.transmitEnd = State.takeRequest { s with line := { s.line with transmitter := .idle } } := by
  unfold State.transmitEnd
  rw [h]

theorem State.takeRequest_empty (h : s.line.buffer = none) : s.takeRequest = s := by
  unfold State.takeRequest
  rw [h]

theorem State.takeRequest_waiting {b : Buffered} (h : s.line.buffer = some b) (idle : s.line.transmitter.isIdle = true) :
    s.takeRequest = State.execute b { s with line := { s.line with buffer := none } } := by
  unfold State.takeRequest
  rw [h]
  exact if_pos idle

end

/-- Settles O7: each word of a body is put together again from its bytes. -/
theorem requestsReadBackFromTheirBytes : Obligations.RequestsReadBackFromTheirBytes := decodeMessage_code_body

/-- Settles O8: the frames are taken one by one up to the CHECK, which offers the request to the buffer. -/
theorem aMessageRunsItsCommand : Obligations.AMessageRunsItsCommand := by
  intro r k s receiver queue
  refine ⟨fun taken => (run_message r receiver queue).trans (exec_command_taken r _ taken).symm,
    fun broadcast allStop reset => ?_⟩
  subst broadcast
  refine (run_message r receiver queue).trans (congrArg Host.Outcome.next ?_)
  exact State.submit_discarded _ (broadcastTakes_known r allStop reset)

/-- Settles O9: the first two checks are made of the message as it was read, the third before its block is reached. -/
theorem commonChecksRefuse : Obligations.CommonChecksRefuse := by
  refine ⟨fun data got s code body receiver empty idle length first rest sum => ?_, fun r b s line named far => ?_⟩
  · have ended := State.dataFrame_checked receiver length first rest sum
    have line : (s.setReceiver (.idle .addressed)).lineReady := ⟨rfl, empty, idle⟩
    refine ⟨fun other => congrArg Host.Outcome.next (ended.trans ?_),
      fun n named wrong => congrArg Host.Outcome.next (ended.trans ?_)⟩
    · rw [decodeMessage_unknown body other]
      exact State.submit_refused line rfl
    · rw [decodeMessage_badLength (code, n) named body wrong]
      exact State.submit_refused line rfl
  · exact (exec_command r s).trans
      (congrArg Host.Outcome.next (State.submit_refused line (State.handleRequest_noTransport named far s)))

/-- Settles O10: a request enters an empty buffer or is lost, and what waits is taken when the transmitter is idle. -/
theorem requestsWaitForTheTransmitter : Obligations.RequestsWaitForTheTransmitter := by
  intro r s
  refine ⟨fun empty busy => ?_, fun b full => ?_, fun frames cut sending => ⟨fun empty => ?_, fun waiting => ?_⟩⟩
  · exact (exec_command r s).trans (congrArg Host.Outcome.next (State.submit_waits _ s empty busy rfl))
  · refine (exec_command r s).trans (congrArg Host.Outcome.next ?_)
    rw [State.submit_overrun _ s (by rw [full]; rfl) rfl]
    exact State.raiseFlag_eq (LineFlags.overrun_set _)
  · refine congrArg Host.Outcome.next ((State.transmitEnd_sending sending).trans ?_)
    exact State.takeRequest_empty empty
  · refine Eq.trans (congrArg Host.Outcome.next ?_) (exec_command r _).symm
    have executed := State.takeRequest_waiting (s := { s with line := { s.line with transmitter := .idle } }) waiting rfl
    exact (State.transmitEnd_sending sending).trans (executed.trans (State.submit_executes rfl rfl (.inl rfl)).symm)

/-- Settles O12: both requests are executed at once on a line that can answer. -/
theorem pollAndReadLineStatus : Obligations.PollAndReadLineStatus := by
  intro s line
  exact ⟨exec_ready .poll s s _ line rfl rfl, exec_ready .readLineStatus s _ _ line rfl rfl⟩

end Sys2Proof.Machine
end

