-- ==== Sys2Proof/Proofs/Responses.lean ====
section
/-! PROOF. The frames of a response, the bits of a frame on the line, the bytes of a position, and the code tables. -/

namespace Sys2Proof.Machine

open Sys2Proof

/-! ### Responses (R164) -/

/-- The data bytes of a response: three at the front, the body, and the CHECK. -/
theorem responseData_eq (summary : Byte) (status : Status) (body : List Byte) :
    ∃ check, responseData summary { status := status, body := body } =
      [byte (body.length + 3), byte status.code, summary] ++ body ++ [check] ∧
      byteSum (responseData summary { status := status, body := body }) = 0 :=
  ⟨_, rfl, byteSum_check _⟩

theorem responseFrames_data (station : BitVec 4) (summary : Byte) (status : Status) (body : List Byte) :
    ∃ data : List Byte,
      responseFrames station summary { status := status, body := body } =
        { address := true, data := station.setWidth 8 } :: data.map (fun b => { address := false, data := b }) ∧
      data.take 3 = [byte (data.length - 1), byte status.code, summary] ∧
      (data.drop 3).take body.length = body ∧ data.length = body.length + 4 ∧ byteSum data = 0 := by
  obtain ⟨check, whole, sum⟩ := responseData_eq summary status body
  refine ⟨responseData summary { status := status, body := body }, rfl, ?_, ?_, ?_, sum⟩ <;> rw [whole]
  · have length : ([byte (body.length + 3), byte status.code, summary] ++ body ++ [check]).length - 1 =
        body.length + 3 := by simp
    rw [length]
    rfl
  · exact List.take_left
  · simp

/-! ### Frames on the line (R158, R176) -/

/-- The parity bit makes the ones odd (R158). -/
theorem Frame.wire_ones (f : Frame) : f.wire.ones % 2 = 1 := by
  have ones : f.wire.ones = onesOf f.data + f.address.toNat +
      ((onesOf f.data + f.address.toNat) % 2 == 0).toNat := rfl
  rw [ones]
  generalize onesOf f.data + f.address.toNat = n
  obtain even | odd := Nat.mod_two_eq_zero_or_one n
  · rw [even]
    show (n + 1) % 2 = 1
    omega
  · rw [odd]
    exact odd

theorem Frame.wire_ones_eq (f : Frame) : f.wire.ones =
    ((List.range 8).countP fun i => f.data.getLsbD i) + (if f.address then 1 else 0) + (if f.wire.parity then 1 else 0) :=
  WireFrame.ones_eq f.wire

/-- A frame is received as what it was sent as. -/
theorem Frame.wire_command (f : Frame) :
    f.wire.command = if f.address then .addressFrame f.data else .dataFrame f.data := by
  have odd := f.wire_ones
  have stop : f.wire.stop = true := rfl
  rw [WireFrame.command_eq, if_neg (by rw [odd, stop]; simp)]
  rfl

/-- A byte is put together again from its bits. -/
theorem byteOfBits_bits (b : Byte) :
    byteOfBits [b.getLsbD 0, b.getLsbD 1, b.getLsbD 2, b.getLsbD 3, b.getLsbD 4, b.getLsbD 5, b.getLsbD 6,
      b.getLsbD 7] = b := by
  revert b
  decide

/-- Any frame is read back from its bits (R176). -/
theorem WireFrame.ofBits_bits (w : WireFrame) : WireFrame.ofBits w.bits = some w :=
  congrArg (fun d : Byte => some ({ w with data := d } : WireFrame)) (byteOfBits_bits w.data)

/-! ### Positions (R176, R177) -/

theorem bytes24_eq (v : BitVec 24) :
    bytes24 v = [byte (v.toNat / 65536), byte (v.toNat / 256 % 256), byte (v.toNat % 256)] := by
  have part : ∀ a : Byte, ∀ n : Nat, a.toNat = n % 256 → a = byte n := fun a n h =>
    BitVec.eq_of_toNat_eq (by rw [h]; simp [byte])
  have small := v.isLt
  unfold bytes24
  refine congrArg₂ List.cons (part _ _ ?_) (congrArg₂ List.cons (part _ _ ?_) (congrArg₂ List.cons (part _ _ ?_) rfl)) <;>
    simp only [BitVec.extractLsb'_toNat, Nat.shiftRight_eq_div_pow] <;> omega

theorem positionBytes_eq (p : Int) (low : -8388608 ≤ p) (high : p ≤ 8388607) :
    positionBytes p = [byte ((p % 16777216).toNat / 65536), byte ((p % 16777216).toNat / 256 % 256),
      byte ((p % 16777216).toNat % 256)] := by
  unfold positionBytes
  rw [if_pos ⟨low, high⟩, bytes24_eq, BitVec.toNat_ofInt]
  rfl

/-- Settles O11: the frames of a response and of the line by their laws, the codes by their tables. -/
theorem responsesCarryLengthAndCheck : Obligations.ResponsesCarryLengthAndCheck := by
  refine ⟨fun station summary status body _ => responseFrames_data station summary status body,
    fun f => ⟨rfl, rfl, rfl, f.wire_ones_eq ▸ f.wire_ones, f.wire_command⟩, fun w => ⟨rfl, w.ofBits_bits⟩, ?_⟩
  refine ⟨by decide, by decide, rfl, rfl, rfl, rfl, rfl, rfl, rfl, rfl, rfl, rfl, rfl, rfl, rfl, rfl, rfl, rfl, rfl, rfl,
    rfl, fun _ => rfl, rfl, rfl, fun p low high => ⟨positionBytes_eq p low high, rfl⟩, rfl⟩

end Sys2Proof.Machine
end

