-- ==== Sys2Proof/Proofs/StationStops.lean ====
section
/-! PROOF. ALL STOP and RESET STATION: what each makes of one transport, and of the four in turn. -/

namespace Sys2Proof.Machine

open Sys2Proof

/-! ### The four transports in turn -/

/-- The state with its four transports replaced. -/
def State.withTr (y : TNum → Transport) (s : State) : State :=
  { s with x := { t0 := y .t0, t1 := y .t1, t2 := y .t2, t3 := y .t3 } }

@[simp] theorem State.tr_withTr (y : TNum → Transport) (s : State) (u : TNum) : (s.withTr y).tr u = y u := by
  cases u <;> rfl

/-- At clock `now`, the operation `f` makes `y` of transport `u` standing at `x`, whatever the rest of the state is, and
changes nothing else. -/
def Makes (now : Nat) (u : TNum) (f : State → State) (x y : Transport) : Prop :=
  ∀ q : State, q.tr u = x → q.clock = now → f q = q.upd u fun _ => y

theorem Makes.of_upd {now : Nat} {u : TNum} {f : State → State} {x : Transport} {F : Nat → Transport → Transport}
    (h : ∀ q : State, q.tr u = x → f q = q.upd u (F q.clock)) : Makes now u f x (F now x) := by
  rintro q rfl rfl
  rw [h q rfl]
  exact State.upd_congr rfl

theorem Makes.same {now : Nat} {u : TNum} {f : State → State} {x : Transport} (h : ∀ q : State, q.tr u = x → f q = q) :
    Makes now u f x x :=
  Makes.of_upd (F := fun _ => id) fun q e => (h q e).trans (State.upd_id u id q rfl).symm

/-- One operation on every transport in turn, where it is known what it makes of each. -/
theorem State.forEach_makes {s : State} {f : TNum → State → State} {y : TNum → Transport}
    (h : ∀ u, Makes s.clock u (f u) (s.tr u) (y u)) : s.forEach f = s.withTr y := by
  unfold State.forEach
  rw [h .t0 s rfl rfl, h .t1 (s.upd .t0 _) rfl rfl, h .t2 ((s.upd .t0 _).upd .t1 _) rfl rfl,
    h .t3 (((s.upd .t0 _).upd .t1 _).upd .t2 _) rfl rfl]
  rfl

/-- One operation on every transport in turn that reaches transport `t` alone. -/
theorem State.forEach_only {s : State} {f : TNum → State → State} {t : TNum} (before : ∀ u, u ≠ t → f u s = s)
    (after : ∀ u, u ≠ t → f u (f t s) = f t s) : s.forEach f = f t s := by
  unfold State.forEach
  cases t with
  | t0 => rw [after .t1 nofun, after .t2 nofun, after .t3 nofun]
  | t1 => rw [before .t0 nofun, after .t2 nofun, after .t3 nofun]
  | t2 => rw [before .t0 nofun, before .t1 nofun, after .t3 nofun]
  | t3 => rw [before .t0 nofun, before .t1 nofun, before .t2 nofun]

/-! ### ALL STOP (R104, R126, R168) -/

/-- A transport without a running order and without a panel motion. -/
def Transport.Quiet (x : Transport) : Prop := x.running = none ∧ x.sequencer.panelMotion = false

theorem State.allStopOne_quiet {u : TNum} {s : State} (quiet : (s.tr u).Quiet) : s.allStopOne u = s := by
  unfold State.allStopOne
  rw [quiet.1, quiet.2, if_neg nofun, if_neg nofun]

theorem State.allStopOne_running {u : TNum} {s : State} (run : (s.tr u).running.isSome = true) :
    s.allStopOne u = s.haltOrders u := if_pos run

theorem State.allStopOne_panel {u : TNum} {s : State} (idle : (s.tr u).running = none)
    (panel : (s.tr u).sequencer.panelMotion = true) : s.allStopOne u = s.endRewind u := by
  unfold State.allStopOne
  rw [idle, if_neg nofun, if_pos panel]

theorem State.stopAll_quiet {s : State} (quiet : ∀ u, (s.tr u).Quiet) : s.stopAll = s :=
  State.forEach_only (t := .t0) (fun u _ => State.allStopOne_quiet (quiet u))
    (fun u _ => by rw [State.allStopOne_quiet (quiet .t0), State.allStopOne_quiet (quiet u)]) |>.trans
    (State.allStopOne_quiet (quiet .t0))

/-- On one transport with a running order, and the others quiet, ALL STOP does what HALT does. -/
theorem State.stopAll_running {t : TNum} {s : State} (run : (s.tr t).running.isSome = true)
    (quiet : ∀ u, u ≠ t → (s.tr u).Quiet) : s.stopAll = s.haltOrders t := by
  have others := (State.Kept.refl t s).allStopOne.others
  refine (State.forEach_only (fun u other => State.allStopOne_quiet (quiet u other)) fun u other => ?_).trans
    (State.allStopOne_running run)
  exact State.allStopOne_quiet (by rw [others u other]; exact quiet u other)

theorem Transport.stopReport_quiet {x : Transport} (quiet : x.Quiet) : x.stopReport = 0 := by
  unfold Transport.stopReport Transport.panelRewinding
  rw [quiet.1, quiet.2]
  rfl

theorem Transport.stopReport_running {x : Transport} (run : x.running.isSome = true) (reached : x.releasing = false) :
    x.stopReport = byte (128 + x.pendingCount) := by
  have panel : x.panelRewinding = false := by
    unfold Transport.panelRewinding
    rw [Option.isNone_eq_false_iff.mpr run, Bool.and_false, Bool.and_false]
  unfold Transport.stopReport
  rw [run, reached, panel]
  rfl

theorem exec_allStop_addressed {s : State} (line : s.lineReady) :
    exec (.allStop .addressed) s = .next (s.stopAll.sending .done (TNum.all.map fun u => (s.tr u).stopReport)) :=
  exec_ready .allStop s _ _ line rfl (congrArg Line.receiver s.stopAll_line)

/-- A broadcast request has no response (R163). -/
theorem State.respond_broadcast (p : Reply) (s : State) : s.respond .broadcast p = s := by
  unfold State.respond
  exact if_neg fun h => nomatch h.1

theorem exec_allStop_broadcast {s : State} (line : s.lineReady) : exec (.allStop .broadcast) s = .next s.stopAll := by
  obtain ⟨_, empty, idle⟩ := line
  refine congrArg Host.Outcome.next ((State.submit_executes empty (by rw [idle]; rfl) (.inr rfl)).trans ?_)
  exact State.respond_broadcast _ s.stopAll

/-- Settles O18: a quiet transport is left alone, and on the one that runs an order ALL STOP is a HALT. -/
theorem allStopHaltsWhatRuns : Obligations.AllStopHaltsWhatRuns := by
  intro s line
  refine ⟨fun quiet => ?_, fun t run reached quiet => ⟨s.haltOrders t, exec_halt_done line reached, ?_, ?_⟩⟩
  · rw [exec_allStop_addressed line, exec_allStop_broadcast line, State.stopAll_quiet quiet]
    refine ⟨?_, rfl⟩
    simp only [fun u => Transport.stopReport_quiet (quiet u)]
    rfl
  · rw [exec_allStop_addressed line, State.stopAll_running run quiet]
    refine congrArg (fun body => Host.Outcome.next (State.sending .done body (s.haltOrders t)))
      (List.map_congr_left fun u _ => ?_)
    by_cases same : u = t
    · subst same
      rw [if_pos rfl, Transport.stopReport_running run reached]
    · rw [if_neg same, Transport.stopReport_quiet (quiet u same)]
  · rw [exec_allStop_broadcast line, State.stopAll_running run quiet]

end Sys2Proof.Machine
end

