-- ==== Sys2Proof/Proofs/StationReset.lean ====
section
/-! PROOF. RESET STATION: the ALL STOP and the reset of the orders on one transport, by what that transport is doing, and the
whole. -/

namespace Sys2Proof.Machine

open Sys2Proof

section
variable {now : Nat} {u : TNum} {x : Transport} {o : Order} {w : Work}

/-! ### The ALL STOP on one transport (R101, R118, R126) -/

theorem makes_allStop_quiet (quiet : x.Quiet) : Makes now u (State.allStopOne u) x x :=
  Makes.same fun q e => State.allStopOne_quiet (by rw [e]; exact quiet)

theorem Makes.of_halt {y : Transport} (run : x.running = some (o, w)) (h : Makes now u (State.haltOrders u) x y) :
    Makes now u (State.allStopOne u) x y := fun q e clock =>
  (State.allStopOne_running (by rw [e, run]; rfl)).trans (h q e clock)

section
variable (run : x.running = some (o, w)) (reached : x.releasing = false)
include run reached

theorem makes_allStop_goesOn (phase : w.phase ∈ [OrderPhase.stopping, .approach, .haltSearch]) :
    Makes now u (State.allStopOne u) x x.discard.halted := by
  refine Makes.of_halt run (Makes.of_upd (F := fun _ y => y.discard.halted) fun q e => ?_)
  subst e
  rw [State.haltOrders_goesOn run reached phase, State.upd_upd]

theorem makes_allStop_space (phase : w.phase ∈ [OrderPhase.fast, .readLeg, .search]) (space : o.kind.isSpace = true) :
    Makes now u (State.allStopOne u) x
      (x.discard.modWork fun _ k => { k with phase := .haltSearch, halted := true, haltTravel := 0 }) := by
  refine Makes.of_halt run (Makes.of_upd (F := fun _ y => y.discard.modWork fun _ k =>
    { k with phase := .haltSearch, halted := true, haltTravel := 0 }) fun q e => ?_)
  subst e
  rw [State.haltOrders_space run reached phase space, State.upd_upd]

theorem makes_allStop_stops (phase : w.phase ∈ [OrderPhase.fast, .readLeg, .search]) (space : o.kind.isSpace = false)
    (driven : x.cap.seg.driven = true) :
    Makes now u (State.allStopOne u) x (x.discard.halted.stopped now .halted none) := by
  refine Makes.of_halt run (Makes.of_upd (F := fun now y => y.discard.halted.stopped now .halted none) fun q e => ?_)
  subst e
  rw [State.haltOrders_stops run reached phase space driven, State.upd_upd]

theorem makes_allStop_sequence (phase : w.phase = .sequence) (driven : x.cap.seg.driven = true) :
    Makes now u (State.allStopOne u) x
      (if x.sequencer.state.rewindPhase?.isSome = true then x.discard.halted.endsRewind now else x.discard.halted) := by
  refine Makes.of_halt run (Makes.of_upd (F := fun now y =>
    if x.sequencer.state.rewindPhase?.isSome = true then y.discard.halted.endsRewind now else y.discard.halted)
    fun q e => ?_)
  subst e
  rw [State.haltOrders_sequence run reached phase driven, State.upd_upd]

end

theorem makes_allStop_panel (idle : x.running = none) (panel : x.sequencer.panelMotion = true)
    (driven : x.cap.seg.driven = true) :
    Makes now u (State.allStopOne u) x
      (if x.sequencer.state.rewindPhase?.isSome = true then x.endsRewind now else x) := by
  refine Makes.of_upd (F := fun now y =>
    if x.sequencer.state.rewindPhase?.isSome = true then y.endsRewind now else y) fun q e => ?_
  subst e
  rw [State.allStopOne_panel idle panel]
  by_cases rewinds : (q.tr u).sequencer.state.rewindPhase?.isSome = true
  · simp only [if_pos rewinds]
    exact State.endRewind_driven rewinds driven
  · simp only [if_neg rewinds]
    exact (State.endRewind_none (by simpa using rewinds)).trans (State.upd_id u id q rfl).symm

/-! ### The reset of its orders (R106) -/

theorem Transport.dropOrders_running (x : Transport) : x.dropOrders.running = x.running := runningIn_filter _

theorem Transport.dropOrders_releasing (x : Transport) : x.dropOrders.releasing = x.releasing := by
  unfold Transport.releasing
  rw [Transport.dropOrders_running]
  rfl

theorem Transport.dropOrders_isRunning (x : Transport) : ∀ sl ∈ x.dropOrders.orders.list, sl.isRunning = true :=
  fun _ h => (List.mem_filter.mp h).2

theorem Transport.dropOrders_idle (idle : x.running = none) :
    x.dropOrders = { x with orders := { x.orders with list := [] } } :=
  congrArg (fun l => { x with orders := { x.orders with list := l } }) (filter_running_none idle)

theorem makes_resetOrders_idle (idle : x.running = none) : Makes now u (State.resetOrders u) x x.dropOrders := by
  refine Makes.of_upd (F := fun _ => Transport.dropOrders) fun q e => ?_
  subst e
  unfold State.resetOrders State.resetRunning
  rw [State.tr_upd_same, Transport.dropOrders_running, idle]

/-- A rewind that is being ended is not ended again (R118). -/
theorem State.endRewind_ending {q : State} (ending : (q.tr u).sequencer.ending = true) : q.endRewind u = q := by
  have marked : (q.upd u fun x => x.modSeq fun k => { k with ending := true }) = q := by
    refine State.upd_id u _ q ?_
    unfold Transport.modSeq
    rw [← ending]
  unfold State.endRewind
  dsimp only
  rw [marked, ending, Bool.or_true, if_pos rfl]
  split <;> rfl

section
variable (run : x.running = some (o, w)) (reached : x.releasing = false)
include run reached

/-- What the reset of an order that it reaches does, by the phase of the order. -/
theorem State.resetOrders_reached {q : State} (e : q.tr u = x) : q.resetOrders u =
    match w.phase with
    | .sequence => ((q.upd u Transport.dropOrders).markHalted u).endRewind u
    | .approach => (q.upd u Transport.dropOrders).markHalted u
    | .stopping => (q.upd u Transport.dropOrders).markHalted u
    | _ => ((q.upd u Transport.dropOrders).markHalted u).stopOrder u .halted none := by
  unfold State.resetOrders State.resetRunning
  rw [State.tr_upd_same, e, Transport.dropOrders_running, run]
  dsimp only
  refine (if_neg (by rw [Transport.dropOrders_releasing, reached]; nofun)).trans ?_
  cases w.phase <;> rfl

/-- An order that is stopping, in its approach, or whose sequence is ended or no rewind, is marked alone. -/
theorem makes_resetOrders_marks (going : w.phase = .stopping ∨ w.phase = .approach ∨
      w.phase = .sequence ∧ (x.sequencer.ending = true ∨ x.sequencer.state.rewindPhase? = none)) :
    Makes now u (State.resetOrders u) x x.dropOrders.halted := by
  refine Makes.of_upd (F := fun _ y => y.dropOrders.halted) fun q e => ?_
  have marked : (q.upd u Transport.dropOrders).markHalted u = q.upd u fun y => y.dropOrders.halted := State.upd_upd ..
  have tr : (q.upd u fun y => y.dropOrders.halted).tr u = x.dropOrders.halted := by rw [State.tr_upd_same, e]
  rw [State.resetOrders_reached run reached e, marked]
  obtain phase | phase | ⟨phase, ending | other⟩ := going <;> rw [phase]
  · exact State.endRewind_ending (by rw [tr]; exact ending)
  · exact State.endRewind_none (by rw [tr]; exact other)

/-- An order with no stop under way stops at once, in a halt search too (log entry 38). -/
theorem makes_resetOrders_stops (phase : w.phase = .haltSearch) (driven : x.cap.seg.driven = true) :
    Makes now u (State.resetOrders u) x (x.dropOrders.halted.stopped now .halted none) := by
  refine Makes.of_upd (F := fun now y => y.dropOrders.halted.stopped now .halted none) fun q e => ?_
  rw [State.resetOrders_reached run reached e, phase]
  dsimp only
  rw [State.stopOrder_driven _ _ (by rw [State.markHalted, State.tr_upd_same, State.tr_upd_same, e]; exact driven),
    State.markHalted, State.upd_upd, State.upd_upd]
  rfl

end

/-! ### A station reset on one transport -/

/-- The ALL STOP and the reset of the orders, one after the other, make `z` of the transport standing at `x`. -/
def StationMakes (now : Nat) (u : TNum) (x z : Transport) : Prop :=
  ∃ y, Makes now u (State.allStopOne u) x y ∧ Makes now u (State.resetOrders u) y z

/-- What a station reset leaves of the running order of transport `x`: a STOP begun, or the stop, the approach or the ended
rewind that is under way (R95, R101, R106, R118). -/
def Transport.orderReset (o : Order) (w : Work) (x z : Transport) : Prop :=
  (w.phase ∈ [OrderPhase.fast, .readLeg, .search, .haltSearch] → x.cap.seg.stopsFor .orders z.cap.seg ∧
    ∃ v, z.running = some (o, v) ∧ { v with haltTravel := w.haltTravel } = { w with
      phase := .stopping, reason := some .halted, barrier := none, halted := true }) ∧
  (w.phase = .stopping ∨ w.phase = .approach → z.cap = x.cap ∧ z.running = some (o, { w with halted := true })) ∧
  (w.phase = .sequence → x.sequencer.state.rewindPhase?.isSome = true →
    x.rewindEnded z ∧ z.running = some (o, { w with halted := true }))

/-- What a station reset leaves of transport `x` with a driven capstan, its notices aside: its running order alone, or the
rewind of its panel, ended (R106, R118, R126). -/
def Transport.stationReset (x z : Transport) : Prop :=
  (∀ sl ∈ z.orders.list, sl.isRunning = true) ∧
  (∀ (o : Order) (w : Work), x.running = some (o, w) → x.orderReset o w z) ∧
  (x.running = none → x.sequencer.panelMotion = true →
    x.sequencer.state.rewindPhase?.isSome = true → x.rewindEnded z)

theorem stationMakes_quiet (quiet : x.Quiet) : StationMakes now u x { x with orders := { x.orders with list := [] } } :=
  ⟨x, makes_allStop_quiet quiet, Transport.dropOrders_idle quiet.1 ▸ makes_resetOrders_idle quiet.1⟩

/-- The running order with its working values changed, the records and the pending orders being dropped. -/
theorem Transport.dropOrders_modWork_running (run : x.running = some (o, w)) (g : Order → Work → Work) :
    (x.dropOrders.modWork g).running = some (o, g o w) := by
  rw [Transport.modWork_running, Transport.dropOrders_running, run]
  rfl

theorem Transport.dropOrders_modWork_isRunning (x : Transport) (g : Order → Work → Work) :
    ∀ sl ∈ (x.dropOrders.modWork g).orders.list, sl.isRunning = true :=
  replaceRunning_isRunning g x.dropOrders_isRunning

/-- The order reset last is stopped, or marked alone, in a list of running slots. -/
theorem Transport.dropped_stopped_isRunning (x : Transport) :
    ∀ sl ∈ (x.dropOrders.halted.stopped now .halted none).orders.list, sl.isRunning = true := by
  rw [Transport.stopped_orders, Transport.halted, Transport.modWork_modWork]
  exact x.dropOrders_modWork_isRunning _

section
variable (run : x.running = some (o, w)) (state : x.sequencer.state ≠ .unloading .release)
  (driven : x.cap.seg.driven = true)
include run state driven

theorem stationMakes_stops (phase : w.phase ∈ [OrderPhase.fast, .readLeg, .search, .haltSearch]) :
    ∃ z, StationMakes now u x z ∧ (∀ sl ∈ z.orders.list, sl.isRunning = true) ∧ x.cap.seg.stopsFor .orders z.cap.seg ∧
      ∃ v, z.running = some (o, v) ∧ { v with haltTravel := w.haltTravel } = { w with
        phase := .stopping, reason := some .halted, barrier := none, halted := true } := by
  have reached := Transport.not_releasing_of_state state
  by_cases searching : w.phase = .haltSearch
  · have marked := Transport.discard_modWork_running run fun _ w => { w with halted := true }
    refine ⟨x.discard.halted.dropOrders.halted.stopped now .halted none,
      ⟨_, makes_allStop_goesOn run reached (by simp [searching]),
        makes_resetOrders_stops marked (Transport.not_releasing_of_state state) searching driven⟩,
      Transport.dropped_stopped_isRunning _, Segment.stopsFor_rampDown _ _ _, _,
      Transport.stopped_running (Transport.dropOrders_modWork_running marked _), rfl⟩
  have under : w.phase ∈ [OrderPhase.fast, .readLeg, .search] := by simpa [searching] using phase
  cases space : o.kind.isSpace with
  | true =>
    have marked := Transport.discard_modWork_running run fun _ k =>
      { k with phase := .haltSearch, halted := true, haltTravel := 0 }
    refine ⟨Transport.stopped now .halted none (Transport.halted (Transport.dropOrders _)),
      ⟨_, makes_allStop_space run reached under space,
        makes_resetOrders_stops marked (Transport.not_releasing_of_state state) rfl driven⟩,
      Transport.dropped_stopped_isRunning _, Segment.stopsFor_rampDown _ _ _, _,
      Transport.stopped_running (Transport.dropOrders_modWork_running marked _), rfl⟩
  | false =>
    have stopped := Transport.stopped_running (now := now) (c := .halted) (b := none)
      (Transport.discard_modWork_running run fun _ w => { w with halted := true })
    exact ⟨(x.discard.halted.stopped now .halted none).dropOrders.halted,
      ⟨_, makes_allStop_stops run reached under space driven,
        makes_resetOrders_marks stopped (Transport.not_releasing_of_state state) (.inl rfl)⟩,
      Transport.dropOrders_modWork_isRunning _ _, Segment.stopsFor_rampDown _ _ _, _,
      Transport.dropOrders_modWork_running stopped _, rfl⟩

omit driven in
theorem stationMakes_leavesStop (phase : w.phase = .stopping ∨ w.phase = .approach) :
    ∃ z, StationMakes now u x z ∧ (∀ sl ∈ z.orders.list, sl.isRunning = true) ∧ z.cap = x.cap ∧
      z.running = some (o, { w with halted := true }) := by
  have reached := Transport.not_releasing_of_state state
  have marked := Transport.discard_modWork_running run fun _ w => { w with halted := true }
  have going : w.phase ∈ [OrderPhase.stopping, .approach, .haltSearch] := by
    obtain e | e := phase <;> simp [e]
  exact ⟨x.discard.halted.dropOrders.halted,
    ⟨_, makes_allStop_goesOn run reached going,
      makes_resetOrders_marks marked (Transport.not_releasing_of_state state) (phase.imp id .inl)⟩,
    Transport.dropOrders_modWork_isRunning _ _, rfl, Transport.dropOrders_modWork_running marked _⟩

theorem stationMakes_sequence (phase : w.phase = .sequence) :
    ∃ z, StationMakes now u x z ∧ (∀ sl ∈ z.orders.list, sl.isRunning = true) ∧
      (x.sequencer.state.rewindPhase?.isSome = true → x.rewindEnded z ∧
        z.running = some (o, { w with halted := true })) := by
  have reached := Transport.not_releasing_of_state state
  have marked := Transport.discard_modWork_running run fun _ w => { w with halted := true }
  have stop := makes_allStop_sequence (now := now) (u := u) run reached phase driven
  by_cases rewinds : x.sequencer.state.rewindPhase?.isSome = true
  · rw [if_pos rewinds] at stop
    have ended := x.discard.halted.endsRewind_rewindEnded now
    have running : (x.discard.halted.endsRewind now).running = some (o, { w with halted := true }) := by
      unfold Transport.running
      rw [Transport.endsRewind_orders]
      exact marked
    have sequencer : (x.discard.halted.endsRewind now).sequencer = { x.sequencer with ending := true } := ended.1
    refine ⟨(x.discard.halted.endsRewind now).dropOrders.halted,
      ⟨_, stop, makes_resetOrders_marks running (Transport.not_releasing_of_state (by rw [sequencer]; exact state))
        (.inr (.inr ⟨phase, .inl (by rw [sequencer])⟩))⟩,
      Transport.dropOrders_modWork_isRunning _ _, fun _ => ⟨ended, Transport.dropOrders_modWork_running running _⟩⟩
  · rw [if_neg rewinds] at stop
    have other : x.sequencer.state.rewindPhase? = none := by simpa using rewinds
    exact ⟨x.discard.halted.dropOrders.halted,
      ⟨_, stop, makes_resetOrders_marks marked (Transport.not_releasing_of_state state)
        (.inr (.inr ⟨phase, .inr other⟩))⟩,
      Transport.dropOrders_modWork_isRunning _ _, fun h => absurd h rewinds⟩

/-- A running order, by its phase. -/
theorem stationMakes_running : ∃ z, StationMakes now u x z ∧ x.stationReset z := by
  have whole : ∀ z, (∀ sl ∈ z.orders.list, sl.isRunning = true) → x.orderReset o w z → x.stationReset z :=
    fun z slots order => ⟨slots, fun _ _ run' => by cases run.symm.trans run'; exact order,
      fun idle => nomatch run.symm.trans idle⟩
  by_cases stops : w.phase ∈ [OrderPhase.fast, .readLeg, .search, .haltSearch]
  · obtain ⟨z, resets, slots, stopped⟩ := stationMakes_stops (now := now) (u := u) run state driven stops
    refine ⟨z, resets, whole z slots ⟨fun _ => stopped, fun e => ?_, fun e => ?_⟩⟩
    · obtain e | e := e <;> simp [e] at stops
    · simp [e] at stops
  by_cases under : w.phase = .stopping ∨ w.phase = .approach
  · obtain ⟨z, resets, slots, left⟩ := stationMakes_leavesStop (now := now) (u := u) run state under
    refine ⟨z, resets, whole z slots ⟨fun e => absurd e stops, fun _ => left, fun e => ?_⟩⟩
    simp [e] at under
  have phase : w.phase = .sequence := by
    cases e : w.phase <;> simp [e] at stops under ⊢
  obtain ⟨z, resets, slots, ended⟩ := stationMakes_sequence (now := now) (u := u) run state driven phase
  exact ⟨z, resets, whole z slots ⟨fun e => absurd e stops, fun e => absurd e under, fun _ => ended⟩⟩

end

/-- A transport without a running order: nothing is left in its list, and a rewind of its panel is ended. -/
theorem stationMakes_idle (idle : x.running = none) (driven : x.cap.seg.driven = true) :
    ∃ z, StationMakes now u x z ∧ x.stationReset z := by
  have whole : ∀ z : Transport, (x.sequencer.panelMotion = true → x.sequencer.state.rewindPhase?.isSome = true →
      x.rewindEnded z) → x.stationReset z.dropOrders :=
    fun z ended => ⟨z.dropOrders_isRunning, fun o w run => (nomatch idle.symm.trans run), fun _ => ended⟩
  cases panel : x.sequencer.panelMotion with
  | false => exact ⟨_, ⟨x, makes_allStop_quiet ⟨idle, panel⟩, makes_resetOrders_idle idle⟩,
      whole x fun moves => nomatch panel.symm.trans moves⟩
  | true =>
    have stop := makes_allStop_panel (now := now) (u := u) idle panel driven
    by_cases rewinds : x.sequencer.state.rewindPhase?.isSome = true
    · rw [if_pos rewinds] at stop
      have still : (x.endsRewind now).running = none := by
        unfold Transport.running
        rw [Transport.endsRewind_orders]
        exact idle
      exact ⟨_, ⟨_, stop, makes_resetOrders_idle still⟩, whole _ fun _ _ => x.endsRewind_rewindEnded now⟩
    · rw [if_neg rewinds] at stop
      exact ⟨_, ⟨_, stop, makes_resetOrders_idle idle⟩, whole x fun _ h => absurd h rewinds⟩

theorem stationMakes_driven (state : x.sequencer.state ≠ .unloading .release) (driven : x.cap.seg.driven = true) :
    ∃ z, StationMakes now u x z ∧ x.stationReset z := by
  cases run : x.running with
  | none => exact stationMakes_idle run driven
  | some p => exact stationMakes_running (o := p.1) (w := p.2) run state driven

end

/-! ### The whole station (R167, R175) -/

section
variable {k : SelKind} {s : State}

/-- A transport after a station reset: its event flags clear, its masks enabled. -/
def Transport.noticesReset (x : Transport) : Transport := { x.clearEvents with masks := XMasks.all }

/-- A station reset, where it is known what it makes of each transport. -/
theorem State.resetStation_eq {z : TNum → Transport} (resets : ∀ u, StationMakes s.clock u (s.tr u) (z u)) :
    s.resetStation = { s.withTr (fun u => (z u).noticesReset) with
      ctl := { evict := false, line := false }, ctlMasks := { evict := true, line := true }
      eviction := { serial := none, count := 0 }
      line := { s.line with receiver := .unselected, buffer := none, flags := LineFlags.clear } } := by
  choose y stop reset using resets
  have stopped : s.stopAll = s.withTr y := State.forEach_makes stop
  have dropped : (s.withTr y).forEach State.resetOrders = s.withTr z :=
    State.forEach_makes fun u => by rw [State.tr_withTr]; exact reset u
  unfold State.resetStation
  rw [stopped, dropped]
  rfl

/-- A station reset answers nothing, since it deselects the receiver (R164, R167). -/
theorem exec_resetStation (empty : s.line.buffer = none) (idle : s.line.transmitter = .idle) :
    exec (.resetStation k) s = .next s.resetStation := by
  refine congrArg Host.Outcome.next ((State.submit_executes empty (by rw [idle]; rfl) (.inr rfl)).trans ?_)
  exact if_neg fun h => nomatch h.2

end

/-- Settles O17: on each transport the ALL STOP and then the reset of its orders, and after them the notices and the line. -/
theorem resetStationOnQuietTransports : Obligations.ResetStationOnQuietTransports := by
  intro k s empty idle quiet clear reset
  have done : ∀ z : TNum → Transport, (∀ u, StationMakes s.clock u (s.tr u) (z u)) → ∃ r : State,
      exec (.resetStation k) s = .next r ∧ reset r ∧ ∀ u, r.tr u = (z u).noticesReset := by
    intro z resets
    refine ⟨_, (exec_resetStation empty idle).trans (congrArg Host.Outcome.next (State.resetStation_eq resets)), ?_,
      fun u => State.tr_withTr (fun u => (z u).noticesReset) s u⟩
    show _ = _
    rw [← empty]
    rfl
  refine ⟨fun all => done _ fun u => stationMakes_quiet (all u), fun t others driven state => ?_⟩
  obtain ⟨z, resets, left⟩ := stationMakes_driven (now := s.clock) (u := t) state driven
  obtain ⟨r, x, line, each⟩ := done
    (fun u => if u = t then z else { s.tr u with orders := { (s.tr u).orders with list := [] } }) fun u => by
      by_cases same : u = t
      · subst same
        rw [if_pos rfl]
        exact resets
      · rw [if_neg same]
        exact stationMakes_quiet (others u same)
  have own : r.tr t = z.noticesReset := by rw [each, if_pos rfl]
  refine ⟨r, x, line, fun u other => by rw [each, if_neg other]; rfl, ?_⟩
  rw [own]
  exact ⟨rfl, rfl, left⟩

end Sys2Proof.Machine
end

