-- ==== Sys2Proof/Proofs/Notices.lean ====
section
/-! PROOF. The requests of the Notice Unit, and the attention line and summary by the masked flags. -/

namespace Sys2Proof.Machine

open Sys2Proof

/-! ### Bytes of bits (R176) -/

/-- The number that some bits spell, bit 0 first, has those bits. -/
theorem testBit_ofBits (l : List Bool) (i : Nat) :
    (l.foldr (fun (b : Bool) (n : Nat) => 2 * n + (if b then 1 else 0)) 0).testBit i = l.getD i false := by
  induction l generalizing i with
  | nil => exact Nat.zero_testBit i
  | cons b l ih =>
    have bit : ∀ n : Nat, 2 * n + (if b then 1 else 0) = Nat.bit b n := fun n => by cases b <;> rfl
    rw [List.foldr_cons, bit]
    cases i with
    | zero => exact Nat.testBit_bit_zero b _
    | succ i => exact (Nat.testBit_bit_succ i b _).trans (ih i)

theorem byteOfBits_getLsbD (l : List Bool) {i : Nat} (h : i < 8) : (byteOfBits l).getLsbD i = l.getD i false := by
  rw [byteOfBits, BitVec.getLsbD_ofNat, testBit_ofBits, decide_eq_true h, Bool.true_and]

/-! ### The flags that show through their masks (R171) -/

section
variable {s : State} {t : TNum}

theorem Transport.doneFlag_iff {x : Transport} :
    x.doneFlag = true ↔ ∃ r rest, x.orders.list = .record r :: rest := by
  unfold Transport.doneFlag
  split
  case h_1 r rest front => exact ⟨fun _ => ⟨r, rest, front⟩, fun _ => rfl⟩
  case h_2 other => exact ⟨nofun, fun ⟨r, rest, front⟩ => absurd front (other r rest)⟩

theorem State.passedFlag_iff : s.passedFlag t = true ↔ ∃ m ∈ s.boundMarks t, m.passed = true := List.any_eq_true

theorem State.attends_iff : s.attends t = true ↔
    (s.tr t).doneFlag = true ∧ (s.tr t).masks.done = true ∨
      (s.tr t).flags.slots = true ∧ (s.tr t).masks.slots = true ∨
      s.passedFlag t = true ∧ (s.tr t).masks.passed = true ∨
      (s.tr t).flags.hold = true ∧ (s.tr t).masks.hold = true ∨
      (s.tr t).flags.state = true ∧ (s.tr t).masks.state = true := by
  simp only [State.attends, Bool.or_eq_true, Bool.and_eq_true, or_assoc]

theorem State.controllerAttends_iff : s.controllerAttends = true ↔
    s.ctl.evict = true ∧ s.ctlMasks.evict = true ∨ s.ctl.line = true ∧ s.ctlMasks.line = true := by
  simp only [State.controllerAttends, Bool.or_eq_true, Bool.and_eq_true]

theorem TNum.exists_iff {p : TNum → Prop} : (∃ t, p t) ↔ p .t0 ∨ p .t1 ∨ p .t2 ∨ p .t3 := by
  constructor
  · rintro ⟨t, h⟩
    cases t with
    | t0 => exact .inl h
    | t1 => exact .inr (.inl h)
    | t2 => exact .inr (.inr (.inl h))
    | t3 => exact .inr (.inr (.inr h))
  · rintro (h | h | h | h) <;> exact ⟨_, h⟩

theorem State.attention_iff : s.attention = true ↔ (∃ t, s.attends t = true) ∨ s.controllerAttends = true := by
  simp only [State.attention, Bool.or_eq_true, TNum.exists_iff, or_assoc]

/-- The bit of the summary that stands for a transport. -/
theorem State.summary_transport (s : State) (t : TNum) : s.summary.getLsbD t.toNat = s.attends t := by
  cases t <;> exact byteOfBits_getLsbD _ (by decide)

/-- The bit of the summary that stands for the controller. -/
theorem State.summary_controller (s : State) : s.summary.getLsbD 4 = s.controllerAttends :=
  byteOfBits_getLsbD _ (by decide)

/-! ### Acknowledging, setting and reading the notices (R170, R172 to R174) -/

/-- The transports changed one after the other, each by a function of its own, are the four changed at once. -/
theorem State.forEach_upd (f : TNum → Transport → Transport) (s : State) :
    (s.forEach fun t k => k.upd t (f t)) = s.withTr fun t => f t (s.tr t) :=
  State.forEach_makes fun t => Makes.of_upd (F := fun _ => f t) fun _ _ => rfl

/-- The state with the named event flags clear (R173). -/
def State.acked (sel : NoticeSel) (s : State) : State :=
  { s.withTr fun t => { s.tr t with flags := (s.tr t).flags.ack (sel.x.get t) } with
    ctl := { evict := s.ctl.evict && !sel.controller.getLsbD 0, line := s.ctl.line && !sel.controller.getLsbD 1 } }

theorem ackNotices_eq (sel : NoticeSel) (s : State) : ackNotices sel s = answer [] (s.acked sel) := by
  unfold ackNotices State.acked
  rw [State.forEach_upd fun t x => { x with flags := x.flags.ack (sel.x.get t) }]

theorem State.acked_tr (sel : NoticeSel) (s : State) (t : TNum) :
    (s.acked sel).tr t = { s.tr t with flags := (s.tr t).flags.ack (sel.x.get t) } :=
  State.tr_withTr (fun t => { s.tr t with flags := (s.tr t).flags.ack (sel.x.get t) }) s t

theorem exec_ackNotices (sel : NoticeSel) (line : s.lineReady) :
    exec (.ackNotices sel) s = .next ((s.acked sel).sending .done []) :=
  exec_ready (.ackNotices sel) s _ _ line (ackNotices_eq sel s) rfl

/-- The state with all masks as a selection names them (R170). -/
def State.masked (sel : NoticeSel) (s : State) : State :=
  { s.withTr fun t => { s.tr t with masks := masksOf (sel.x.get t) } with
    ctlMasks := { evict := sel.controller.getLsbD 0, line := sel.controller.getLsbD 1 } }

theorem setNoticeMasks_eq (sel : NoticeSel) (s : State) : setNoticeMasks sel s = answer [] (s.masked sel) := by
  unfold setNoticeMasks State.masked
  rw [State.forEach_upd fun t x => { x with masks := masksOf (sel.x.get t) }]

theorem State.masked_tr (sel : NoticeSel) (s : State) (t : TNum) :
    (s.masked sel).tr t = { s.tr t with masks := masksOf (sel.x.get t) } :=
  State.tr_withTr (fun t => { s.tr t with masks := masksOf (sel.x.get t) }) s t

theorem exec_setNoticeMasks (sel : NoticeSel) (line : s.lineReady) :
    exec (.setNoticeMasks sel) s = .next ((s.masked sel).sending .done []) :=
  exec_ready (.setNoticeMasks sel) s _ _ line (setNoticeMasks_eq sel s) rfl

/-- The serial of the eviction record in six bytes, zeros while none has been evicted (R174, R176). -/
theorem serialBytes?_eq (v : Option Serial) : serialBytes? v = match v with
    | some v => [v.c0, v.c1, v.c2, v.c3, v.c4, v.c5]
    | none => [0, 0, 0, 0, 0, 0] := by
  cases v <;> rfl

theorem exec_readEviction (line : s.lineReady) :
    exec .readEviction s = .next (State.sending .done (serialBytes? s.eviction.serial ++ [byte s.eviction.count])
      { s with eviction := { s.eviction with count := 0 }, ctl := { s.ctl with evict := false } }) :=
  exec_ready .readEviction s _ _ line rfl rfl

end

/-- Settles O15: the event flags follow the selection, and the conditions of DONE and PASSED are not among what changes. -/
theorem ackNoticesClearsTheNamedEvents : Obligations.AckNoticesClearsTheNamedEvents := by
  intro sel s line
  have each := State.acked_tr sel s
  exact ⟨s.acked sel, exec_ackNotices sel line, rfl, each, fun t => ⟨by rw [each]; rfl, rfl⟩, rfl⟩

/-- Settles O16: the attention line joins what the bits of the summary show one by one. -/
theorem attentionFollowsTheMaskedFlags : Obligations.AttentionFollowsTheMaskedFlags := by
  intro s shown own
  have transport : ∀ t, s.attends t = true ↔ shown t := fun t => by
    rw [State.attends_iff, Transport.doneFlag_iff, State.passedFlag_iff]
  have controller : s.controllerAttends = true ↔ own := State.controllerAttends_iff
  refine ⟨State.attention_iff.trans (or_congr (exists_congr transport) controller), fun t => ?_, ?_⟩
  · rw [State.summary_transport, transport]
  · rw [State.summary_controller, controller]

/-- Settles O13: both requests are executed at once on a line that can answer. -/
theorem masksAreSetAndEvictionsRead : Obligations.MasksAreSetAndEvictionsRead := by
  intro sel s line
  refine ⟨⟨s.masked sel, exec_setNoticeMasks sel line, rfl, State.masked_tr sel s, rfl⟩, ?_⟩
  have read := exec_readEviction line
  rw [serialBytes?_eq] at read
  exact read

/-- Settles O14: the answer lists the flags as the state has them, and the handler leaves the state alone. -/
theorem readNoticesReturnsFlagsAndMasks : Obligations.ReadNoticesReturnsFlagsAndMasks := by
  intro s line done passed flags masks
  exact exec_ready .readNotices s s _ line rfl rfl

end Sys2Proof.Machine
end

section
/-! The step of the machine: it takes the queue's front command, and lets 1 µs pass when no command waits (log entries 1
and 2). -/

namespace Sys2Proof.Machine

open Sys2Proof

/-- Settles O1: the two branches of a step, a command waiting and none. -/
theorem stepTakesTheFrontCommand : Obligations.StepTakesTheFrontCommand := by
  unfold Obligations.StepTakesTheFrontCommand
  constructor
  · exact step_front
  · exact step_empty

end Sys2Proof.Machine
end
